-- ==== Sys2Proof/Word.lean ====
section
/-! DEFINITION. The word types of the block: bytes on the wire and 16-bit message ids (00_scope.md R10, R11). -/

namespace Sys2Proof

/-- A byte, bit 7 the most significant (00_scope.md R10). -/
abbrev Byte := BitVec 8

/-- A message id (10_state.md R26). -/
abbrev Mid := BitVec 16

end Sys2Proof
end

