-- ==== Sys2Proof/Syntax.lean ====
section
/-! DEFINITION. The instructions: one constructor per row of spec/opcode_table.json, with the operands
the spec gives each row (30_encoding.md R111, R112). -/

namespace Sys2Proof

/-- The 2-bit message kind (10_state.md R22): all four patterns are legal. -/
inductive Kind where
  | con
  | non
  | ack
  | rst
deriving DecidableEq, Repr, Inhabited

/-- A peer's transport address: an opaque identity, only compared and copied (92_eei_decisions.md D28). Its representation is
the platform's (20_memory.md R77); that a natural number stands for it is the model's choice (DESIGN CHOICE, log 35). -/
structure PeerAddr where
  tag : Nat
deriving DecidableEq, Repr, Inhabited

/-- Where a datagram arrives: on the dispatcher's socket from a peer, on the port of exchange context `x`,
or handed by the caller to PARSE with destination slot `d` (30_encoding.md R111; log 4). -/
inductive Dest where
  | dispatcher (peer : PeerAddr)
  | exchange (x : Nat)
  | slot (d : Nat)
deriving DecidableEq, Repr

/-- The source operand of PARSE: bytes given in place (the notation of 30_encoding.md R113), one of the
caller's buffers, or a missing buffer (42_parse.md R196 order 0). -/
inductive Source where
  | bytes (v : List Byte)
  | buffer (b : Nat)
  | missing
deriving DecidableEq, Repr

/-- The target operand of SERIALIZE: one of the caller's buffers or a missing buffer (41_serialize.md R161). -/
inductive Target where
  | buffer (b : Nat)
  | missing
deriving DecidableEq, Repr

/-- What the collaborator returns (45_dispatcher.md R261). -/
inductive AppResult where
  | nothing
  | failure
  | response (code : Byte) (payload : Option (List Byte))
deriving DecidableEq, Repr, Inhabited

/-- One constructor per row of spec/opcode_table.json, in the table's order.
HDR rows carry the header fields their pattern leaves open, where the datagram arrives, and the bytes that
follow the header. OPT rows carry the open nibbles, the destination slot of the PARSE they are a round of, and
the bytes that follow. CODE rows carry the slot whose code byte they are. CMD rows carry the operands of
30_encoding.md R112; an `L` operand is the length of its byte string (40_message_ops.md R131; log 32). -/
inductive Instr where
  | hdrBadver0 (kind : Kind) (tkl : BitVec 4) (code : Byte) (mid : Mid) (dest : Dest) (rest : List Byte)
  | hdrBadver2 (kind : Kind) (tkl : BitVec 4) (code : Byte) (mid : Mid) (dest : Dest) (rest : List Byte)
  | hdrBadver3 (kind : Kind) (tkl : BitVec 4) (code : Byte) (mid : Mid) (dest : Dest) (rest : List Byte)
  | hdrTkl9 (kind : Kind) (code : Byte) (mid : Mid) (dest : Dest) (rest : List Byte)
  | hdrTkl10to11 (kind : Kind) (low : BitVec 1) (code : Byte) (mid : Mid) (dest : Dest) (rest : List Byte)
  | hdrTkl12to15 (kind : Kind) (low : BitVec 2) (code : Byte) (mid : Mid) (dest : Dest) (rest : List Byte)
  | conGet (tkl : BitVec 4) (mid : Mid) (dest : Dest) (rest : List Byte)
  | conPost (tkl : BitVec 4) (mid : Mid) (dest : Dest) (rest : List Byte)
  | conPut (tkl : BitVec 4) (mid : Mid) (dest : Dest) (rest : List Byte)
  | conDelete (tkl : BitVec 4) (mid : Mid) (dest : Dest) (rest : List Byte)
  | nonGet (tkl : BitVec 4) (mid : Mid) (dest : Dest) (rest : List Byte)
  | nonPost (tkl : BitVec 4) (mid : Mid) (dest : Dest) (rest : List Byte)
  | nonPut (tkl : BitVec 4) (mid : Mid) (dest : Dest) (rest : List Byte)
  | nonDelete (tkl : BitVec 4) (mid : Mid) (dest : Dest) (rest : List Byte)
  | ackAny (tkl : BitVec 4) (code : Byte) (mid : Mid) (dest : Dest) (rest : List Byte)
  | rstAny (tkl : BitVec 4) (code : Byte) (mid : Mid) (dest : Dest) (rest : List Byte)
  | conOther (tkl : BitVec 4) (code : Byte) (mid : Mid) (dest : Dest) (rest : List Byte)
  | nonOther (tkl : BitVec 4) (code : Byte) (mid : Mid) (dest : Dest) (rest : List Byte)
  | optMarker (d : Nat) (rest : List Byte)
  | optRsvdDelta (length : BitVec 4) (d : Nat) (rest : List Byte)
  | optRsvdLen (delta : BitVec 4) (d : Nat) (rest : List Byte)
  | optEntry (delta : BitVec 4) (length : BitVec 4) (d : Nat) (rest : List Byte)
  | codeEmpty (s : Nat)
  | codeGet (s : Nat)
  | codePost (s : Nat)
  | codePut (s : Nat)
  | codeDelete (s : Nat)
  | codeCreated (s : Nat)
  | codeDeleted (s : Nat)
  | codeChanged (s : Nat)
  | codeContent (s : Nat)
  | codeBadRequest (s : Nat)
  | codeNotFound (s : Nat)
  | codeInternalError (s : Nat)
  | codeOther (cls : BitVec 3) (detail : BitVec 5) (s : Nat)
  | init (s : Nat)
  | serialize (s : Nat) (target : Target) (cap : Nat)
  | parse (d : Nat) (source : Source) (n : Nat)
  | addOption (s : Nat) (number : BitVec 16) (value : List Byte)
  | free (s : Nat)
  | buildEmptyAck (d : Nat) (r : Nat)
  | buildRstFor (d : Nat) (r : Nat)
  | setKind (s : Nat) (v : Kind)
  | setCode (s : Nat) (v : Byte)
  | setMid (s : Nat) (v : Mid)
  | setToken (s : Nat) (value : List Byte)
  | setPayload (s : Nat) (value : List Byte)
  | clearPayload (s : Nat)
  | xsend (x : Nat) (s : Nat) (peer : PeerAddr)
  | xexpire (x : Nat)
  | xrecv (x : Nat) (datagram : List Byte)
  | rxAccept (peer : PeerAddr) (datagram : List Byte)
  | wParse (w : Nat)
  | wDecide (w : Nat)
  | wCall (w : Nat)
  | wReturn (w : Nat) (result : AppResult)
  | wReply (w : Nat)
  | wSend (w : Nat)
  | cmdUnassigned (op : BitVec 5)
deriving DecidableEq, Repr

end Sys2Proof
end

