-- ==== Sys2Proof/Config.lean ====
section
/-! DEFINITION. The constants the source fixes (00_scope.md R7) and the free values: what the spec calls
unspecified, each an opaque constant no proof can look into. -/

namespace Sys2Proof.Config

/-- Bytes of fixed header (R7). -/
def hdrLen : Nat := 4

/-- The only version that parses (R7). -/
def versionOk : BitVec 2 := 1

/-- The largest legal token length (R7). -/
def tklMax : Nat := 8

/-- The nibble PARSE rejects in an option header byte (R7). -/
def nibReserved : BitVec 4 := 15

/-- The byte that separates options from payload (R7). -/
def payloadMarker : Byte := 0xFF

/-- "the wait doubles" (R7). -/
def backoffFactor : Nat := 2

/-- The response code of a collaborator failure (45_dispatcher.md R263). -/
def internalError : Byte := 0xA0

/-- The version field of a slot whose header is unspecified, by draw (40_message_ops.md R136; log 11). -/
opaque freeVersion : Nat → BitVec 2

/-- The kind field of a slot whose header is unspecified, by draw (R136; log 11). -/
opaque freeKind : Nat → Kind

/-- The token length of a slot whose header is unspecified, by draw (R136; log 11). -/
opaque freeTkl : Nat → BitVec 4

/-- The code field of a slot whose header is unspecified, by draw (R136; log 11). -/
opaque freeCode : Nat → Byte

/-- The message id of a slot whose header is unspecified, by draw (R136; log 11). -/
opaque freeMid : Nat → Mid

/-- Token byte register `i` where the spec calls the token unspecified, by draw (42_parse.md R194; log 12). -/
opaque freeToken : Nat → Nat → Byte

/-- The byte at an offset of a buffer whose contents the spec calls unspecified, by draw (20_memory.md R68; log 13). -/
opaque freeByte : Nat → Nat → Byte

/-- The wait register after a doubling that leaves 32 bits, of which the spec says nothing (43_exchange.md R216; log 14). -/
opaque freeWait : BitVec 32 → BitVec 32

/-- The plan register of a worker context that RX_ACCEPT has just taken, by draw (10_state.md R46; log 33). -/
opaque freePlan : Nat → BitVec 2

/-- Which of the three results the application-result registers of such a context tell of, by draw (R46; log 33). -/
opaque freeAppResult : Nat → AppResult

/-- The application's code in such a context, by draw (R46; log 33). -/
opaque freeAppCode : Nat → Byte

/-- The application's payload in such a context, by draw (R46; log 33). -/
opaque freeAppPayload : Nat → Option (List Byte)

end Sys2Proof.Config
end

