-- ==== Sys2Proof/WellFormed.lean ====
section
/-! DEFINITION. When an instruction is one its opcode-table row can encode: the catch-all rows exclude what an
earlier priority takes (30_encoding.md R110, R111). -/

namespace Sys2Proof

/-- The token length is legal: the rows of priority 3 to 5 come after the `tkl` rows 9 to 15 (R111). -/
def tklLegal (tkl : BitVec 4) : Bool := decide (tkl.toNat ≤ Config.tklMax)

/-- A method code, 1 to 4 (30_encoding.md R96). -/
def methodCode (code : Byte) : Bool := decide (1 ≤ code.toNat ∧ code.toNat ≤ 4)

/-- The code bytes that have a row of their own in the CODE table (30_encoding.md R96, R98). -/
def namedCodes : List Byte := [0x00, 0x01, 0x02, 0x03, 0x04, 0x41, 0x42, 0x44, 0x45, 0x80, 0x84, 0xA0]

/-- The byte of a class and a detail (30_encoding.md R95). -/
def codeByte (cls : BitVec 3) (detail : BitVec 5) : Byte := cls ++ detail

/-- The instruction is one that its row's pattern and priority admit. -/
def wellFormed : Instr → Bool
  | .hdrBadver0 _ _ _ _ _ _ => true
  | .hdrBadver2 _ _ _ _ _ _ => true
  | .hdrBadver3 _ _ _ _ _ _ => true
  | .hdrTkl9 _ _ _ _ _ => true
  | .hdrTkl10to11 _ _ _ _ _ _ => true
  | .hdrTkl12to15 _ _ _ _ _ _ => true
  | .conGet tkl _ _ _ => tklLegal tkl
  | .conPost tkl _ _ _ => tklLegal tkl
  | .conPut tkl _ _ _ => tklLegal tkl
  | .conDelete tkl _ _ _ => tklLegal tkl
  | .nonGet tkl _ _ _ => tklLegal tkl
  | .nonPost tkl _ _ _ => tklLegal tkl
  | .nonPut tkl _ _ _ => tklLegal tkl
  | .nonDelete tkl _ _ _ => tklLegal tkl
  | .ackAny tkl _ _ _ _ => tklLegal tkl
  | .rstAny tkl _ _ _ _ => tklLegal tkl
  | .conOther tkl code _ _ _ => tklLegal tkl && !methodCode code
  | .nonOther tkl code _ _ _ => tklLegal tkl && !methodCode code
  | .optMarker _ _ => true
  | .optRsvdDelta length _ _ => length != Config.nibReserved
  | .optRsvdLen delta _ _ => delta != Config.nibReserved
  | .optEntry delta length _ _ => delta != Config.nibReserved && length != Config.nibReserved
  | .codeEmpty _ => true
  | .codeGet _ => true
  | .codePost _ => true
  | .codePut _ => true
  | .codeDelete _ => true
  | .codeCreated _ => true
  | .codeDeleted _ => true
  | .codeChanged _ => true
  | .codeContent _ => true
  | .codeBadRequest _ => true
  | .codeNotFound _ => true
  | .codeInternalError _ => true
  | .codeOther cls detail _ => !(namedCodes.contains (codeByte cls detail))
  | .init _ => true
  | .serialize _ _ _ => true
  | .parse _ _ _ => true
  | .addOption _ _ _ => true
  | .free _ => true
  | .buildEmptyAck _ _ => true
  | .buildRstFor _ _ => true
  | .setKind _ _ => true
  | .setCode _ _ => true
  | .setMid _ _ => true
  | .setToken _ _ => true
  | .setPayload _ _ => true
  | .clearPayload _ => true
  | .xsend _ _ _ => true
  | .xexpire _ => true
  | .xrecv _ _ => true
  | .rxAccept _ _ => true
  | .wParse _ => true
  | .wDecide _ => true
  | .wCall _ => true
  | .wReturn _ _ => true
  | .wReply _ => true
  | .wSend _ => true
  | .cmdUnassigned op => decide (0x17 ≤ op.toNat)

end Sys2Proof
end

