-- ==== Sys2Proof/Decode.lean ====
section
/-! DEFINITION. The port record, the decoder from a record to an instruction (total, rejecting by name), the encoder
after it, and the opcode table as data. The word of a record is the row's word as it crosses the wire or the port
(30_encoding.md R91, R95, R101, R112); the operands travel beside it in lanes (log 2). -/

namespace Sys2Proof

/-- The four formats of spec/opcode_table.json (30_encoding.md R110). -/
inductive Format where
  | hdr
  | opt
  | code
  | cmd
deriving DecidableEq, Repr

/-- One record of the command and event port: the format of its word, the word's bytes in wire order, four
numeric operand lanes and one byte-string lane (log 2). -/
structure Record where
  fmt   : Format
  word  : List Byte
  a     : Nat
  b     : Nat
  c     : Nat
  d     : Nat
  bytes : List Byte
deriving DecidableEq, Repr

/-- Why a record is no instruction. -/
inductive DecodeError where
  /-- The word has not the number of bytes of its format. -/
  | wordLength
  /-- A CMD byte wider than the 5 bits of `OP[4:0]` (R112). -/
  | codeTooWide
  /-- A selector lane names no form of the operand. -/
  | badSelector
  /-- A numeric lane is wider than the operand (2, 8 or 16 bits, R112). -/
  | operandTooWide
deriving DecidableEq, Repr

/-- The kind of a 2-bit field (10_state.md R22). -/
def Kind.ofBits (v : BitVec 2) : Kind :=
  if v = 0 then .con else if v = 1 then .non else if v = 2 then .ack else .rst

/-- The 2-bit field of a kind (10_state.md R22). -/
def Kind.bits : Kind → BitVec 2
  | .con => 0
  | .non => 1
  | .ack => 2
  | .rst => 3

/-- `be16`: a 16-bit value from two bytes, high byte first (20_memory.md R61). -/
def be16 (h l : Byte) : Mid := h ++ l

/-- The high byte of a message id, at offset 2 (20_memory.md R61). -/
def midHigh (mid : Mid) : Byte := mid.extractLsb' 8 8

/-- The low byte of a message id, at offset 3 (20_memory.md R61). -/
def midLow (mid : Mid) : Byte := mid.extractLsb' 0 8

/-- Header byte 0: version in bits 7:6, kind in 5:4, tkl in 3:0 (30_encoding.md R91). -/
def headByte (version : BitVec 2) (kind : Kind) (tkl : BitVec 4) : Byte := version ++ kind.bits ++ tkl

/-- Bits 7:6 of header byte 0. -/
def headVersion (b : Byte) : BitVec 2 := b.extractLsb' 6 2

/-- Bits 5:4 of header byte 0. -/
def headKind (b : Byte) : Kind := Kind.ofBits (b.extractLsb' 4 2)

/-- Bits 3:0 of header byte 0. -/
def headTkl (b : Byte) : BitVec 4 := b.extractLsb' 0 4

/-- The four header bytes (30_encoding.md R91). -/
def headerBytes (version : BitVec 2) (kind : Kind) (tkl : BitVec 4) (code : Byte) (mid : Mid) : List Byte :=
  [headByte version kind tkl, code, midHigh mid, midLow mid]

/-- Bits 7:4 of an option header byte (30_encoding.md R101). -/
def optDelta (b : Byte) : BitVec 4 := b.extractLsb' 4 4

/-- Bits 3:0 of an option header byte (30_encoding.md R101). -/
def optLength (b : Byte) : BitVec 4 := b.extractLsb' 0 4

/-- The option header byte `(delta<<4)|length` (30_encoding.md R101). -/
def optByte (delta length : BitVec 4) : Byte := delta ++ length

/-- A numeric lane that must fit a `w`-bit operand. -/
def lane (w n : Nat) (k : BitVec w → Instr) : Except DecodeError Instr :=
  if n < 2 ^ w then .ok (k (BitVec.ofNat w n)) else .error .operandTooWide

/-- The arrival operand of a HDR record: lane `a` selects, lane `b` names. -/
def decodeDest (sel n : Nat) : Except DecodeError Dest :=
  match sel with
  | 0 => .ok (.dispatcher ⟨n⟩)
  | 1 => .ok (.exchange n)
  | 2 => .ok (.slot n)
  | _ => .error .badSelector

/-- The HDR row of a header word, in ascending priority (30_encoding.md R111). -/
def decodeHdr (b0 code b2 b3 : Byte) (dest : Dest) (rest : List Byte) : Instr :=
  let version := headVersion b0
  let kind := headKind b0
  let tkl := headTkl b0
  let mid := be16 b2 b3
  if version = 0 then .hdrBadver0 kind tkl code mid dest rest
  else if version = 2 then .hdrBadver2 kind tkl code mid dest rest
  else if version = 3 then .hdrBadver3 kind tkl code mid dest rest
  else if tkl = 9 then .hdrTkl9 kind code mid dest rest
  else if tkl.extractLsb' 1 3 = 5 then .hdrTkl10to11 kind (tkl.extractLsb' 0 1) code mid dest rest
  else if tkl.extractLsb' 2 2 = 3 then .hdrTkl12to15 kind (tkl.extractLsb' 0 2) code mid dest rest
  else match kind with
    | .con =>
      if code = 1 then .conGet tkl mid dest rest
      else if code = 2 then .conPost tkl mid dest rest
      else if code = 3 then .conPut tkl mid dest rest
      else if code = 4 then .conDelete tkl mid dest rest
      else .conOther tkl code mid dest rest
    | .non =>
      if code = 1 then .nonGet tkl mid dest rest
      else if code = 2 then .nonPost tkl mid dest rest
      else if code = 3 then .nonPut tkl mid dest rest
      else if code = 4 then .nonDelete tkl mid dest rest
      else .nonOther tkl code mid dest rest
    | .ack => .ackAny tkl code mid dest rest
    | .rst => .rstAny tkl code mid dest rest

/-- The OPT row of an option-start byte, in ascending priority (30_encoding.md R102, R110). -/
def decodeOpt (b : Byte) (d : Nat) (rest : List Byte) : Instr :=
  if b = Config.payloadMarker then .optMarker d rest
  else if optDelta b = Config.nibReserved then .optRsvdDelta (optLength b) d rest
  else if optLength b = Config.nibReserved then .optRsvdLen (optDelta b) d rest
  else .optEntry (optDelta b) (optLength b) d rest

/-- The CODE row of a code byte (30_encoding.md R96 to R98). -/
def decodeCode (b : Byte) (s : Nat) : Instr :=
  if b = 0x00 then .codeEmpty s
  else if b = 0x01 then .codeGet s
  else if b = 0x02 then .codePost s
  else if b = 0x03 then .codePut s
  else if b = 0x04 then .codeDelete s
  else if b = 0x41 then .codeCreated s
  else if b = 0x42 then .codeDeleted s
  else if b = 0x44 then .codeChanged s
  else if b = 0x45 then .codeContent s
  else if b = 0x80 then .codeBadRequest s
  else if b = 0x84 then .codeNotFound s
  else if b = 0xA0 then .codeInternalError s
  else .codeOther (b.extractLsb' 5 3) (b.extractLsb' 0 5) s

/-- The target operand of SERIALIZE: lane `d` selects, lane `b` names the buffer. -/
def decodeTarget (sel b : Nat) : Except DecodeError Target :=
  match sel with
  | 0 => .ok (.buffer b)
  | 1 => .ok .missing
  | _ => .error .badSelector

/-- The source operand of PARSE: lane `d` selects, lane `b` names the buffer, the byte lane is the bytes. -/
def decodeSource (sel b : Nat) (bytes : List Byte) : Except DecodeError Source :=
  match sel with
  | 0 => .ok (.bytes bytes)
  | 1 => .ok (.buffer b)
  | 2 => .ok .missing
  | _ => .error .badSelector

/-- The collaborator result of W_RETURN (45_dispatcher.md R261): lane `b` selects, lane `c` is the code, the byte
lane the payload. -/
def decodeResult (sel c : Nat) (bytes : List Byte) : Except DecodeError AppResult :=
  match sel with
  | 0 => .ok .nothing
  | 1 => .ok .failure
  | 2 => if c < 256 then .ok (.response (BitVec.ofNat 8 c) none) else .error .operandTooWide
  | 3 => if c < 256 then .ok (.response (BitVec.ofNat 8 c) (some bytes)) else .error .operandTooWide
  | _ => .error .badSelector

/-- The CMD row of a transaction code, with its operands (30_encoding.md R112). -/
def decodeCmd (op : BitVec 5) (r : Record) : Except DecodeError Instr :=
  match op.toNat with
  | 0x00 => .ok (.init r.a)
  | 0x01 => (decodeTarget r.d r.b).map fun t => .serialize r.a t r.c
  | 0x02 => (decodeSource r.d r.b r.bytes).map fun v => .parse r.a v r.c
  | 0x03 => lane 16 r.b fun number => .addOption r.a number r.bytes
  | 0x04 => .ok (.free r.a)
  | 0x05 => .ok (.buildEmptyAck r.a r.b)
  | 0x06 => .ok (.buildRstFor r.a r.b)
  | 0x07 => lane 2 r.b fun v => .setKind r.a (Kind.ofBits v)
  | 0x08 => lane 8 r.b fun v => .setCode r.a v
  | 0x09 => lane 16 r.b fun v => .setMid r.a v
  | 0x0A => .ok (.setToken r.a r.bytes)
  | 0x0B => .ok (.setPayload r.a r.bytes)
  | 0x0C => .ok (.clearPayload r.a)
  | 0x0D => .ok (.xsend r.a r.b ⟨r.c⟩)
  | 0x0E => .ok (.xexpire r.a)
  | 0x0F => .ok (.xrecv r.a r.bytes)
  | 0x10 => .ok (.rxAccept ⟨r.a⟩ r.bytes)
  | 0x11 => .ok (.wParse r.a)
  | 0x12 => .ok (.wDecide r.a)
  | 0x13 => .ok (.wCall r.a)
  | 0x14 => (decodeResult r.b r.c r.bytes).map fun v => .wReturn r.a v
  | 0x15 => .ok (.wReply r.a)
  | 0x16 => .ok (.wSend r.a)
  | _ => .ok (.cmdUnassigned op)

/-- The decoder: total on every record, rejecting by name. -/
def decode (r : Record) : Except DecodeError Instr :=
  match r.fmt, r.word with
  | .hdr, [b0, b1, b2, b3] => (decodeDest r.a r.b).map fun dest => decodeHdr b0 b1 b2 b3 dest r.bytes
  | .opt, [b] => .ok (decodeOpt b r.a r.bytes)
  | .code, [b] => .ok (decodeCode b r.a)
  | .cmd, [b] => if b.toNat < 32 then decodeCmd (b.setWidth 5) r else .error .codeTooWide
  | _, _ => .error .wordLength

/-- A record with its unused lanes at zero. -/
def Record.of (fmt : Format) (word : List Byte) (a b c d : Nat) (bytes : List Byte) : Record :=
  { fmt := fmt, word := word, a := a, b := b, c := c, d := d, bytes := bytes }

/-- The selector lane of an arrival operand. -/
def Dest.sel : Dest → Nat
  | .dispatcher _ => 0
  | .exchange _ => 1
  | .slot _ => 2

/-- The name lane of an arrival operand. -/
def Dest.index : Dest → Nat
  | .dispatcher p => p.tag
  | .exchange x => x
  | .slot d => d

/-- A HDR record: the header bytes as the word, the arrival operand and the bytes after the header. -/
def encodeHdr (version : BitVec 2) (kind : Kind) (tkl : BitVec 4) (code : Byte) (mid : Mid) (dest : Dest)
    (rest : List Byte) : Record :=
  Record.of .hdr (headerBytes version kind tkl code mid) dest.sel dest.index 0 0 rest

/-- An OPT record. -/
def encodeOpt (b : Byte) (d : Nat) (rest : List Byte) : Record := Record.of .opt [b] d 0 0 0 rest

/-- A CODE record. -/
def encodeCode (b : Byte) (s : Nat) : Record := Record.of .code [b] s 0 0 0 []

/-- A CMD record. -/
def encodeCmd (op : BitVec 5) (a b c d : Nat) (bytes : List Byte) : Record :=
  Record.of .cmd [op.setWidth 8] a b c d bytes

/-- The encoder: the record of a well-formed instruction, from the same tables. -/
def encode : Instr → Record
  | .hdrBadver0 kind tkl code mid dest rest => encodeHdr 0 kind tkl code mid dest rest
  | .hdrBadver2 kind tkl code mid dest rest => encodeHdr 2 kind tkl code mid dest rest
  | .hdrBadver3 kind tkl code mid dest rest => encodeHdr 3 kind tkl code mid dest rest
  | .hdrTkl9 kind code mid dest rest => encodeHdr 1 kind 9 code mid dest rest
  | .hdrTkl10to11 kind low code mid dest rest => encodeHdr 1 kind ((5 : BitVec 3) ++ low) code mid dest rest
  | .hdrTkl12to15 kind low code mid dest rest => encodeHdr 1 kind ((3 : BitVec 2) ++ low) code mid dest rest
  | .conGet tkl mid dest rest => encodeHdr 1 .con tkl 1 mid dest rest
  | .conPost tkl mid dest rest => encodeHdr 1 .con tkl 2 mid dest rest
  | .conPut tkl mid dest rest => encodeHdr 1 .con tkl 3 mid dest rest
  | .conDelete tkl mid dest rest => encodeHdr 1 .con tkl 4 mid dest rest
  | .nonGet tkl mid dest rest => encodeHdr 1 .non tkl 1 mid dest rest
  | .nonPost tkl mid dest rest => encodeHdr 1 .non tkl 2 mid dest rest
  | .nonPut tkl mid dest rest => encodeHdr 1 .non tkl 3 mid dest rest
  | .nonDelete tkl mid dest rest => encodeHdr 1 .non tkl 4 mid dest rest
  | .ackAny tkl code mid dest rest => encodeHdr 1 .ack tkl code mid dest rest
  | .rstAny tkl code mid dest rest => encodeHdr 1 .rst tkl code mid dest rest
  | .conOther tkl code mid dest rest => encodeHdr 1 .con tkl code mid dest rest
  | .nonOther tkl code mid dest rest => encodeHdr 1 .non tkl code mid dest rest
  | .optMarker d rest => encodeOpt Config.payloadMarker d rest
  | .optRsvdDelta length d rest => encodeOpt (optByte Config.nibReserved length) d rest
  | .optRsvdLen delta d rest => encodeOpt (optByte delta Config.nibReserved) d rest
  | .optEntry delta length d rest => encodeOpt (optByte delta length) d rest
  | .codeEmpty s => encodeCode 0x00 s
  | .codeGet s => encodeCode 0x01 s
  | .codePost s => encodeCode 0x02 s
  | .codePut s => encodeCode 0x03 s
  | .codeDelete s => encodeCode 0x04 s
  | .codeCreated s => encodeCode 0x41 s
  | .codeDeleted s => encodeCode 0x42 s
  | .codeChanged s => encodeCode 0x44 s
  | .codeContent s => encodeCode 0x45 s
  | .codeBadRequest s => encodeCode 0x80 s
  | .codeNotFound s => encodeCode 0x84 s
  | .codeInternalError s => encodeCode 0xA0 s
  | .codeOther cls detail s => encodeCode (codeByte cls detail) s
  | .init s => encodeCmd 0x00 s 0 0 0 []
  | .serialize s (.buffer b) cap => encodeCmd 0x01 s b cap 0 []
  | .serialize s .missing cap => encodeCmd 0x01 s 0 cap 1 []
  | .parse d (.bytes v) n => encodeCmd 0x02 d 0 n 0 v
  | .parse d (.buffer b) n => encodeCmd 0x02 d b n 1 []
  | .parse d .missing n => encodeCmd 0x02 d 0 n 2 []
  | .addOption s number value => encodeCmd 0x03 s number.toNat 0 0 value
  | .free s => encodeCmd 0x04 s 0 0 0 []
  | .buildEmptyAck d r => encodeCmd 0x05 d r 0 0 []
  | .buildRstFor d r => encodeCmd 0x06 d r 0 0 []
  | .setKind s v => encodeCmd 0x07 s v.bits.toNat 0 0 []
  | .setCode s v => encodeCmd 0x08 s v.toNat 0 0 []
  | .setMid s v => encodeCmd 0x09 s v.toNat 0 0 []
  | .setToken s value => encodeCmd 0x0A s 0 0 0 value
  | .setPayload s value => encodeCmd 0x0B s 0 0 0 value
  | .clearPayload s => encodeCmd 0x0C s 0 0 0 []
  | .xsend x s peer => encodeCmd 0x0D x s peer.tag 0 []
  | .xexpire x => encodeCmd 0x0E x 0 0 0 []
  | .xrecv x datagram => encodeCmd 0x0F x 0 0 0 datagram
  | .rxAccept peer datagram => encodeCmd 0x10 peer.tag 0 0 0 datagram
  | .wParse w => encodeCmd 0x11 w 0 0 0 []
  | .wDecide w => encodeCmd 0x12 w 0 0 0 []
  | .wCall w => encodeCmd 0x13 w 0 0 0 []
  | .wReturn w .nothing => encodeCmd 0x14 w 0 0 0 []
  | .wReturn w .failure => encodeCmd 0x14 w 1 0 0 []
  | .wReturn w (.response code none) => encodeCmd 0x14 w 2 code.toNat 0 []
  | .wReturn w (.response code (some payload)) => encodeCmd 0x14 w 3 code.toNat 0 payload
  | .wReply w => encodeCmd 0x15 w 0 0 0 []
  | .wSend w => encodeCmd 0x16 w 0 0 0 []
  | .cmdUnassigned op => encodeCmd op 0 0 0 0 []

/-- A row of spec/opcode_table.json: its number in the table counted from 0, format, mask, match and priority. -/
structure Row where
  number   : Nat
  fmt      : Format
  mask     : Nat
  pattern  : Nat
  priority : Nat
deriving DecidableEq, Repr

/-- The HDR rows of spec/opcode_table.json, in ascending priority as the table lists them. -/
def hdrRows : List Row := [
  ⟨0, .hdr, 0xC0000000, 0x00000000, 1⟩, ⟨1, .hdr, 0xC0000000, 0x80000000, 1⟩, ⟨2, .hdr, 0xC0000000, 0xC0000000, 1⟩,
  ⟨3, .hdr, 0xCF000000, 0x49000000, 2⟩, ⟨4, .hdr, 0xCE000000, 0x4A000000, 2⟩, ⟨5, .hdr, 0xCC000000, 0x4C000000, 2⟩,
  ⟨6, .hdr, 0xF0FF0000, 0x40010000, 3⟩, ⟨7, .hdr, 0xF0FF0000, 0x40020000, 3⟩, ⟨8, .hdr, 0xF0FF0000, 0x40030000, 3⟩,
  ⟨9, .hdr, 0xF0FF0000, 0x40040000, 3⟩, ⟨10, .hdr, 0xF0FF0000, 0x50010000, 3⟩, ⟨11, .hdr, 0xF0FF0000, 0x50020000, 3⟩,
  ⟨12, .hdr, 0xF0FF0000, 0x50030000, 3⟩, ⟨13, .hdr, 0xF0FF0000, 0x50040000, 3⟩, ⟨14, .hdr, 0xF0000000, 0x60000000, 4⟩,
  ⟨15, .hdr, 0xF0000000, 0x70000000, 4⟩, ⟨16, .hdr, 0xF0000000, 0x40000000, 5⟩, ⟨17, .hdr, 0xF0000000, 0x50000000, 5⟩]

/-- The OPT rows. -/
def optRows : List Row := [
  ⟨18, .opt, 0xFF, 0xFF, 1⟩, ⟨19, .opt, 0xF0, 0xF0, 2⟩, ⟨20, .opt, 0x0F, 0x0F, 2⟩, ⟨21, .opt, 0x00, 0x00, 3⟩]

/-- The CODE rows. -/
def codeRows : List Row := [
  ⟨22, .code, 0xFF, 0x00, 1⟩, ⟨23, .code, 0xFF, 0x01, 1⟩, ⟨24, .code, 0xFF, 0x02, 1⟩, ⟨25, .code, 0xFF, 0x03, 1⟩,
  ⟨26, .code, 0xFF, 0x04, 1⟩, ⟨27, .code, 0xFF, 0x41, 1⟩, ⟨28, .code, 0xFF, 0x42, 1⟩, ⟨29, .code, 0xFF, 0x44, 1⟩,
  ⟨30, .code, 0xFF, 0x45, 1⟩, ⟨31, .code, 0xFF, 0x80, 1⟩, ⟨32, .code, 0xFF, 0x84, 1⟩, ⟨33, .code, 0xFF, 0xA0, 1⟩,
  ⟨34, .code, 0x00, 0x00, 2⟩]

/-- The CMD rows. -/
def cmdRows : List Row := [
  ⟨35, .cmd, 0x1F, 0x00, 1⟩, ⟨36, .cmd, 0x1F, 0x01, 1⟩, ⟨37, .cmd, 0x1F, 0x02, 1⟩, ⟨38, .cmd, 0x1F, 0x03, 1⟩,
  ⟨39, .cmd, 0x1F, 0x04, 1⟩, ⟨40, .cmd, 0x1F, 0x05, 1⟩, ⟨41, .cmd, 0x1F, 0x06, 1⟩, ⟨42, .cmd, 0x1F, 0x07, 1⟩,
  ⟨43, .cmd, 0x1F, 0x08, 1⟩, ⟨44, .cmd, 0x1F, 0x09, 1⟩, ⟨45, .cmd, 0x1F, 0x0A, 1⟩, ⟨46, .cmd, 0x1F, 0x0B, 1⟩,
  ⟨47, .cmd, 0x1F, 0x0C, 1⟩, ⟨48, .cmd, 0x1F, 0x0D, 1⟩, ⟨49, .cmd, 0x1F, 0x0E, 1⟩, ⟨50, .cmd, 0x1F, 0x0F, 1⟩,
  ⟨51, .cmd, 0x1F, 0x10, 1⟩, ⟨52, .cmd, 0x1F, 0x11, 1⟩, ⟨53, .cmd, 0x1F, 0x12, 1⟩, ⟨54, .cmd, 0x1F, 0x13, 1⟩,
  ⟨55, .cmd, 0x1F, 0x14, 1⟩, ⟨56, .cmd, 0x1F, 0x15, 1⟩, ⟨57, .cmd, 0x1F, 0x16, 1⟩, ⟨58, .cmd, 0x00, 0x00, 2⟩]

/-- The rows of one format. -/
def rowsOf : Format → List Row
  | .hdr => hdrRows
  | .opt => optRows
  | .code => codeRows
  | .cmd => cmdRows

/-- The bits of a word given as bytes, the first byte the most significant (20_memory.md R62). -/
def wordBits (bytes : List Byte) : Nat := bytes.foldl (fun n b => n * 256 + b.toNat) 0

/-- The first row, in ascending priority, whose `(word & mask) == match` holds (30_encoding.md R110). -/
def tableRow (fmt : Format) (word : Nat) : Option Nat :=
  ((rowsOf fmt).find? fun r => word &&& r.mask == r.pattern).map Row.number

/-- The number of an instruction's row in spec/opcode_table.json, counted from 0. -/
def rowOf : Instr → Nat
  | .hdrBadver0 _ _ _ _ _ _ => 0
  | .hdrBadver2 _ _ _ _ _ _ => 1
  | .hdrBadver3 _ _ _ _ _ _ => 2
  | .hdrTkl9 _ _ _ _ _ => 3
  | .hdrTkl10to11 _ _ _ _ _ _ => 4
  | .hdrTkl12to15 _ _ _ _ _ _ => 5
  | .conGet _ _ _ _ => 6
  | .conPost _ _ _ _ => 7
  | .conPut _ _ _ _ => 8
  | .conDelete _ _ _ _ => 9
  | .nonGet _ _ _ _ => 10
  | .nonPost _ _ _ _ => 11
  | .nonPut _ _ _ _ => 12
  | .nonDelete _ _ _ _ => 13
  | .ackAny _ _ _ _ _ => 14
  | .rstAny _ _ _ _ _ => 15
  | .conOther _ _ _ _ _ => 16
  | .nonOther _ _ _ _ _ => 17
  | .optMarker _ _ => 18
  | .optRsvdDelta _ _ _ => 19
  | .optRsvdLen _ _ _ => 20
  | .optEntry _ _ _ _ => 21
  | .codeEmpty _ => 22
  | .codeGet _ => 23
  | .codePost _ => 24
  | .codePut _ => 25
  | .codeDelete _ => 26
  | .codeCreated _ => 27
  | .codeDeleted _ => 28
  | .codeChanged _ => 29
  | .codeContent _ => 30
  | .codeBadRequest _ => 31
  | .codeNotFound _ => 32
  | .codeInternalError _ => 33
  | .codeOther _ _ _ => 34
  | .init _ => 35
  | .serialize _ _ _ => 36
  | .parse _ _ _ => 37
  | .addOption _ _ _ => 38
  | .free _ => 39
  | .buildEmptyAck _ _ => 40
  | .buildRstFor _ _ => 41
  | .setKind _ _ => 42
  | .setCode _ _ => 43
  | .setMid _ _ => 44
  | .setToken _ _ => 45
  | .setPayload _ _ => 46
  | .clearPayload _ => 47
  | .xsend _ _ _ => 48
  | .xexpire _ => 49
  | .xrecv _ _ => 50
  | .rxAccept _ _ => 51
  | .wParse _ => 52
  | .wDecide _ => 53
  | .wCall _ => 54
  | .wReturn _ _ => 55
  | .wReply _ => 56
  | .wSend _ => 57
  | .cmdUnassigned _ => 58

/-- The format a bare table word is read in: 32 bits is HDR. The OPT, CODE and CMD rows all have words of one byte
and share byte values, so a bare byte is read as a CMD code below 0x20, as a named CODE byte where it is one, and as
an option-start byte otherwise (log 3). -/
def tableFormat (nbits w : Nat) : Option Format :=
  if nbits = 32 then some .hdr
  else if nbits = 8 ∨ nbits = 5 then
    if w < 32 then some .cmd
    else if namedCodes.contains (BitVec.ofNat 8 w) then some .code
    else some .opt
  else none

/-- The bytes of a table word, the most significant first. -/
def tableBytes (fmt : Format) (w : Nat) : List Byte :=
  match fmt with
  | .hdr => [BitVec.ofNat 8 (w / 0x1000000), BitVec.ofNat 8 (w / 0x10000), BitVec.ofNat 8 (w / 0x100), BitVec.ofNat 8 w]
  | _ => [BitVec.ofNat 8 w]

/-- The record of a bare table word: every operand lane zero. -/
def tableRecord (nbits w : Nat) : Option Record :=
  (tableFormat nbits w).map fun fmt => Record.of fmt (tableBytes fmt w) 0 0 0 0 []

/-- The instruction the decoder reads from a bare table word of `nbits` bits. -/
def decodeTableWord (nbits w : Nat) : Option Instr :=
  match tableRecord nbits w with
  | some r => (decode r).toOption
  | none => none

end Sys2Proof
end

