-- ==== Sys2Proof/Machine/State.lean ====
section
/-! DEFINITION. The state of the block as plain data: every register, slot, buffer and history of 10_state.md, and the
reasons a step can stop. -/

namespace Sys2Proof.Machine

/-- `NIB_MAX`, one of 14 and 15 (00_scope.md R9). -/
inductive NibMax where
  | fourteen
  | fifteen
deriving DecidableEq, Repr

/-- The implementation parameters of 00_scope.md R9; `none` is unbounded. No step writes them (10_state.md R51; log 8). -/
structure Params where
  nibMax      : NibMax
  maxOptions  : Option Nat
  maxPayload  : Option Nat
  maxDatagram : Option Nat
  nMsg        : Option Nat
  nWorkers    : Option Nat
  nExch       : Nat
deriving DecidableEq, Repr

/-- The error kinds (60_exceptions.md R280), in the order of their numbers 0 to 7. -/
inductive Err where
  | ok
  | truncated
  | tokenTooLarge
  | optionsNotSupported
  | optionOversize
  | versionMismatch
  | invalid
  | transportError
deriving DecidableEq, Repr

/-- One agent's codec working registers (10_state.md R30 to R33); `result` is the value of the last `return v`
(00_scope.md R12; log 26). -/
structure Codec where
  pos      : Nat
  prev     : Nat
  err      : Err
  hdrValid : Bool
  result   : Option Nat
deriving DecidableEq, Repr

/-- One option entry (10_state.md R27); `length` is the length of `value`, and `number` is a natural (42_parse.md R193;
log 15). -/
structure Opt where
  number : Nat
  value  : List Byte
deriving DecidableEq, Repr

/-- One message slot (10_state.md R20 to R28). `payload = none` is `has_payload = 0`; `some p` is `has_payload = 1` with
`payload_len = p.length`. `token` holds the eight token byte registers. `hdrOpen` is the model's own: the header fields
hold free values (log 11). -/
structure Msg where
  hdrOpen : Bool
  version : BitVec 2
  kind    : Kind
  tkl     : BitVec 4
  code    : Byte
  mid     : Mid
  opts    : List Opt
  payload : Option (List Byte)
  token   : List Byte
deriving DecidableEq, Repr

/-- `opt_count` (R27). -/
def Msg.optCount (m : Msg) : Nat := m.opts.length

/-- `has_payload` (R28). -/
def Msg.hasPayload (m : Msg) : Bool := m.payload.isSome

/-- `payload_len` (R28). -/
def Msg.payloadLen (m : Msg) : Nat := (m.payload.getD []).length

/-- A slot at reset: the value INIT writes (10_state.md R52), token bytes zero (log 10). -/
def Msg.reset : Msg :=
  { hdrOpen := false, version := 1, kind := .con, tkl := 0, code := 0, mid := 0, opts := [], payload := none,
    token := [0, 0, 0, 0, 0, 0, 0, 0] }

/-- A byte buffer (10_state.md R36): its own address space of bytes, in canonical form, and its valid length. -/
structure Buf where
  len : Nat
  mem : List Host.Cell
deriving DecidableEq, Repr

/-- A buffer at reset: nothing valid, no byte listed. -/
def Buf.reset : Buf := { len := 0, mem := [] }

/-- The agents that run the codec on their own registers (00_scope.md R14, 10_state.md R30). -/
inductive Agent where
  | caller
  | worker (w : Nat)
  | exchange (x : Nat)
deriving DecidableEq, Repr

/-- The message slots by owner (10_state.md R35, log 7): the slots a command names, a worker's request and reply slots,
an exchange context's reply slot. -/
inductive SlotRef where
  | main (s : Nat)
  | req (w : Nat)
  | rsp (w : Nat)
  | reply (x : Nat)
deriving DecidableEq, Repr

/-- The byte buffers (10_state.md R36). -/
inductive BufRef where
  | caller (b : Nat)
  | rx (w : Nat)
  | tx (w : Nat)
  | xbuf (x : Nat)
  | xrx (x : Nat)
deriving DecidableEq, Repr

/-- The state of an initiator's exchange (10_state.md R37). -/
inductive XState where
  | awaitingSend
  | awaitingAck
  | acked
  | reset
  | timedOut
deriving DecidableEq, Repr

/-- An exchange context (10_state.md R37 to R43), with its buffers, reply slot and codec registers. -/
structure Exch where
  state    : XState
  mid      : Mid
  attempts : Nat
  wait     : BitVec 32
  armed    : Bool
  len      : Nat
  peer     : PeerAddr
  reply    : Option SlotRef
  xbuf     : Buf
  xrx      : Buf
  replyMsg : Msg
  codec    : Codec
deriving DecidableEq, Repr

/-- The codec registers at reset (10_state.md R52). -/
def Codec.reset : Codec := { pos := 0, prev := 0, err := .ok, hdrValid := false, result := none }

/-- An exchange context at reset (10_state.md R52). -/
def Exch.reset : Exch :=
  { state := .awaitingSend, mid := 0, attempts := 0, wait := 0, armed := false, len := 0, peer := ⟨0⟩, reply := none,
    xbuf := Buf.reset, xrx := Buf.reset, replyMsg := Msg.reset, codec := Codec.reset }

/-- The phases of a worker (10_state.md R46). -/
inductive Phase where
  | idle
  | parse
  | decide
  | call
  | reply
  | send
  | done
deriving DecidableEq, Repr

/-- The reply obligation (44_responder.md R230). -/
inductive Plan where
  | noReply
  | sendRst
  | sendEmptyAck
  | sendResponse
deriving DecidableEq, Repr

/-- Whether the collaborator call is outstanding (10_state.md R46). -/
inductive CallState where
  | noCall
  | pending
  | returned
deriving DecidableEq, Repr

/-- Which of the three results the collaborator returned (45_dispatcher.md R261). -/
inductive AppKind where
  | nothing
  | failure
  | response
deriving DecidableEq, Repr

/-- A worker context (10_state.md R46), with its buffers, its two slots and its codec registers. -/
structure Worker where
  phase      : Phase
  peer       : PeerAddr
  rx         : Buf
  plan       : Plan
  call       : CallState
  appKind    : AppKind
  appCode    : Byte
  appPayload : Option (List Byte)
  tx         : Buf
  reqMsg     : Msg
  rspMsg     : Msg
  codec      : Codec
deriving DecidableEq, Repr

/-- A worker context at reset: no worker exists (10_state.md R52). -/
def Worker.reset : Worker :=
  { phase := .idle, peer := ⟨0⟩, rx := Buf.reset, plan := .noReply, call := .noCall, appKind := .nothing, appCode := 0,
    appPayload := none, tx := Buf.reset, reqMsg := Msg.reset, rspMsg := Msg.reset, codec := Codec.reset }

/-- One datagram handed to the transport (10_state.md R48). -/
structure Datagram where
  peer  : PeerAddr
  bytes : List Byte
deriving DecidableEq, Repr

/-- What one W_CALL hands to the collaborator port (45_dispatcher.md R260): the peer and the view of the request. -/
structure CallView where
  worker  : Nat
  peer    : PeerAddr
  method  : Byte
  token   : List Byte
  opts    : List Opt
  payload : Option (List Byte)
deriving DecidableEq, Repr

/-- The state of the block. The tables are lists of (index, entry) pairs in canonical form: indices rise strictly, and
no entry equals what an unlisted index reads as, the entry's reset value. That a natural number stands for `LISTEN_PORT`, whose
representation is the platform's (10_state.md R49, 20_memory.md R77), is the model's choice (DESIGN CHOICE, log 36). -/
structure State where
  params          : Params
  w0              : BitVec 32
  maxAttempts     : Nat
  rstOnParseError : Bool
  listenPort      : Nat
  caller          : Codec
  msgs            : List (Nat × Msg)
  bufs            : List (Nat × Buf)
  exchanges       : List (Nat × Exch)
  workers         : List (Nat × Worker)
  out             : List Datagram
  calls           : List CallView
  port            : List Record
  sendAnswers     : List Bool
  draws           : Nat
deriving DecidableEq, Repr

/-- The default parameters of 00_scope.md R9 (log 8). -/
def Params.standard : Params :=
  { nibMax := .fourteen, maxOptions := none, maxPayload := none, maxDatagram := none, nMsg := none, nWorkers := none,
    nExch := 1 }

/-- The block right after reset (70_reset_and_hazards.md R320, 10_state.md R52). `W0`, `MAX_ATTEMPTS` and `LISTEN_PORT`
are unspecified there and zero here until boot writes them (log 9). -/
def State.reset : State :=
  { params := Params.standard, w0 := 0, maxAttempts := 0, rstOnParseError := false, listenPort := 0,
    caller := Codec.reset, msgs := [], bufs := [], exchanges := [], workers := [], out := [], calls := [], port := [],
    sendAnswers := [], draws := 0 }

/-- Why the machine stops. -/
inductive Fault where
  /-- Raised by XEXPIRE when `XS[x].len` lies past the valid length of `XBUF[x]`: MemRead is not defined there
  (20_memory.md R63). No run from reset reaches such a state. Safe: the model stops (log 27). -/
  | pastValidLength
deriving DecidableEq, Repr

/-- Why a step gives an instruction no meaning. -/
inductive Refusal where
  /-- Raised by an arm of `exec` whose instruction has no meaning yet. Safe: the model stops. -/
  | notModelled (mnemonic : String)
  /-- Raised by `step` on a port record that is no row's word or whose operand does not fit (log 2). Safe: the model
  stops. -/
  | badRecord (why : DecodeError)
deriving DecidableEq, Repr

end Sys2Proof.Machine
end

