-- ==== Sys2Proof/Machine/Ops.lean ====
section
/-! DEFINITION. The named operations over tables, memory, registers, slots and buffers; raising an error and returning a
value; transmitting a datagram; the boot writes. -/

namespace Sys2Proof.Machine

/-! Tables with a default entry, in canonical form. -/

/-- The entry at an index; an unlisted index reads as `d`. -/
def lookup {α : Type} (d : α) : List (Nat × α) → Nat → α
  | [], _ => d
  | (k, v) :: m, a => if a = k then v else lookup d m a

/-- A table without the entry of an index. -/
def dropEntry {α : Type} (a : Nat) : List (Nat × α) → List (Nat × α)
  | [] => []
  | (k, w) :: m => if k = a then dropEntry a m else (k, w) :: dropEntry a m

/-- Put an entry before the first higher index. -/
def insertEntry {α : Type} (a : Nat) (v : α) : List (Nat × α) → List (Nat × α)
  | [] => [(a, v)]
  | (k, w) :: m => if a < k then (a, v) :: (k, w) :: m else (k, w) :: insertEntry a v m

/-- Write the entry at an index, keeping the canonical form: writing `d` removes the entry. -/
def store {α : Type} [DecidableEq α] (d : α) (m : List (Nat × α)) (a : Nat) (v : α) : List (Nat × α) :=
  if v = d then dropEntry a m else insertEntry a v (dropEntry a m)

/-- Every index of the table is at least `lo` and they rise strictly, and no entry equals `d`. -/
def canonicalFrom {α : Type} [DecidableEq α] (d : α) : Nat → List (Nat × α) → Bool
  | _, [] => true
  | lo, (k, v) :: m => decide (lo ≤ k) && decide (v ≠ d) && canonicalFrom d (k + 1) m

/-- The canonical form of a table. -/
def canonical {α : Type} [DecidableEq α] (d : α) (m : List (Nat × α)) : Bool := canonicalFrom d 0 m

/-! Byte memory: what an unlisted offset reads as is zero (log 10). -/

/-- What a byte that nothing has written reads as (70_reset_and_hazards.md R322; log 10). -/
def Memory.unwritten : Byte := 0

/-- Read one byte. -/
def Memory.read (m : List Host.Cell) (a : Nat) : Byte := lookup Memory.unwritten m a

/-- Write one byte. -/
def Memory.write (m : List Host.Cell) (a : Nat) (v : Byte) : List Host.Cell := store Memory.unwritten m a v

/-- `n` bytes from offset `a` in offset order: MemRead (20_memory.md R63). -/
def Memory.readBytes (m : List Host.Cell) (a : Nat) : Nat → List Byte
  | 0 => []
  | n + 1 => Memory.read m a :: Memory.readBytes m (a + 1) n

/-- Store a byte string from offset `a`: MemWrite (20_memory.md R64). -/
def Memory.writeBytes (m : List Host.Cell) (a : Nat) : List Byte → List Host.Cell
  | [] => m
  | v :: vs => Memory.writeBytes (Memory.write m a v) (a + 1) vs

/-- The memory is in canonical form. -/
def Memory.wf (m : List Host.Cell) : Bool := canonical Memory.unwritten m

/-- The valid bytes of a buffer. -/
def Buf.bytes (b : Buf) : List Byte := Memory.readBytes b.mem 0 b.len

/-- Write a byte string from offset 0 and make its length the valid length. The bytes past it, which may be any value
(93_implementation_defined.md I8), keep what they held (DESIGN CHOICE, log 34). -/
def Buf.load (b : Buf) (bytes : List Byte) : Buf :=
  { len := bytes.length, mem := Memory.writeBytes b.mem 0 bytes }

/-- One past the highest offset a memory lists. -/
def Memory.extent : List Host.Cell → Nat
  | [] => 0
  | (k, _) :: m => max (k + 1) (Memory.extent m)

/-- `n` free bytes of one draw, from offset `a` (20_memory.md R68; log 13). -/
def freeBytes (draw : Nat) (a : Nat) : Nat → List Byte
  | 0 => []
  | n + 1 => Config.freeByte draw a :: freeBytes draw (a + 1) n

/-! Reading and writing the parts of the state. -/

/-- Exchange context `x`. -/
def State.exch (s : State) (x : Nat) : Exch := lookup Exch.reset s.exchanges x

/-- Write exchange context `x`. -/
def State.setExch (s : State) (x : Nat) (e : Exch) : State :=
  { s with exchanges := store Exch.reset s.exchanges x e }

/-- Worker context `w`. -/
def State.worker (s : State) (w : Nat) : Worker := lookup Worker.reset s.workers w

/-- Write worker context `w`. -/
def State.setWorker (s : State) (w : Nat) (k : Worker) : State :=
  { s with workers := store Worker.reset s.workers w k }

/-- The message in a slot. -/
def State.msg (s : State) : SlotRef → Msg
  | .main i => lookup Msg.reset s.msgs i
  | .req w => (s.worker w).reqMsg
  | .rsp w => (s.worker w).rspMsg
  | .reply x => (s.exch x).replyMsg

/-- Write the message in a slot. -/
def State.setMsg (s : State) (r : SlotRef) (m : Msg) : State :=
  match r with
  | .main i => { s with msgs := store Msg.reset s.msgs i m }
  | .req w => s.setWorker w { s.worker w with reqMsg := m }
  | .rsp w => s.setWorker w { s.worker w with rspMsg := m }
  | .reply x => s.setExch x { s.exch x with replyMsg := m }

/-- A byte buffer. -/
def State.buf (s : State) : BufRef → Buf
  | .caller b => lookup Buf.reset s.bufs b
  | .rx w => (s.worker w).rx
  | .tx w => (s.worker w).tx
  | .xbuf x => (s.exch x).xbuf
  | .xrx x => (s.exch x).xrx

/-- Write a byte buffer. -/
def State.setBuf (s : State) (r : BufRef) (b : Buf) : State :=
  match r with
  | .caller i => { s with bufs := store Buf.reset s.bufs i b }
  | .rx w => s.setWorker w { s.worker w with rx := b }
  | .tx w => s.setWorker w { s.worker w with tx := b }
  | .xbuf x => s.setExch x { s.exch x with xbuf := b }
  | .xrx x => s.setExch x { s.exch x with xrx := b }

/-- An agent's codec registers (10_state.md R30). -/
def State.codec (s : State) : Agent → Codec
  | .caller => s.caller
  | .worker w => (s.worker w).codec
  | .exchange x => (s.exch x).codec

/-- Write an agent's codec registers. -/
def State.setCodec (s : State) (a : Agent) (c : Codec) : State :=
  match a with
  | .caller => { s with caller := c }
  | .worker w => s.setWorker w { s.worker w with codec := c }
  | .exchange x => s.setExch x { s.exch x with codec := c }

/-- One byte of a buffer. -/
def State.readByte (s : State) (r : BufRef) (a : Nat) : Byte := Memory.read (s.buf r).mem a

/-- Use up one draw of free values. -/
def State.draw (s : State) : State := { s with draws := s.draws + 1 }

/-! Errors are values: the end of an operation. -/

/-- The end of an operation (60_exceptions.md R290): `ERR` takes the error kind, the result register the returned value.
This is the pseudocode's `raise` and `return` (00_scope.md R12); control stays with the agent. -/
def State.endOp (s : State) (a : Agent) (e : Err) (v : Option Nat) : State :=
  s.setCodec a { s.codec a with err := e, result := v }

/-- `raise E`: the operation ends with an error and no value. -/
def State.raise (s : State) (a : Agent) (e : Err) : State := s.endOp a e none

/-- `return OK`: the operation ends with success and no value. -/
def State.done (s : State) (a : Agent) : State := s.endOp a .ok none

/-! The transport. -/

/-- The transport's answer to the next send; with no answer listed it takes the datagram (log 17). -/
def State.sendAnswer (s : State) : Bool := s.sendAnswers.headD true

/-- `transmit` (45_dispatcher.md R266): hand one datagram to the transport. The history records every transmit, taken or
refused (10_state.md R48); the transport's answer is `sendAnswer`, which this uses up (log 17). -/
def State.transmit (s : State) (peer : PeerAddr) (bytes : List Byte) : State :=
  { s with sendAnswers := s.sendAnswers.tail, out := s.out ++ [{ peer := peer, bytes := bytes }] }

/-! Boot. -/

/-- The constraints of 00_scope.md R9 on the implementation parameters; that on NIB_MAX is its type's. The bound of
MAX_PAYLOAD is a recommendation there and is no part of it. -/
def Params.legal (P : Params) : Bool :=
  P.maxOptions.all (fun n => decide (1 ≤ n) && decide (n ≤ 4681)) && P.maxDatagram.all (fun n => decide (4 ≤ n)) &&
    P.nMsg.all (fun n => decide (1 ≤ n)) && P.nWorkers.all (fun n => decide (1 ≤ n)) && decide (1 ≤ P.nExch)

/-- The boot constraints on `W0` and `MAX_ATTEMPTS` (00_scope.md R8, 70_reset_and_hazards.md R323). -/
def bootLegal (w0 : BitVec 32) (maxAttempts : Nat) : Bool :=
  decide (1 ≤ w0.toNat) && decide (1 ≤ maxAttempts) && decide (w0.toNat * 2 ^ (maxAttempts - 1) < 2 ^ 32)

/-- The host's boot writes (70_reset_and_hazards.md R323): no transaction code writes these registers (log 9). The port is any
natural number (log 36). -/
def State.boot (s : State) (w0 : BitVec 32) (maxAttempts : Nat) (rstOnParseError : Bool) (listenPort : Nat) : State :=
  { s with w0 := w0, maxAttempts := maxAttempts, rstOnParseError := rstOnParseError, listenPort := listenPort }

end Sys2Proof.Machine
end

