-- ==== Sys2Proof/Machine/Operands.lean ====
section
/-! DEFINITION. Operand forms: index checks, capacities, the source and target of the codec, datagrams cut to the receive
buffer. -/

namespace Sys2Proof.Machine

/-- Index `i` lies below a bound; every index lies below no bound. -/
def below (bound : Option Nat) (i : Nat) : Bool :=
  match bound with
  | none => true
  | some n => decide (i < n)

/-- A length goes over a capacity; none goes over no capacity. -/
def exceeds (capacity : Option Nat) (n : Nat) : Bool :=
  match capacity with
  | none => false
  | some k => decide (k < n)

/-- A store of a capacity is full at `n` entries (40_message_ops.md R133). -/
def fullAt (capacity : Option Nat) (n : Nat) : Bool :=
  match capacity with
  | none => false
  | some k => decide (n = k)

/-- `NIB_MAX` as a number (00_scope.md R9). -/
def NibMax.value : NibMax → Nat
  | .fourteen => 14
  | .fifteen => 15

/-- `s` is a slot index (40_message_ops.md R130; log 7). -/
def State.slotOk (σ : State) (s : Nat) : Bool := below σ.params.nMsg s

/-- `x` is an exchange index (00_scope.md R9). -/
def State.exchOk (σ : State) (x : Nat) : Bool := decide (x < σ.params.nExch)

/-- `w` is a worker index (00_scope.md R9). -/
def State.workerOk (σ : State) (w : Nat) : Bool := below σ.params.nWorkers w

/-- A datagram as the receive buffer holds it: cut to `MAX_DATAGRAM` (45_dispatcher.md R252; log 31). -/
def State.cut (σ : State) (datagram : List Byte) : List Byte :=
  match σ.params.maxDatagram with
  | none => datagram
  | some n => datagram.take n

/-- The bytes at the source operand of PARSE. -/
def State.sourceBytes (σ : State) : Source → Option (List Byte)
  | .bytes v => some v
  | .buffer b => some (σ.buf (.caller b)).bytes
  | .missing => none

/-- The first `n` bytes of a source, when it has as many (20_memory.md R63; log 22). -/
def State.sourcePrefix (σ : State) (source : Source) (n : Nat) : Option (List Byte) :=
  match σ.sourceBytes source with
  | none => none
  | some v => if n ≤ v.length then some (v.take n) else none

/-- Write bytes into the token registers from `token[0]`; the registers past them keep what they hold (10_state.md R24;
log 16). -/
def overlayToken (value token : List Byte) : List Byte := value ++ token.drop value.length

/-- The token bytes that are meaningful: `token[0 .. tkl-1]` (10_state.md R24). -/
def Msg.tokenBytes (m : Msg) : List Byte := m.token.take m.tkl.toNat

/-- The collaborator's result as the worker records it: which of the three (45_dispatcher.md R261). -/
def appKindOf : AppResult → AppKind
  | .nothing => .nothing
  | .failure => .failure
  | .response _ _ => .response

end Sys2Proof.Machine
end

