-- ==== Sys2Proof/Machine/Flags.lean ====
section
/-! DEFINITION. Condition bits and the numbers of enumerations: ERR codes, exchange states, method test, sortedness. -/

namespace Sys2Proof.Machine

/-- The number of an error kind in the 3-bit `ERR` register (60_exceptions.md R280). -/
def Err.number : Err → BitVec 3
  | .ok => 0
  | .truncated => 1
  | .tokenTooLarge => 2
  | .optionsNotSupported => 3
  | .optionOversize => 4
  | .versionMismatch => 5
  | .invalid => 6
  | .transportError => 7

/-- The 3-bit encoding of an exchange state (10_state.md R37). -/
def XState.number : XState → BitVec 3
  | .awaitingSend => 0
  | .awaitingAck => 1
  | .acked => 2
  | .reset => 3
  | .timedOut => 4

/-- The states no event leaves (43_exchange.md R212). -/
def XState.terminal : XState → Bool
  | .awaitingSend => false
  | .awaitingAck => false
  | .acked => true
  | .reset => true
  | .timedOut => true

/-- A method code, 1 to 4 (44_responder.md R232). -/
def isMethod (code : Byte) : Bool := decide (1 ≤ code.toNat) && decide (code.toNat ≤ 4)

/-- Option numbers do not fall, from `lo` on (10_state.md R29 item 2). -/
def sortedFrom : Nat → List Opt → Bool
  | _, [] => true
  | lo, o :: os => decide (lo ≤ o.number) && sortedFrom o.number os

/-- The options are sorted by number, equal neighbours allowed (10_state.md R29 item 2, 90_conflicts.md C5). -/
def sortedOpts (os : List Opt) : Bool := sortedFrom 0 os

/-- Two messages are equal for the round-trip law: field by field, token bytes up to `tkl` (10_state.md R24,
42_parse.md R198). -/
def Msg.same (m n : Msg) : Bool :=
  decide (m.version = n.version) && decide (m.kind = n.kind) && decide (m.tkl = n.tkl) &&
    decide (m.tokenBytes = n.tokenBytes) && decide (m.code = n.code) && decide (m.mid = n.mid) &&
    decide (m.opts = n.opts) && decide (m.payload = n.payload)

/-- `needs_call` of W_DECIDE (45_dispatcher.md R256). -/
def needsCall (e : Err) (m : Msg) : Bool :=
  decide (e = .ok) && (decide (m.kind = .con) || decide (m.kind = .non)) && isMethod m.code

end Sys2Proof.Machine
end

