-- ==== Sys2Proof/Machine/Codec.lean ====
section
/-! DEFINITION. The codec as pure functions on a message and a byte string (SERIALIZE 41_serialize.md, PARSE
42_parse.md), and its two operations on an agent's registers, slots and buffers. -/

namespace Sys2Proof.Machine

/-! SERIALIZE. -/

/-- The bytes the options take: one header byte each, and the value (30_encoding.md R115). -/
def optsSize : List Opt → Nat
  | [] => 0
  | o :: os => 1 + o.value.length + optsSize os

/-- The bytes the payload part takes (30_encoding.md R115). -/
def payloadSize : Option (List Byte) → Nat
  | none => 0
  | some p => 1 + p.length

/-- `required(m)` (30_encoding.md R115). -/
def required (m : Msg) : Nat := Config.hdrLen + m.tkl.toNat + optsSize m.opts + payloadSize m.payload

/-- What the option loop of SERIALIZE has written, where `prev` stands, and whether it ended without an error. -/
structure OptsOut where
  bytes : List Byte
  prev  : Nat
  fits  : Bool
deriving DecidableEq, Repr

/-- The option loop of SERIALIZE (41_serialize.md R168): it stops at the first option whose delta or length is over
`NIB_MAX`. -/
def encodeOpts (nibMax : Nat) : Nat → List Opt → OptsOut
  | prev, [] => { bytes := [], prev := prev, fits := true }
  | prev, o :: os =>
    if nibMax < o.number - prev ∨ nibMax < o.value.length then { bytes := [], prev := prev, fits := false }
    else
      let r := encodeOpts nibMax o.number os
      { r with
        bytes := optByte (BitVec.ofNat 4 (o.number - prev)) (BitVec.ofNat 4 o.value.length) :: (o.value ++ r.bytes) }

/-- The payload part: the marker and the bytes, or nothing (41_serialize.md R169). -/
def payloadPart : Option (List Byte) → List Byte
  | none => []
  | some p => Config.payloadMarker :: p

/-- The header and token part (41_serialize.md R166, R167). -/
def headPart (m : Msg) : List Byte := headerBytes m.version m.kind m.tkl m.code m.mid ++ m.tokenBytes

/-- The outcome of SERIALIZE as a function of the message and the capacity (41_serialize.md R175). -/
structure SerOut where
  err   : Err
  bytes : List Byte
  prev  : Nat
deriving DecidableEq, Repr

/-- SERIALIZE on a message (41_serialize.md R160): the checks in order, then the bytes written; `cap = none` is an
unbounded buffer. An unsorted list is refused first (R172). -/
def serialize (nibMax : NibMax) (m : Msg) (cap : Option Nat) : SerOut :=
  if sortedOpts m.opts = false then { err := .invalid, bytes := [], prev := 0 }
  else if Config.tklMax < m.tkl.toNat then { err := .tokenTooLarge, bytes := [], prev := 0 }
  else if exceeds cap (required m) then { err := .truncated, bytes := [], prev := 0 }
  else
    let o := encodeOpts nibMax.value 0 m.opts
    if o.fits then { err := .ok, bytes := headPart m ++ o.bytes ++ payloadPart m.payload, prev := o.prev }
    else { err := .optionsNotSupported, bytes := headPart m ++ o.bytes, prev := o.prev }

/-- The offsets of a buffer that OptionsNotSupported leaves unspecified: the whole buffer (20_memory.md R68; log 13). -/
def clobbered (cap : Option Nat) (need : Nat) (b : Buf) : Nat :=
  match cap with
  | some c => c
  | none => max need (Memory.extent b.mem)

/-- SERIALIZE for an agent: slot `r` into buffer `t` of capacity `cap` (41_serialize.md R160, R170, R171). -/
def State.opSerialize (σ : State) (a : Agent) (r : SlotRef) (t : BufRef) (cap : Option Nat) : State :=
  let m := σ.msg r
  let b := σ.buf t
  let out := serialize σ.params.nibMax m cap
  match out.err with
  | .ok =>
    let σ₁ := σ.setBuf t (b.load out.bytes)
    (σ₁.setCodec a { σ₁.codec a with pos := out.bytes.length, prev := out.prev }).endOp a .ok (some out.bytes.length)
  | .optionsNotSupported =>
    let wild := freeBytes σ.draws 0 (clobbered cap (required m) b)
    let σ₁ := (σ.setBuf t { b with mem := Memory.writeBytes b.mem 0 wild }).draw
    (σ₁.setCodec a { σ₁.codec a with pos := out.bytes.length, prev := out.prev }).raise a .optionsNotSupported
  | e => σ.raise a e

/-! PARSE. -/

/-- One round of the PARSE loop: an option and the bytes after it, the payload, or an error with the bytes consumed
before it was raised. -/
inductive Round where
  | entry (o : Opt) (rest : List Byte)
  | payload (p : List Byte)
  | stop (e : Err) (consumed : Nat)
deriving DecidableEq, Repr

/-- One round of the PARSE loop on the byte at `pos` and the bytes after it, with `count` options so far
(42_parse.md R187 to R192, R196). -/
def parseRound (P : Params) (count prev : Nat) (b : Byte) (rest : List Byte) : Round :=
  if b = Config.payloadMarker then
    if exceeds P.maxPayload rest.length then .stop .invalid 1 else .payload rest
  else if optDelta b = Config.nibReserved ∨ optLength b = Config.nibReserved then .stop .optionsNotSupported 0
  else if rest.length < (optLength b).toNat then .stop .truncated 1
  else if fullAt P.maxOptions count then .stop .invalid 1
  else
    .entry { number := prev + (optDelta b).toNat, value := rest.take (optLength b).toNat }
      (rest.drop (optLength b).toNat)

/-- Where the PARSE loop ends. -/
structure LoopOut where
  err     : Err
  opts    : List Opt
  payload : Option (List Byte)
  prev    : Nat
  pos     : Nat
deriving DecidableEq, Repr

/-- The PARSE loop (42_parse.md R186): rounds until the bytes end, the marker comes or an error is raised. Every round
consumes a byte, so as many rounds as bytes are enough. -/
def parseLoop (P : Params) : Nat → List Byte → List Opt → Nat → Nat → LoopOut
  | 0, _, opts, prev, pos => { err := .ok, opts := opts, payload := none, prev := prev, pos := pos }
  | _ + 1, [], opts, prev, pos => { err := .ok, opts := opts, payload := none, prev := prev, pos := pos }
  | n + 1, b :: rest, opts, prev, pos =>
    match parseRound P opts.length prev b rest with
    | .entry o rest' => parseLoop P n rest' (opts ++ [o]) o.number (pos + 1 + o.value.length)
    | .payload p => { err := .ok, opts := opts, payload := some p, prev := prev, pos := pos + 1 + p.length }
    | .stop e k => { err := e, opts := opts, payload := none, prev := prev, pos := pos + k }

/-- The eight token registers with free values (42_parse.md R194; log 12). -/
def freeTokens (draw : Nat) : List Byte :=
  [Config.freeToken draw 0, Config.freeToken draw 1, Config.freeToken draw 2, Config.freeToken draw 3,
   Config.freeToken draw 4, Config.freeToken draw 5, Config.freeToken draw 6, Config.freeToken draw 7]

/-- A slot without options and payload whose header and token are unspecified (40_message_ops.md R136, 42_parse.md R194;
log 11). -/
def openMsg (draw : Nat) : Msg :=
  { hdrOpen := true, version := Config.freeVersion draw, kind := Config.freeKind draw, tkl := Config.freeTkl draw,
    code := Config.freeCode draw, mid := Config.freeMid draw, opts := [], payload := none, token := freeTokens draw }

/-- A header-only result: the header fields stay, options and payload go, token bytes are unspecified
(10_state.md R33, 42_parse.md R194). -/
def headerOnly (draw : Nat) (m : Msg) : Msg :=
  { m with opts := [], payload := none, token := freeTokens draw }

/-- The header fields as the four header bytes have them, options and payload emptied (42_parse.md R180, R182). -/
def headerOf (old : Msg) (b0 code b2 b3 : Byte) : Msg :=
  { old with
    hdrOpen := false, version := headVersion b0, kind := headKind b0, tkl := headTkl b0, code := code,
    mid := be16 b2 b3, opts := [], payload := none }

/-- The outcome of PARSE: the result kind, `HDR_VALID`, where `pos` and `prev` stand, and the destination slot. -/
structure ParseOut where
  err      : Err
  hdrValid : Bool
  pos      : Nat
  prev     : Nat
  msg      : Msg
deriving DecidableEq, Repr

/-- PARSE after the header (42_parse.md R183 to R195): the checks in order, the token, the loop. -/
def parseBody (P : Params) (draw : Nat) (m : Msg) (rest : List Byte) : ParseOut :=
  if m.version ≠ Config.versionOk then
    { err := .versionMismatch, hdrValid := true, pos := Config.hdrLen, prev := 0, msg := headerOnly draw m }
  else if Config.tklMax < m.tkl.toNat then
    { err := .tokenTooLarge, hdrValid := true, pos := Config.hdrLen, prev := 0, msg := headerOnly draw m }
  else if rest.length < m.tkl.toNat then
    { err := .truncated, hdrValid := true, pos := Config.hdrLen, prev := 0, msg := headerOnly draw m }
  else
    let l := parseLoop P rest.length (rest.drop m.tkl.toNat) [] 0 (Config.hdrLen + m.tkl.toNat)
    if l.err = .ok then
      { err := .ok, hdrValid := true, pos := l.pos, prev := l.prev
        msg := { m with token := overlayToken (rest.take m.tkl.toNat) m.token, opts := l.opts, payload := l.payload } }
    else { err := l.err, hdrValid := true, pos := l.pos, prev := l.prev, msg := headerOnly draw m }

/-- PARSE on a byte string into a slot that holds `old` (42_parse.md R180). -/
def parse (P : Params) (draw : Nat) (old : Msg) : List Byte → ParseOut
  | b0 :: b1 :: b2 :: b3 :: rest => parseBody P draw (headerOf old b0 b1 b2 b3) rest
  | _ => { err := .truncated, hdrValid := false, pos := 0, prev := 0, msg := openMsg draw }

/-- Store an outcome of PARSE: the destination slot and the codec registers (42_parse.md R180). -/
def State.storeParse (σ : State) (a : Agent) (d : SlotRef) (o : ParseOut) : State :=
  (σ.setMsg d o.msg).setCodec a { σ.codec a with pos := o.pos, prev := o.prev, hdrValid := o.hdrValid }

/-- PARSE for an agent: a byte string into slot `d` (42_parse.md R180). A failed PARSE uses up a draw. -/
def State.opParse (σ : State) (a : Agent) (d : SlotRef) (bytes : List Byte) : State :=
  let o := parse σ.params σ.draws (σ.msg d) bytes
  let σ₁ := σ.storeParse a d o
  (if o.err = .ok then σ₁ else σ₁.draw).endOp a o.err none

end Sys2Proof.Machine
end

