-- ==== Sys2Proof/Machine/Message.lean ====
section
/-! DEFINITION. The message operations of 40_message_ops.md on any agent's slot, and the caller's commands: INIT,
SERIALIZE, PARSE, ADD_OPTION, FREE, BUILD_EMPTY_ACK, BUILD_RST_FOR, the field writes and the unassigned codes. -/

namespace Sys2Proof.Machine

/-! The operations on a slot. -/

/-- The message INIT leaves: the token registers are not written (40_message_ops.md R130). -/
def initMsg (old : Msg) : Msg := { Msg.reset with token := old.token }

/-- INIT of slot `d` by an agent (R130). -/
def State.opInit (σ : State) (a : Agent) (d : SlotRef) : State := (σ.setMsg d (initMsg (σ.msg d))).done a

/-- The message FREE leaves: no options, no payload, header and token unspecified; a slot already unspecified does not
change again (R136; log 11). -/
def freedMsg (draw : Nat) (old : Msg) : Msg :=
  if old.hdrOpen then { old with opts := [], payload := none } else openMsg draw

/-- FREE of slot `d` by an agent (R136). -/
def State.opFree (σ : State) (a : Agent) (d : SlotRef) : State :=
  let σ₁ := σ.setMsg d (freedMsg σ.draws (σ.msg d))
  (if (σ.msg d).hdrOpen then σ₁ else σ₁.draw).done a

/-- The empty reply of kind `kind` for a message id: version 1, no token, options or payload (R137 to R139). -/
def emptyReply (kind : Kind) (mid : Mid) (old : Msg) : Msg := { initMsg old with kind := kind, mid := mid }

/-- BUILD_EMPTY_ACK and BUILD_RST_FOR of slot `d` for request `r` (R137, R138). -/
def State.opBuildEmpty (σ : State) (a : Agent) (kind : Kind) (d r : SlotRef) : State :=
  (σ.setMsg d (emptyReply kind (σ.msg r).mid (σ.msg d))).done a

/-- The response to request `q` without its payload: an Acknowledgement with id and token mirrored, no options
(30_encoding.md R114, 45_dispatcher.md R264). -/
def responseMsg (code : Byte) (q old : Msg) : Msg :=
  { initMsg old with kind := .ack, code := code, mid := q.mid, tkl := q.tkl, token := q.token }

/-- BUILD_RESPONSE of slot `d` for request `r` (30_encoding.md R114); a payload over `MAX_PAYLOAD` raises Invalid. -/
def State.opBuildResponse (σ : State) (a : Agent) (d r : SlotRef) (code : Byte) (payload : Option (List Byte)) : State :=
  let m := responseMsg code (σ.msg r) (σ.msg d)
  match payload with
  | none => (σ.setMsg d m).done a
  | some v =>
    if exceeds σ.params.maxPayload v.length then (σ.setMsg d m).raise a .invalid
    else (σ.setMsg d { m with payload := some v }).done a

/-- Insert an option after every entry with a number not above its own (R133, R134). -/
def insertOpt (o : Opt) (os : List Opt) : List Opt :=
  let k := os.countP fun p => decide (p.number ≤ o.number)
  os.take k ++ o :: os.drop k

/-! The caller's commands. An index that names no slot is Invalid, before everything else (60_exceptions.md R287, R293). -/

/-- A command on one slot of the caller: Invalid when it is no slot, else `k`. -/
def State.onSlot (σ : State) (s : Nat) (k : State → State) : Host.Outcome State Fault Refusal :=
  .next (if σ.slotOk s then k σ else σ.raise .caller .invalid)

/-- A write of slot `s` by `f` that succeeds. -/
def State.updateMsg (σ : State) (s : Nat) (f : Msg → Msg) : State :=
  (σ.setMsg (.main s) (f (σ.msg (.main s)))).done .caller

/-- INIT (40_message_ops.md R130). -/
def execInit (s : Nat) (σ : State) : Host.Outcome State Fault Refusal := σ.onSlot s fun σ => σ.opInit .caller (.main s)

/-- SERIALIZE (41_serialize.md R160): a missing buffer is Invalid (R161). -/
def execSerialize (s : Nat) (target : Target) (cap : Nat) (σ : State) : Host.Outcome State Fault Refusal :=
  σ.onSlot s fun σ =>
    match target with
    | .missing => σ.raise .caller .invalid
    | .buffer b => σ.opSerialize .caller (.main s) (.caller b) (some cap)

/-- PARSE refused before it looks at a byte (42_parse.md R196 order 0): `ERR = Invalid`, `pos`, `prev` and `HDR_VALID` at
zero as its first line writes them. A destination slot that exists is emptied, its header unspecified (R194,
60_exceptions.md R287, R291; log 21). -/
def State.parseInvalid (σ : State) (d : Nat) : State :=
  let σ₁ := σ.setCodec .caller { σ.caller with pos := 0, prev := 0, hdrValid := false }
  (if σ.slotOk d then (σ₁.setMsg (.main d) (openMsg σ.draws)).draw else σ₁).raise .caller .invalid

/-- PARSE by the caller into slot `d` (42_parse.md R180, R196). -/
def State.callerParse (σ : State) (d : Nat) (source : Source) (n : Nat) : State :=
  if σ.slotOk d then
    match σ.sourcePrefix source n with
    | none => σ.parseInvalid d
    | some bytes => σ.opParse .caller (.main d) bytes
  else σ.parseInvalid d

/-- PARSE (42_parse.md R180). -/
def execParse (d : Nat) (source : Source) (n : Nat) (σ : State) : Host.Outcome State Fault Refusal :=
  .next (σ.callerParse d source n)

/-- ADD_OPTION (40_message_ops.md R133). -/
def execAddOption (s : Nat) (number : BitVec 16) (value : List Byte) (σ : State) : Host.Outcome State Fault Refusal :=
  σ.onSlot s fun σ =>
    if σ.params.nibMax.value < value.length then σ.raise .caller .optionOversize
    else if fullAt σ.params.maxOptions (σ.msg (.main s)).opts.length then σ.raise .caller .invalid
    else σ.updateMsg s fun m => { m with opts := insertOpt { number := number.toNat, value := value } m.opts }

/-- FREE (40_message_ops.md R136). -/
def execFree (s : Nat) (σ : State) : Host.Outcome State Fault Refusal := σ.onSlot s fun σ => σ.opFree .caller (.main s)

/-- BUILD_EMPTY_ACK (40_message_ops.md R137): Invalid when a slot index is bad or `d = r`. -/
def execBuildEmptyAck (d r : Nat) (σ : State) : Host.Outcome State Fault Refusal :=
  .next (
    if σ.slotOk d && σ.slotOk r && decide (d ≠ r) then σ.opBuildEmpty .caller .ack (.main d) (.main r)
    else σ.raise .caller .invalid)

/-- BUILD_RST_FOR (40_message_ops.md R138). -/
def execBuildRstFor (d r : Nat) (σ : State) : Host.Outcome State Fault Refusal :=
  .next (
    if σ.slotOk d && σ.slotOk r && decide (d ≠ r) then σ.opBuildEmpty .caller .rst (.main d) (.main r)
    else σ.raise .caller .invalid)

/-- SET_KIND (40_message_ops.md R140). -/
def execSetKind (s : Nat) (v : Kind) (σ : State) : Host.Outcome State Fault Refusal :=
  σ.onSlot s fun σ => σ.updateMsg s fun m => { m with hdrOpen := false, kind := v }

/-- SET_CODE (40_message_ops.md R140). -/
def execSetCode (s : Nat) (v : Byte) (σ : State) : Host.Outcome State Fault Refusal :=
  σ.onSlot s fun σ => σ.updateMsg s fun m => { m with hdrOpen := false, code := v }

/-- SET_MID (40_message_ops.md R140). -/
def execSetMid (s : Nat) (v : Mid) (σ : State) : Host.Outcome State Fault Refusal :=
  σ.onSlot s fun σ => σ.updateMsg s fun m => { m with hdrOpen := false, mid := v }

/-- SET_TOKEN (40_message_ops.md R141). -/
def execSetToken (s : Nat) (value : List Byte) (σ : State) : Host.Outcome State Fault Refusal :=
  σ.onSlot s fun σ =>
    if Config.tklMax < value.length then σ.raise .caller .tokenTooLarge
    else
      σ.updateMsg s fun m =>
        { m with hdrOpen := false, tkl := BitVec.ofNat 4 value.length, token := overlayToken value m.token }

/-- SET_PAYLOAD (40_message_ops.md R142). -/
def execSetPayload (s : Nat) (value : List Byte) (σ : State) : Host.Outcome State Fault Refusal :=
  σ.onSlot s fun σ =>
    if exceeds σ.params.maxPayload value.length then σ.raise .caller .invalid
    else σ.updateMsg s fun m => { m with payload := some value }

/-- CLEAR_PAYLOAD (40_message_ops.md R142). -/
def execClearPayload (s : Nat) (σ : State) : Host.Outcome State Fault Refusal :=
  σ.onSlot s fun σ => σ.updateMsg s fun m => { m with payload := none }

/-- An unassigned transaction code returns Invalid and changes nothing (30_encoding.md R112). -/
def execCmdUnassigned (_op : BitVec 5) (σ : State) : Host.Outcome State Fault Refusal :=
  .next (σ.raise .caller .invalid)

end Sys2Proof.Machine
end

