-- ==== Sys2Proof/Machine/Exchange.lean ====
section
/-! DEFINITION. The initiator's exchange state machine: XSEND, XEXPIRE, XRECV (43_exchange.md). -/

namespace Sys2Proof.Machine

/-- XSEND ends: the result goes to the exchange's own copy of `ERR` and to the caller that asked (43_exchange.md R203;
log 23). -/
def State.endXsend (σ : State) (x : Nat) (e : Err) : State :=
  (σ.endOp (.exchange x) e none).endOp .caller e none

/-- SERIALIZE of slot `s` into `XBUF[x]`; a bad slot index is Invalid (43_exchange.md R203, R205). -/
def State.xSerialize (σ : State) (x s : Nat) : State :=
  if σ.slotOk s then σ.opSerialize (.exchange x) (.main s) (.xbuf x) σ.params.maxDatagram
  else σ.raise (.exchange x) .invalid

/-- The registers XSEND saves for a Confirmable message (43_exchange.md R203). -/
def startedExch (σ : State) (x s : Nat) (peer : PeerAddr) : Exch :=
  let e := σ.exch x
  { e with
    len := e.xbuf.len, peer := peer, mid := (σ.msg (.main s)).mid, wait := σ.w0, attempts := 1, armed := true,
    state := .awaitingAck }

/-- The part of XSEND after SERIALIZE returned OK: the send, and the start of the exchange when the message is
Confirmable (43_exchange.md R203, R204). -/
def State.xTransmit (σ : State) (x s : Nat) (peer : PeerAddr) : State :=
  let σ₁ := σ.transmit peer (σ.buf (.xbuf x)).bytes
  if σ.sendAnswer = false then σ₁.endXsend x .transportError
  else if (σ.msg (.main s)).kind = .con then (σ₁.setExch x (startedExch σ₁ x s peer)).endXsend x .ok
  else σ₁.endXsend x .ok

/-- XSEND (43_exchange.md R203). -/
def execXsend (x s : Nat) (peer : PeerAddr) (σ : State) : Host.Outcome State Fault Refusal :=
  .next (
    if σ.exchOk x = false then σ.raise .caller .invalid
    else if (σ.exch x).state ≠ .awaitingSend then σ.endXsend x .invalid
    else
      let σ₁ := σ.xSerialize x s
      let e := (σ₁.codec (.exchange x)).err
      if e = .ok then σ₁.xTransmit x s peer else σ₁.endXsend x e)

/-- The wait doubles in its 32-bit register; past 32 bits, which the boot constraints exclude, its value is free
(43_exchange.md R216; log 14). -/
def doubleWait (wait : BitVec 32) : BitVec 32 :=
  if Config.backoffFactor * wait.toNat < 2 ^ 32 then BitVec.ofNat 32 (Config.backoffFactor * wait.toNat)
  else Config.freeWait wait

/-- The context after an expiry with attempts left: the wait doubled, one attempt more, re-armed (43_exchange.md R206). -/
def retriedExch (e : Exch) : Exch :=
  { e with wait := doubleWait e.wait, attempts := e.attempts + 1, armed := true }

/-- The context after the last expiry (43_exchange.md R206). -/
def timedOutExch (e : Exch) : Exch := { e with armed := false, state := .timedOut }

/-- XEXPIRE is enabled (43_exchange.md R206). -/
def Exch.expirable (e : Exch) : Bool := decide (e.state = .awaitingAck) && e.armed

/-- XEXPIRE (43_exchange.md R206). Not enabled, it does not occur (R201; log 20). The transport's answer is ignored. -/
def execXexpire (x : Nat) (σ : State) : Host.Outcome State Fault Refusal :=
  if σ.exchOk x = false then .next (σ.raise .caller .invalid)
  else if (σ.exch x).expirable = false then .next σ
  else if (σ.exch x).attempts < σ.maxAttempts then
    if (σ.exch x).xbuf.len < (σ.exch x).len then .fault .pastValidLength
    else
      .next ((σ.transmit (σ.exch x).peer (Memory.readBytes (σ.exch x).xbuf.mem 0 (σ.exch x).len)).setExch x
        (retriedExch (σ.exch x)))
  else .next (σ.setExch x (timedOutExch (σ.exch x)))

/-- A parsed reply correlates: the exchange waits and the message ids agree (43_exchange.md R202, R209). -/
def correlates (e : Exch) (err : Err) (m : Msg) : Bool :=
  decide (err = .ok) && decide (e.state = .awaitingAck) && decide (m.mid = e.mid)

/-- The context after a correlated reply: the timer cancelled, the reply's slot kept, the terminal state entered
(43_exchange.md R209, R210). -/
def answeredExch (x : Nat) (st : XState) (e : Exch) : Exch :=
  { e with armed := false, reply := some (.reply x), state := st }

/-- What XRECV does to the context once the reply slot is parsed (43_exchange.md R209, R211). -/
def State.settle (σ : State) (x : Nat) : State :=
  let e := σ.exch x
  if correlates e e.codec.err e.replyMsg then
    match e.replyMsg.kind with
    | .ack => σ.setExch x (answeredExch x .acked e)
    | .rst => σ.setExch x (answeredExch x .reset e)
    | .con => σ
    | .non => σ
  else σ

/-- The reply slot holds a delivered reply (10_state.md R43, 43_exchange.md R213). -/
def Exch.delivered (e : Exch) : Bool := decide (e.state = .acked) || decide (e.state = .reset)

/-- XRECV of a datagram for context `x`: into `XRX[x]`, PARSE on the exchange's codec copy into the reply slot, then the
decision (43_exchange.md R209). Once a reply is delivered the datagram is received and parsed as ever, but the parsed message,
which is dead (R209), does not take the place of the reply: the reply slot stays as it was (R211, R213; log 24). -/
def State.recv (σ : State) (x : Nat) (datagram : List Byte) : State :=
  if σ.exchOk x = false then σ.raise .caller .invalid
  else
    let σ₁ := σ.setBuf (.xrx x) ((σ.buf (.xrx x)).load (σ.cut datagram))
    let σ₂ := σ₁.opParse (.exchange x) (.reply x) (σ₁.buf (.xrx x)).bytes
    if (σ.exch x).delivered then σ₂.setMsg (.reply x) (σ.msg (.reply x)) else σ₂.settle x

/-- XRECV (43_exchange.md R209). -/
def execXrecv (x : Nat) (datagram : List Byte) (σ : State) : Host.Outcome State Fault Refusal :=
  .next (σ.recv x datagram)

end Sys2Proof.Machine
end

