-- ==== Sys2Proof/Machine/Responder.lean ====
section
/-! DEFINITION. The responder's reply obligation, RESPOND (44_responder.md). -/

namespace Sys2Proof.Machine

/-- RESPOND (44_responder.md R230): the plan from the result of PARSE, `HDR_VALID` and the parsed message, under the
policy bit `RST_ON_PARSE_ERROR`. -/
def respond (policy : Bool) (e : Err) (hdrValid : Bool) (m : Msg) : Plan :=
  if e = .versionMismatch then .sendRst
  else if e ≠ .ok then (if policy && hdrValid then .sendRst else .noReply)
  else
    match m.kind with
    | .ack => .sendRst
    | .rst => .sendRst
    | .con => if isMethod m.code then .sendResponse else .sendRst
    | .non => .noReply

end Sys2Proof.Machine
end

