-- ==== Sys2Proof/Machine/Worker.lean ====
section
/-! DEFINITION. The dispatcher: RX_ACCEPT and the worker steps (45_dispatcher.md). A step that is not enabled does not
occur: it changes nothing (log 20). -/

namespace Sys2Proof.Machine

/-! RX_ACCEPT. -/

/-- A worker context not in use (45_dispatcher.md R252, R267). -/
def Worker.isFree (k : Worker) : Bool := decide (k.phase = .idle) || decide (k.phase = .done)

/-- The first free worker context from index `w` on, within `fuel` contexts. -/
def State.freeFrom (σ : State) (w : Nat) : Nat → Nat
  | 0 => w
  | n + 1 => if (σ.worker w).isFree then w else State.freeFrom σ (w + 1) n

/-- The worker context RX_ACCEPT takes: the one of lowest index not in use (log 19). There is one among one more contexts
than the table lists. -/
def State.freeWorker (σ : State) : Nat := σ.freeFrom 0 σ.workers.length

/-- The four plans by number, so that a free number gives any of them. -/
def Plan.ofBits (v : BitVec 2) : Plan :=
  if v = 0 then .noReply else if v = 1 then .sendRst else if v = 2 then .sendEmptyAck else .sendResponse

/-- A worker context as RX_ACCEPT creates it (45_dispatcher.md R252). The plan and the application-result registers, which
10_state.md R46 calls unspecified until W_DECIDE and until the call returns, hold free values of a draw, in a context used
before as in one used for the first time (log 33). -/
def acceptedWorker (draw : Nat) (peer : PeerAddr) (bytes : List Byte) (k : Worker) : Worker :=
  { k with
    peer := peer, rx := k.rx.load bytes, call := .noCall, tx := { k.tx with len := 0 }, phase := .parse
    plan := Plan.ofBits (Config.freePlan draw), appKind := appKindOf (Config.freeAppResult draw)
    appCode := Config.freeAppCode draw, appPayload := Config.freeAppPayload draw }

/-- RX_ACCEPT (45_dispatcher.md R252): with a bounded `N_WORKERS` and every context busy it is not enabled. -/
def State.accept (σ : State) (peer : PeerAddr) (datagram : List Byte) : State :=
  let w := σ.freeWorker
  if σ.workerOk w then (σ.setWorker w (acceptedWorker σ.draws peer (σ.cut datagram) (σ.worker w))).draw else σ

/-- RX_ACCEPT (45_dispatcher.md R252). -/
def execRxAccept (peer : PeerAddr) (datagram : List Byte) (σ : State) : Host.Outcome State Fault Refusal :=
  .next (σ.accept peer datagram)

/-! The worker steps. -/

/-- Move a worker to a phase. -/
def State.toPhase (σ : State) (w : Nat) (p : Phase) : State := σ.setWorker w { σ.worker w with phase := p }

/-- A worker context whose worker has ended (45_dispatcher.md R267): its registers and its two buffers are as in a context
without a worker, so that nothing of the datagram remains in them; the slots and the codec copy stay (log 30). -/
def endedWorker (k : Worker) : Worker :=
  { Worker.reset with phase := .done, reqMsg := k.reqMsg, rspMsg := k.rspMsg, codec := k.codec }

/-- A worker ends, by any of its four paths: both slots freed (45_dispatcher.md R267, 70_reset_and_hazards.md R335), and the
context given back. -/
def State.endWorker (σ : State) (w : Nat) : State :=
  let σ₁ := (σ.opFree (.worker w) (.req w)).opFree (.worker w) (.rsp w)
  σ₁.setWorker w (endedWorker (σ₁.worker w))

/-- W_PARSE (45_dispatcher.md R255). -/
def State.workerParse (σ : State) (w : Nat) : State :=
  if (σ.worker w).phase = .parse then (σ.opParse (.worker w) (.req w) (σ.worker w).rx.bytes).toPhase w .decide else σ

/-- The plan W_DECIDE writes (45_dispatcher.md R256). -/
def State.planOf (σ : State) (w : Nat) : Plan :=
  respond σ.rstOnParseError (σ.worker w).codec.err (σ.worker w).codec.hdrValid (σ.worker w).reqMsg

/-- W_DECIDE (45_dispatcher.md R256, R257). The silent drop ends the worker. -/
def State.workerDecide (σ : State) (w : Nat) : State :=
  if (σ.worker w).phase = .decide then
    let plan := σ.planOf w
    let σ₁ := σ.setWorker w { σ.worker w with plan := plan }
    if needsCall (σ.worker w).codec.err (σ.worker w).reqMsg then σ₁.toPhase w .call
    else if plan = .noReply then σ₁.endWorker w
    else σ₁.toPhase w .reply
  else σ

/-- The view of the request that W_CALL hands to the collaborator (45_dispatcher.md R260). -/
def callView (w : Nat) (k : Worker) : CallView :=
  { worker := w, peer := k.peer, method := k.reqMsg.code, token := k.reqMsg.tokenBytes, opts := k.reqMsg.opts,
    payload := k.reqMsg.payload }

/-- W_CALL (45_dispatcher.md R260). -/
def State.workerCall (σ : State) (w : Nat) : State :=
  if (σ.worker w).phase = .call ∧ (σ.worker w).call = .noCall then
    { σ.setWorker w { σ.worker w with call := .pending } with calls := σ.calls ++ [callView w (σ.worker w)] }
  else σ

/-- The worker with the collaborator's result recorded (45_dispatcher.md R261). A result without a code leaves
`app_code` and `app_payload` as they are. -/
def recordResult (r : AppResult) (k : Worker) : Worker :=
  match r with
  | .response code payload =>
    { k with call := .returned, appKind := .response, appCode := code, appPayload := payload }
  | .nothing => { k with call := .returned, appKind := .nothing }
  | .failure => { k with call := .returned, appKind := .failure }

/-- W_RETURN (45_dispatcher.md R261). A result nobody is owed ends the worker. -/
def State.workerReturn (σ : State) (w : Nat) (r : AppResult) : State :=
  if (σ.worker w).call = .pending then
    let σ₁ := σ.setWorker w (recordResult r (σ.worker w))
    if (σ.worker w).plan = .noReply then σ₁.endWorker w else σ₁.toPhase w .reply
  else σ

/-- Build the application's response in the reply slot; one over `MAX_PAYLOAD` becomes `0xA0` without a payload
(45_dispatcher.md R263, R264). -/
def State.buildReplyResponse (σ : State) (w : Nat) : State :=
  let k := σ.worker w
  match k.appKind with
  | .nothing => σ.opBuildEmpty (.worker w) .ack (.rsp w) (.req w)
  | .failure => σ.opBuildResponse (.worker w) (.rsp w) (.req w) Config.internalError none
  | .response =>
    let σ₁ := σ.opBuildResponse (.worker w) (.rsp w) (.req w) k.appCode k.appPayload
    if (σ₁.codec (.worker w)).err = .invalid then
      σ₁.opBuildResponse (.worker w) (.rsp w) (.req w) Config.internalError none
    else σ₁

/-- Build the reply message of the worker's plan (45_dispatcher.md R264). -/
def State.buildReply (σ : State) (w : Nat) : State :=
  match (σ.worker w).plan with
  | .sendRst => σ.opBuildEmpty (.worker w) .rst (.rsp w) (.req w)
  | .sendEmptyAck => σ.opBuildEmpty (.worker w) .ack (.rsp w) (.req w)
  | .sendResponse => σ.buildReplyResponse w
  | .noReply => σ

/-- Serialize the built reply into a buffer of exactly its size. A buffer over `MAX_DATAGRAM` cannot be had, and the
worker ends without a reply (45_dispatcher.md R264, 60_exceptions.md R292; log 25). -/
def State.serializeReply (σ : State) (w : Nat) : State :=
  let need := required (σ.msg (.rsp w))
  if exceeds σ.params.maxDatagram need then σ.endWorker w
  else
    let σ₁ := σ.opSerialize (.worker w) (.rsp w) (.tx w) (some need)
    if (σ₁.codec (.worker w)).err = .ok then σ₁.toPhase w .send else σ₁.endWorker w

/-- W_REPLY (45_dispatcher.md R264). -/
def State.workerReply (σ : State) (w : Nat) : State :=
  if (σ.worker w).phase = .reply then (σ.buildReply w).serializeReply w else σ

/-- W_SEND (45_dispatcher.md R265): one transmit, its answer ignored. -/
def State.workerSend (σ : State) (w : Nat) : State :=
  if (σ.worker w).phase = .send then (σ.transmit (σ.worker w).peer (σ.worker w).tx.bytes).endWorker w else σ

/-- A worker's command: an index that names no worker is Invalid (60_exceptions.md R287). -/
def State.onWorker (σ : State) (w : Nat) (k : State → State) : Host.Outcome State Fault Refusal :=
  .next (if σ.workerOk w then k σ else σ.raise .caller .invalid)

/-- W_PARSE (45_dispatcher.md R255). -/
def execWParse (w : Nat) (σ : State) : Host.Outcome State Fault Refusal := σ.onWorker w fun σ => σ.workerParse w

/-- W_DECIDE (45_dispatcher.md R256). -/
def execWDecide (w : Nat) (σ : State) : Host.Outcome State Fault Refusal := σ.onWorker w fun σ => σ.workerDecide w

/-- W_CALL (45_dispatcher.md R260). -/
def execWCall (w : Nat) (σ : State) : Host.Outcome State Fault Refusal := σ.onWorker w fun σ => σ.workerCall w

/-- W_RETURN (45_dispatcher.md R261). -/
def execWReturn (w : Nat) (result : AppResult) (σ : State) : Host.Outcome State Fault Refusal :=
  σ.onWorker w fun σ => σ.workerReturn w result

/-- W_REPLY (45_dispatcher.md R264). -/
def execWReply (w : Nat) (σ : State) : Host.Outcome State Fault Refusal := σ.onWorker w fun σ => σ.workerReply w

/-- W_SEND (45_dispatcher.md R265). -/
def execWSend (w : Nat) (σ : State) : Host.Outcome State Fault Refusal := σ.onWorker w fun σ => σ.workerSend w

end Sys2Proof.Machine
end

