-- ==== Sys2Proof/Machine/Wire.lean ====
section
/-! DEFINITION. The rows of the wire formats. A HDR row is a datagram that begins with that header, arriving at the
dispatcher, at an exchange context or at PARSE (30_encoding.md R111; log 4). An OPT row is one round of the PARSE loop
(42_parse.md R186; log 5). A CODE row is a code byte stored in a slot (30_encoding.md R97; log 6). -/

namespace Sys2Proof.Machine

/-! Shared operations. -/

/-- The steps a worker takes from its creation to its suspension in Call or its end, in the order of
45_dispatcher.md R254; a step that is not enabled does not occur. -/
def State.runWorker (σ : State) (w : Nat) : State :=
  ((((σ.workerParse w).workerDecide w).workerCall w).workerReply w).workerSend w

/-- A datagram at the dispatcher: RX_ACCEPT, then its worker's steps with no other agent between (20_memory.md R70 makes
this a legal run; log 4). Without a free worker context RX_ACCEPT is not enabled and nothing happens. -/
def State.dispatch (σ : State) (peer : PeerAddr) (datagram : List Byte) : State :=
  if σ.workerOk σ.freeWorker then (σ.accept peer datagram).runWorker σ.freeWorker else σ

/-- A datagram arrives (30_encoding.md R111; log 4). -/
def State.arrive (σ : State) (dest : Dest) (datagram : List Byte) : State :=
  match dest with
  | .dispatcher peer => σ.dispatch peer datagram
  | .exchange x => σ.recv x datagram
  | .slot d => σ.callerParse d (.bytes datagram) datagram.length

/-- A datagram with the given header and the bytes after it arrives. -/
def State.arriveHdr (σ : State) (version : BitVec 2) (kind : Kind) (tkl : BitVec 4) (code : Byte) (mid : Mid)
    (dest : Dest) (rest : List Byte) : Host.Outcome State Fault Refusal :=
  .next (σ.arrive dest (headerBytes version kind tkl code mid ++ rest))

/-- The number of the last option, 0 when there is none: what `prev` holds during PARSE (10_state.md R31). -/
def lastNumber (os : List Opt) : Nat := (os.getLast?.map Opt.number).getD 0

/-- The caller's codec stands inside a PARSE of the message: no payload seen yet, and `prev` is the number of its last
option (42_parse.md R186, R192; log 5). -/
def inRound (prev : Nat) (m : Msg) : Bool := decide (m.payload = none) && decide (prev = lastNumber m.opts)

/-- One round of PARSE on the caller's codec, into slot `d`, for the byte `b` followed by `rest` (42_parse.md R187 to
R192, R194, R196). Outside a PARSE of that slot it is a precondition violation, Invalid (60_exceptions.md R287; log 5). -/
def State.optRound (σ : State) (d : Nat) (b : Byte) (rest : List Byte) : State :=
  let m := σ.msg (.main d)
  let c := σ.caller
  if σ.slotOk d = false ∨ inRound c.prev m = false then σ.raise .caller .invalid
  else
    match parseRound σ.params m.opts.length c.prev b rest with
    | .entry o _ =>
      ((σ.setMsg (.main d) { m with opts := m.opts ++ [o] }).setCodec .caller
        { c with prev := o.number, pos := c.pos + 1 + o.value.length }).done .caller
    | .payload p =>
      ((σ.setMsg (.main d) { m with payload := some p }).setCodec .caller
        { c with pos := c.pos + 1 + p.length }).done .caller
    | .stop e k =>
      (((σ.setMsg (.main d) (headerOnly σ.draws m)).setCodec .caller { c with pos := c.pos + k }).draw).raise .caller e

/-- Store a code byte in a slot, unchecked (30_encoding.md R97; log 6). -/
def State.storeCode (σ : State) (s : Nat) (code : Byte) : Host.Outcome State Fault Refusal :=
  σ.onSlot s fun σ => σ.updateMsg s fun m => { m with hdrOpen := false, code := code }

/-! HDR rows. -/

/-- HDR.BADVER0: VersionMismatch (42_parse.md R183), then Reset at the responder (44_responder.md R231). -/
def execHdrBadver0 (kind : Kind) (tkl : BitVec 4) (code : Byte) (mid : Mid) (dest : Dest) (rest : List Byte) (σ : State) :
    Host.Outcome State Fault Refusal := σ.arriveHdr 0 kind tkl code mid dest rest

/-- HDR.BADVER2 (42_parse.md R183, 44_responder.md R231). -/
def execHdrBadver2 (kind : Kind) (tkl : BitVec 4) (code : Byte) (mid : Mid) (dest : Dest) (rest : List Byte) (σ : State) :
    Host.Outcome State Fault Refusal := σ.arriveHdr 2 kind tkl code mid dest rest

/-- HDR.BADVER3 (42_parse.md R183, 44_responder.md R231). -/
def execHdrBadver3 (kind : Kind) (tkl : BitVec 4) (code : Byte) (mid : Mid) (dest : Dest) (rest : List Byte) (σ : State) :
    Host.Outcome State Fault Refusal := σ.arriveHdr 3 kind tkl code mid dest rest

/-- HDR.TKL9: TokenTooLarge (42_parse.md R184). -/
def execHdrTkl9 (kind : Kind) (code : Byte) (mid : Mid) (dest : Dest) (rest : List Byte) (σ : State) :
    Host.Outcome State Fault Refusal := σ.arriveHdr 1 kind 9 code mid dest rest

/-- HDR.TKL10_11: TokenTooLarge (42_parse.md R184). -/
def execHdrTkl10to11 (kind : Kind) (low : BitVec 1) (code : Byte) (mid : Mid) (dest : Dest) (rest : List Byte) (σ : State) :
    Host.Outcome State Fault Refusal := σ.arriveHdr 1 kind ((5 : BitVec 3) ++ low) code mid dest rest

/-- HDR.TKL12_15: TokenTooLarge (42_parse.md R184). -/
def execHdrTkl12to15 (kind : Kind) (low : BitVec 2) (code : Byte) (mid : Mid) (dest : Dest) (rest : List Byte) (σ : State) :
    Host.Outcome State Fault Refusal := σ.arriveHdr 1 kind ((3 : BitVec 2) ++ low) code mid dest rest

/-- CON.GET: a Confirmable request, the collaborator called, one reply owed (44_responder.md R233). -/
def execConGet (tkl : BitVec 4) (mid : Mid) (dest : Dest) (rest : List Byte) (σ : State) :
    Host.Outcome State Fault Refusal := σ.arriveHdr 1 .con tkl 1 mid dest rest

/-- CON.POST (44_responder.md R233). -/
def execConPost (tkl : BitVec 4) (mid : Mid) (dest : Dest) (rest : List Byte) (σ : State) :
    Host.Outcome State Fault Refusal := σ.arriveHdr 1 .con tkl 2 mid dest rest

/-- CON.PUT (44_responder.md R233). -/
def execConPut (tkl : BitVec 4) (mid : Mid) (dest : Dest) (rest : List Byte) (σ : State) :
    Host.Outcome State Fault Refusal := σ.arriveHdr 1 .con tkl 3 mid dest rest

/-- CON.DELETE (44_responder.md R233). -/
def execConDelete (tkl : BitVec 4) (mid : Mid) (dest : Dest) (rest : List Byte) (σ : State) :
    Host.Outcome State Fault Refusal := σ.arriveHdr 1 .con tkl 4 mid dest rest

/-- NON.GET: a Non-confirmable request, the collaborator called, no reply (44_responder.md R235). -/
def execNonGet (tkl : BitVec 4) (mid : Mid) (dest : Dest) (rest : List Byte) (σ : State) :
    Host.Outcome State Fault Refusal := σ.arriveHdr 1 .non tkl 1 mid dest rest

/-- NON.POST (44_responder.md R235). -/
def execNonPost (tkl : BitVec 4) (mid : Mid) (dest : Dest) (rest : List Byte) (σ : State) :
    Host.Outcome State Fault Refusal := σ.arriveHdr 1 .non tkl 2 mid dest rest

/-- NON.PUT (44_responder.md R235). -/
def execNonPut (tkl : BitVec 4) (mid : Mid) (dest : Dest) (rest : List Byte) (σ : State) :
    Host.Outcome State Fault Refusal := σ.arriveHdr 1 .non tkl 3 mid dest rest

/-- NON.DELETE (44_responder.md R235). -/
def execNonDelete (tkl : BitVec 4) (mid : Mid) (dest : Dest) (rest : List Byte) (σ : State) :
    Host.Outcome State Fault Refusal := σ.arriveHdr 1 .non tkl 4 mid dest rest

/-- ACK.ANY: at the dispatcher a Reset (44_responder.md R236), at an exchange correlation (43_exchange.md R210). -/
def execAckAny (tkl : BitVec 4) (code : Byte) (mid : Mid) (dest : Dest) (rest : List Byte) (σ : State) :
    Host.Outcome State Fault Refusal := σ.arriveHdr 1 .ack tkl code mid dest rest

/-- RST.ANY: the same two rules as ACK.ANY (44_responder.md R236, 43_exchange.md R210). -/
def execRstAny (tkl : BitVec 4) (code : Byte) (mid : Mid) (dest : Dest) (rest : List Byte) (σ : State) :
    Host.Outcome State Fault Refusal := σ.arriveHdr 1 .rst tkl code mid dest rest

/-- CON.OTHER: a Confirmable message without a method code, Reset (44_responder.md R234). -/
def execConOther (tkl : BitVec 4) (code : Byte) (mid : Mid) (dest : Dest) (rest : List Byte) (σ : State) :
    Host.Outcome State Fault Refusal := σ.arriveHdr 1 .con tkl code mid dest rest

/-- NON.OTHER: a Non-confirmable message without a method code, nothing (44_responder.md R235). -/
def execNonOther (tkl : BitVec 4) (code : Byte) (mid : Mid) (dest : Dest) (rest : List Byte) (σ : State) :
    Host.Outcome State Fault Refusal := σ.arriveHdr 1 .non tkl code mid dest rest

/-! OPT rows. -/

/-- OPT.MARKER: every byte after it is payload (42_parse.md R187, R188). -/
def execOptMarker (d : Nat) (rest : List Byte) (σ : State) : Host.Outcome State Fault Refusal :=
  .next (σ.optRound d Config.payloadMarker rest)

/-- OPT.RSVD_DELTA: a reserved delta nibble, OptionsNotSupported (42_parse.md R189). -/
def execOptRsvdDelta (length : BitVec 4) (d : Nat) (rest : List Byte) (σ : State) : Host.Outcome State Fault Refusal :=
  .next (σ.optRound d (optByte Config.nibReserved length) rest)

/-- OPT.RSVD_LEN: a reserved length nibble, OptionsNotSupported (42_parse.md R189). -/
def execOptRsvdLen (delta : BitVec 4) (d : Nat) (rest : List Byte) (σ : State) : Host.Outcome State Fault Refusal :=
  .next (σ.optRound d (optByte delta Config.nibReserved) rest)

/-- OPT.ENTRY: one option, `number = prev + delta`, `length` value bytes (42_parse.md R190 to R192). -/
def execOptEntry (delta length : BitVec 4) (d : Nat) (rest : List Byte) (σ : State) : Host.Outcome State Fault Refusal :=
  .next (σ.optRound d (optByte delta length) rest)

/-! CODE rows (30_encoding.md R96 to R98). -/

/-- CODE.EMPTY, 0.00. -/
def execCodeEmpty (s : Nat) (σ : State) : Host.Outcome State Fault Refusal := σ.storeCode s 0x00

/-- CODE.GET, method 1. -/
def execCodeGet (s : Nat) (σ : State) : Host.Outcome State Fault Refusal := σ.storeCode s 0x01

/-- CODE.POST, method 2. -/
def execCodePost (s : Nat) (σ : State) : Host.Outcome State Fault Refusal := σ.storeCode s 0x02

/-- CODE.PUT, method 3. -/
def execCodePut (s : Nat) (σ : State) : Host.Outcome State Fault Refusal := σ.storeCode s 0x03

/-- CODE.DELETE, method 4. -/
def execCodeDelete (s : Nat) (σ : State) : Host.Outcome State Fault Refusal := σ.storeCode s 0x04

/-- CODE.CREATED, 2.01. -/
def execCodeCreated (s : Nat) (σ : State) : Host.Outcome State Fault Refusal := σ.storeCode s 0x41

/-- CODE.DELETED, 2.02. -/
def execCodeDeleted (s : Nat) (σ : State) : Host.Outcome State Fault Refusal := σ.storeCode s 0x42

/-- CODE.CHANGED, 2.04. -/
def execCodeChanged (s : Nat) (σ : State) : Host.Outcome State Fault Refusal := σ.storeCode s 0x44

/-- CODE.CONTENT, 2.05. -/
def execCodeContent (s : Nat) (σ : State) : Host.Outcome State Fault Refusal := σ.storeCode s 0x45

/-- CODE.BAD_REQUEST, 4.00. -/
def execCodeBadRequest (s : Nat) (σ : State) : Host.Outcome State Fault Refusal := σ.storeCode s 0x80

/-- CODE.NOT_FOUND, 4.04. -/
def execCodeNotFound (s : Nat) (σ : State) : Host.Outcome State Fault Refusal := σ.storeCode s 0x84

/-- CODE.INTERNAL_ERROR, 5.00. -/
def execCodeInternalError (s : Nat) (σ : State) : Host.Outcome State Fault Refusal := σ.storeCode s 0xA0

/-- CODE.OTHER: any other class and detail, stored as it is (30_encoding.md R95, R97). -/
def execCodeOther (cls : BitVec 3) (detail : BitVec 5) (s : Nat) (σ : State) : Host.Outcome State Fault Refusal :=
  σ.storeCode s (cls ++ detail)

end Sys2Proof.Machine
end

