-- ==== Sys2Proof/Machine/Dispatch.lean ====
section
/-! DEFINITION. The dispatch: one arm per instruction, each one direct call of its meaning. -/

namespace Sys2Proof.Machine

def exec (i : Instr) (s : State) : Host.Outcome State Fault Refusal :=
  match i with
  | .hdrBadver0 kind tkl code mid dest rest => Sys2Proof.Machine.execHdrBadver0 kind tkl code mid dest rest s
  | .hdrBadver2 kind tkl code mid dest rest => Sys2Proof.Machine.execHdrBadver2 kind tkl code mid dest rest s
  | .hdrBadver3 kind tkl code mid dest rest => Sys2Proof.Machine.execHdrBadver3 kind tkl code mid dest rest s
  | .hdrTkl9 kind code mid dest rest => Sys2Proof.Machine.execHdrTkl9 kind code mid dest rest s
  | .hdrTkl10to11 kind low code mid dest rest => Sys2Proof.Machine.execHdrTkl10to11 kind low code mid dest rest s
  | .hdrTkl12to15 kind low code mid dest rest => Sys2Proof.Machine.execHdrTkl12to15 kind low code mid dest rest s
  | .conGet tkl mid dest rest => Sys2Proof.Machine.execConGet tkl mid dest rest s
  | .conPost tkl mid dest rest => Sys2Proof.Machine.execConPost tkl mid dest rest s
  | .conPut tkl mid dest rest => Sys2Proof.Machine.execConPut tkl mid dest rest s
  | .conDelete tkl mid dest rest => Sys2Proof.Machine.execConDelete tkl mid dest rest s
  | .nonGet tkl mid dest rest => Sys2Proof.Machine.execNonGet tkl mid dest rest s
  | .nonPost tkl mid dest rest => Sys2Proof.Machine.execNonPost tkl mid dest rest s
  | .nonPut tkl mid dest rest => Sys2Proof.Machine.execNonPut tkl mid dest rest s
  | .nonDelete tkl mid dest rest => Sys2Proof.Machine.execNonDelete tkl mid dest rest s
  | .ackAny tkl code mid dest rest => Sys2Proof.Machine.execAckAny tkl code mid dest rest s
  | .rstAny tkl code mid dest rest => Sys2Proof.Machine.execRstAny tkl code mid dest rest s
  | .conOther tkl code mid dest rest => Sys2Proof.Machine.execConOther tkl code mid dest rest s
  | .nonOther tkl code mid dest rest => Sys2Proof.Machine.execNonOther tkl code mid dest rest s
  | .optMarker d rest => Sys2Proof.Machine.execOptMarker d rest s
  | .optRsvdDelta length d rest => Sys2Proof.Machine.execOptRsvdDelta length d rest s
  | .optRsvdLen delta d rest => Sys2Proof.Machine.execOptRsvdLen delta d rest s
  | .optEntry delta length d rest => Sys2Proof.Machine.execOptEntry delta length d rest s
  | .codeEmpty slot => Sys2Proof.Machine.execCodeEmpty slot s
  | .codeGet slot => Sys2Proof.Machine.execCodeGet slot s
  | .codePost slot => Sys2Proof.Machine.execCodePost slot s
  | .codePut slot => Sys2Proof.Machine.execCodePut slot s
  | .codeDelete slot => Sys2Proof.Machine.execCodeDelete slot s
  | .codeCreated slot => Sys2Proof.Machine.execCodeCreated slot s
  | .codeDeleted slot => Sys2Proof.Machine.execCodeDeleted slot s
  | .codeChanged slot => Sys2Proof.Machine.execCodeChanged slot s
  | .codeContent slot => Sys2Proof.Machine.execCodeContent slot s
  | .codeBadRequest slot => Sys2Proof.Machine.execCodeBadRequest slot s
  | .codeNotFound slot => Sys2Proof.Machine.execCodeNotFound slot s
  | .codeInternalError slot => Sys2Proof.Machine.execCodeInternalError slot s
  | .codeOther cls detail slot => Sys2Proof.Machine.execCodeOther cls detail slot s
  | .init slot => Sys2Proof.Machine.execInit slot s
  | .serialize slot target cap => Sys2Proof.Machine.execSerialize slot target cap s
  | .parse d source n => Sys2Proof.Machine.execParse d source n s
  | .addOption slot number value => Sys2Proof.Machine.execAddOption slot number value s
  | .free slot => Sys2Proof.Machine.execFree slot s
  | .buildEmptyAck d r => Sys2Proof.Machine.execBuildEmptyAck d r s
  | .buildRstFor d r => Sys2Proof.Machine.execBuildRstFor d r s
  | .setKind slot v => Sys2Proof.Machine.execSetKind slot v s
  | .setCode slot v => Sys2Proof.Machine.execSetCode slot v s
  | .setMid slot v => Sys2Proof.Machine.execSetMid slot v s
  | .setToken slot value => Sys2Proof.Machine.execSetToken slot value s
  | .setPayload slot value => Sys2Proof.Machine.execSetPayload slot value s
  | .clearPayload slot => Sys2Proof.Machine.execClearPayload slot s
  | .xsend x slot peer => Sys2Proof.Machine.execXsend x slot peer s
  | .xexpire x => Sys2Proof.Machine.execXexpire x s
  | .xrecv x datagram => Sys2Proof.Machine.execXrecv x datagram s
  | .rxAccept peer datagram => Sys2Proof.Machine.execRxAccept peer datagram s
  | .wParse w => Sys2Proof.Machine.execWParse w s
  | .wDecide w => Sys2Proof.Machine.execWDecide w s
  | .wCall w => Sys2Proof.Machine.execWCall w s
  | .wReturn w result => Sys2Proof.Machine.execWReturn w result s
  | .wReply w => Sys2Proof.Machine.execWReply w s
  | .wSend w => Sys2Proof.Machine.execWSend w s
  | .cmdUnassigned op => Sys2Proof.Machine.execCmdUnassigned op s

end Sys2Proof.Machine
end

