-- ==== Sys2Proof/Machine/Step.lean ====
section
/-! DEFINITION. One step: take the first record of the port, decode it, run it. An empty port is the idle block
(70_reset_and_hazards.md R321; log 1). -/

namespace Sys2Proof.Machine

/-- One step of the block. -/
def step (s : State) : Host.Outcome State Fault Refusal :=
  match s.port with
  | [] => .next s
  | r :: rest =>
    match decode r with
    | .error e => .refused (.badRecord e)
    | .ok i => exec i { s with port := rest }

/-- The state with a bare table word, operand lanes zero, as the next record of the port. A word of a width no row has
is left out. -/
def State.withFetchWord (s : State) (nbits w : Nat) : State :=
  match tableRecord nbits w with
  | some r => { s with port := r :: s.port }
  | none => s

end Sys2Proof.Machine
end

