-- ==== Sys2Proof/Safety.lean ====
section
/-! DEFINITION. What the claims are about: what an operation leaves unchanged (Frame, Quiet), the invariant of the block
(State.Inv), runs of several instructions, and the spec's own words for sizes, replies and owners. -/

namespace Sys2Proof.Machine

/-! Frames. -/

/-- The registers of an exchange context, apart from its buffers, reply slot and codec copy (10_state.md R37 to R43). -/
structure ExchRegs where
  state    : XState
  mid      : Mid
  attempts : Nat
  wait     : BitVec 32
  armed    : Bool
  len      : Nat
  peer     : PeerAddr
  reply    : Option SlotRef
deriving DecidableEq, Repr

/-- An exchange context's registers. -/
def Exch.regs (e : Exch) : ExchRegs := ⟨e.state, e.mid, e.attempts, e.wait, e.armed, e.len, e.peer, e.reply⟩

/-- The registers of a worker context, apart from its buffers, slots and codec copy (10_state.md R46). -/
structure WorkerRegs where
  phase      : Phase
  peer       : PeerAddr
  plan       : Plan
  call       : CallState
  appKind    : AppKind
  appCode    : Byte
  appPayload : Option (List Byte)
deriving DecidableEq, Repr

/-- A worker context's registers. -/
def Worker.regs (k : Worker) : WorkerRegs := ⟨k.phase, k.peer, k.plan, k.call, k.appKind, k.appCode, k.appPayload⟩

/-- What an operation may write: message slots, byte buffers, codec register copies, exchange contexts, worker contexts. -/
structure Touched where
  slots   : List SlotRef
  bufs    : List BufRef
  codecs  : List Agent
  exchs   : List Nat
  workers : List Nat

/-- Nothing is touched but an agent's codec registers. -/
def Touched.codec (a : Agent) : Touched := { slots := [], bufs := [], codecs := [a], exchs := [], workers := [] }

/-- Nothing is touched. -/
def Touched.nothing : Touched := { slots := [], bufs := [], codecs := [], exchs := [], workers := [] }

/-- A slot of the caller and the caller's codec registers. -/
def Touched.slot (s : Nat) : Touched := { slots := [.main s], bufs := [], codecs := [.caller], exchs := [], workers := [] }

/-- Only what is touched changes: every other slot, every byte and valid length of every other buffer, every other
codec copy and context, and the configuration and the port stay as they are. -/
structure Frame (τ : Touched) (s t : State) : Prop where
  slots   : ∀ r, r ∉ τ.slots → t.msg r = s.msg r
  lens    : ∀ b, b ∉ τ.bufs → (t.buf b).len = (s.buf b).len
  bytes   : ∀ b, b ∉ τ.bufs → ∀ a, t.readByte b a = s.readByte b a
  codecs  : ∀ g, g ∉ τ.codecs → t.codec g = s.codec g
  exchs   : ∀ x, x ∉ τ.exchs → (t.exch x).regs = (s.exch x).regs
  workers : ∀ w, w ∉ τ.workers → (t.worker w).regs = (s.worker w).regs
  params  : t.params = s.params
  w0      : t.w0 = s.w0
  maxAttempts     : t.maxAttempts = s.maxAttempts
  rstOnParseError : t.rstOnParseError = s.rstOnParseError
  listenPort      : t.listenPort = s.listenPort
  port    : t.port = s.port

/-- Nothing goes out: no datagram, no collaborator call, no answer of the transport used up. -/
structure Quiet (s t : State) : Prop where
  out         : t.out = s.out
  calls       : t.calls = s.calls
  sendAnswers : t.sendAnswers = s.sendAnswers

/-- An operation that writes of the codec registers nothing but `ERR` and its result (40_message_ops.md R145). -/
structure Codec.Keeps (c c' : Codec) : Prop where
  pos      : c'.pos = c.pos
  prev     : c'.prev = c.prev
  hdrValid : c'.hdrValid = c.hdrValid

/-! Runs. -/

/-- Instructions one after another, until one does not answer a next state. -/
def execAll : List Instr → State → Host.Outcome State Fault Refusal
  | [], s => .next s
  | i :: is, s =>
    match exec i s with
    | .next t => execAll is t
    | .fault f => .fault f
    | .refused r => .refused r

/-- The OPT instructions that the bytes after the token stand for, one after another, until the marker or an error ends
them (42_parse.md R186). As many rounds as bytes are enough. -/
def execRounds (d : Nat) : Nat → List Byte → State → Host.Outcome State Fault Refusal
  | 0, _, s => .next s
  | _ + 1, [], s => .next s
  | n + 1, b :: rest, s =>
    match exec (decodeOpt b d rest) s with
    | .next t =>
      if t.caller.err = .ok ∧ b ≠ Config.payloadMarker then execRounds d n (rest.drop (optLength b).toNat) t else .next t
    | .fault f => .fault f
    | .refused r => .refused r

/-- The steps of one worker after its acceptance, in the order of 45_dispatcher.md R254, with the collaborator's result. -/
def workerRun (w : Nat) (result : AppResult) : List Instr :=
  [.wParse w, .wDecide w, .wCall w, .wReturn w result, .wReply w, .wSend w]

/-- The calls of ADD_OPTION that succeed on a slot that holds `count` options: a value of at most `NIB_MAX` bytes, while
there is room (40_message_ops.md R133). -/
def acceptedCalls (s : State) (count : Nat) (calls : List (BitVec 16 × List Byte)) : List (BitVec 16 × List Byte) :=
  let fitting := calls.filter fun c => decide (c.2.length ≤ s.params.nibMax.value)
  match s.params.maxOptions with
  | none => fitting
  | some m => fitting.take (m - count)

/-! The codec in the spec's words. -/

/-- The size formula of 30_encoding.md R115. -/
def wireSize (m : Msg) : Nat :=
  4 + m.tkl.toNat + (m.opts.map fun o => 1 + o.value.length).sum + (if m.hasPayload then 1 + m.payloadLen else 0)

/-- Every delta and every length is at most `n`, the first delta taken from `prev` (41_serialize.md R168). -/
def encodable (n : Nat) : Nat → List Opt → Bool
  | _, [] => true
  | prev, o :: os => decide (o.number - prev ≤ n) && decide (o.value.length ≤ n) && encodable n o.number os

/-- The byte string parses as a message (42_parse.md R195). -/
def parses (P : Params) (bytes : List Byte) : Bool := decide ((parse P 0 Msg.reset bytes).err = .ok)

/-- The message a byte string parses to. -/
def parsedMsg (P : Params) (bytes : List Byte) : Msg := (parse P 0 Msg.reset bytes).msg

/-! Replies in the spec's words (44_responder.md R230, R238). -/

/-- A 4-byte reply: `70 00 hi lo` and `60 00 hi lo`. -/
def emptyReplyBytes (first : Byte) (mid : Mid) : List Byte := [first, 0x00, midHigh mid, midLow mid]

/-- An application response: an Acknowledgement with the request's id and token, no options. -/
def responseBytes (q : Msg) (code : Byte) (payload : Option (List Byte)) : List Byte :=
  [BitVec.ofNat 8 (0x60 + q.tkl.toNat), code, midHigh q.mid, midLow q.mid] ++ q.tokenBytes ++
    (match payload with
    | none => []
    | some p => 0xFF :: p)

/-- The reply to a request that got an application result (45_dispatcher.md R263, R264). -/
def resultBytes (P : Params) (q : Msg) : AppResult → List Byte
  | .nothing => emptyReplyBytes 0x60 q.mid
  | .failure => responseBytes q 0xA0 none
  | .response code none => responseBytes q code none
  | .response code (some p) =>
    if exceeds P.maxPayload p.length then responseBytes q 0xA0 none else responseBytes q code (some p)

/-- The result a worker has recorded. -/
def Worker.result (k : Worker) : AppResult :=
  match k.appKind with
  | .nothing => .nothing
  | .failure => .failure
  | .response => .response k.appCode k.appPayload

/-- The bytes of the reply that a worker's plan calls for (45_dispatcher.md R264). -/
def Worker.replyBytes (P : Params) (k : Worker) : List Byte :=
  match k.plan with
  | .noReply => []
  | .sendRst => emptyReplyBytes 0x70 k.reqMsg.mid
  | .sendEmptyAck => emptyReplyBytes 0x60 k.reqMsg.mid
  | .sendResponse => resultBytes P k.reqMsg k.result

/-- The worker of context `w` has ended and nothing of its datagram remains there (45_dispatcher.md R267,
70_reset_and_hazards.md R335): no option and no payload in its two slots, both buffers given back, the registers as in a
context without a worker. Which values they hold then is the model's choice (log 30). -/
structure State.Ended (t : State) (w : Nat) : Prop where
  regs  : (t.worker w).regs = ⟨.done, ⟨0⟩, .noReply, .noCall, .nothing, 0, none⟩
  rx    : t.buf (.rx w) = ⟨0, []⟩
  tx    : t.buf (.tx w) = ⟨0, []⟩
  slots : ∀ r ∈ [SlotRef.req w, .rsp w], (t.msg r).optCount = 0 ∧ (t.msg r).hasPayload = false

/-! Owners. -/

/-- The HDR instructions, each with the datagram it stands for. -/
def headerRows (kind : Kind) (tkl : BitVec 4) (low₁ : BitVec 1) (low₂ : BitVec 2) (code : Byte) (mid : Mid) (dest : Dest)
    (rest : List Byte) : List (Instr × List Byte) := [
  (.hdrBadver0 kind tkl code mid dest rest, headerBytes 0 kind tkl code mid ++ rest),
  (.hdrBadver2 kind tkl code mid dest rest, headerBytes 2 kind tkl code mid ++ rest),
  (.hdrBadver3 kind tkl code mid dest rest, headerBytes 3 kind tkl code mid ++ rest),
  (.hdrTkl9 kind code mid dest rest, headerBytes 1 kind 9 code mid ++ rest),
  (.hdrTkl10to11 kind low₁ code mid dest rest, headerBytes 1 kind ((5 : BitVec 3) ++ low₁) code mid ++ rest),
  (.hdrTkl12to15 kind low₂ code mid dest rest, headerBytes 1 kind ((3 : BitVec 2) ++ low₂) code mid ++ rest),
  (.conGet tkl mid dest rest, headerBytes 1 .con tkl 0x01 mid ++ rest),
  (.conPost tkl mid dest rest, headerBytes 1 .con tkl 0x02 mid ++ rest),
  (.conPut tkl mid dest rest, headerBytes 1 .con tkl 0x03 mid ++ rest),
  (.conDelete tkl mid dest rest, headerBytes 1 .con tkl 0x04 mid ++ rest),
  (.nonGet tkl mid dest rest, headerBytes 1 .non tkl 0x01 mid ++ rest),
  (.nonPost tkl mid dest rest, headerBytes 1 .non tkl 0x02 mid ++ rest),
  (.nonPut tkl mid dest rest, headerBytes 1 .non tkl 0x03 mid ++ rest),
  (.nonDelete tkl mid dest rest, headerBytes 1 .non tkl 0x04 mid ++ rest),
  (.ackAny tkl code mid dest rest, headerBytes 1 .ack tkl code mid ++ rest),
  (.rstAny tkl code mid dest rest, headerBytes 1 .rst tkl code mid ++ rest),
  (.conOther tkl code mid dest rest, headerBytes 1 .con tkl code mid ++ rest),
  (.nonOther tkl code mid dest rest, headerBytes 1 .non tkl code mid ++ rest)]

/-- Where an instruction's datagram arrives: its port record's destination lanes, when it is a HDR instruction. -/
def arrivesAt (i : Instr) : Option Dest :=
  if (encode i).fmt = .hdr then (decodeDest (encode i).a (encode i).b).toOption else none

/-- The instruction starts a worker: RX_ACCEPT, or a datagram at the dispatcher. -/
def startsWorker (i : Instr) : Bool :=
  match arrivesAt i with
  | some (.dispatcher _) => true
  | _ =>
    match i with
    | .rxAccept _ _ => true
    | _ => false

/-- The worker whose step an instruction is. -/
def workerOf : Instr → Option Nat
  | .wParse w => some w
  | .wDecide w => some w
  | .wCall w => some w
  | .wReturn w _ => some w
  | .wReply w => some w
  | .wSend w => some w
  | _ => none

/-- The exchange context whose step an instruction is. -/
def exchOf (i : Instr) : Option Nat :=
  match arrivesAt i with
  | some (.exchange x) => some x
  | _ =>
    match i with
    | .xsend x _ _ => some x
    | .xexpire x => some x
    | .xrecv x _ => some x
    | _ => none

/-! The invariant. -/

/-- A slot is in form: eight token registers, options sorted (10_state.md R29 item 2), values of at most 15 bytes
(10_state.md R27). -/
def Msg.wf (m : Msg) : Bool :=
  decide (m.token.length = 8) && sortedOpts m.opts && m.opts.all fun o => decide (o.value.length ≤ 15)

/-- An exchange context is in form: its buffers canonical, its reply slot in form, the timer armed exactly in AwaitingAck
(43_exchange.md R201), the retransmission copy whole in AwaitingAck (10_state.md R42), a reply named exactly when an answer
ended the exchange (R43). -/
structure Exch.wf (x : Nat) (e : Exch) : Prop where
  xbuf  : Memory.wf e.xbuf.mem = true
  xrx   : Memory.wf e.xrx.mem = true
  reply : e.replyMsg.wf = true
  armed : e.armed = true ↔ e.state = .awaitingAck
  copy  : e.state = .awaitingAck → e.len = e.xbuf.len
  named : e.reply = some (.reply x) ↔ (e.state = .acked ∨ e.state = .reset)

/-- A worker context is in form: its buffers canonical, its slots in form, its phase, plan and call as
45_dispatcher.md R254 to R265 let them occur, and nothing of the datagram left when the worker has ended (R267). -/
structure Worker.wf (k : Worker) : Prop where
  rx      : Memory.wf k.rx.mem = true
  tx      : Memory.wf k.tx.mem = true
  req     : k.reqMsg.wf = true
  rsp     : k.rspMsg.wf = true
  fresh   : k.phase = .parse ∨ k.phase = .decide → k.call = .noCall
  parsed  : k.phase = .decide → k.codec.err = .ok → k.reqMsg.tkl.toNat ≤ Config.tklMax
  calling : k.phase = .call → k.call ≠ .returned ∧ (k.plan = .sendResponse ∨ k.plan = .noReply)
  pending : k.call = .pending → k.phase = .call
  planned : k.phase = .reply → k.plan ≠ .noReply
  token   : k.phase = .call ∨ (k.phase = .reply ∧ k.plan = .sendResponse) → k.reqMsg.tkl.toNat ≤ Config.tklMax
  ended   : k.phase = .done →
    k = endedWorker k ∧ ∀ m ∈ [k.reqMsg, k.rspMsg], m.opts = [] ∧ m.payload = none

/-- The invariant of the block: the parameters within their constraints (00_scope.md R9), every table and every buffer in
canonical form, every slot and context in form. -/
structure State.Inv (s : State) : Prop where
  params    : s.params.legal = true
  msgs      : canonical Msg.reset s.msgs = true
  bufs      : canonical Buf.reset s.bufs = true
  exchanges : canonical Exch.reset s.exchanges = true
  workers   : canonical Worker.reset s.workers = true
  mem       : ∀ b, Memory.wf (s.buf (.caller b)).mem = true
  slots     : ∀ i, (s.msg (.main i)).wf = true
  exch      : ∀ x, (s.exch x).wf x
  worker    : ∀ w, (s.worker w).wf

/-- A safe step: it answers a next state. -/
def safeStep (s : State) : Prop := ∃ t, step s = .next t

end Sys2Proof.Machine
end

