-- ==== Sys2Proof/Certificates/Slice0/Obligations.lean ====
section
/-! DEFINITION. The statements for the provers. Each docstring names the rules of spec/ it rests on; where a clause is the
model's own choice it names the log entry. -/

open Sys2Proof Sys2Proof.Machine

/-! The machine. -/

/-- A step takes the first port record, decodes it and runs it; an empty port is the idle block (70_reset_and_hazards.md
R321, 30_encoding.md R112). The port is the model's choice (log 1), and so is the layout of a record and that one which is no
instruction is refused by name, as badRecord (log 2). -/
def Obligations.StepRunsTheDecodedRecord : Prop :=
  (∀ σ : State, σ.port = [] → step σ = .next σ) ∧
  ∀ (σ : State) (r : Record) (rest : List Record), σ.port = r :: rest →
    (∀ i, decode r = .ok i → step σ = exec i { σ with port := rest }) ∧
    (∀ e, decode r = .error e → step σ = .refused (.badRecord e))

/-- What reset leaves, as far as the spec gives values (10_state.md R52). -/
def Obligations.ResetLeavesTheInitialState : Prop :=
  (∀ r, (State.reset.msg r).version = 1 ∧ (State.reset.msg r).kind.bits = 0 ∧ (State.reset.msg r).tkl = 0 ∧
    (State.reset.msg r).code = 0 ∧ (State.reset.msg r).mid = 0 ∧ (State.reset.msg r).optCount = 0 ∧
    (State.reset.msg r).hasPayload = false) ∧
  (∀ a, (State.reset.codec a).pos = 0 ∧ (State.reset.codec a).prev = 0 ∧ (State.reset.codec a).err = .ok ∧
    (State.reset.codec a).hdrValid = false) ∧
  (∀ x, (State.reset.exch x).state = .awaitingSend ∧ (State.reset.exch x).mid = 0 ∧ (State.reset.exch x).attempts = 0 ∧
    (State.reset.exch x).wait = 0 ∧ (State.reset.exch x).armed = false ∧ (State.reset.exch x).len = 0) ∧
  (∀ w, (State.reset.worker w).phase = .idle) ∧ State.reset.rstOnParseError = false ∧ State.reset.out = []

/-- The invariant holds right after reset. -/
def Obligations.ResetMeetsTheInvariant : Prop := State.reset.Inv

/-- Every step keeps the invariant: the parameters within their constraints (00_scope.md R9), tables and buffers canonical,
options sorted (10_state.md R29), the timer armed exactly in AwaitingAck (43_exchange.md R201), worker phases, plans and calls
as 45_dispatcher.md R254 lets them occur, nothing of a datagram left in an ended worker's context (R267). The values such a
context then holds are the model's choice (log 30). -/
def Obligations.StepKeepsTheInvariant : Prop := ∀ σ t : State, σ.Inv → step σ = .next t → t.Inv

/-- From every state that meets the invariant every instruction answers a next state: no fault and no refusal
(60_exceptions.md R290: errors are values). That an event which is not enabled answers a next state too, its own, is the
model's choice (log 20). -/
def Obligations.EveryInstructionCompletes : Prop := ∀ (i : Instr) (σ : State), σ.Inv → ∃ t, exec i σ = .next t

/-! Encoding. -/

/-- Decoding the record of a well-formed instruction gives the instruction back (30_encoding.md R110 to R112).
The layout of a record beside its word is the model's choice (log 2). -/
def Obligations.DecodeOfEncode : Prop := ∀ i : Instr, wellFormed i = true → decode (encode i) = .ok i

/-- What the decoder answers is the first row of the opcode table, by ascending priority, that matches the word, and the
instruction is one that row can encode (30_encoding.md R110, R111). -/
def Obligations.DecodeFollowsTheOpcodeTable : Prop :=
  ∀ (r : Record) (i : Instr), decode r = .ok i → tableRow r.fmt (wordBits r.word) = some (rowOf i) ∧ wellFormed i = true

/-- No bit of a word is lost: the decoded instruction encodes to the same word of the same format. -/
def Obligations.EncodeKeepsTheWord : Prop :=
  ∀ (r : Record) (i : Instr), decode r = .ok i → (encode i).fmt = r.fmt ∧ (encode i).word = r.word

/-- Words written out from the spec's encodings decode to the instructions they stand for (30_encoding.md R91, R101, R95,
R112). The layout of a record beside its word is the model's choice (log 2). -/
def Obligations.WrittenWordsDecode : Prop :=
  decode (Record.of .hdr [0x42, 0x02, 0x12, 0x34] 0 7 0 0 [0xAA, 0xBB]) =
    .ok (.conPost 2 0x1234 (.dispatcher ⟨7⟩) [0xAA, 0xBB]) ∧
  decode (Record.of .hdr [0x80, 0x01, 0x55, 0x55] 1 0 0 0 []) = .ok (.hdrBadver2 .con 0 1 0x5555 (.exchange 0) []) ∧
  decode (Record.of .opt [0xB6] 0 0 0 0 [0x73]) = .ok (.optEntry 11 6 0 [0x73]) ∧
  decode (Record.of .code [0x45] 3 0 0 0 []) = .ok (.codeContent 3) ∧
  decode (Record.of .cmd [0x0D] 0 1 9 0 []) = .ok (.xsend 0 1 ⟨9⟩) ∧
  decode (Record.of .cmd [0x17] 0 0 0 0 []) = .ok (.cmdUnassigned 0x17)

/-! Message operations (40_message_ops.md). -/

/-- INIT makes the fresh Message (R130). That the token registers, of which `tkl = 0` leaves none meaningful, stay as they were is
the model's choice (log 16). -/
def Obligations.InitWritesTheFreshMessage : Prop :=
  ∀ (s : Nat) (σ : State), σ.slotOk s = true →
    ∃ t, exec (.init s) σ = .next t ∧
      t.msg (.main s) = { hdrOpen := false, version := 1, kind := .con, tkl := 0, code := 0, mid := 0, opts := [],
                          payload := none, token := (σ.msg (.main s)).token } ∧
      t.caller.err = .ok ∧ Codec.Keeps σ.caller t.caller ∧ Frame (Touched.slot s) σ t ∧ Quiet σ t

/-- SET_KIND, SET_CODE and SET_MID write the one named field (R140). -/
def Obligations.FieldWritesChangeOneField : Prop :=
  ∀ (s : Nat) (kind : Kind) (code : Byte) (mid : Mid) (σ : State), σ.slotOk s = true →
    ∀ p ∈ [(Instr.setKind s kind, { σ.msg (.main s) with hdrOpen := false, kind := kind }),
           (Instr.setCode s code, { σ.msg (.main s) with hdrOpen := false, code := code }),
           (Instr.setMid s mid, { σ.msg (.main s) with hdrOpen := false, mid := mid })],
      ∃ t, exec p.1 σ = .next t ∧ t.msg (.main s) = p.2 ∧ t.caller.err = .ok ∧ Codec.Keeps σ.caller t.caller ∧
        Frame (Touched.slot s) σ t ∧ Quiet σ t

/-- Each CODE row stores its byte unchecked: class in the high 3 bits, detail in the low 5 (30_encoding.md R95 to R98).
That the row is a write of a slot's code register is the model's choice (log 6). -/
def Obligations.CodeRowsStoreTheirByte : Prop :=
  ∀ (s : Nat) (cls : BitVec 3) (detail : BitVec 5) (σ : State), σ.slotOk s = true →
    ∀ p ∈ [(Instr.codeEmpty s, 0x00), (Instr.codeGet s, 0x01), (Instr.codePost s, 0x02), (Instr.codePut s, 0x03),
           (Instr.codeDelete s, 0x04), (Instr.codeCreated s, 0x41), (Instr.codeDeleted s, 0x42), (Instr.codeChanged s, 0x44),
           (Instr.codeContent s, 0x45), (Instr.codeBadRequest s, 0x80), (Instr.codeNotFound s, 0x84),
           (Instr.codeInternalError s, 0xA0), (Instr.codeOther cls detail s, cls.toNat * 32 + detail.toNat)],
      ∃ t, exec p.1 σ = .next t ∧
        t.msg (.main s) = { σ.msg (.main s) with hdrOpen := false, code := BitVec.ofNat 8 p.2 } ∧
        t.caller.err = .ok ∧ Codec.Keeps σ.caller t.caller ∧ Frame (Touched.slot s) σ t ∧ Quiet σ t

/-- SET_TOKEN writes the length and the bytes, or raises TokenTooLarge and leaves the slot (R141). That the token registers past
the written ones, unspecified in 10_state.md R24, stay as they were is the model's choice (log 16). -/
def Obligations.SetTokenWritesLengthAndBytes : Prop :=
  ∀ (s : Nat) (value : List Byte) (σ : State), σ.slotOk s = true →
    ∃ t, exec (.setToken s value) σ = .next t ∧ Codec.Keeps σ.caller t.caller ∧ Quiet σ t ∧
      if value.length ≤ 8 then
        t.caller.err = .ok ∧ (t.msg (.main s)).tkl.toNat = value.length ∧ (t.msg (.main s)).token.take value.length = value ∧
        (t.msg (.main s)).token.drop value.length = (σ.msg (.main s)).token.drop value.length ∧
        t.msg (.main s) = { σ.msg (.main s) with
          hdrOpen := false, tkl := (t.msg (.main s)).tkl, token := (t.msg (.main s)).token } ∧
        Frame (Touched.slot s) σ t
      else t.caller.err = .tokenTooLarge ∧ Frame (Touched.codec .caller) σ t

/-- SET_PAYLOAD writes a present payload, or raises Invalid and leaves the slot; CLEAR_PAYLOAD removes it (R142). -/
def Obligations.PayloadWrites : Prop :=
  ∀ (s : Nat) (value : List Byte) (σ : State), σ.slotOk s = true →
    (∃ t, exec (.setPayload s value) σ = .next t ∧ Codec.Keeps σ.caller t.caller ∧ Quiet σ t ∧
      if exceeds σ.params.maxPayload value.length then t.caller.err = .invalid ∧ Frame (Touched.codec .caller) σ t
      else t.caller.err = .ok ∧ t.msg (.main s) = { σ.msg (.main s) with payload := some value } ∧
        Frame (Touched.slot s) σ t) ∧
    ∃ t, exec (.clearPayload s) σ = .next t ∧ t.msg (.main s) = { σ.msg (.main s) with payload := none } ∧
      t.caller.err = .ok ∧ Codec.Keeps σ.caller t.caller ∧ Frame (Touched.slot s) σ t ∧ Quiet σ t

/-- ADD_OPTION on a sorted list puts the new entry after every entry of an equal or lower number and before the rest, and
the list stays sorted (R133, R134). -/
def Obligations.AddOptionInsertsAfterEquals : Prop :=
  ∀ (s : Nat) (number : BitVec 16) (value : List Byte) (σ : State), σ.slotOk s = true →
    sortedOpts (σ.msg (.main s)).opts = true → value.length ≤ σ.params.nibMax.value →
    fullAt σ.params.maxOptions (σ.msg (.main s)).optCount = false →
    ∃ t, exec (.addOption s number value) σ = .next t ∧
      t.msg (.main s) = { σ.msg (.main s) with
        opts := ((σ.msg (.main s)).opts.filter fun o => decide (o.number ≤ number.toNat)) ++
          { number := number.toNat, value := value } ::
          ((σ.msg (.main s)).opts.filter fun o => decide (number.toNat < o.number)) } ∧
      sortedOpts (t.msg (.main s)).opts = true ∧ t.caller.err = .ok ∧ Codec.Keeps σ.caller t.caller ∧
      Frame (Touched.slot s) σ t ∧ Quiet σ t

/-- ADD_OPTION refuses an oversize value before it looks at the capacity, and leaves the slot (R132, R135). -/
def Obligations.AddOptionRefusals : Prop :=
  ∀ (s : Nat) (number : BitVec 16) (value : List Byte) (σ : State), σ.slotOk s = true →
    (σ.params.nibMax.value < value.length →
      ∃ t, exec (.addOption s number value) σ = .next t ∧ t.caller.err = .optionOversize ∧
        Codec.Keeps σ.caller t.caller ∧ Frame (Touched.codec .caller) σ t ∧ Quiet σ t) ∧
    (value.length ≤ σ.params.nibMax.value → fullAt σ.params.maxOptions (σ.msg (.main s)).optCount = true →
      ∃ t, exec (.addOption s number value) σ = .next t ∧ t.caller.err = .invalid ∧
        Codec.Keeps σ.caller t.caller ∧ Frame (Touched.codec .caller) σ t ∧ Quiet σ t)

/-- The option ordering law (R143): after any sequence of ADD_OPTION calls on a sorted list the list is sorted, and for each
number the entries are those it had before, then the accepted calls' in call order. Accepted is a value of at most NIB_MAX
bytes while there is room; a failed call leaves the list as it was. Derived: R143 itself derives the order among
equal numbers, and what a failed call leaves, from R133 and R134. -/
def Obligations.AddOptionSequencesStaySortedAndStable : Prop :=
  ∀ (s : Nat) (calls : List (BitVec 16 × List Byte)) (σ : State), σ.slotOk s = true →
    sortedOpts (σ.msg (.main s)).opts = true →
    (∀ m, σ.params.maxOptions = some m → (σ.msg (.main s)).optCount ≤ m) →
    ∃ t, execAll (calls.map fun c => .addOption s c.1 c.2) σ = .next t ∧ sortedOpts (t.msg (.main s)).opts = true ∧
      ∀ n : Nat, (t.msg (.main s)).opts.filter (fun o => decide (o.number = n)) =
        (σ.msg (.main s)).opts.filter (fun o => decide (o.number = n)) ++
          ((acceptedCalls σ (σ.msg (.main s)).optCount calls).filter fun c => decide (c.1.toNat = n)).map
            fun c => { number := n, value := c.2 }

/-- FREE empties the options and the payload, and a second FREE changes nothing (R136). -/
def Obligations.FreeEmptiesTheSlotOnce : Prop :=
  ∀ (s : Nat) (σ : State), σ.slotOk s = true →
    ∃ t, exec (.free s) σ = .next t ∧ (t.msg (.main s)).optCount = 0 ∧ (t.msg (.main s)).hasPayload = false ∧
      (t.msg (.main s)).payloadLen = 0 ∧ t.caller.err = .ok ∧ Codec.Keeps σ.caller t.caller ∧
      Frame (Touched.slot s) σ t ∧ Quiet σ t ∧ exec (.free s) t = .next t

/-- BUILD_EMPTY_ACK and BUILD_RST_FOR make a fresh Message of their kind that mirrors the request's id and nothing else of
it; the version is 1 whatever the request's was (R137, R138, R139). Bad operands are Invalid. That the token registers stay as
they were is the model's choice (log 16). -/
def Obligations.EmptyRepliesMirrorTheId : Prop :=
  ∀ (d r : Nat) (σ : State), ∀ p ∈ [(Instr.buildEmptyAck d r, Kind.ack), (Instr.buildRstFor d r, Kind.rst)],
    (σ.slotOk d = true → σ.slotOk r = true → d ≠ r →
      ∃ t, exec p.1 σ = .next t ∧
        t.msg (.main d) = { hdrOpen := false, version := 1, kind := p.2, tkl := 0, code := 0,
                            mid := (σ.msg (.main r)).mid, opts := [], payload := none,
                            token := (σ.msg (.main d)).token } ∧
        t.caller.err = .ok ∧ Codec.Keeps σ.caller t.caller ∧ Frame (Touched.slot d) σ t ∧ Quiet σ t) ∧
    (σ.slotOk d = false ∨ σ.slotOk r = false ∨ d = r →
      ∃ t, exec p.1 σ = .next t ∧ t.caller.err = .invalid ∧ Codec.Keeps σ.caller t.caller ∧
        Frame (Touched.codec .caller) σ t ∧ Quiet σ t)

/-- The empty Acknowledgement and the Reset serialize into a 4-byte buffer as `60 00 hi lo` and `70 00 hi lo`
(44_responder.md R242). -/
def Obligations.FixedRepliesAreFourBytes : Prop :=
  ∀ (d r b cap : Nat) (σ : State), σ.slotOk d = true → σ.slotOk r = true → d ≠ r → 4 ≤ cap →
    ∀ p ∈ [(Instr.buildEmptyAck d r, (0x60 : Byte)), (Instr.buildRstFor d r, (0x70 : Byte))],
      ∃ t, execAll [p.1, .serialize d (.buffer b) cap] σ = .next t ∧ t.caller.err = .ok ∧ t.caller.result = some 4 ∧
        (t.buf (.caller b)).bytes = emptyReplyBytes p.2 (σ.msg (.main r)).mid

/-- An index that names nothing, a missing buffer and an unassigned transaction code are Invalid, and nothing else changes
(60_exceptions.md R287, 30_encoding.md R112). The model's choice are: that an OPT row (log 5) and a CODE row (log 6) are
operations on a slot, and that a bad exchange or worker index of an event is told in the caller's `ERR` (log 23). -/
def Obligations.BadOperandsAreInvalid : Prop :=
  ∀ (σ : State) (s b cap x w : Nat) (kind : Kind) (code : Byte) (v : BitVec 16) (value : List Byte) (target : Target)
    (peer : PeerAddr) (result : AppResult) (cls : BitVec 3) (detail op : BitVec 5) (delta length : BitVec 4), ∀ i : Instr,
    (σ.slotOk s = false ∧ i ∈ [.init s, .serialize s target cap, .addOption s v value, .free s, .setKind s kind,
        .setCode s code, .setMid s v, .setToken s value, .setPayload s value, .clearPayload s, .codeEmpty s, .codeGet s,
        .codePost s, .codePut s, .codeDelete s, .codeCreated s, .codeDeleted s, .codeChanged s, .codeContent s,
        .codeBadRequest s, .codeNotFound s, .codeInternalError s, .codeOther cls detail s, .optMarker s value,
        .optRsvdDelta length s value, .optRsvdLen delta s value, .optEntry delta length s value]) ∨
    (i = .serialize s .missing cap) ∨
    (σ.exchOk x = false ∧ i ∈ [.xsend x b peer, .xexpire x, .xrecv x value]) ∨
    (σ.workerOk w = false ∧ i ∈ [.wParse w, .wDecide w, .wCall w, .wReturn w result, .wReply w, .wSend w]) ∨
    i = .cmdUnassigned op →
    ∃ t, exec i σ = .next t ∧ t.caller.err = .invalid ∧ Codec.Keeps σ.caller t.caller ∧
      Frame (Touched.codec .caller) σ t ∧ Quiet σ t

/-! SERIALIZE (41_serialize.md). -/

/-- SERIALIZE writes the header, the token, each option and the payload at the offsets the size formula gives, and nothing
past them (R160, R163, R166 to R170). That the bytes past them, past the valid length, stay is the model's choice (log
34). -/
def Obligations.SerializeWritesTheWireBytes : Prop :=
  ∀ (s b cap : Nat) (σ : State), σ.slotOk s = true → (σ.msg (.main s)).token.length = 8 →
    sortedOpts (σ.msg (.main s)).opts = true → (σ.msg (.main s)).tkl.toNat ≤ 8 → wireSize (σ.msg (.main s)) ≤ cap →
    encodable σ.params.nibMax.value 0 (σ.msg (.main s)).opts = true →
    ∃ t, exec (.serialize s (.buffer b) cap) σ = .next t ∧
      t.caller.err = .ok ∧ t.caller.result = some (wireSize (σ.msg (.main s))) ∧
      t.caller.pos = wireSize (σ.msg (.main s)) ∧ t.caller.prev = lastNumber (σ.msg (.main s)).opts ∧
      t.caller.hdrValid = σ.caller.hdrValid ∧ (t.buf (.caller b)).len = wireSize (σ.msg (.main s)) ∧
      (t.readByte (.caller b) 0).toNat = (σ.msg (.main s)).version.toNat * 64 + (σ.msg (.main s)).kind.bits.toNat * 16 +
        (σ.msg (.main s)).tkl.toNat ∧
      t.readByte (.caller b) 1 = (σ.msg (.main s)).code ∧
      (t.readByte (.caller b) 2).toNat = (σ.msg (.main s)).mid.toNat / 256 ∧
      (t.readByte (.caller b) 3).toNat = (σ.msg (.main s)).mid.toNat % 256 ∧
      (∀ i, i < (σ.msg (.main s)).tkl.toNat → t.readByte (.caller b) (4 + i) = (σ.msg (.main s)).token.getD i 0) ∧
      (∀ before o after, (σ.msg (.main s)).opts = before ++ o :: after →
        let off := 4 + (σ.msg (.main s)).tkl.toNat + (before.map fun o => 1 + o.value.length).sum
        (t.readByte (.caller b) off).toNat = (o.number - lastNumber before) * 16 + o.value.length ∧
        ∀ i, i < o.value.length → t.readByte (.caller b) (off + 1 + i) = o.value.getD i 0) ∧
      (∀ p, (σ.msg (.main s)).payload = some p →
        let off := 4 + (σ.msg (.main s)).tkl.toNat + ((σ.msg (.main s)).opts.map fun o => 1 + o.value.length).sum
        t.readByte (.caller b) off = 0xFF ∧ ∀ i, i < p.length → t.readByte (.caller b) (off + 1 + i) = p.getD i 0) ∧
      (∀ a, wireSize (σ.msg (.main s)) ≤ a → t.readByte (.caller b) a = σ.readByte (.caller b) a) ∧
      Frame { slots := [], bufs := [.caller b], codecs := [.caller], exchs := [], workers := [] } σ t ∧ Quiet σ t

/-- The checks of SERIALIZE in order: an unsorted list, the token, the size, the options (R162, R164, R165, R168, R171, R172).
The first three write nothing. After the last the buffer is unspecified; that its valid length and the bytes past the capacity
stay is the model's choice (log 13). -/
def Obligations.SerializeErrorsInOrder : Prop :=
  ∀ (s b cap : Nat) (σ : State), σ.slotOk s = true →
    ∃ t, exec (.serialize s (.buffer b) cap) σ = .next t ∧ Quiet σ t ∧
      if sortedOpts (σ.msg (.main s)).opts = false then
        t.caller.err = .invalid ∧ Codec.Keeps σ.caller t.caller ∧ Frame (Touched.codec .caller) σ t
      else if 8 < (σ.msg (.main s)).tkl.toNat then
        t.caller.err = .tokenTooLarge ∧ Codec.Keeps σ.caller t.caller ∧ Frame (Touched.codec .caller) σ t
      else if cap < wireSize (σ.msg (.main s)) then
        t.caller.err = .truncated ∧ Codec.Keeps σ.caller t.caller ∧ Frame (Touched.codec .caller) σ t
      else if encodable σ.params.nibMax.value 0 (σ.msg (.main s)).opts = false then
        t.caller.err = .optionsNotSupported ∧ (t.buf (.caller b)).len = (σ.buf (.caller b)).len ∧
        (∀ a, cap ≤ a → t.readByte (.caller b) a = σ.readByte (.caller b) a) ∧
        Frame { slots := [], bufs := [.caller b], codecs := [.caller], exchs := [], workers := [] } σ t
      else t.caller.err = .ok

/-- The truncation boundary law (R174). -/
def Obligations.SerializeTruncationBoundary : Prop :=
  ∀ (s b : Nat) (σ : State), σ.slotOk s = true → sortedOpts (σ.msg (.main s)).opts = true →
    (σ.msg (.main s)).tkl.toNat ≤ 8 →
    (∃ t, exec (.serialize s (.buffer b) (wireSize (σ.msg (.main s)) - 1)) σ = .next t ∧ t.caller.err = .truncated) ∧
    ∃ t, exec (.serialize s (.buffer b) (wireSize (σ.msg (.main s)))) σ = .next t ∧
      t.caller.err = if encodable σ.params.nibMax.value 0 (σ.msg (.main s)).opts then .ok else .optionsNotSupported

/-- SERIALIZE is a function of the slot's value and the capacity (R175), given `NIB_MAX`. -/
def Obligations.SerializeIsAFunctionOfMessageAndCapacity : Prop :=
  ∀ (s s' b b' cap : Nat) (σ σ' : State), σ.slotOk s = true → σ'.slotOk s' = true →
    σ.params.nibMax = σ'.params.nibMax → σ.msg (.main s) = σ'.msg (.main s') →
    ∃ t t', exec (.serialize s (.buffer b) cap) σ = .next t ∧ exec (.serialize s' (.buffer b') cap) σ' = .next t' ∧
      t.caller.err = t'.caller.err ∧ t.caller.result = t'.caller.result ∧
      (t.caller.err = .ok → (t.buf (.caller b)).bytes = (t'.buf (.caller b')).bytes) ∧
      t.msg (.main s) = σ.msg (.main s)

/-! PARSE (42_parse.md). -/

/-- The version gate: a version other than 1 is VersionMismatch whatever else is wrong, and the five header fields are the
wire's (R183). -/
def Obligations.ParseVersionGate : Prop :=
  ∀ (d n : Nat) (source : Source) (b0 b1 b2 b3 : Byte) (rest : List Byte) (σ : State), σ.slotOk d = true →
    σ.sourcePrefix source n = some (b0 :: b1 :: b2 :: b3 :: rest) → b0.toNat / 64 ≠ 1 →
    ∃ t, exec (.parse d source n) σ = .next t ∧ t.caller.err = .versionMismatch ∧ t.caller.hdrValid = true ∧
      (t.msg (.main d)).version.toNat = b0.toNat / 64 ∧ (t.msg (.main d)).kind.bits.toNat = b0.toNat / 16 % 4 ∧
      (t.msg (.main d)).tkl.toNat = b0.toNat % 16 ∧ (t.msg (.main d)).code = b1 ∧
      (t.msg (.main d)).mid.toNat = b2.toNat * 256 + b3.toNat

/-- The header checks after the version, in order: fewer than 4 bytes, the token length, the token bytes (R181, R184,
R185). -/
def Obligations.ParseHeaderChecks : Prop :=
  ∀ (d n : Nat) (source : Source) (bytes : List Byte) (σ : State), σ.slotOk d = true →
    σ.sourcePrefix source n = some bytes →
    (bytes.length < 4 →
      ∃ t, exec (.parse d source n) σ = .next t ∧ t.caller.err = .truncated ∧ t.caller.hdrValid = false) ∧
    (4 ≤ bytes.length → (bytes.getD 0 0).toNat / 64 = 1 →
      (8 < (bytes.getD 0 0).toNat % 16 →
        ∃ t, exec (.parse d source n) σ = .next t ∧ t.caller.err = .tokenTooLarge ∧ t.caller.hdrValid = true) ∧
      ((bytes.getD 0 0).toNat % 16 ≤ 8 → bytes.length - 4 < (bytes.getD 0 0).toNat % 16 →
        ∃ t, exec (.parse d source n) σ = .next t ∧ t.caller.err = .truncated ∧ t.caller.hdrValid = true) ∧
      ((bytes.getD 0 0).toNat % 16 ≤ 8 → (bytes.getD 0 0).toNat % 16 ≤ bytes.length - 4 →
        ∃ t, exec (.parse d source n) σ = .next t ∧ (t.caller.err = .ok →
          (t.msg (.main d)).tokenBytes = (bytes.drop 4).take ((bytes.getD 0 0).toNat % 16))))

/-- A failed PARSE leaves no options and no payload; with a decoded header the five fields are the wire's (R182, R194). -/
def Obligations.ParseFailureLeavesHeaderOnly : Prop :=
  ∀ (d n : Nat) (source : Source) (σ : State), σ.slotOk d = true →
    ∃ t, exec (.parse d source n) σ = .next t ∧ (t.caller.err ≠ .ok →
      (t.msg (.main d)).optCount = 0 ∧ (t.msg (.main d)).hasPayload = false ∧ (t.msg (.main d)).payloadLen = 0 ∧
      (t.caller.hdrValid = true →
        ∃ b0 b1 b2 b3 rest, σ.sourcePrefix source n = some (b0 :: b1 :: b2 :: b3 :: rest) ∧
          (t.msg (.main d)).version = headVersion b0 ∧ (t.msg (.main d)).kind = headKind b0 ∧
          (t.msg (.main d)).tkl = headTkl b0 ∧ (t.msg (.main d)).code = b1 ∧ (t.msg (.main d)).mid = be16 b2 b3))

/-- A successful PARSE gives a message that meets the slot's invariants, with the header fields of the wire and every
byte consumed (R182, R192, R195, 10_state.md R29). -/
def Obligations.ParseSuccessGivesAWellFormedMessage : Prop :=
  ∀ (d n : Nat) (source : Source) (bytes : List Byte) (σ : State), σ.slotOk d = true →
    σ.sourcePrefix source n = some bytes →
    ∃ t, exec (.parse d source n) σ = .next t ∧ (t.caller.err = .ok →
      t.caller.hdrValid = true ∧ t.caller.pos = bytes.length ∧ t.caller.prev = lastNumber (t.msg (.main d)).opts ∧
      headerBytes (t.msg (.main d)).version (t.msg (.main d)).kind (t.msg (.main d)).tkl (t.msg (.main d)).code
        (t.msg (.main d)).mid = bytes.take 4 ∧
      (t.msg (.main d)).version = 1 ∧ (t.msg (.main d)).tkl.toNat ≤ 8 ∧ sortedOpts (t.msg (.main d)).opts = true ∧
      encodable 14 0 (t.msg (.main d)).opts = true)

/-- PARSE is total (R197). Order 0 of R196: a destination that is no slot, and a source that is missing or has fewer than `n`
bytes, are Invalid with `HDR_VALID = 0`, before any byte is looked at. For every byte string it answers OK or one of the errors
of R196, never OptionOversize; with unbounded capacities never Invalid. It writes the destination slot and the codec
registers, no buffer. What order 0 leaves in `pos`, `prev` and a slot that exists, and that too short a source is such a
violation, are deduced (log 21, log 22). -/
def Obligations.ParseIsTotal : Prop :=
  ∀ (d n : Nat) (source : Source) (σ : State),
    (σ.slotOk d = false →
      ∃ t, exec (.parse d source n) σ = .next t ∧ t.caller.err = .invalid ∧ t.caller.hdrValid = false ∧
        t.caller.pos = 0 ∧ t.caller.prev = 0 ∧ Frame (Touched.codec .caller) σ t ∧ Quiet σ t) ∧
    (σ.slotOk d = true → (source = .missing ∨ (∃ v, source = .bytes v ∧ v.length < n) ∨
        (∃ b, source = .buffer b ∧ (σ.buf (.caller b)).len < n)) →
      ∃ t, exec (.parse d source n) σ = .next t ∧ t.caller.err = .invalid ∧ t.caller.hdrValid = false ∧
        t.caller.pos = 0 ∧ t.caller.prev = 0 ∧ (t.msg (.main d)).optCount = 0 ∧ (t.msg (.main d)).hasPayload = false ∧
        Frame (Touched.slot d) σ t ∧ Quiet σ t) ∧
    ∀ bytes, σ.slotOk d = true →
      ((∃ v, source = .bytes v ∧ n ≤ v.length ∧ bytes = v.take n) ∨
        (∃ b, source = .buffer b ∧ n ≤ (σ.buf (.caller b)).len ∧ bytes = (σ.buf (.caller b)).bytes.take n)) →
      ∃ t, exec (.parse d source n) σ = .next t ∧
        t.caller.err ∈ [.ok, .truncated, .versionMismatch, .tokenTooLarge, .optionsNotSupported, .invalid] ∧
        (bytes.length < 4 → t.caller.err = .truncated ∧ t.caller.hdrValid = false) ∧
        (4 ≤ bytes.length → t.caller.hdrValid = true) ∧
        (σ.params.maxOptions = none → σ.params.maxPayload = none → t.caller.err ≠ .invalid) ∧
        Frame (Touched.slot d) σ t ∧ Quiet σ t

/-- The round-trip law (R198, 90_conflicts.md C8): PARSE of what SERIALIZE wrote gives the message back, for version 1,
`tkl <= 8`, sorted options, every delta and length at most 14, and room in the destination slot. -/
def Obligations.ParseOfSerialize : Prop :=
  ∀ (s d b cap : Nat) (σ : State), σ.slotOk s = true → σ.slotOk d = true → (σ.msg (.main s)).token.length = 8 →
    (σ.msg (.main s)).version = 1 → (σ.msg (.main s)).tkl.toNat ≤ 8 → sortedOpts (σ.msg (.main s)).opts = true →
    encodable 14 0 (σ.msg (.main s)).opts = true → wireSize (σ.msg (.main s)) ≤ cap →
    exceeds σ.params.maxPayload (σ.msg (.main s)).payloadLen = false →
    exceeds σ.params.maxOptions (σ.msg (.main s)).optCount = false →
    ∃ t, execAll [.serialize s (.buffer b) cap, .parse d (.buffer b) (wireSize (σ.msg (.main s)))] σ = .next t ∧
      t.caller.err = .ok ∧ (σ.msg (.main s)).same (t.msg (.main d)) = true

/-- The encoding is canonical (30_encoding.md R116): a byte string that parses is the one SERIALIZE produces for the
message it parses to. -/
def Obligations.SerializeOfParse : Prop :=
  ∀ (d b n cap : Nat) (v : List Byte) (σ : State), σ.slotOk d = true → n ≤ v.length → n ≤ cap →
    ∃ t, execAll [.parse d (.bytes v) n] σ = .next t ∧ (t.caller.err = .ok →
      ∃ u, exec (.serialize d (.buffer b) cap) t = .next u ∧ u.caller.err = .ok ∧ u.caller.result = some n ∧
        (u.buf (.caller b)).bytes = v.take n)

/-- One round of the PARSE loop for each OPT row (R187 to R192, R194, R196). That an OPT row is a round on the caller's codec,
and Invalid outside a round, is the model's choice (log 5). -/
def Obligations.OptionRowsRunOneRound : Prop :=
  ∀ (d : Nat) (delta length : BitVec 4) (rest : List Byte) (σ : State), σ.slotOk d = true →
    (inRound σ.caller.prev (σ.msg (.main d)) = true →
      (∃ t, exec (.optMarker d rest) σ = .next t ∧ Frame (Touched.slot d) σ t ∧ Quiet σ t ∧
        t.caller.prev = σ.caller.prev ∧ t.caller.hdrValid = σ.caller.hdrValid ∧
        if exceeds σ.params.maxPayload rest.length then
          t.caller.err = .invalid ∧
          t.msg (.main d) = { σ.msg (.main d) with opts := [], payload := none, token := (t.msg (.main d)).token }
        else
          t.caller.err = .ok ∧ t.caller.pos = σ.caller.pos + 1 + rest.length ∧
          t.msg (.main d) = { σ.msg (.main d) with payload := some rest }) ∧
      (delta ≠ 15 → length ≠ 15 →
        ∀ i ∈ [Instr.optRsvdDelta length d rest, Instr.optRsvdLen delta d rest],
          ∃ t, exec i σ = .next t ∧ t.caller.err = .optionsNotSupported ∧ t.caller.prev = σ.caller.prev ∧
            t.caller.pos = σ.caller.pos ∧ t.caller.hdrValid = σ.caller.hdrValid ∧
            t.msg (.main d) = { σ.msg (.main d) with opts := [], payload := none, token := (t.msg (.main d)).token } ∧
            Frame (Touched.slot d) σ t ∧ Quiet σ t) ∧
      (delta ≠ 15 → length ≠ 15 →
        ∃ t, exec (.optEntry delta length d rest) σ = .next t ∧ t.caller.hdrValid = σ.caller.hdrValid ∧
          Frame (Touched.slot d) σ t ∧ Quiet σ t ∧
          if rest.length < length.toNat then
            t.caller.err = .truncated ∧
            t.msg (.main d) = { σ.msg (.main d) with opts := [], payload := none, token := (t.msg (.main d)).token }
          else if fullAt σ.params.maxOptions (σ.msg (.main d)).optCount then
            t.caller.err = .invalid ∧
            t.msg (.main d) = { σ.msg (.main d) with opts := [], payload := none, token := (t.msg (.main d)).token }
          else
            t.caller.err = .ok ∧ t.caller.prev = σ.caller.prev + delta.toNat ∧
            t.caller.pos = σ.caller.pos + 1 + length.toNat ∧
            t.msg (.main d) = { σ.msg (.main d) with
              opts := (σ.msg (.main d)).opts ++
                [{ number := σ.caller.prev + delta.toNat, value := rest.take length.toNat }] })) ∧
    (inRound σ.caller.prev (σ.msg (.main d)) = false →
      ∀ i ∈ [Instr.optMarker d rest, .optRsvdDelta length d rest, .optRsvdLen delta d rest, .optEntry delta length d rest],
        ∃ t, exec i σ = .next t ∧ t.caller.err = .invalid ∧ Codec.Keeps σ.caller t.caller ∧
          Frame (Touched.codec .caller) σ t ∧ Quiet σ t)

/-- PARSE is its header part followed by its rounds (R180, R186): parsing a whole datagram leaves the same state as parsing
its header and token and then running the OPT instructions that the rest stands for. That an OPT instruction is a round on the
caller's codec, on which all of this rests, is the model's choice (log 5). -/
def Obligations.ParseIsItsRounds : Prop :=
  ∀ (d : Nat) (b0 b1 b2 b3 : Byte) (token rest : List Byte) (σ : State), σ.slotOk d = true → headVersion b0 = 1 →
    (headTkl b0).toNat ≤ 8 → token.length = (headTkl b0).toNat →
    ∃ u t, exec (.parse d (.bytes (b0 :: b1 :: b2 :: b3 :: token)) (4 + token.length)) σ = .next u ∧
      execRounds d rest.length rest u = .next t ∧
      exec (.parse d (.bytes (b0 :: b1 :: b2 :: b3 :: (token ++ rest))) (4 + token.length + rest.length)) σ = .next t

/-! The initiator's exchange (43_exchange.md). -/

/-- XSEND of a Confirmable message that serializes: one transmit, the exchange registers saved, the timer armed at `W0`
(R203). The model's choice are: where the transport's answer stands (log 17), that both the exchange's and the caller's `ERR` are
OK (log 23), and that the bytes of `XBUF[x]` past the message stay (log 34). -/
def Obligations.XsendStartsAnExchange : Prop :=
  ∀ (x s : Nat) (peer : PeerAddr) (σ : State), σ.exchOk x = true → (σ.exch x).state = .awaitingSend → σ.slotOk s = true →
    (serialize σ.params.nibMax (σ.msg (.main s)) σ.params.maxDatagram).err = .ok → σ.sendAnswer = true →
    (σ.msg (.main s)).kind = .con →
    let bytes := (serialize σ.params.nibMax (σ.msg (.main s)) σ.params.maxDatagram).bytes
    ∃ t, exec (.xsend x s peer) σ = .next t ∧
      (t.exch x).regs = ⟨.awaitingAck, (σ.msg (.main s)).mid, 1, σ.w0, true, bytes.length, peer, (σ.exch x).reply⟩ ∧
      (t.buf (.xbuf x)).bytes = bytes ∧ (∀ a, bytes.length ≤ a → t.readByte (.xbuf x) a = σ.readByte (.xbuf x) a) ∧
      t.out = σ.out ++ [{ peer := peer, bytes := bytes }] ∧ t.calls = σ.calls ∧ t.sendAnswers = σ.sendAnswers.tail ∧
      t.caller.err = .ok ∧ (t.exch x).codec.err = .ok ∧
      Frame { slots := [], bufs := [.xbuf x], codecs := [.caller, .exchange x], exchs := [x], workers := [] } σ t

/-- XSEND of a message that is not Confirmable transmits once and tracks nothing (R204). The model's choice are: where the
transport's answer stands (log 17), and that both the exchange's and the caller's `ERR` are OK (log 23). -/
def Obligations.XsendNonConfirmableTracksNothing : Prop :=
  ∀ (x s : Nat) (peer : PeerAddr) (σ : State), σ.exchOk x = true → (σ.exch x).state = .awaitingSend → σ.slotOk s = true →
    (serialize σ.params.nibMax (σ.msg (.main s)) σ.params.maxDatagram).err = .ok → σ.sendAnswer = true →
    (σ.msg (.main s)).kind ≠ .con →
    ∃ t, exec (.xsend x s peer) σ = .next t ∧ (t.exch x).state = .awaitingSend ∧ (t.exch x).regs = (σ.exch x).regs ∧
      t.out = σ.out ++ [{ peer := peer, bytes := (serialize σ.params.nibMax (σ.msg (.main s)) σ.params.maxDatagram).bytes }] ∧
      t.calls = σ.calls ∧ t.caller.err = .ok ∧ (t.exch x).codec.err = .ok ∧
      Frame { slots := [], bufs := [.xbuf x], codecs := [.caller, .exchange x], exchs := [], workers := [] } σ t

/-- Every error of XSEND leaves the context's registers (R205). Only TransportError has handed a datagram to the transport: the
history records that transmit, as every one (45_dispatcher.md R266, 10_state.md R48). Where the transport's answer stands (log
17), and that both the exchange's and the caller's `ERR` hold the error (log 23), are the model's choice. -/
def Obligations.XsendErrorsLeaveTheContext : Prop :=
  ∀ (x s : Nat) (peer : PeerAddr) (σ : State), σ.exchOk x = true →
    let e := if (σ.exch x).state ≠ .awaitingSend then Err.invalid
      else if σ.slotOk s = false then .invalid
      else if (serialize σ.params.nibMax (σ.msg (.main s)) σ.params.maxDatagram).err ≠ .ok then
        (serialize σ.params.nibMax (σ.msg (.main s)) σ.params.maxDatagram).err
      else if σ.sendAnswer = false then .transportError
      else .ok
    e ≠ .ok →
    ∃ t, exec (.xsend x s peer) σ = .next t ∧ t.caller.err = e ∧ (t.exch x).codec.err = e ∧
      (t.exch x).regs = (σ.exch x).regs ∧ t.calls = σ.calls ∧
      t.out = (if e = .transportError then
          σ.out ++ [{ peer := peer, bytes := (serialize σ.params.nibMax (σ.msg (.main s)) σ.params.maxDatagram).bytes }]
        else σ.out) ∧
      ((σ.exch x).state ≠ .awaitingSend → (t.buf (.xbuf x)).len = (σ.buf (.xbuf x)).len ∧
        ∀ a, t.readByte (.xbuf x) a = σ.readByte (.xbuf x) a) ∧
      Frame { slots := [], bufs := [.xbuf x], codecs := [.caller, .exchange x], exchs := [], workers := [] } σ t

/-- XEXPIRE with attempts left: the wait doubles, the same bytes go to the same peer again, one attempt more (R206, R207). A
datagram that the transport refuses is transmitted, and counts, like any other (10_state.md R48). Where the transport's answers
stand is the model's choice (log 17). A wait that leaves its 32 bits is left out: 00_scope.md R8 excludes it (log 14). -/
def Obligations.XexpireResendsTheSameBytes : Prop :=
  ∀ (x : Nat) (σ : State), σ.exchOk x = true → (σ.exch x).state = .awaitingAck → (σ.exch x).armed = true →
    (σ.exch x).attempts < σ.maxAttempts → (σ.exch x).len ≤ (σ.buf (.xbuf x)).len → 2 * (σ.exch x).wait.toNat < 2 ^ 32 →
    ∃ t, exec (.xexpire x) σ = .next t ∧
      (t.exch x).regs = ⟨.awaitingAck, (σ.exch x).mid, (σ.exch x).attempts + 1,
        BitVec.ofNat 32 (2 * (σ.exch x).wait.toNat), true, (σ.exch x).len, (σ.exch x).peer, (σ.exch x).reply⟩ ∧
      t.out = σ.out ++ [{ peer := (σ.exch x).peer, bytes := (σ.buf (.xbuf x)).bytes.take (σ.exch x).len }] ∧
      t.calls = σ.calls ∧
      t.sendAnswers = σ.sendAnswers.tail ∧
      Frame { slots := [], bufs := [], codecs := [], exchs := [x], workers := [] } σ t

/-- XEXPIRE without attempts left ends the exchange in TimedOut and sends nothing; not enabled, it changes nothing (R201,
R206). That a disabled event is a step that changes nothing is the model's choice (log 20). -/
def Obligations.XexpireTimesOut : Prop :=
  ∀ (x : Nat) (σ : State), σ.exchOk x = true →
    ((σ.exch x).state = .awaitingAck → (σ.exch x).armed = true → σ.maxAttempts ≤ (σ.exch x).attempts →
      ∃ t, exec (.xexpire x) σ = .next t ∧
        (t.exch x).regs = ⟨.timedOut, (σ.exch x).mid, (σ.exch x).attempts, (σ.exch x).wait, false, (σ.exch x).len,
          (σ.exch x).peer, (σ.exch x).reply⟩ ∧
        Frame { slots := [], bufs := [], codecs := [], exchs := [x], workers := [] } σ t ∧ Quiet σ t) ∧
    ((σ.exch x).state ≠ .awaitingAck ∨ (σ.exch x).armed = false → exec (.xexpire x) σ = .next σ)

/-- The wait sequence (R208): after XSEND of a Confirmable message, `k` expiries without a reply leave the wait at
`2^k * W0` and `k + 1` equal datagrams sent, and the `MAX_ATTEMPTS`-th expiry times the exchange out with none more sent,
whatever the transport answers to the retransmissions. Where its answers stand is the model's choice (log 17). -/
def Obligations.WaitsDoubleUntilTimeout : Prop :=
  ∀ (x s : Nat) (peer : PeerAddr) (σ : State), σ.exchOk x = true → (σ.exch x).state = .awaitingSend → σ.slotOk s = true →
    (serialize σ.params.nibMax (σ.msg (.main s)) σ.params.maxDatagram).err = .ok → σ.sendAnswer = true →
    (σ.msg (.main s)).kind = .con → bootLegal σ.w0 σ.maxAttempts = true →
    let d : Datagram := { peer := peer, bytes := (serialize σ.params.nibMax (σ.msg (.main s)) σ.params.maxDatagram).bytes }
    (∀ k, k < σ.maxAttempts →
      ∃ t, execAll (.xsend x s peer :: List.replicate k (.xexpire x)) σ = .next t ∧
        (t.exch x).state = .awaitingAck ∧ (t.exch x).armed = true ∧ (t.exch x).attempts = k + 1 ∧
        (t.exch x).wait.toNat = 2 ^ k * σ.w0.toNat ∧ (t.exch x).mid = (σ.msg (.main s)).mid ∧
        t.out = σ.out ++ List.replicate (k + 1) d) ∧
    ∃ t, execAll (.xsend x s peer :: List.replicate σ.maxAttempts (.xexpire x)) σ = .next t ∧
      (t.exch x).state = .timedOut ∧ (t.exch x).armed = false ∧ (t.exch x).attempts = σ.maxAttempts ∧
      (t.exch x).wait.toNat = 2 ^ (σ.maxAttempts - 1) * σ.w0.toNat ∧ t.out = σ.out ++ List.replicate σ.maxAttempts d

/-- XRECV of a correlated Acknowledgement or Reset: the terminal state, the timer cancelled, the reply delivered in the reply
slot (R202, R209, R210). That a datagram at the exchange's port is cut to `MAX_DATAGRAM` is deduced (log 31), and that the bytes
of `XRX[x]` past it stay is the model's choice (log 34). -/
def Obligations.XrecvCorrelatedReplyEndsTheExchange : Prop :=
  ∀ (x : Nat) (datagram : List Byte) (σ : State), σ.exchOk x = true → (σ.exch x).state = .awaitingAck →
    parses σ.params (σ.cut datagram) = true → (parsedMsg σ.params (σ.cut datagram)).mid = (σ.exch x).mid →
    ∀ p ∈ [(Kind.ack, XState.acked), (Kind.rst, XState.reset)], (parsedMsg σ.params (σ.cut datagram)).kind = p.1 →
      ∃ t, exec (.xrecv x datagram) σ = .next t ∧
        (t.exch x).regs = ⟨p.2, (σ.exch x).mid, (σ.exch x).attempts, (σ.exch x).wait, false, (σ.exch x).len,
          (σ.exch x).peer, some (.reply x)⟩ ∧
        (parsedMsg σ.params (σ.cut datagram)).same (t.msg (.reply x)) = true ∧
        (t.buf (.xrx x)).bytes = σ.cut datagram ∧
        (∀ a, (σ.cut datagram).length ≤ a → t.readByte (.xrx x) a = σ.readByte (.xrx x) a) ∧
        Frame { slots := [.reply x], bufs := [.xrx x], codecs := [.exchange x], exchs := [x], workers := [] } σ t ∧
        Quiet σ t

/-- XRECV of anything else is ignored: the datagram is placed in `XRX[x]` and parsed on the exchange's codec copy, no register of
the context changes, and nothing is sent (R209, R211). Once a reply is delivered, in Acked and Reset, its slot stays as it was
(R211, R213, 10_state.md R43); that the ignored message is not put into it is deduced from these (log 24). That a datagram at the
exchange's port is cut to `MAX_DATAGRAM` is deduced too (log 31), and that the bytes of `XRX[x]` past it stay is the model's
choice (log 34). -/
def Obligations.XrecvIgnoresEverythingElse : Prop :=
  ∀ (x : Nat) (datagram : List Byte) (σ : State), σ.exchOk x = true →
    ((σ.exch x).state ≠ .awaitingAck ∨ parses σ.params (σ.cut datagram) = false ∨
      (parsedMsg σ.params (σ.cut datagram)).mid ≠ (σ.exch x).mid ∨
      (parsedMsg σ.params (σ.cut datagram)).kind = .con ∨ (parsedMsg σ.params (σ.cut datagram)).kind = .non) →
    let o := parse σ.params σ.draws (σ.msg (.reply x)) (σ.cut datagram)
    ∃ t, exec (.xrecv x datagram) σ = .next t ∧ (t.exch x).regs = (σ.exch x).regs ∧
      (t.buf (.xrx x)).bytes = σ.cut datagram ∧
      (∀ a, (σ.cut datagram).length ≤ a → t.readByte (.xrx x) a = σ.readByte (.xrx x) a) ∧
      (t.codec (.exchange x)).err = o.err ∧ (t.codec (.exchange x)).hdrValid = o.hdrValid ∧
      (t.codec (.exchange x)).pos = o.pos ∧ (t.codec (.exchange x)).prev = o.prev ∧
      ((σ.exch x).state = .acked ∨ (σ.exch x).state = .reset → t.msg (.reply x) = σ.msg (.reply x)) ∧
      Frame { slots := [.reply x], bufs := [.xrx x], codecs := [.exchange x], exchs := [], workers := [] } σ t ∧ Quiet σ t

/-- Over every instruction and state: a context moves only along the arcs of R200, each by its own event, in a terminal state no
register changes, and a delivered reply stays in its slot (R200, R201, R212, R213, 10_state.md R43). That an arriving datagram
does not write the slot of a delivered reply is deduced (log 24). That a HDR row is such an arrival is the model's choice (log 4). -/
def Obligations.ExchangesMoveOnlyAlongTheirArcs : Prop :=
  ∀ (i : Instr) (σ t : State), exec i σ = .next t → ∀ x : Nat,
    ((t.exch x).state = (σ.exch x).state ∨
      ((σ.exch x).state = .awaitingSend ∧ (t.exch x).state = .awaitingAck ∧ ∃ s peer, i = .xsend x s peer) ∨
      ((σ.exch x).state = .awaitingAck ∧ (t.exch x).state = .timedOut ∧ i = .xexpire x) ∨
      ((σ.exch x).state = .awaitingAck ∧ ((t.exch x).state = .acked ∨ (t.exch x).state = .reset) ∧
        ((∃ datagram, i = .xrecv x datagram) ∨ arrivesAt i = some (.exchange x)))) ∧
    ((σ.exch x).state.terminal = true → (t.exch x).regs = (σ.exch x).regs) ∧
    ((σ.exch x).state = .acked ∨ (σ.exch x).state = .reset → t.msg (.reply x) = σ.msg (.reply x))

/-! The dispatcher (44_responder.md, 45_dispatcher.md). -/

/-- RX_ACCEPT takes the lowest worker context not in use, which always exists without a bound, and starts a worker for the
datagram; with every context busy it changes nothing (45_dispatcher.md R252). Which free context is taken, and that a
disabled RX_ACCEPT is a step that changes nothing, are the model's choice (log 19, log 20). The plan and the application
result, which 10_state.md R46 calls unspecified here, are free (log 33): the statement says nothing of them. That the bytes of
the two buffers past their valid lengths stay is the model's choice (log 34). -/
def Obligations.RxAcceptStartsOneWorker : Prop :=
  ∀ (peer : PeerAddr) (datagram : List Byte) (σ : State),
    (σ.worker σ.freeWorker).isFree = true ∧ (∀ v, v < σ.freeWorker → (σ.worker v).isFree = false) ∧
    (σ.params.nWorkers = none → σ.workerOk σ.freeWorker = true) ∧
    (σ.workerOk σ.freeWorker = false → exec (.rxAccept peer datagram) σ = .next σ) ∧
    (σ.workerOk σ.freeWorker = true →
      let w := σ.freeWorker
      ∃ t, exec (.rxAccept peer datagram) σ = .next t ∧
        (t.worker w).phase = .parse ∧ (t.worker w).peer = peer ∧ (t.worker w).call = .noCall ∧
        (t.buf (.rx w)).bytes = σ.cut datagram ∧ (t.buf (.tx w)).len = 0 ∧
        (∀ a, (σ.cut datagram).length ≤ a → t.readByte (.rx w) a = σ.readByte (.rx w) a) ∧
        (∀ a, t.readByte (.tx w) a = σ.readByte (.tx w) a) ∧
        Frame { slots := [], bufs := [.rx w, .tx w], codecs := [], exchs := [], workers := [w] } σ t ∧ Quiet σ t)

/-- What a worker step computes is a function of that worker's own context, the parameters and the policy bit (R253, R268):
two states that agree on these give equal registers, buffers, codec registers, calls and datagrams. Equal free values too
make the contexts equal. -/
def Obligations.WorkerStepsReadOnlyTheirOwnContext : Prop :=
  ∀ (i : Instr) (w : Nat) (σ σ' t t' : State), workerOf i = some w → σ.workerOk w = true → σ.params = σ'.params →
    σ.rstOnParseError = σ'.rstOnParseError → σ.worker w = σ'.worker w → (σ.worker w).wf →
    exec i σ = .next t → exec i σ' = .next t' →
    (t.worker w).regs = (t'.worker w).regs ∧ (t.worker w).rx = (t'.worker w).rx ∧ (t.worker w).tx = (t'.worker w).tx ∧
    (t.worker w).codec = (t'.worker w).codec ∧
    (∃ c, t.calls = σ.calls ++ c ∧ t'.calls = σ'.calls ++ c) ∧
    (∃ d, t.out = σ.out ++ d ∧ t'.out = σ'.out ++ d) ∧
    (σ.draws = σ'.draws → t.worker w = t'.worker w)

/-- W_PARSE runs PARSE of the received bytes into the request slot on the worker's own codec copy (R255). -/
def Obligations.WorkerParseRunsTheCodec : Prop :=
  ∀ (w : Nat) (σ : State), σ.workerOk w = true → (σ.worker w).phase = .parse →
    let k := σ.worker w
    let o := parse σ.params σ.draws k.reqMsg k.rx.bytes
    ∃ t, exec (.wParse w) σ = .next t ∧ t.msg (.req w) = o.msg ∧ (t.codec (.worker w)).err = o.err ∧
      (t.codec (.worker w)).hdrValid = o.hdrValid ∧ (t.codec (.worker w)).pos = o.pos ∧ (t.codec (.worker w)).prev = o.prev ∧
      (t.worker w).regs = ⟨.decide, k.peer, k.plan, k.call, k.appKind, k.appCode, k.appPayload⟩ ∧
      Frame { slots := [.req w], bufs := [], codecs := [.worker w], exchs := [], workers := [w] } σ t ∧ Quiet σ t

/-- W_DECIDE writes the plan of the responder's table and goes on to the call, the reply or the end (44_responder.md R230,
R231, R233 to R238, 45_dispatcher.md R256, R257). At the end both slots are freed and nothing of the datagram remains (R267,
70_reset_and_hazards.md R335); which values the registers then hold is the model's choice (log 30). -/
def Obligations.WorkerDecideFollowsTheTable : Prop :=
  ∀ (w : Nat) (σ : State), σ.workerOk w = true → (σ.worker w).phase = .decide →
    let k := σ.worker w
    let next : Plan × Phase :=
      if k.codec.err = .versionMismatch then (.sendRst, .reply)
      else if k.codec.err ≠ .ok then
        if σ.rstOnParseError = true ∧ k.codec.hdrValid = true then (.sendRst, .reply) else (.noReply, .done)
      else
        match k.reqMsg.kind with
        | .con => if 1 ≤ k.reqMsg.code.toNat ∧ k.reqMsg.code.toNat ≤ 4 then (.sendResponse, .call) else (.sendRst, .reply)
        | .non => if 1 ≤ k.reqMsg.code.toNat ∧ k.reqMsg.code.toNat ≤ 4 then (.noReply, .call) else (.noReply, .done)
        | .ack => (.sendRst, .reply)
        | .rst => (.sendRst, .reply)
    ∃ t, exec (.wDecide w) σ = .next t ∧ Quiet σ t ∧
      if next.2 = .done then
        t.Ended w ∧
        Frame { slots := [.req w, .rsp w], bufs := [.rx w, .tx w], codecs := [.worker w], exchs := [], workers := [w] } σ t
      else
        (t.worker w).regs = ⟨next.2, k.peer, next.1, k.call, k.appKind, k.appCode, k.appPayload⟩ ∧
        Frame { slots := [], bufs := [], codecs := [], exchs := [], workers := [w] } σ t

/-- W_CALL hands the collaborator the view of the request and suspends the worker (R260). -/
def Obligations.WorkerCallHandsOverTheView : Prop :=
  ∀ (w : Nat) (σ : State), σ.workerOk w = true → (σ.worker w).phase = .call → (σ.worker w).call = .noCall →
    let k := σ.worker w
    ∃ t, exec (.wCall w) σ = .next t ∧
      (t.worker w).regs = ⟨.call, k.peer, k.plan, .pending, k.appKind, k.appCode, k.appPayload⟩ ∧
      t.calls = σ.calls ++ [{
        worker := w, peer := k.peer, method := k.reqMsg.code, token := k.reqMsg.token.take k.reqMsg.tkl.toNat,
        opts := k.reqMsg.opts, payload := k.reqMsg.payload }] ∧
      t.out = σ.out ∧ t.sendAnswers = σ.sendAnswers ∧
      Frame { slots := [], bufs := [], codecs := [], exchs := [], workers := [w] } σ t

/-- W_RETURN records the collaborator's result and goes on to the reply; without a reply owed the result is discarded and the
worker ends (R261), both slots freed and nothing of the datagram left (R267, 70_reset_and_hazards.md R335). Which values an
ended worker's registers hold is the model's choice (log 30). -/
def Obligations.WorkerReturnRecordsTheResult : Prop :=
  ∀ (w : Nat) (result : AppResult) (σ : State), σ.workerOk w = true → (σ.worker w).call = .pending →
    let k := σ.worker w
    ∃ t, exec (.wReturn w result) σ = .next t ∧ Quiet σ t ∧
      if k.plan = .noReply then
        t.Ended w ∧
        Frame { slots := [.req w, .rsp w], bufs := [.rx w, .tx w], codecs := [.worker w], exchs := [], workers := [w] } σ t
      else
        (t.worker w).call = .returned ∧ (t.worker w).result = result ∧ (t.worker w).phase = .reply ∧
        (t.worker w).plan = k.plan ∧ (t.worker w).peer = k.peer ∧
        Frame { slots := [], bufs := [], codecs := [], exchs := [], workers := [w] } σ t

/-- W_REPLY builds the plan's reply in the reply slot and serializes it into a buffer of exactly its size; when that buffer
cannot be had the worker ends without a reply (R263, R264, 30_encoding.md R114), both slots freed and nothing of the datagram
left (R267, 70_reset_and_hazards.md R335). That it cannot be had exactly when it is over `MAX_DATAGRAM` is the model's choice
(log 25), and so are the values an ended worker's registers hold (log 30) and that the bytes of `TX[w]` past the reply stay (log
34). The token is asked to fit only where the reply
mirrors it. -/
def Obligations.WorkerReplyBuildsTheReplyBytes : Prop :=
  ∀ (w : Nat) (σ : State), σ.workerOk w = true → (σ.worker w).phase = .reply → (σ.worker w).plan ≠ .noReply →
    ((σ.worker w).plan = .sendResponse → (σ.worker w).appKind ≠ .nothing →
      (σ.worker w).reqMsg.token.length = 8 ∧ (σ.worker w).reqMsg.tkl.toNat ≤ 8) →
    let k := σ.worker w
    let bytes := k.replyBytes σ.params
    ∃ t, exec (.wReply w) σ = .next t ∧ Quiet σ t ∧
      if exceeds σ.params.maxDatagram bytes.length then
        t.Ended w ∧
        Frame { slots := [.req w, .rsp w], bufs := [.rx w, .tx w], codecs := [.worker w], exchs := [], workers := [w] } σ t
      else
        (t.worker w).regs = ⟨.send, k.peer, k.plan, k.call, k.appKind, k.appCode, k.appPayload⟩ ∧
        (t.buf (.tx w)).bytes = bytes ∧ (∀ a, bytes.length ≤ a → t.readByte (.tx w) a = σ.readByte (.tx w) a) ∧
        (t.msg (.rsp w)).opts = [] ∧ (t.msg (.rsp w)).mid = k.reqMsg.mid ∧ (t.codec (.worker w)).err = .ok ∧
        Frame { slots := [.rsp w], bufs := [.tx w], codecs := [.worker w], exchs := [], workers := [w] } σ t

/-- W_SEND transmits the reply once, to the address the datagram came from, and ends the worker (R265): whatever the transport
answers, the history records the transmit (R266, 10_state.md R48), both slots are freed and nothing of the datagram remains
(R267, 70_reset_and_hazards.md R335). Where the transport's answers stand (log 17), and which values an ended worker's registers
hold (log 30), are the model's choice. -/
def Obligations.WorkerSendTransmitsOnce : Prop :=
  ∀ (w : Nat) (σ : State), σ.workerOk w = true → (σ.worker w).phase = .send →
    let k := σ.worker w
    ∃ t, exec (.wSend w) σ = .next t ∧ t.out = σ.out ++ [{ peer := k.peer, bytes := k.tx.bytes }] ∧ t.calls = σ.calls ∧
      t.sendAnswers = σ.sendAnswers.tail ∧ t.Ended w ∧
      Frame { slots := [.req w, .rsp w], bufs := [.rx w, .tx w], codecs := [.worker w], exchs := [], workers := [w] } σ t

/-- A worker step whose condition does not hold changes nothing (R254 to R265). That it is a step at all is the model's choice
(log 20). -/
def Obligations.DisabledWorkerStepsChangeNothing : Prop :=
  ∀ (w : Nat) (result : AppResult) (σ : State), σ.workerOk w = true →
    ((σ.worker w).phase ≠ .parse → exec (.wParse w) σ = .next σ) ∧
    ((σ.worker w).phase ≠ .decide → exec (.wDecide w) σ = .next σ) ∧
    ((σ.worker w).phase ≠ .call ∨ (σ.worker w).call ≠ .noCall → exec (.wCall w) σ = .next σ) ∧
    ((σ.worker w).call ≠ .pending → exec (.wReturn w result) σ = .next σ) ∧
    ((σ.worker w).phase ≠ .reply → exec (.wReply w) σ = .next σ) ∧
    ((σ.worker w).phase ≠ .send → exec (.wSend w) σ = .next σ)

/-! The HDR rows (30_encoding.md R111). -/

/-- A HDR row is the arrival of its datagram: PARSE of it for a slot, XRECV of it for an exchange, and at the dispatcher
RX_ACCEPT followed by the worker's own steps up to its suspension or its end. That a row stands for the arrival is the model's
choice (log 4), and so are which free worker context the dispatcher takes (log 19), and that an arrival without one, and a step of
the run that is not enabled, change nothing (log 20). -/
def Obligations.HeaderRowsAreDatagramArrivals : Prop :=
  ∀ (kind : Kind) (tkl : BitVec 4) (low₁ : BitVec 1) (low₂ : BitVec 2) (code : Byte) (mid : Mid) (rest : List Byte)
    (σ : State),
    (∀ d, ∀ p ∈ headerRows kind tkl low₁ low₂ code mid (.slot d) rest,
      ∃ t, exec p.1 σ = .next t ∧ exec (.parse d (.bytes p.2) p.2.length) σ = .next t) ∧
    (∀ x, ∀ p ∈ headerRows kind tkl low₁ low₂ code mid (.exchange x) rest,
      ∃ t, exec p.1 σ = .next t ∧ exec (.xrecv x p.2) σ = .next t) ∧
    ∀ peer, ∀ p ∈ headerRows kind tkl low₁ low₂ code mid (.dispatcher peer) rest,
      (σ.workerOk σ.freeWorker = false → exec p.1 σ = .next σ) ∧
      (σ.workerOk σ.freeWorker = true →
        ∃ t, exec p.1 σ = .next t ∧
          execAll [.rxAccept peer p.2, .wParse σ.freeWorker, .wDecide σ.freeWorker, .wCall σ.freeWorker,
            .wReply σ.freeWorker, .wSend σ.freeWorker] σ = .next t)

/-- At the dispatcher a bad version, and, when the datagram parses, an Acknowledgement, a Reset or a Confirmable message
without a method code, is answered with the Reset `70 00 hi lo` and nothing is called (44_responder.md R231, R234, R236); under
RST_ON_PARSE_ERROR so is every datagram with a decoded header that does not parse (R237), a token length of 9 to 15 among them.
The worker then ends. That a row runs the arrival and the worker to its end is the model's choice (log 4), and so are which free
worker context it takes (log 19), that a buffer for the reply can be had (log 25) and what an ended worker's registers hold (log
30). -/
def Obligations.HeaderRowsThatOweAReset : Prop :=
  ∀ (kind : Kind) (tkl : BitVec 4) (low₁ : BitVec 1) (low₂ : BitVec 2) (code : Byte) (mid : Mid) (peer : PeerAddr)
    (rest : List Byte) (σ : State), σ.workerOk σ.freeWorker = true → (∀ n, σ.params.maxDatagram = some n → 4 ≤ n) →
    let w := σ.freeWorker
    ∀ p ∈ headerRows kind tkl low₁ low₂ code mid (.dispatcher peer) rest,
      (p.1 ∈ [.hdrBadver0 kind tkl code mid (.dispatcher peer) rest, .hdrBadver2 kind tkl code mid (.dispatcher peer) rest,
          .hdrBadver3 kind tkl code mid (.dispatcher peer) rest] ∨
        (parses σ.params (σ.cut p.2) = true ∧ p.1 ∈ [.ackAny tkl code mid (.dispatcher peer) rest,
          .rstAny tkl code mid (.dispatcher peer) rest]) ∨
        (parses σ.params (σ.cut p.2) = true ∧ isMethod code = false ∧ p.1 = .conOther tkl code mid (.dispatcher peer) rest) ∨
        (σ.rstOnParseError = true ∧ p.1 ∈ [.hdrTkl9 kind code mid (.dispatcher peer) rest,
          .hdrTkl10to11 kind low₁ code mid (.dispatcher peer) rest,
          .hdrTkl12to15 kind low₂ code mid (.dispatcher peer) rest]) ∨
        (σ.rstOnParseError = true ∧ parses σ.params (σ.cut p.2) = false)) →
      ∃ t, exec p.1 σ = .next t ∧ t.out = σ.out ++ [{ peer := peer, bytes := [0x70, 0x00, midHigh mid, midLow mid] }] ∧
        t.calls = σ.calls ∧ t.Ended w ∧
        Frame { slots := [.req w, .rsp w], bufs := [.rx w, .tx w], codecs := [.worker w], exchs := [], workers := [w] } σ t

/-- At the dispatcher, under the default policy, a token length of 9 to 15 and every version-1 datagram that does not parse are
dropped silently, and a Non-confirmable message without a method code gets nothing under either policy (44_responder.md R235,
R237, 45_dispatcher.md R257), and the worker has ended. That a row is RX_ACCEPT and the worker's steps back to back is the
model's choice (log 4), and so are which free worker context it takes (log 19) and what an ended worker's registers hold (log
30). -/
def Obligations.HeaderRowsAnsweredWithSilence : Prop :=
  ∀ (kind : Kind) (tkl : BitVec 4) (low₁ : BitVec 1) (low₂ : BitVec 2) (code : Byte) (mid : Mid) (peer : PeerAddr)
    (rest : List Byte) (σ : State), σ.workerOk σ.freeWorker = true →
    let w := σ.freeWorker
    ∀ p ∈ (headerRows kind tkl low₁ low₂ code mid (.dispatcher peer) rest).drop 3,
      ((σ.rstOnParseError = false ∧ p.1 ∈ [.hdrTkl9 kind code mid (.dispatcher peer) rest,
          .hdrTkl10to11 kind low₁ code mid (.dispatcher peer) rest,
          .hdrTkl12to15 kind low₂ code mid (.dispatcher peer) rest]) ∨
        (σ.rstOnParseError = false ∧ parses σ.params (σ.cut p.2) = false) ∨
        (parses σ.params (σ.cut p.2) = true ∧ isMethod code = false ∧ p.1 = .nonOther tkl code mid (.dispatcher peer) rest)) →
      ∃ t, exec p.1 σ = .next t ∧ t.Ended w ∧ Quiet σ t ∧
        Frame { slots := [.req w, .rsp w], bufs := [.rx w, .tx w], codecs := [.worker w], exchs := [], workers := [w] } σ t

/-- At the dispatcher a Confirmable or Non-confirmable request that parses is handed to the collaborator, and its worker waits
in Call with the plan SendResponse or NoReply; nothing is sent yet (44_responder.md R233, R235, 45_dispatcher.md R260). That a
row runs the worker up to its suspension is the model's choice (log 4), and so is which context it takes (log 19). -/
def Obligations.MethodRowsCallTheCollaborator : Prop :=
  ∀ (tkl : BitVec 4) (mid : Mid) (peer : PeerAddr) (rest : List Byte) (σ : State), σ.workerOk σ.freeWorker = true →
    let w := σ.freeWorker
    let dest := Dest.dispatcher peer
    ∀ p ∈ [(Instr.conGet tkl mid dest rest, Kind.con, (0x01 : Byte)), (.conPost tkl mid dest rest, .con, 0x02),
           (.conPut tkl mid dest rest, .con, 0x03), (.conDelete tkl mid dest rest, .con, 0x04),
           (.nonGet tkl mid dest rest, .non, 0x01), (.nonPost tkl mid dest rest, .non, 0x02),
           (.nonPut tkl mid dest rest, .non, 0x03), (.nonDelete tkl mid dest rest, .non, 0x04)],
      let bytes := σ.cut (headerBytes 1 p.2.1 tkl p.2.2 mid ++ rest)
      let m := parsedMsg σ.params bytes
      parses σ.params bytes = true →
      ∃ t, exec p.1 σ = .next t ∧
        t.calls = σ.calls ++ [{
          worker := w, peer := peer, method := p.2.2, token := m.tokenBytes, opts := m.opts, payload := m.payload }] ∧
        t.out = σ.out ∧ t.sendAnswers = σ.sendAnswers ∧ (t.worker w).phase = .call ∧ (t.worker w).call = .pending ∧
        (t.worker w).peer = peer ∧ (t.worker w).plan = (if p.2.1 = .con then Plan.sendResponse else .noReply) ∧
        m.same (t.msg (.req w)) = true ∧
        Frame { slots := [.req w], bufs := [.rx w, .tx w], codecs := [.worker w], exchs := [], workers := [w] } σ t

/-! The block as a whole. -/

/-- The Confirmable obligation law (44_responder.md R239): a datagram that parses to a Confirmable message gets exactly one
reply, with the request's id, and its token when the reply is an application response; the collaborator is called at most
once. Derived: that a reply within `MAX_DATAGRAM` always goes out rests on the model's choice that a buffer for it can be had (log
25), and which worker context runs is the model's choice too (log 19); so are the values it then holds (log 30), and that the
run's steps that are not enabled are passed over (log 20). -/
def Obligations.ConfirmableGetsExactlyOneReply : Prop :=
  ∀ (peer : PeerAddr) (datagram : List Byte) (result : AppResult) (σ : State), σ.workerOk σ.freeWorker = true →
    parses σ.params (σ.cut datagram) = true → (parsedMsg σ.params (σ.cut datagram)).kind = .con →
    let m := parsedMsg σ.params (σ.cut datagram)
    let reply := if isMethod m.code then resultBytes σ.params m result else emptyReplyBytes 0x70 m.mid
    exceeds σ.params.maxDatagram reply.length = false →
    ∃ t, execAll (.rxAccept peer datagram :: workerRun σ.freeWorker result) σ = .next t ∧
      t.out = σ.out ++ [{ peer := peer, bytes := reply }] ∧
      reply.getD 2 0 = midHigh m.mid ∧ reply.getD 3 0 = midLow m.mid ∧
      (isMethod m.code = true → result ≠ .nothing → (reply.drop 4).take m.tkl.toNat = m.tokenBytes ∧
        (reply.getD 0 0).toNat = 0x60 + m.tkl.toNat) ∧
      t.calls.length = σ.calls.length + (if isMethod m.code then 1 else 0) ∧ t.Ended σ.freeWorker

/-- The Non-confirmable silence law (44_responder.md R240): a datagram whose version bits are 1 and whose kind bits are NON gets
no reply, whatever the collaborator answers; under RST_ON_PARSE_ERROR this is said of those that parse. A datagram of another
version gets the Reset with its id, whatever its kind bits. Derived: that a buffer for that Reset can be had (log 25), which
worker context runs (log 19), that the run's steps that are not enabled are passed over (log 20), and what the context holds when
the worker has ended (log 30) are the model's choice. -/
def Obligations.NonConfirmableGetsNoReply : Prop :=
  (∀ (peer : PeerAddr) (datagram : List Byte) (b0 : Byte) (tail : List Byte) (result : AppResult) (σ : State),
    σ.workerOk σ.freeWorker = true → σ.cut datagram = b0 :: tail → b0.toNat / 16 = 5 →
    (σ.rstOnParseError = false ∨ parses σ.params (σ.cut datagram) = true) →
    ∃ t, execAll (.rxAccept peer datagram :: workerRun σ.freeWorker result) σ = .next t ∧ t.out = σ.out ∧
      t.sendAnswers = σ.sendAnswers ∧ t.Ended σ.freeWorker) ∧
  ∀ (peer : PeerAddr) (datagram : List Byte) (b0 b1 b2 b3 : Byte) (tail : List Byte) (result : AppResult) (σ : State),
    σ.workerOk σ.freeWorker = true → σ.cut datagram = b0 :: b1 :: b2 :: b3 :: tail → b0.toNat / 64 ≠ 1 →
    ∃ t, execAll (.rxAccept peer datagram :: workerRun σ.freeWorker result) σ = .next t ∧
      t.out = σ.out ++ [{ peer := peer, bytes := [0x70, 0x00, b2, b3] }] ∧ t.Ended σ.freeWorker

/-- Isolation, over every instruction and state: an instruction leaves every worker context it does not step or start, and
every exchange context it does not step, exactly as they were (45_dispatcher.md R253, 43_exchange.md R215, 20_memory.md
R70). Which free context an arrival starts (log 19), and that a HDR row is an arrival (log 4), are the model's choice. -/
def Obligations.ContextsAreIsolated : Prop :=
  ∀ (i : Instr) (σ t : State), exec i σ = .next t →
    (∀ w, workerOf i ≠ some w → (startsWorker i = true → σ.freeWorker ≠ w) → t.worker w = σ.worker w) ∧
    ∀ x, exchOf i ≠ some x → t.exch x = σ.exch x

/-- Over every instruction and state: no instruction writes a parameter or a boot register (10_state.md R51), the port is left
alone, and the histories only grow, by at most one datagram and one call (20_memory.md R69, R78). -/
def Obligations.ConfigurationStaysAndHistoriesGrow : Prop :=
  ∀ (i : Instr) (σ t : State), exec i σ = .next t →
    t.params = σ.params ∧ t.w0 = σ.w0 ∧ t.maxAttempts = σ.maxAttempts ∧ t.rstOnParseError = σ.rstOnParseError ∧
    t.listenPort = σ.listenPort ∧ t.port = σ.port ∧ (∃ d, t.out = σ.out ++ d ∧ d.length ≤ 1) ∧
    ∃ c, t.calls = σ.calls ++ c ∧ c.length ≤ 1
end

