-- ==== Sys2Proof/Laws/Decode.lean ====
section
/-! SUPPORT. Laws of the bit fields of the header, the option byte and the transaction code. -/

namespace Sys2Proof

@[simp] theorem Kind.ofBits_bits (k : Kind) : Kind.ofBits k.bits = k := by cases k <;> rfl

@[simp] theorem Kind.bits_ofBits (v : BitVec 2) : (Kind.ofBits v).bits = v := by revert v; decide

@[simp] theorem headVersion_headByte (v : BitVec 2) (k : Kind) (t : BitVec 4) : headVersion (headByte v k t) = v := by
  cases k <;> revert v t <;> decide

@[simp] theorem headKind_headByte (v : BitVec 2) (k : Kind) (t : BitVec 4) : headKind (headByte v k t) = k := by
  cases k <;> revert v t <;> decide

@[simp] theorem headTkl_headByte (v : BitVec 2) (k : Kind) (t : BitVec 4) : headTkl (headByte v k t) = t := by
  cases k <;> revert v t <;> decide

@[simp] theorem headByte_fields (b : Byte) : headByte (headVersion b) (headKind b) (headTkl b) = b := by
  revert b; decide

theorem headByte_toNat (v : BitVec 2) (k : Kind) (t : BitVec 4) :
    (headByte v k t).toNat = v.toNat * 64 + k.bits.toNat * 16 + t.toNat := by
  cases k <;> revert v t <;> decide

theorem be16_toNat (h l : Byte) : (be16 h l).toNat = h.toNat * 256 + l.toNat := by
  have hl : l.toNat < 2 ^ 8 := l.isLt
  simp only [be16, BitVec.toNat_append]
  rw [← Nat.shiftLeft_add_eq_or_of_lt hl, Nat.shiftLeft_eq]

theorem midHigh_toNat (m : Mid) : (midHigh m).toNat = m.toNat / 256 := by
  have := m.isLt
  simp only [midHigh, BitVec.extractLsb'_toNat, Nat.shiftRight_eq_div_pow]
  omega

theorem midLow_toNat (m : Mid) : (midLow m).toNat = m.toNat % 256 := by
  simp only [midLow, BitVec.extractLsb'_toNat, Nat.shiftRight_zero]

@[simp] theorem be16_fields (m : Mid) : be16 (midHigh m) (midLow m) = m := by
  apply BitVec.eq_of_toNat_eq
  rw [be16_toNat, midHigh_toNat, midLow_toNat]; omega

@[simp] theorem midHigh_be16 (h l : Byte) : midHigh (be16 h l) = h := by
  apply BitVec.eq_of_toNat_eq
  have := l.isLt
  rw [midHigh_toNat, be16_toNat]; omega

@[simp] theorem midLow_be16 (h l : Byte) : midLow (be16 h l) = l := by
  apply BitVec.eq_of_toNat_eq
  have := l.isLt
  rw [midLow_toNat, be16_toNat]; omega

@[simp] theorem optDelta_optByte (d l : BitVec 4) : optDelta (optByte d l) = d := by revert d l; decide

@[simp] theorem optLength_optByte (d l : BitVec 4) : optLength (optByte d l) = l := by revert d l; decide

@[simp] theorem optByte_fields (b : Byte) : optByte (optDelta b) (optLength b) = b := by revert b; decide

theorem optByte_toNat (d l : BitVec 4) : (optByte d l).toNat = d.toNat * 16 + l.toNat := by revert d l; decide

/-- An option byte is the marker exactly when both nibbles are 15 (30_encoding.md R102). -/
theorem optByte_eq_marker (d l : BitVec 4) :
    optByte d l = Config.payloadMarker ↔ d = Config.nibReserved ∧ l = Config.nibReserved := by revert d l; decide

@[simp] theorem opBits_setWidth (op : BitVec 5) : (op.setWidth 8).setWidth 5 = op := by revert op; decide

theorem opByte_lt (op : BitVec 5) : (op.setWidth 8).toNat < 32 := by revert op; decide

theorem opByte_of_lt (b : Byte) (h : b.toNat < 32) : (b.setWidth 5).setWidth 8 = b := by
  revert b; decide

end Sys2Proof
end

