-- ==== Sys2Proof/Laws/Tables.lean ====
section
/-! SUPPORT. Tables and byte memory: reading after writing, the canonical form kept by every write. -/

namespace Sys2Proof.Machine

theorem lookup_dropEntry {α : Type} (d : α) (m : List (Nat × α)) (a b : Nat) :
    lookup d (dropEntry a m) b = if b = a then d else lookup d m b := by
  induction m with
  | nil => simp [dropEntry, lookup]
  | cons e m ih =>
    obtain ⟨k, w⟩ := e
    by_cases hk : k = a <;> by_cases hb : b = a <;> by_cases hbk : b = k <;> simp_all [dropEntry, lookup]

theorem dropEntry_length_le {α : Type} (m : List (Nat × α)) (a : Nat) : (dropEntry a m).length ≤ m.length := by
  induction m with
  | nil => simp [dropEntry]
  | cons e m ih => simp only [dropEntry]; split <;> simp <;> omega

/-- A table that holds no entry of an index: its head is another index and its tail holds none either. -/
theorem dropEntry_eq_self {α : Type} {k a : Nat} {w : α} {m : List (Nat × α)}
    (h : dropEntry a ((k, w) :: m) = (k, w) :: m) : k ≠ a ∧ dropEntry a m = m := by
  have hk : k ≠ a := by
    rintro rfl
    have h1 := congrArg List.length h
    have h2 := dropEntry_length_le m k
    simp [dropEntry] at h1
    omega
  exact ⟨hk, by simpa [dropEntry, hk] using h⟩

theorem lookup_insertEntry {α : Type} (d v : α) (m : List (Nat × α)) (a b : Nat) (hm : dropEntry a m = m) :
    lookup d (insertEntry a v m) b = if b = a then v else lookup d m b := by
  induction m with
  | nil => simp [insertEntry, lookup]
  | cons e m ih =>
    obtain ⟨k, w⟩ := e
    obtain ⟨hk, hm'⟩ := dropEntry_eq_self hm
    have ih := ih hm'
    simp only [insertEntry]
    split
    · simp [lookup]
    · simp only [lookup, ih]
      by_cases hbk : b = k
      · subst hbk; simp [hk]
      · simp [hbk]

theorem dropEntry_dropEntry {α : Type} (m : List (Nat × α)) (a : Nat) : dropEntry a (dropEntry a m) = dropEntry a m := by
  induction m with
  | nil => rfl
  | cons e m ih =>
    obtain ⟨k, w⟩ := e
    by_cases hk : k = a <;> simp [dropEntry, hk, ih]

variable {α : Type} [DecidableEq α]

/-- Reading after writing: the written index reads the value, every other index reads as before. -/
theorem lookup_store (d : α) (m : List (Nat × α)) (a b : Nat) (v : α) :
    lookup d (store d m a v) b = if b = a then v else lookup d m b := by
  unfold store
  split
  · subst_vars; exact lookup_dropEntry _ _ _ _
  · rw [lookup_insertEntry _ _ _ _ _ (dropEntry_dropEntry m a), lookup_dropEntry]
    split <;> rfl

theorem dropEntry_insertEntry {α : Type} (v : α) (m : List (Nat × α)) (a : Nat) :
    dropEntry a (insertEntry a v m) = dropEntry a m := by
  induction m with
  | nil => simp [insertEntry, dropEntry]
  | cons e m ih =>
    obtain ⟨k, w⟩ := e
    simp only [insertEntry]
    split_ifs with h
    · simp [dropEntry]
    · simp only [dropEntry, ih]

theorem dropEntry_store (d : α) (m : List (Nat × α)) (a : Nat) (v : α) : dropEntry a (store d m a v) = dropEntry a m := by
  unfold store
  split_ifs
  · exact dropEntry_dropEntry _ _
  · rw [dropEntry_insertEntry, dropEntry_dropEntry]

/-- The last write of an entry counts. -/
theorem store_store (d : α) (m : List (Nat × α)) (a : Nat) (v w : α) : store d (store d m a v) a w = store d m a w := by
  show (if w = d then dropEntry a (store d m a v) else insertEntry a w (dropEntry a (store d m a v))) = _
  rw [dropEntry_store]
  rfl

@[simp] theorem lookup_store_same (d : α) (m : List (Nat × α)) (a : Nat) (v : α) : lookup d (store d m a v) a = v := by
  simp [lookup_store]

theorem canonicalFrom_mono (d : α) (m : List (Nat × α)) {lo lo' : Nat} (h : lo ≤ lo') :
    canonicalFrom d lo' m = true → canonicalFrom d lo m = true := by
  cases m with
  | nil => simp [canonicalFrom]
  | cons e m => simp only [canonicalFrom, Bool.and_eq_true, decide_eq_true_eq]; rintro ⟨⟨h1, h2⟩, h3⟩; exact ⟨⟨by omega, h2⟩, h3⟩

theorem canonicalFrom_dropEntry (d : α) (m : List (Nat × α)) (a lo : Nat) :
    canonicalFrom d lo m = true → canonicalFrom d lo (dropEntry a m) = true := by
  induction m generalizing lo with
  | nil => simp [dropEntry]
  | cons e m ih =>
    simp only [canonicalFrom, Bool.and_eq_true, decide_eq_true_eq, dropEntry]
    rintro ⟨⟨h1, h2⟩, h3⟩
    split
    · exact canonicalFrom_mono d _ (by omega) (ih _ h3)
    · simp only [canonicalFrom, Bool.and_eq_true, decide_eq_true_eq]; exact ⟨⟨h1, h2⟩, ih _ h3⟩

theorem canonicalFrom_insertEntry (d v : α) (hv : v ≠ d) (m : List (Nat × α)) (a lo : Nat) (hlo : lo ≤ a)
    (ha : dropEntry a m = m) : canonicalFrom d lo m = true → canonicalFrom d lo (insertEntry a v m) = true := by
  induction m generalizing lo with
  | nil => simp [insertEntry, canonicalFrom, hv, hlo]
  | cons e m ih =>
    obtain ⟨k, w⟩ := e
    obtain ⟨hk, hm'⟩ := dropEntry_eq_self ha
    simp only [canonicalFrom, Bool.and_eq_true, decide_eq_true_eq, insertEntry]
    rintro ⟨⟨h1, h2⟩, h3⟩
    split
    · simp only [canonicalFrom, Bool.and_eq_true, decide_eq_true_eq]; exact ⟨⟨hlo, hv⟩, ⟨by omega, h2⟩, h3⟩
    · simp only [canonicalFrom, Bool.and_eq_true, decide_eq_true_eq]; exact ⟨⟨h1, h2⟩, ih _ (by omega) hm' h3⟩

/-- A write keeps the canonical form. -/
theorem canonical_store (d : α) (m : List (Nat × α)) (a : Nat) (v : α) (h : canonical d m = true) :
    canonical d (store d m a v) = true := by
  unfold store
  split
  · exact canonicalFrom_dropEntry d m a 0 h
  · exact canonicalFrom_insertEntry d v ‹_› _ a 0 (by omega) (dropEntry_dropEntry m a) (canonicalFrom_dropEntry d m a 0 h)

/-- What a canonical table holds is no reset entry and reads back. -/
theorem lookup_of_mem (d : α) (m : List (Nat × α)) (lo : Nat) (h : canonicalFrom d lo m = true) (e : Nat × α) (he : e ∈ m) :
    lookup d m e.1 = e.2 ∧ lo ≤ e.1 := by
  induction m generalizing lo with
  | nil => cases he
  | cons x m ih =>
    obtain ⟨k, w⟩ := x
    simp only [canonicalFrom, Bool.and_eq_true, decide_eq_true_eq] at h
    rcases List.mem_cons.1 he with rfl | he
    · exact ⟨by simp [lookup], h.1.1⟩
    · obtain ⟨h1, h2⟩ := ih (k + 1) h.2 he
      have : e.1 ≠ k := by omega
      exact ⟨by simp [lookup, this, h1], by omega⟩

/-! Byte memory. -/

@[simp] theorem Memory.read_write_same (m : List Host.Cell) (a : Nat) (v : Byte) :
    Memory.read (Memory.write m a v) a = v := lookup_store_same _ _ _ _

theorem Memory.read_write (m : List Host.Cell) (a b : Nat) (v : Byte) :
    Memory.read (Memory.write m a v) b = if b = a then v else Memory.read m b := lookup_store _ _ _ _ _

/-- A byte write keeps the canonical form. -/
theorem Memory.wf_write (m : List Host.Cell) (a : Nat) (v : Byte) (h : Memory.wf m = true) :
    Memory.wf (Memory.write m a v) = true := canonical_store _ _ _ _ h

/-- Storing a byte string keeps the canonical form. -/
theorem Memory.wf_writeBytes (m : List Host.Cell) (a : Nat) (vs : List Byte) (h : Memory.wf m = true) :
    Memory.wf (Memory.writeBytes m a vs) = true := by
  induction vs generalizing m a with
  | nil => exact h
  | cons v vs ih => exact ih _ _ (Memory.wf_write m a v h)

/-- What one byte reads after storing a byte string. -/
theorem Memory.read_writeBytes (m : List Host.Cell) (a b : Nat) (vs : List Byte) :
    Memory.read (Memory.writeBytes m a vs) b = if a ≤ b ∧ b < a + vs.length then vs.getD (b - a) 0 else Memory.read m b := by
  induction vs generalizing m a with
  | nil =>
    simp only [Memory.writeBytes, List.length_nil, Nat.add_zero]
    rw [if_neg]
    omega
  | cons v vs ih =>
    simp only [Memory.writeBytes, ih, Memory.read_write, List.length_cons]
    by_cases h1 : a + 1 ≤ b ∧ b < a + 1 + vs.length
    · have h2 : a ≤ b ∧ b < a + (vs.length + 1) := by omega
      have h3 : b - a = (b - (a + 1)) + 1 := by omega
      rw [if_pos h1, if_pos h2, h3, List.getD_cons_succ]
    · rw [if_neg h1]
      by_cases h2 : b = a
      · subst h2; rw [if_pos rfl, if_pos (by omega)]; simp
      · rw [if_neg h2, if_neg (by omega)]

theorem Memory.readBytes_congr (m m' : List Host.Cell) (a n : Nat)
    (h : ∀ b, a ≤ b → b < a + n → Memory.read m b = Memory.read m' b) :
    Memory.readBytes m a n = Memory.readBytes m' a n := by
  induction n generalizing a with
  | zero => rfl
  | succ n ih =>
    simp only [Memory.readBytes]
    rw [h a (by omega) (by omega), ih (a + 1) fun b h1 h2 => h b (by omega) (by omega)]

@[simp] theorem Memory.readBytes_length (m : List Host.Cell) (a n : Nat) : (Memory.readBytes m a n).length = n := by
  induction n generalizing a with
  | zero => rfl
  | succ n ih => simp [Memory.readBytes, ih]

/-- Reading back a stored byte string gives it. -/
@[simp] theorem Memory.readBytes_writeBytes (m : List Host.Cell) (a : Nat) (vs : List Byte) :
    Memory.readBytes (Memory.writeBytes m a vs) a vs.length = vs := by
  induction vs generalizing m a with
  | nil => rfl
  | cons v vs ih =>
    simp only [List.length_cons, Memory.readBytes, Memory.writeBytes, ih]
    congr 1
    rw [Memory.read_writeBytes, if_neg (by omega), Memory.read_write_same]

@[simp] theorem Buf.bytes_load (b : Buf) (vs : List Byte) : (b.load vs).bytes = vs :=
  Memory.readBytes_writeBytes _ _ _

@[simp] theorem Buf.load_len (b : Buf) (vs : List Byte) : (b.load vs).len = vs.length := rfl

theorem Buf.wf_load (b : Buf) (vs : List Byte) (h : Memory.wf b.mem = true) : Memory.wf (b.load vs).mem = true :=
  Memory.wf_writeBytes _ _ _ h

@[simp] theorem Buf.bytes_length (b : Buf) : b.bytes.length = b.len := Memory.readBytes_length _ _ _

end Sys2Proof.Machine
end

