-- ==== Sys2Proof/Laws/Codec.lean ====
section
/-! SUPPORT. Laws of the pure codec: sizes, the option loop of SERIALIZE, the loop of PARSE, and the round trip between
them. -/

namespace Sys2Proof.Machine

/-! Sizes. -/

theorem optsSize_eq (os : List Opt) : optsSize os = (os.map fun o => 1 + o.value.length).sum := by
  induction os with
  | nil => rfl
  | cons o os ih => simp [optsSize, ih]

theorem required_eq_wireSize (m : Msg) : required m = wireSize m := by
  unfold required wireSize Msg.hasPayload Msg.payloadLen
  rw [optsSize_eq]
  cases m.payload <;> simp [payloadSize, Config.hdrLen]

theorem NibMax.value_le (n : NibMax) : 14 ≤ n.value ∧ n.value ≤ 15 := by cases n <;> decide

/-! Sorted lists of options. -/

theorem sortedFrom_mono {lo lo' : Nat} {os : List Opt} (h : lo ≤ lo') (hs : sortedFrom lo' os = true) :
    sortedFrom lo os = true := by
  cases os with
  | nil => rfl
  | cons o os =>
    simp only [sortedFrom, Bool.and_eq_true, decide_eq_true_eq] at hs ⊢
    exact ⟨h.trans hs.1, hs.2⟩

theorem sortedFrom_le {lo : Nat} {os : List Opt} (hs : sortedFrom lo os = true) : ∀ o ∈ os, lo ≤ o.number := by
  induction os generalizing lo with
  | nil => simp
  | cons p os ih =>
    simp only [sortedFrom, Bool.and_eq_true, decide_eq_true_eq] at hs
    intro o ho
    rcases List.mem_cons.1 ho with rfl | ho
    · exact hs.1
    · exact hs.1.trans (ih hs.2 o ho)

/-- The number after which the next delta is counted: the last option's, or `prev` without one. -/
def lastFrom (prev : Nat) (os : List Opt) : Nat := (os.getLast?.map Opt.number).getD prev

theorem lastNumber_eq (os : List Opt) : lastNumber os = lastFrom 0 os := rfl

@[simp] theorem lastFrom_nil (prev : Nat) : lastFrom prev [] = prev := rfl

@[simp] theorem lastFrom_cons (prev : Nat) (o : Opt) (os : List Opt) : lastFrom prev (o :: os) = lastFrom o.number os := by
  cases os with
  | nil => rfl
  | cons p os => simp [lastFrom, List.getLast?_cons_cons]; cases h : (p :: os).getLast? <;> simp_all

@[simp] theorem lastFrom_append_one (prev : Nat) (os : List Opt) (o : Opt) : lastFrom prev (os ++ [o]) = o.number := by
  simp [lastFrom]

theorem sortedFrom_append (lo : Nat) (a b : List Opt) :
    sortedFrom lo (a ++ b) = (sortedFrom lo a && sortedFrom (lastFrom lo a) b) := by
  induction a generalizing lo with
  | nil => simp [sortedFrom]
  | cons o a ih => simp [sortedFrom, ih, Bool.and_assoc]

theorem encodable_append (n prev : Nat) (a b : List Opt) :
    encodable n prev (a ++ b) = (encodable n prev a && encodable n (lastFrom prev a) b) := by
  induction a generalizing prev with
  | nil => simp [encodable]
  | cons o a ih => simp [encodable, ih, Bool.and_assoc]

theorem encodable_mono {n n' prev : Nat} {os : List Opt} (h : n ≤ n') (he : encodable n prev os = true) :
    encodable n' prev os = true := by
  induction os generalizing prev with
  | nil => rfl
  | cons o os ih =>
    simp only [encodable, Bool.and_eq_true, decide_eq_true_eq] at he ⊢
    exact ⟨⟨he.1.1.trans h, he.1.2.trans h⟩, ih he.2⟩

/-! The option loop of SERIALIZE. -/

theorem encodeOpts_cons (n prev : Nat) (o : Opt) (os : List Opt) (h1 : o.number - prev ≤ n) (h2 : o.value.length ≤ n) :
    encodeOpts n prev (o :: os) =
      { encodeOpts n o.number os with
        bytes := optByte (BitVec.ofNat 4 (o.number - prev)) (BitVec.ofNat 4 o.value.length) ::
          (o.value ++ (encodeOpts n o.number os).bytes) } := by
  rw [encodeOpts, if_neg (by omega)]

/-- The loop ends without an error exactly when every delta and length is at most `NIB_MAX` (41_serialize.md R168). -/
theorem encodeOpts_fits (n prev : Nat) (os : List Opt) : (encodeOpts n prev os).fits = encodable n prev os := by
  induction os generalizing prev with
  | nil => rfl
  | cons o os ih =>
    by_cases h : o.number - prev ≤ n ∧ o.value.length ≤ n
    · rw [encodeOpts_cons _ _ _ _ h.1 h.2]; simp [encodable, h, ih]
    · rw [encodeOpts, if_pos (by omega)]
      simp only [encodable]
      rcases not_and_or.1 h with h | h <;> simp [h]

theorem encodeOpts_length {n prev : Nat} {os : List Opt} (h : encodable n prev os = true) :
    (encodeOpts n prev os).bytes.length = (os.map fun o => 1 + o.value.length).sum := by
  induction os generalizing prev with
  | nil => rfl
  | cons o os ih =>
    simp only [encodable, Bool.and_eq_true, decide_eq_true_eq] at h
    rw [encodeOpts_cons _ _ _ _ h.1.1 h.1.2]
    simp [ih h.2]; omega

theorem encodeOpts_prev {n prev : Nat} {os : List Opt} (h : encodable n prev os = true) :
    (encodeOpts n prev os).prev = lastFrom prev os := by
  induction os generalizing prev with
  | nil => rfl
  | cons o os ih =>
    simp only [encodable, Bool.and_eq_true, decide_eq_true_eq] at h
    rw [encodeOpts_cons _ _ _ _ h.1.1 h.1.2, lastFrom_cons]
    exact ih h.2

theorem encodeOpts_append {n prev : Nat} {a b : List Opt} (h : encodable n prev a = true) :
    (encodeOpts n prev (a ++ b)).bytes = (encodeOpts n prev a).bytes ++ (encodeOpts n (lastFrom prev a) b).bytes := by
  induction a generalizing prev with
  | nil => simp [encodeOpts]
  | cons o a ih =>
    simp only [encodable, Bool.and_eq_true, decide_eq_true_eq] at h
    rw [List.cons_append, encodeOpts_cons _ _ _ _ h.1.1 h.1.2, encodeOpts_cons _ _ _ _ h.1.1 h.1.2]
    simp [ih h.2]

/-! SERIALIZE. -/

/-- SERIALIZE of a message that passes every check (41_serialize.md R170). -/
theorem serialize_ok {nib : NibMax} {m : Msg} {cap : Option Nat} (h1 : sortedOpts m.opts = true)
    (h2 : m.tkl.toNat ≤ Config.tklMax) (h3 : exceeds cap (wireSize m) = false)
    (h4 : encodable nib.value 0 m.opts = true) :
    serialize nib m cap =
      { err := .ok, bytes := headPart m ++ (encodeOpts nib.value 0 m.opts).bytes ++ payloadPart m.payload,
        prev := lastNumber m.opts } := by
  unfold serialize
  rw [if_neg (by simp [h1]), if_neg (by omega), required_eq_wireSize, if_neg (by simp [h3])]
  simp only [encodeOpts_fits, h4, if_true, encodeOpts_prev h4, lastNumber_eq]

/-- The error kind of SERIALIZE, by the first check that fails (41_serialize.md R165, R171). -/
theorem serialize_err (nib : NibMax) (m : Msg) (cap : Option Nat) :
    (serialize nib m cap).err =
      if sortedOpts m.opts = false then .invalid
      else if Config.tklMax < m.tkl.toNat then .tokenTooLarge
      else if exceeds cap (wireSize m) then .truncated
      else if encodable nib.value 0 m.opts then .ok else .optionsNotSupported := by
  unfold serialize
  rw [required_eq_wireSize]
  dsimp only
  rw [encodeOpts_fits]
  split_ifs <;> rfl

@[simp] theorem headerBytes_length (v : BitVec 2) (k : Kind) (t : BitVec 4) (c : Byte) (m : Mid) :
    (headerBytes v k t c m).length = 4 := rfl

theorem tokenBytes_length {m : Msg} (h : m.tkl.toNat ≤ m.token.length) : m.tokenBytes.length = m.tkl.toNat := by
  simp [Msg.tokenBytes, h]

theorem headPart_length {m : Msg} (h : m.tkl.toNat ≤ m.token.length) : (headPart m).length = 4 + m.tkl.toNat := by
  simp [headPart, tokenBytes_length h]

theorem payloadPart_length (p : Option (List Byte)) : (payloadPart p).length = payloadSize p := by
  cases p <;> simp [payloadPart, payloadSize, Nat.add_comm]

/-- A successful SERIALIZE writes as many bytes as the size formula says (41_serialize.md R170). -/
theorem serialize_length {nib : NibMax} {m : Msg} {cap : Option Nat} (h : (serialize nib m cap).err = .ok)
    (ht : m.tkl.toNat ≤ m.token.length) : (serialize nib m cap).bytes.length = wireSize m := by
  have he := serialize_err nib m cap
  rw [h] at he
  split_ifs at he with h1 h2 h3 h4
  rw [serialize_ok (by simpa using h1) (by omega) (by simpa using h3) h4, ← required_eq_wireSize]
  simp [headPart_length ht, encodeOpts_length h4, payloadPart_length, required, optsSize_eq, Config.hdrLen, Nat.add_assoc]

/-! The loop of PARSE. -/

theorem parseRound_entry {P : Params} {count prev : Nat} {b : Byte} {rest rest' : List Byte} {o : Opt}
    (h : parseRound P count prev b rest = .entry o rest') :
    b ≠ Config.payloadMarker ∧ optDelta b ≠ Config.nibReserved ∧ optLength b ≠ Config.nibReserved ∧
      fullAt P.maxOptions count = false ∧ o.number = prev + (optDelta b).toNat ∧
      o.value.length = (optLength b).toNat ∧ rest = o.value ++ rest' := by
  unfold parseRound at h
  split_ifs at h with h1 h2 h3 h4 h5
  simp only [not_or] at h3
  simp only [Round.entry.injEq] at h
  obtain ⟨rfl, rfl⟩ := h
  refine ⟨h1, h3.1, h3.2, by simpa using h5, rfl, ?_, ?_⟩
  · simp; omega
  · simp

theorem parseRound_payload {P : Params} {count prev : Nat} {b : Byte} {rest p : List Byte}
    (h : parseRound P count prev b rest = .payload p) :
    b = Config.payloadMarker ∧ p = rest ∧ exceeds P.maxPayload rest.length = false := by
  unfold parseRound at h
  split_ifs at h with h1 h2
  exact ⟨h1, (by simpa using h.symm), by simpa using h2⟩

/-- A round that stops reports one of three error kinds (42_parse.md R196). -/
theorem parseRound_stop {P : Params} {count prev k : Nat} {b : Byte} {rest : List Byte} {e : Err}
    (h : parseRound P count prev b rest = .stop e k) :
    e = .optionsNotSupported ∨ e = .truncated ∨
      (e = .invalid ∧ ¬(P.maxOptions = none ∧ P.maxPayload = none)) := by
  unfold parseRound at h
  split_ifs at h with h1 h2 h3 h4 h5 <;> simp only [Round.stop.injEq] at h <;> obtain ⟨rfl, -⟩ := h
  · right; right; refine ⟨rfl, fun hn => ?_⟩; rw [hn.2] at h2; simp [exceeds] at h2
  · left; rfl
  · right; left; rfl
  · right; right; refine ⟨rfl, fun hn => ?_⟩; rw [hn.1] at h5; simp [fullAt] at h5

/-- The error kinds of the loop. -/
theorem parseLoop_err (P : Params) (n : Nat) (bytes : List Byte) (opts : List Opt) (prev pos : Nat) :
    (parseLoop P n bytes opts prev pos).err = .ok ∨ (parseLoop P n bytes opts prev pos).err = .optionsNotSupported ∨
      (parseLoop P n bytes opts prev pos).err = .truncated ∨
      ((parseLoop P n bytes opts prev pos).err = .invalid ∧ ¬(P.maxOptions = none ∧ P.maxPayload = none)) := by
  induction n generalizing bytes opts prev pos with
  | zero => left; rfl
  | succ n ih =>
    cases bytes with
    | nil => left; rfl
    | cons b rest =>
      rw [parseLoop]
      cases hr : parseRound P opts.length prev b rest with
      | entry o rest' => exact ih _ _ _ _
      | payload p => left; rfl
      | stop e k => right; exact parseRound_stop hr

/-- What a successful loop has done (42_parse.md R192, R195): the options are the old ones and new ones whose deltas and
lengths are at most 14, every byte is consumed, and re-encoding gives the bytes back. -/
theorem parseLoop_ok {P : Params} {n : Nat} {bytes : List Byte} {opts : List Opt} {prev pos : Nat}
    (hn : bytes.length ≤ n) (h : (parseLoop P n bytes opts prev pos).err = .ok) :
    ∃ os, (parseLoop P n bytes opts prev pos).opts = opts ++ os ∧ sortedFrom prev os = true ∧ encodable 14 prev os = true ∧
      (parseLoop P n bytes opts prev pos).prev = lastFrom prev os ∧
      (parseLoop P n bytes opts prev pos).pos = pos + bytes.length ∧
      ∀ N, 14 ≤ N → bytes = (encodeOpts N prev os).bytes ++ payloadPart (parseLoop P n bytes opts prev pos).payload := by
  induction n generalizing bytes opts prev pos with
  | zero =>
    obtain rfl : bytes = [] := List.length_eq_zero_iff.1 (by omega)
    exact ⟨[], by simp [parseLoop], rfl, rfl, rfl, rfl, fun N _ => rfl⟩
  | succ n ih =>
    cases bytes with
    | nil => exact ⟨[], by simp [parseLoop], rfl, rfl, rfl, rfl, fun N _ => rfl⟩
    | cons b rest =>
      rw [parseLoop] at h ⊢
      cases hr : parseRound P opts.length prev b rest with
      | stop e k =>
        rw [hr] at h
        have h : e = .ok := h
        rcases parseRound_stop hr with h' | h' | h' <;> simp [h] at h'
      | payload p =>
        obtain ⟨rfl, rfl, -⟩ := parseRound_payload hr
        refine ⟨[], by simp, rfl, rfl, rfl, ?_, fun N _ => ?_⟩
        · simp only [List.length_cons]; omega
        · simp [encodeOpts, payloadPart]
      | entry o rest' =>
        obtain ⟨hm, hd, hl, hf, hnum, hlen, hrest⟩ := parseRound_entry hr
        rw [hr] at h
        have hlt : rest'.length ≤ n := by
          have := congrArg List.length hrest
          simp only [List.length_cons, List.length_append] at hn this; omega
        obtain ⟨os, e1, e2, e3, e4, e5, e6⟩ := ih hlt h
        have hd14 : (optDelta b).toNat ≤ 14 := by
          have : optDelta b ≠ 15#4 := hd
          have h2 := (optDelta b).isLt
          have : (optDelta b).toNat ≠ 15 := fun hc => this (BitVec.eq_of_toNat_eq hc)
          omega
        have hl14 : (optLength b).toNat ≤ 14 := by
          have : optLength b ≠ 15#4 := hl
          have h2 := (optLength b).isLt
          have : (optLength b).toNat ≠ 15 := fun hc => this (BitVec.eq_of_toNat_eq hc)
          omega
        refine ⟨o :: os, by simp only [e1]; simp, ?_, ?_, ?_, ?_, fun N hN => ?_⟩
        · simp only [sortedFrom, Bool.and_eq_true, decide_eq_true_eq]; exact ⟨by omega, e2⟩
        · simp only [encodable, Bool.and_eq_true, decide_eq_true_eq]; exact ⟨⟨by omega, by omega⟩, e3⟩
        · simp only [e4, lastFrom_cons]
        · simp only [e5, List.length_cons]
          have := congrArg List.length hrest
          simp only [List.length_append] at this; omega
        · rw [encodeOpts_cons _ _ _ _ (by omega) (by omega)]
          have hb : optByte (BitVec.ofNat 4 (o.number - prev)) (BitVec.ofNat 4 o.value.length) = b := by
            rw [hnum, hlen, Nat.add_sub_cancel_left, BitVec.ofNat_toNat, BitVec.ofNat_toNat]; simp
          simp only [hb, List.cons_append, List.cons.injEq, true_and, List.append_assoc]
          rw [← e6 N hN]; exact hrest

/-- One encoded option is one round (30_encoding.md R101, R102). -/
theorem parseRound_encoded {P : Params} {count prev : Nat} {o : Opt} {tail : List Byte} (hs : prev ≤ o.number)
    (h1 : o.number - prev ≤ 14) (h2 : o.value.length ≤ 14) (hf : fullAt P.maxOptions count = false) :
    parseRound P count prev (optByte (BitVec.ofNat 4 (o.number - prev)) (BitVec.ofNat 4 o.value.length))
      (o.value ++ tail) = .entry o tail := by
  have n1 : BitVec.ofNat 4 (o.number - prev) ≠ 15#4 := by
    intro hc; have := congrArg BitVec.toNat hc; simp at this; omega
  have n2 : BitVec.ofNat 4 o.value.length ≠ 15#4 := by
    intro hc; have := congrArg BitVec.toNat hc; simp at this; omega
  have hm : optByte (BitVec.ofNat 4 (o.number - prev)) (BitVec.ofNat 4 o.value.length) ≠ Config.payloadMarker :=
    fun hc => n1 ((optByte_eq_marker _ _).1 hc).1
  have t1 : (BitVec.ofNat 4 (o.number - prev)).toNat = o.number - prev := by simp; omega
  have t2 : (BitVec.ofNat 4 o.value.length).toNat = o.value.length := by simp; omega
  unfold parseRound
  rw [if_neg hm, optDelta_optByte, optLength_optByte, if_neg (by rintro (h | h); exact n1 h; exact n2 h), t1, t2,
    if_neg (by simp), if_neg (by simp [hf])]
  simp only [Round.entry.injEq]
  constructor
  · cases o; simp only [Opt.mk.injEq] at t1 hs ⊢; refine ⟨by omega, by simp⟩
  · simp

/-- The loop over encoded options and a payload part gives them back (42_parse.md R198). -/
theorem parseLoop_encoded {P : Params} {N n : Nat} {os opts : List Opt} {payload : Option (List Byte)} {prev pos : Nat}
    (hN : 14 ≤ N) (hs : sortedFrom prev os = true) (he : encodable 14 prev os = true)
    (hn : ((encodeOpts N prev os).bytes ++ payloadPart payload).length ≤ n)
    (hp : exceeds P.maxPayload (payload.getD []).length = false)
    (hc : exceeds P.maxOptions (opts.length + os.length) = false) :
    ∃ l, parseLoop P n ((encodeOpts N prev os).bytes ++ payloadPart payload) opts prev pos = l ∧ l.err = .ok ∧
      l.opts = opts ++ os ∧ l.payload = payload := by
  induction os generalizing n opts prev pos with
  | nil =>
    cases payload with
    | none => cases n <;> exact ⟨_, rfl, rfl, by simp [encodeOpts, payloadPart, parseLoop],
        by simp [encodeOpts, payloadPart, parseLoop]⟩
    | some p =>
      cases n with
      | zero => simp [encodeOpts, payloadPart] at hn
      | succ n =>
        refine ⟨_, rfl, ?_⟩
        simp only [encodeOpts, payloadPart, List.nil_append, parseLoop, parseRound, if_true]
        have hp : exceeds P.maxPayload p.length = false := hp
        simp [hp]
  | cons o os ih =>
    simp only [sortedFrom, Bool.and_eq_true, decide_eq_true_eq] at hs
    simp only [encodable, Bool.and_eq_true, decide_eq_true_eq] at he
    have hf : fullAt P.maxOptions opts.length = false := by
      cases hm : P.maxOptions with
      | none => rfl
      | some k => rw [hm] at hc; simp [exceeds] at hc; simp [fullAt]; omega
    rw [encodeOpts_cons _ _ _ _ (by omega) (by omega)] at hn ⊢
    cases n with
    | zero => simp at hn
    | succ n =>
      simp only [List.cons_append, List.append_assoc]
      rw [parseLoop, parseRound_encoded hs.1 he.1.1 he.1.2 hf]
      simp only
      obtain ⟨l, e1, e2, e3, e4⟩ := ih (n := n) (opts := opts ++ [o]) (prev := o.number) (pos := pos + 1 + o.value.length)
        hs.2 he.2 (by simp at hn ⊢; omega) (by simpa [Nat.add_assoc, Nat.add_comm 1] using hc)
      exact ⟨l, e1, e2, by simp [e3], e4⟩

/-! PARSE. -/

/-- PARSE of at least four bytes. -/
theorem parse_cons (P : Params) (draw : Nat) (old : Msg) (b0 b1 b2 b3 : Byte) (rest : List Byte) :
    parse P draw old (b0 :: b1 :: b2 :: b3 :: rest) = parseBody P draw (headerOf old b0 b1 b2 b3) rest := rfl

theorem parse_short {P : Params} {draw : Nat} {old : Msg} {bytes : List Byte} (h : bytes.length < 4) :
    parse P draw old bytes = { err := .truncated, hdrValid := false, pos := 0, prev := 0, msg := openMsg draw } := by
  rcases bytes with _ | ⟨a, _ | ⟨b, _ | ⟨c, _ | ⟨d, e⟩⟩⟩⟩ <;> first | rfl | (simp at h; done) | (simp at h; omega)

theorem four_bytes {bytes : List Byte} (h : ¬bytes.length < 4) : ∃ b0 b1 b2 b3 rest, bytes = b0 :: b1 :: b2 :: b3 :: rest := by
  rcases bytes with _ | ⟨a, _ | ⟨b, _ | ⟨c, _ | ⟨d, e⟩⟩⟩⟩
  · simp at h
  · simp at h
  · simp at h
  · simp at h
  · exact ⟨a, b, c, d, e, rfl⟩

/-- The result kind, `HDR_VALID`, `pos` and `prev` of PARSE depend on the bytes alone. -/
theorem parse_registers (P : Params) (draw draw' : Nat) (old old' : Msg) (bytes : List Byte) :
    (parse P draw old bytes).err = (parse P draw' old' bytes).err ∧
      (parse P draw old bytes).hdrValid = (parse P draw' old' bytes).hdrValid ∧
      (parse P draw old bytes).pos = (parse P draw' old' bytes).pos ∧
      (parse P draw old bytes).prev = (parse P draw' old' bytes).prev := by
  by_cases h : bytes.length < 4
  · simp [parse_short h]
  · obtain ⟨b0, b1, b2, b3, rest, rfl⟩ := four_bytes h
    rw [parse_cons, parse_cons]
    unfold parseBody headerOf
    dsimp only
    split_ifs <;> simp

theorem parse_err_eq_ok_iff (P : Params) (draw : Nat) (old : Msg) (bytes : List Byte) :
    (parse P draw old bytes).err = .ok ↔ parses P bytes = true := by
  unfold parses
  rw [decide_eq_true_eq, (parse_registers P draw 0 old Msg.reset bytes).1]

/-- A successful PARSE (42_parse.md R195): the checks passed, and the message is what the header, the token and the loop
give. -/
theorem parse_ok {P : Params} {draw : Nat} {old : Msg} {bytes : List Byte} (h : (parse P draw old bytes).err = .ok) :
    ∃ b0 b1 b2 b3 rest, bytes = b0 :: b1 :: b2 :: b3 :: rest ∧ headVersion b0 = 1 ∧ (headTkl b0).toNat ≤ 8 ∧
      (headTkl b0).toNat ≤ rest.length ∧
      (parseLoop P rest.length (rest.drop (headTkl b0).toNat) [] 0 (4 + (headTkl b0).toNat)).err = .ok ∧
      parse P draw old bytes =
        { err := .ok, hdrValid := true,
          pos := (parseLoop P rest.length (rest.drop (headTkl b0).toNat) [] 0 (4 + (headTkl b0).toNat)).pos,
          prev := (parseLoop P rest.length (rest.drop (headTkl b0).toNat) [] 0 (4 + (headTkl b0).toNat)).prev,
          msg :=
            { headerOf old b0 b1 b2 b3 with
              token := overlayToken (rest.take (headTkl b0).toNat) old.token,
              opts := (parseLoop P rest.length (rest.drop (headTkl b0).toNat) [] 0 (4 + (headTkl b0).toNat)).opts,
              payload := (parseLoop P rest.length (rest.drop (headTkl b0).toNat) [] 0 (4 + (headTkl b0).toNat)).payload } } := by
  by_cases hl : bytes.length < 4
  · rw [parse_short hl] at h; simp at h
  · obtain ⟨b0, b1, b2, b3, rest, rfl⟩ := four_bytes hl
    rw [parse_cons] at h ⊢
    unfold parseBody at h ⊢
    dsimp only at h ⊢
    by_cases h1 : (headerOf old b0 b1 b2 b3).version ≠ Config.versionOk
    · rw [if_pos h1] at h; simp at h
    by_cases h2 : Config.tklMax < (headerOf old b0 b1 b2 b3).tkl.toNat
    · rw [if_neg h1, if_pos h2] at h; simp at h
    by_cases h3 : rest.length < (headerOf old b0 b1 b2 b3).tkl.toNat
    · rw [if_neg h1, if_neg h2, if_pos h3] at h; simp at h
    rw [if_neg h1, if_neg h2, if_neg h3] at h ⊢
    by_cases h4 : (parseLoop P rest.length (rest.drop (headTkl b0).toNat) [] 0 (4 + (headTkl b0).toNat)).err = .ok
    · exact ⟨b0, b1, b2, b3, rest, rfl, not_not.1 h1, Nat.not_lt.1 h2, Nat.not_lt.1 h3, h4, if_pos h4⟩
    · exact absurd ((congrArg ParseOut.err (if_neg h4)).symm.trans h) h4

/-- A failed PARSE (42_parse.md R194): no options, no payload; with a decoded header the five fields are the wire's. -/
theorem parse_failed {P : Params} {draw : Nat} {old : Msg} {bytes : List Byte} (h : (parse P draw old bytes).err ≠ .ok) :
    (parse P draw old bytes = { err := .truncated, hdrValid := false, pos := 0, prev := 0, msg := openMsg draw } ∧
        bytes.length < 4) ∨
      ∃ b0 b1 b2 b3 rest, bytes = b0 :: b1 :: b2 :: b3 :: rest ∧ (parse P draw old bytes).hdrValid = true ∧
        (parse P draw old bytes).msg = headerOnly draw (headerOf old b0 b1 b2 b3) := by
  by_cases hl : bytes.length < 4
  · exact .inl ⟨parse_short hl, hl⟩
  · obtain ⟨b0, b1, b2, b3, rest, rfl⟩ := four_bytes hl
    refine .inr ⟨b0, b1, b2, b3, rest, rfl, ?_⟩
    rw [parse_cons] at h ⊢
    unfold parseBody at h ⊢
    dsimp only at h ⊢
    split_ifs at h ⊢ with h1 h2 h3 h4
    · exact ⟨rfl, rfl⟩
    · exact ⟨rfl, rfl⟩
    · exact ⟨rfl, rfl⟩
    · exact absurd rfl h
    · exact ⟨rfl, rfl⟩

/-- The errors of PARSE (42_parse.md R196). -/
theorem parse_errs (P : Params) (draw : Nat) (old : Msg) (bytes : List Byte) :
    (parse P draw old bytes).err ∈ [Err.ok, .truncated, .versionMismatch, .tokenTooLarge, .optionsNotSupported, .invalid] ∧
      ((parse P draw old bytes).err = .invalid → ¬(P.maxOptions = none ∧ P.maxPayload = none)) := by
  by_cases hl : bytes.length < 4
  · rw [parse_short hl]; simp
  · obtain ⟨b0, b1, b2, b3, rest, rfl⟩ := four_bytes hl
    rw [parse_cons]
    unfold parseBody
    dsimp only
    split_ifs with h1 h2 h3 h4
    · simp
    · simp
    · simp
    · simp
    · rcases parseLoop_err P rest.length (rest.drop (headTkl b0).toNat) [] 0 (Config.hdrLen + (headTkl b0).toNat)
        with h | h | h | h
      · exact absurd h h4
      · simp only [headerOf, h]; simp
      · simp only [headerOf, h]; simp
      · simp only [headerOf, h.1]; exact ⟨by simp, fun _ => h.2⟩

theorem overlayToken_take {value token : List Byte} {n : Nat} (h : value.length = n) :
    (overlayToken value token).take n = value := by
  subst h; simp [overlayToken]

theorem Msg.same_iff (a b : Msg) : a.same b = true ↔
    a.version = b.version ∧ a.kind = b.kind ∧ a.tkl = b.tkl ∧ a.tokenBytes = b.tokenBytes ∧ a.code = b.code ∧
      a.mid = b.mid ∧ a.opts = b.opts ∧ a.payload = b.payload := by
  simp [Msg.same, and_assoc]

/-- Two successful parses of the same bytes give equal messages, whatever the slot held before. -/
theorem parse_same {P : Params} {draw draw' : Nat} {old old' : Msg} {bytes : List Byte}
    (h : (parse P draw old bytes).err = .ok) :
    (parse P draw old bytes).msg.same (parse P draw' old' bytes).msg = true := by
  have h' : (parse P draw' old' bytes).err = .ok := by rw [(parse_registers P draw' draw old' old bytes).1, h]
  obtain ⟨b0, b1, b2, b3, rest, rfl, -, -, hr, -, e⟩ := parse_ok h
  obtain ⟨_, _, _, _, _, heq, -, -, -, -, e'⟩ := parse_ok h'
  simp only [List.cons.injEq] at heq
  obtain ⟨rfl, rfl, rfl, rfl, rfl⟩ := heq
  rw [e, e']
  have ht : (rest.take (headTkl b0).toNat).length = (headTkl b0).toNat := by simp; omega
  have htok := (overlayToken_take (token := old.token) ht).trans (overlayToken_take (token := old'.token) ht).symm
  rw [Msg.same_iff]
  exact ⟨rfl, rfl, rfl, htok, rfl, rfl, rfl, rfl⟩

/-- The message of a successful PARSE re-encodes to the bytes it came from (30_encoding.md R116). -/
theorem serialize_parse {P : Params} {draw : Nat} {old : Msg} {bytes : List Byte} {nib : NibMax} {cap : Option Nat}
    (h : (parse P draw old bytes).err = .ok) (hc : exceeds cap bytes.length = false) :
    sortedOpts (parse P draw old bytes).msg.opts = true ∧ encodable 14 0 (parse P draw old bytes).msg.opts = true ∧
      (parse P draw old bytes).msg.version = 1 ∧ (parse P draw old bytes).msg.tkl.toNat ≤ 8 ∧
      (parse P draw old bytes).pos = bytes.length ∧
      (parse P draw old bytes).prev = lastNumber (parse P draw old bytes).msg.opts ∧
      wireSize (parse P draw old bytes).msg = bytes.length ∧
      (serialize nib (parse P draw old bytes).msg cap).err = .ok ∧
      (serialize nib (parse P draw old bytes).msg cap).bytes = bytes := by
  obtain ⟨b0, b1, b2, b3, rest, rfl, hv, ht, hr, hl, e⟩ := parse_ok h
  obtain ⟨os, e1, e2, e3, e4, e5, e6⟩ := parseLoop_ok (by simp) hl
  rw [e]
  simp only [headerOf, List.nil_append] at e1 e6 ⊢
  rw [e1]
  have hb := e6 nib.value (NibMax.value_le nib).1
  have hen := encodable_mono (NibMax.value_le nib).1 e3
  have hlen : wireSize (parse P draw old (b0 :: b1 :: b2 :: b3 :: rest)).msg = (b0 :: b1 :: b2 :: b3 :: rest).length := by
    rw [← required_eq_wireSize, e]
    have hb' := congrArg List.length hb
    simp only [List.length_append, encodeOpts_length hen, payloadPart_length, List.length_drop] at hb'
    simp only [required, headerOf, e1, Config.hdrLen, optsSize_eq, List.length_cons]
    omega
  rw [e] at hlen
  simp only [headerOf, e1] at hlen
  rw [serialize_ok (by exact e2) (by exact ht) (by rw [hlen]; exact hc) (by exact hen)]
  refine ⟨e2, e3, hv, ht, ?_, e4, hlen, rfl, ?_⟩
  · rw [e5]; simp only [List.length_drop, List.length_cons]; omega
  · have hk : (rest.take (headTkl b0).toNat).length = (headTkl b0).toNat := by simp; omega
    simp only [headPart, headerBytes, Msg.tokenBytes, headByte_fields, midHigh_be16, midLow_be16]
    rw [overlayToken_take hk, List.append_assoc, ← hb]
    simp

/-- PARSE of what SERIALIZE wrote (42_parse.md R198). -/
theorem parse_serialize {P : Params} {draw : Nat} {old m : Msg} {nib : NibMax} {cap : Option Nat}
    (htok : m.tkl.toNat ≤ m.token.length) (hv : m.version = 1) (ht : m.tkl.toNat ≤ 8) (hs : sortedOpts m.opts = true)
    (he : encodable 14 0 m.opts = true) (hc : exceeds cap (wireSize m) = false)
    (hp : exceeds P.maxPayload m.payloadLen = false) (ho : exceeds P.maxOptions m.optCount = false) :
    (parse P draw old (serialize nib m cap).bytes).err = .ok ∧
      m.same (parse P draw old (serialize nib m cap).bytes).msg = true := by
  have hen := encodable_mono (NibMax.value_le nib).1 he
  rw [serialize_ok hs ht hc hen]
  simp only [headPart, headerBytes, List.cons_append, List.nil_append, List.append_assoc]
  rw [parse_cons]
  unfold parseBody
  obtain ⟨l, e1, e2, e3, e4⟩ := parseLoop_encoded (P := P) (N := nib.value) (opts := []) (pos := 4 + m.tkl.toNat)
    (n := (m.tokenBytes ++ ((encodeOpts nib.value 0 m.opts).bytes ++ payloadPart m.payload)).length)
    (NibMax.value_le nib).1 hs he (by simp) hp (by simpa [Msg.optCount] using ho)
  have hl := tokenBytes_length htok
  simp only [headerOf, headVersion_headByte, headTkl_headByte, headKind_headByte, be16_fields, hv, Config.versionOk, ne_eq,
    not_true_eq_false, if_false, Config.tklMax, Nat.not_lt.2 ht, Config.hdrLen]
  rw [if_neg (by simp [hl])]
  have hd : (m.tokenBytes ++ ((encodeOpts nib.value 0 m.opts).bytes ++ payloadPart m.payload)).drop m.tkl.toNat =
      (encodeOpts nib.value 0 m.opts).bytes ++ payloadPart m.payload := by rw [← hl]; simp
  have htk : (m.tokenBytes ++ ((encodeOpts nib.value 0 m.opts).bytes ++ payloadPart m.payload)).take m.tkl.toNat =
      m.tokenBytes := by rw [← hl]; simp
  rw [hd, e1, if_pos e2, htk]
  refine ⟨rfl, ?_⟩
  simp only [List.nil_append] at e3
  have : (overlayToken m.tokenBytes old.token).take m.tkl.toNat = m.tokenBytes := overlayToken_take hl
  simp only [Msg.same, e3, e4, hv, Msg.tokenBytes, decide_true, Bool.and_self, Bool.and_true]
  exact decide_eq_true this.symm

end Sys2Proof.Machine
end

