-- ==== Sys2Proof/Laws/State.lean ====
section
/-! SUPPORT. The small lemmas of the state: what each read gives after each write, so that no proof unfolds a record
update. -/

namespace Sys2Proof.Machine

/-! The reset tables. -/

@[simp] theorem State.reset_exch (x : Nat) : State.reset.exch x = Exch.reset := rfl
@[simp] theorem State.reset_worker (w : Nat) : State.reset.worker w = Worker.reset := rfl
@[simp] theorem State.reset_msg (r : SlotRef) : State.reset.msg r = Msg.reset := by cases r <;> rfl
@[simp] theorem State.reset_buf (r : BufRef) : State.reset.buf r = Buf.reset := by cases r <;> rfl
@[simp] theorem State.reset_codec (a : Agent) : State.reset.codec a = Codec.reset := by cases a <;> rfl

/-! Plain fields after each write. -/

@[simp] theorem State.setExch_params (s : State) (x : Nat) (e : Exch) : (s.setExch x e).params = s.params := rfl
@[simp] theorem State.setExch_w0 (s : State) (x : Nat) (e : Exch) : (s.setExch x e).w0 = s.w0 := rfl
@[simp] theorem State.setExch_maxAttempts (s : State) (x : Nat) (e : Exch) : (s.setExch x e).maxAttempts = s.maxAttempts := rfl
@[simp] theorem State.setExch_rstOnParseError (s : State) (x : Nat) (e : Exch) : (s.setExch x e).rstOnParseError = s.rstOnParseError := rfl
@[simp] theorem State.setExch_listenPort (s : State) (x : Nat) (e : Exch) : (s.setExch x e).listenPort = s.listenPort := rfl
@[simp] theorem State.setExch_out (s : State) (x : Nat) (e : Exch) : (s.setExch x e).out = s.out := rfl
@[simp] theorem State.setExch_calls (s : State) (x : Nat) (e : Exch) : (s.setExch x e).calls = s.calls := rfl
@[simp] theorem State.setExch_port (s : State) (x : Nat) (e : Exch) : (s.setExch x e).port = s.port := rfl
@[simp] theorem State.setExch_sendAnswers (s : State) (x : Nat) (e : Exch) : (s.setExch x e).sendAnswers = s.sendAnswers := rfl
@[simp] theorem State.setExch_draws (s : State) (x : Nat) (e : Exch) : (s.setExch x e).draws = s.draws := rfl

@[simp] theorem State.setWorker_params (s : State) (w : Nat) (k : Worker) : (s.setWorker w k).params = s.params := rfl
@[simp] theorem State.setWorker_w0 (s : State) (w : Nat) (k : Worker) : (s.setWorker w k).w0 = s.w0 := rfl
@[simp] theorem State.setWorker_maxAttempts (s : State) (w : Nat) (k : Worker) : (s.setWorker w k).maxAttempts = s.maxAttempts := rfl
@[simp] theorem State.setWorker_rstOnParseError (s : State) (w : Nat) (k : Worker) : (s.setWorker w k).rstOnParseError = s.rstOnParseError := rfl
@[simp] theorem State.setWorker_listenPort (s : State) (w : Nat) (k : Worker) : (s.setWorker w k).listenPort = s.listenPort := rfl
@[simp] theorem State.setWorker_out (s : State) (w : Nat) (k : Worker) : (s.setWorker w k).out = s.out := rfl
@[simp] theorem State.setWorker_calls (s : State) (w : Nat) (k : Worker) : (s.setWorker w k).calls = s.calls := rfl
@[simp] theorem State.setWorker_port (s : State) (w : Nat) (k : Worker) : (s.setWorker w k).port = s.port := rfl
@[simp] theorem State.setWorker_sendAnswers (s : State) (w : Nat) (k : Worker) : (s.setWorker w k).sendAnswers = s.sendAnswers := rfl
@[simp] theorem State.setWorker_draws (s : State) (w : Nat) (k : Worker) : (s.setWorker w k).draws = s.draws := rfl

@[simp] theorem State.setMsg_params (s : State) (r : SlotRef) (m : Msg) : (s.setMsg r m).params = s.params := by cases r <;> rfl
@[simp] theorem State.setMsg_w0 (s : State) (r : SlotRef) (m : Msg) : (s.setMsg r m).w0 = s.w0 := by cases r <;> rfl
@[simp] theorem State.setMsg_maxAttempts (s : State) (r : SlotRef) (m : Msg) : (s.setMsg r m).maxAttempts = s.maxAttempts := by cases r <;> rfl
@[simp] theorem State.setMsg_rstOnParseError (s : State) (r : SlotRef) (m : Msg) : (s.setMsg r m).rstOnParseError = s.rstOnParseError := by cases r <;> rfl
@[simp] theorem State.setMsg_listenPort (s : State) (r : SlotRef) (m : Msg) : (s.setMsg r m).listenPort = s.listenPort := by cases r <;> rfl
@[simp] theorem State.setMsg_out (s : State) (r : SlotRef) (m : Msg) : (s.setMsg r m).out = s.out := by cases r <;> rfl
@[simp] theorem State.setMsg_calls (s : State) (r : SlotRef) (m : Msg) : (s.setMsg r m).calls = s.calls := by cases r <;> rfl
@[simp] theorem State.setMsg_port (s : State) (r : SlotRef) (m : Msg) : (s.setMsg r m).port = s.port := by cases r <;> rfl
@[simp] theorem State.setMsg_sendAnswers (s : State) (r : SlotRef) (m : Msg) : (s.setMsg r m).sendAnswers = s.sendAnswers := by cases r <;> rfl
@[simp] theorem State.setMsg_draws (s : State) (r : SlotRef) (m : Msg) : (s.setMsg r m).draws = s.draws := by cases r <;> rfl

@[simp] theorem State.setBuf_params (s : State) (r : BufRef) (b : Buf) : (s.setBuf r b).params = s.params := by cases r <;> rfl
@[simp] theorem State.setBuf_w0 (s : State) (r : BufRef) (b : Buf) : (s.setBuf r b).w0 = s.w0 := by cases r <;> rfl
@[simp] theorem State.setBuf_maxAttempts (s : State) (r : BufRef) (b : Buf) : (s.setBuf r b).maxAttempts = s.maxAttempts := by cases r <;> rfl
@[simp] theorem State.setBuf_rstOnParseError (s : State) (r : BufRef) (b : Buf) : (s.setBuf r b).rstOnParseError = s.rstOnParseError := by cases r <;> rfl
@[simp] theorem State.setBuf_listenPort (s : State) (r : BufRef) (b : Buf) : (s.setBuf r b).listenPort = s.listenPort := by cases r <;> rfl
@[simp] theorem State.setBuf_out (s : State) (r : BufRef) (b : Buf) : (s.setBuf r b).out = s.out := by cases r <;> rfl
@[simp] theorem State.setBuf_calls (s : State) (r : BufRef) (b : Buf) : (s.setBuf r b).calls = s.calls := by cases r <;> rfl
@[simp] theorem State.setBuf_port (s : State) (r : BufRef) (b : Buf) : (s.setBuf r b).port = s.port := by cases r <;> rfl
@[simp] theorem State.setBuf_sendAnswers (s : State) (r : BufRef) (b : Buf) : (s.setBuf r b).sendAnswers = s.sendAnswers := by cases r <;> rfl
@[simp] theorem State.setBuf_draws (s : State) (r : BufRef) (b : Buf) : (s.setBuf r b).draws = s.draws := by cases r <;> rfl

@[simp] theorem State.setCodec_params (s : State) (a : Agent) (c : Codec) : (s.setCodec a c).params = s.params := by cases a <;> rfl
@[simp] theorem State.setCodec_w0 (s : State) (a : Agent) (c : Codec) : (s.setCodec a c).w0 = s.w0 := by cases a <;> rfl
@[simp] theorem State.setCodec_maxAttempts (s : State) (a : Agent) (c : Codec) : (s.setCodec a c).maxAttempts = s.maxAttempts := by cases a <;> rfl
@[simp] theorem State.setCodec_rstOnParseError (s : State) (a : Agent) (c : Codec) : (s.setCodec a c).rstOnParseError = s.rstOnParseError := by cases a <;> rfl
@[simp] theorem State.setCodec_listenPort (s : State) (a : Agent) (c : Codec) : (s.setCodec a c).listenPort = s.listenPort := by cases a <;> rfl
@[simp] theorem State.setCodec_out (s : State) (a : Agent) (c : Codec) : (s.setCodec a c).out = s.out := by cases a <;> rfl
@[simp] theorem State.setCodec_calls (s : State) (a : Agent) (c : Codec) : (s.setCodec a c).calls = s.calls := by cases a <;> rfl
@[simp] theorem State.setCodec_port (s : State) (a : Agent) (c : Codec) : (s.setCodec a c).port = s.port := by cases a <;> rfl
@[simp] theorem State.setCodec_sendAnswers (s : State) (a : Agent) (c : Codec) : (s.setCodec a c).sendAnswers = s.sendAnswers := by cases a <;> rfl
@[simp] theorem State.setCodec_draws (s : State) (a : Agent) (c : Codec) : (s.setCodec a c).draws = s.draws := by cases a <;> rfl

@[simp] theorem State.endOp_params (s : State) (a : Agent) (e : Err) (v : Option Nat) : (s.endOp a e v).params = s.params := by cases a <;> rfl
@[simp] theorem State.endOp_w0 (s : State) (a : Agent) (e : Err) (v : Option Nat) : (s.endOp a e v).w0 = s.w0 := by cases a <;> rfl
@[simp] theorem State.endOp_maxAttempts (s : State) (a : Agent) (e : Err) (v : Option Nat) : (s.endOp a e v).maxAttempts = s.maxAttempts := by cases a <;> rfl
@[simp] theorem State.endOp_rstOnParseError (s : State) (a : Agent) (e : Err) (v : Option Nat) : (s.endOp a e v).rstOnParseError = s.rstOnParseError := by cases a <;> rfl
@[simp] theorem State.endOp_listenPort (s : State) (a : Agent) (e : Err) (v : Option Nat) : (s.endOp a e v).listenPort = s.listenPort := by cases a <;> rfl
@[simp] theorem State.endOp_out (s : State) (a : Agent) (e : Err) (v : Option Nat) : (s.endOp a e v).out = s.out := by cases a <;> rfl
@[simp] theorem State.endOp_calls (s : State) (a : Agent) (e : Err) (v : Option Nat) : (s.endOp a e v).calls = s.calls := by cases a <;> rfl
@[simp] theorem State.endOp_port (s : State) (a : Agent) (e : Err) (v : Option Nat) : (s.endOp a e v).port = s.port := by cases a <;> rfl
@[simp] theorem State.endOp_sendAnswers (s : State) (a : Agent) (e : Err) (v : Option Nat) : (s.endOp a e v).sendAnswers = s.sendAnswers := by cases a <;> rfl
@[simp] theorem State.endOp_draws (s : State) (a : Agent) (e : Err) (v : Option Nat) : (s.endOp a e v).draws = s.draws := by cases a <;> rfl

@[simp] theorem State.raise_params (s : State) (a : Agent) (e : Err) : (s.raise a e).params = s.params := by cases a <;> rfl
@[simp] theorem State.raise_w0 (s : State) (a : Agent) (e : Err) : (s.raise a e).w0 = s.w0 := by cases a <;> rfl
@[simp] theorem State.raise_maxAttempts (s : State) (a : Agent) (e : Err) : (s.raise a e).maxAttempts = s.maxAttempts := by cases a <;> rfl
@[simp] theorem State.raise_rstOnParseError (s : State) (a : Agent) (e : Err) : (s.raise a e).rstOnParseError = s.rstOnParseError := by cases a <;> rfl
@[simp] theorem State.raise_listenPort (s : State) (a : Agent) (e : Err) : (s.raise a e).listenPort = s.listenPort := by cases a <;> rfl
@[simp] theorem State.raise_out (s : State) (a : Agent) (e : Err) : (s.raise a e).out = s.out := by cases a <;> rfl
@[simp] theorem State.raise_calls (s : State) (a : Agent) (e : Err) : (s.raise a e).calls = s.calls := by cases a <;> rfl
@[simp] theorem State.raise_port (s : State) (a : Agent) (e : Err) : (s.raise a e).port = s.port := by cases a <;> rfl
@[simp] theorem State.raise_sendAnswers (s : State) (a : Agent) (e : Err) : (s.raise a e).sendAnswers = s.sendAnswers := by cases a <;> rfl
@[simp] theorem State.raise_draws (s : State) (a : Agent) (e : Err) : (s.raise a e).draws = s.draws := by cases a <;> rfl

@[simp] theorem State.done_params (s : State) (a : Agent) : (s.done a).params = s.params := by cases a <;> rfl
@[simp] theorem State.done_w0 (s : State) (a : Agent) : (s.done a).w0 = s.w0 := by cases a <;> rfl
@[simp] theorem State.done_maxAttempts (s : State) (a : Agent) : (s.done a).maxAttempts = s.maxAttempts := by cases a <;> rfl
@[simp] theorem State.done_rstOnParseError (s : State) (a : Agent) : (s.done a).rstOnParseError = s.rstOnParseError := by cases a <;> rfl
@[simp] theorem State.done_listenPort (s : State) (a : Agent) : (s.done a).listenPort = s.listenPort := by cases a <;> rfl
@[simp] theorem State.done_out (s : State) (a : Agent) : (s.done a).out = s.out := by cases a <;> rfl
@[simp] theorem State.done_calls (s : State) (a : Agent) : (s.done a).calls = s.calls := by cases a <;> rfl
@[simp] theorem State.done_port (s : State) (a : Agent) : (s.done a).port = s.port := by cases a <;> rfl
@[simp] theorem State.done_sendAnswers (s : State) (a : Agent) : (s.done a).sendAnswers = s.sendAnswers := by cases a <;> rfl
@[simp] theorem State.done_draws (s : State) (a : Agent) : (s.done a).draws = s.draws := by cases a <;> rfl

@[simp] theorem State.toPhase_params (s : State) (w : Nat) (p : Phase) : (s.toPhase w p).params = s.params := rfl
@[simp] theorem State.toPhase_w0 (s : State) (w : Nat) (p : Phase) : (s.toPhase w p).w0 = s.w0 := rfl
@[simp] theorem State.toPhase_maxAttempts (s : State) (w : Nat) (p : Phase) : (s.toPhase w p).maxAttempts = s.maxAttempts := rfl
@[simp] theorem State.toPhase_rstOnParseError (s : State) (w : Nat) (p : Phase) : (s.toPhase w p).rstOnParseError = s.rstOnParseError := rfl
@[simp] theorem State.toPhase_listenPort (s : State) (w : Nat) (p : Phase) : (s.toPhase w p).listenPort = s.listenPort := rfl
@[simp] theorem State.toPhase_out (s : State) (w : Nat) (p : Phase) : (s.toPhase w p).out = s.out := rfl
@[simp] theorem State.toPhase_calls (s : State) (w : Nat) (p : Phase) : (s.toPhase w p).calls = s.calls := rfl
@[simp] theorem State.toPhase_port (s : State) (w : Nat) (p : Phase) : (s.toPhase w p).port = s.port := rfl
@[simp] theorem State.toPhase_sendAnswers (s : State) (w : Nat) (p : Phase) : (s.toPhase w p).sendAnswers = s.sendAnswers := rfl
@[simp] theorem State.toPhase_draws (s : State) (w : Nat) (p : Phase) : (s.toPhase w p).draws = s.draws := rfl

@[simp] theorem State.draw_params (s : State) : s.draw.params = s.params := rfl
@[simp] theorem State.draw_w0 (s : State) : s.draw.w0 = s.w0 := rfl
@[simp] theorem State.draw_maxAttempts (s : State) : s.draw.maxAttempts = s.maxAttempts := rfl
@[simp] theorem State.draw_rstOnParseError (s : State) : s.draw.rstOnParseError = s.rstOnParseError := rfl
@[simp] theorem State.draw_listenPort (s : State) : s.draw.listenPort = s.listenPort := rfl
@[simp] theorem State.draw_out (s : State) : s.draw.out = s.out := rfl
@[simp] theorem State.draw_calls (s : State) : s.draw.calls = s.calls := rfl
@[simp] theorem State.draw_port (s : State) : s.draw.port = s.port := rfl
@[simp] theorem State.draw_sendAnswers (s : State) : s.draw.sendAnswers = s.sendAnswers := rfl
@[simp] theorem State.draw_draws (s : State) : s.draw.draws = s.draws + 1 := rfl

@[simp] theorem State.transmit_params (s : State) (p : PeerAddr) (bs : List Byte) : (s.transmit p bs).params = s.params := rfl
@[simp] theorem State.transmit_w0 (s : State) (p : PeerAddr) (bs : List Byte) : (s.transmit p bs).w0 = s.w0 := rfl
@[simp] theorem State.transmit_maxAttempts (s : State) (p : PeerAddr) (bs : List Byte) : (s.transmit p bs).maxAttempts = s.maxAttempts := rfl
@[simp] theorem State.transmit_rstOnParseError (s : State) (p : PeerAddr) (bs : List Byte) : (s.transmit p bs).rstOnParseError = s.rstOnParseError := rfl
@[simp] theorem State.transmit_listenPort (s : State) (p : PeerAddr) (bs : List Byte) : (s.transmit p bs).listenPort = s.listenPort := rfl
@[simp] theorem State.transmit_calls (s : State) (p : PeerAddr) (bs : List Byte) : (s.transmit p bs).calls = s.calls := rfl
@[simp] theorem State.transmit_port (s : State) (p : PeerAddr) (bs : List Byte) : (s.transmit p bs).port = s.port := rfl
@[simp] theorem State.transmit_draws (s : State) (p : PeerAddr) (bs : List Byte) : (s.transmit p bs).draws = s.draws := rfl
@[simp] theorem State.transmit_sendAnswers (s : State) (p : PeerAddr) (bs : List Byte) : (s.transmit p bs).sendAnswers = s.sendAnswers.tail := rfl
@[simp] theorem State.transmit_out (s : State) (p : PeerAddr) (bs : List Byte) :
    (s.transmit p bs).out = s.out ++ [{ peer := p, bytes := bs }] := rfl
@[simp] theorem State.draw_caller (s : State) : s.draw.caller = s.caller := rfl
@[simp] theorem State.sendAnswer_transmit (s : State) (p : PeerAddr) (bs : List Byte) : (s.transmit p bs).sendAnswer = s.sendAnswers.tail.headD true := rfl

/-! The contexts after each write. -/

theorem State.exch_setExch (s : State) (x y : Nat) (e : Exch) : (s.setExch x e).exch y = if y = x then e else s.exch y :=
  lookup_store _ _ _ _ _
theorem State.worker_setWorker (s : State) (w v : Nat) (k : Worker) :
    (s.setWorker w k).worker v = if v = w then k else s.worker v := lookup_store _ _ _ _ _
@[simp] theorem State.exch_setExch_same (s : State) (x : Nat) (e : Exch) : (s.setExch x e).exch x = e := lookup_store_same _ _ _ _
@[simp] theorem State.worker_setWorker_same (s : State) (w : Nat) (k : Worker) : (s.setWorker w k).worker w = k := lookup_store_same _ _ _ _
@[simp] theorem State.exch_setWorker (s : State) (w y : Nat) (k : Worker) : (s.setWorker w k).exch y = s.exch y := rfl
@[simp] theorem State.worker_setExch (s : State) (x v : Nat) (e : Exch) : (s.setExch x e).worker v = s.worker v := rfl
@[simp] theorem State.exch_draw (s : State) (y : Nat) : s.draw.exch y = s.exch y := rfl
@[simp] theorem State.worker_draw (s : State) (v : Nat) : s.draw.worker v = s.worker v := rfl
@[simp] theorem State.exch_transmit (s : State) (p : PeerAddr) (bs : List Byte) (y : Nat) : (s.transmit p bs).exch y = s.exch y := rfl
@[simp] theorem State.worker_transmit (s : State) (p : PeerAddr) (bs : List Byte) (v : Nat) : (s.transmit p bs).worker v = s.worker v := rfl
@[simp] theorem State.exch_toPhase (s : State) (w : Nat) (p : Phase) (y : Nat) : (s.toPhase w p).exch y = s.exch y := rfl
theorem State.worker_toPhase (s : State) (w v : Nat) (p : Phase) :
    (s.toPhase w p).worker v = if v = w then { s.worker w with phase := p } else s.worker v := State.worker_setWorker _ _ _ _
@[simp] theorem State.worker_toPhase_same (s : State) (w : Nat) (p : Phase) :
    (s.toPhase w p).worker w = { s.worker w with phase := p } := State.worker_setWorker_same _ _ _

/-- What a message write does to the exchange contexts: the reply slot of its owner. -/
theorem State.exch_setMsg (s : State) (r : SlotRef) (m : Msg) (y : Nat) :
    (s.setMsg r m).exch y = if r = .reply y then { s.exch y with replyMsg := m } else s.exch y := by
  cases r <;> simp [State.setMsg, State.exch, State.setExch, State.setWorker, lookup_store]
  rename_i x
  by_cases h : y = x
  · subst h; simp
  · simp [h, Ne.symm h]

/-- What a message write does to the worker contexts: the request or reply slot of its owner. -/
theorem State.worker_setMsg (s : State) (r : SlotRef) (m : Msg) (v : Nat) :
    (s.setMsg r m).worker v =
      if r = .req v then { s.worker v with reqMsg := m }
      else if r = .rsp v then { s.worker v with rspMsg := m } else s.worker v := by
  cases r <;> simp [State.setMsg, State.worker, State.setExch, State.setWorker, lookup_store] <;>
    rename_i w <;> by_cases h : v = w <;> first | (subst h; simp) | simp [h, Ne.symm h]

theorem State.exch_setBuf (s : State) (r : BufRef) (b : Buf) (y : Nat) :
    (s.setBuf r b).exch y =
      if r = .xbuf y then { s.exch y with xbuf := b }
      else if r = .xrx y then { s.exch y with xrx := b } else s.exch y := by
  cases r <;> simp [State.setBuf, State.exch, State.setExch, State.setWorker, lookup_store] <;>
    rename_i w <;> by_cases h : y = w <;> first | (subst h; simp) | simp [h, Ne.symm h]

theorem State.worker_setBuf (s : State) (r : BufRef) (b : Buf) (v : Nat) :
    (s.setBuf r b).worker v =
      if r = .rx v then { s.worker v with rx := b }
      else if r = .tx v then { s.worker v with tx := b } else s.worker v := by
  cases r <;> simp [State.setBuf, State.worker, State.setExch, State.setWorker, lookup_store] <;>
    rename_i w <;> by_cases h : v = w <;> first | (subst h; simp) | simp [h, Ne.symm h]

theorem State.exch_setCodec (s : State) (a : Agent) (c : Codec) (y : Nat) :
    (s.setCodec a c).exch y = if a = .exchange y then { s.exch y with codec := c } else s.exch y := by
  cases a <;> simp [State.setCodec, State.exch, State.setExch, State.setWorker, lookup_store]
  rename_i x
  by_cases h : y = x
  · subst h; simp
  · simp [h, Ne.symm h]

theorem State.worker_setCodec (s : State) (a : Agent) (c : Codec) (v : Nat) :
    (s.setCodec a c).worker v = if a = .worker v then { s.worker v with codec := c } else s.worker v := by
  cases a <;> simp [State.setCodec, State.worker, State.setExch, State.setWorker, lookup_store]
  rename_i x
  by_cases h : v = x
  · subst h; simp
  · simp [h, Ne.symm h]

/-! The registers of the contexts after a write of a slot, a buffer or codec registers. -/

@[simp] theorem State.exch_setMsg_state (s : State) (r : SlotRef) (m : Msg) (y : Nat) : ((s.setMsg r m).exch y).state = (s.exch y).state := by
  rw [State.exch_setMsg]; (repeat' split) <;> rfl
@[simp] theorem State.exch_setMsg_mid (s : State) (r : SlotRef) (m : Msg) (y : Nat) : ((s.setMsg r m).exch y).mid = (s.exch y).mid := by
  rw [State.exch_setMsg]; (repeat' split) <;> rfl
@[simp] theorem State.exch_setMsg_attempts (s : State) (r : SlotRef) (m : Msg) (y : Nat) : ((s.setMsg r m).exch y).attempts = (s.exch y).attempts := by
  rw [State.exch_setMsg]; (repeat' split) <;> rfl
@[simp] theorem State.exch_setMsg_wait (s : State) (r : SlotRef) (m : Msg) (y : Nat) : ((s.setMsg r m).exch y).wait = (s.exch y).wait := by
  rw [State.exch_setMsg]; (repeat' split) <;> rfl
@[simp] theorem State.exch_setMsg_armed (s : State) (r : SlotRef) (m : Msg) (y : Nat) : ((s.setMsg r m).exch y).armed = (s.exch y).armed := by
  rw [State.exch_setMsg]; (repeat' split) <;> rfl
@[simp] theorem State.exch_setMsg_len (s : State) (r : SlotRef) (m : Msg) (y : Nat) : ((s.setMsg r m).exch y).len = (s.exch y).len := by
  rw [State.exch_setMsg]; (repeat' split) <;> rfl
@[simp] theorem State.exch_setMsg_peer (s : State) (r : SlotRef) (m : Msg) (y : Nat) : ((s.setMsg r m).exch y).peer = (s.exch y).peer := by
  rw [State.exch_setMsg]; (repeat' split) <;> rfl
@[simp] theorem State.exch_setMsg_reply (s : State) (r : SlotRef) (m : Msg) (y : Nat) : ((s.setMsg r m).exch y).reply = (s.exch y).reply := by
  rw [State.exch_setMsg]; (repeat' split) <;> rfl
@[simp] theorem State.worker_setMsg_phase (s : State) (r : SlotRef) (m : Msg) (v : Nat) : ((s.setMsg r m).worker v).phase = (s.worker v).phase := by
  rw [State.worker_setMsg]; (repeat' split) <;> rfl
@[simp] theorem State.worker_setMsg_peer (s : State) (r : SlotRef) (m : Msg) (v : Nat) : ((s.setMsg r m).worker v).peer = (s.worker v).peer := by
  rw [State.worker_setMsg]; (repeat' split) <;> rfl
@[simp] theorem State.worker_setMsg_plan (s : State) (r : SlotRef) (m : Msg) (v : Nat) : ((s.setMsg r m).worker v).plan = (s.worker v).plan := by
  rw [State.worker_setMsg]; (repeat' split) <;> rfl
@[simp] theorem State.worker_setMsg_call (s : State) (r : SlotRef) (m : Msg) (v : Nat) : ((s.setMsg r m).worker v).call = (s.worker v).call := by
  rw [State.worker_setMsg]; (repeat' split) <;> rfl
@[simp] theorem State.worker_setMsg_appKind (s : State) (r : SlotRef) (m : Msg) (v : Nat) : ((s.setMsg r m).worker v).appKind = (s.worker v).appKind := by
  rw [State.worker_setMsg]; (repeat' split) <;> rfl
@[simp] theorem State.worker_setMsg_appCode (s : State) (r : SlotRef) (m : Msg) (v : Nat) : ((s.setMsg r m).worker v).appCode = (s.worker v).appCode := by
  rw [State.worker_setMsg]; (repeat' split) <;> rfl
@[simp] theorem State.worker_setMsg_appPayload (s : State) (r : SlotRef) (m : Msg) (v : Nat) : ((s.setMsg r m).worker v).appPayload = (s.worker v).appPayload := by
  rw [State.worker_setMsg]; (repeat' split) <;> rfl
@[simp] theorem State.exch_setBuf_state (s : State) (r : BufRef) (b : Buf) (y : Nat) : ((s.setBuf r b).exch y).state = (s.exch y).state := by
  rw [State.exch_setBuf]; (repeat' split) <;> rfl
@[simp] theorem State.exch_setBuf_mid (s : State) (r : BufRef) (b : Buf) (y : Nat) : ((s.setBuf r b).exch y).mid = (s.exch y).mid := by
  rw [State.exch_setBuf]; (repeat' split) <;> rfl
@[simp] theorem State.exch_setBuf_attempts (s : State) (r : BufRef) (b : Buf) (y : Nat) : ((s.setBuf r b).exch y).attempts = (s.exch y).attempts := by
  rw [State.exch_setBuf]; (repeat' split) <;> rfl
@[simp] theorem State.exch_setBuf_wait (s : State) (r : BufRef) (b : Buf) (y : Nat) : ((s.setBuf r b).exch y).wait = (s.exch y).wait := by
  rw [State.exch_setBuf]; (repeat' split) <;> rfl
@[simp] theorem State.exch_setBuf_armed (s : State) (r : BufRef) (b : Buf) (y : Nat) : ((s.setBuf r b).exch y).armed = (s.exch y).armed := by
  rw [State.exch_setBuf]; (repeat' split) <;> rfl
@[simp] theorem State.exch_setBuf_len (s : State) (r : BufRef) (b : Buf) (y : Nat) : ((s.setBuf r b).exch y).len = (s.exch y).len := by
  rw [State.exch_setBuf]; (repeat' split) <;> rfl
@[simp] theorem State.exch_setBuf_peer (s : State) (r : BufRef) (b : Buf) (y : Nat) : ((s.setBuf r b).exch y).peer = (s.exch y).peer := by
  rw [State.exch_setBuf]; (repeat' split) <;> rfl
@[simp] theorem State.exch_setBuf_reply (s : State) (r : BufRef) (b : Buf) (y : Nat) : ((s.setBuf r b).exch y).reply = (s.exch y).reply := by
  rw [State.exch_setBuf]; (repeat' split) <;> rfl
@[simp] theorem State.worker_setBuf_phase (s : State) (r : BufRef) (b : Buf) (v : Nat) : ((s.setBuf r b).worker v).phase = (s.worker v).phase := by
  rw [State.worker_setBuf]; (repeat' split) <;> rfl
@[simp] theorem State.worker_setBuf_peer (s : State) (r : BufRef) (b : Buf) (v : Nat) : ((s.setBuf r b).worker v).peer = (s.worker v).peer := by
  rw [State.worker_setBuf]; (repeat' split) <;> rfl
@[simp] theorem State.worker_setBuf_plan (s : State) (r : BufRef) (b : Buf) (v : Nat) : ((s.setBuf r b).worker v).plan = (s.worker v).plan := by
  rw [State.worker_setBuf]; (repeat' split) <;> rfl
@[simp] theorem State.worker_setBuf_call (s : State) (r : BufRef) (b : Buf) (v : Nat) : ((s.setBuf r b).worker v).call = (s.worker v).call := by
  rw [State.worker_setBuf]; (repeat' split) <;> rfl
@[simp] theorem State.worker_setBuf_appKind (s : State) (r : BufRef) (b : Buf) (v : Nat) : ((s.setBuf r b).worker v).appKind = (s.worker v).appKind := by
  rw [State.worker_setBuf]; (repeat' split) <;> rfl
@[simp] theorem State.worker_setBuf_appCode (s : State) (r : BufRef) (b : Buf) (v : Nat) : ((s.setBuf r b).worker v).appCode = (s.worker v).appCode := by
  rw [State.worker_setBuf]; (repeat' split) <;> rfl
@[simp] theorem State.worker_setBuf_appPayload (s : State) (r : BufRef) (b : Buf) (v : Nat) : ((s.setBuf r b).worker v).appPayload = (s.worker v).appPayload := by
  rw [State.worker_setBuf]; (repeat' split) <;> rfl
@[simp] theorem State.exch_setCodec_state (s : State) (a : Agent) (c : Codec) (y : Nat) : ((s.setCodec a c).exch y).state = (s.exch y).state := by
  rw [State.exch_setCodec]; (repeat' split) <;> rfl
@[simp] theorem State.exch_setCodec_mid (s : State) (a : Agent) (c : Codec) (y : Nat) : ((s.setCodec a c).exch y).mid = (s.exch y).mid := by
  rw [State.exch_setCodec]; (repeat' split) <;> rfl
@[simp] theorem State.exch_setCodec_attempts (s : State) (a : Agent) (c : Codec) (y : Nat) : ((s.setCodec a c).exch y).attempts = (s.exch y).attempts := by
  rw [State.exch_setCodec]; (repeat' split) <;> rfl
@[simp] theorem State.exch_setCodec_wait (s : State) (a : Agent) (c : Codec) (y : Nat) : ((s.setCodec a c).exch y).wait = (s.exch y).wait := by
  rw [State.exch_setCodec]; (repeat' split) <;> rfl
@[simp] theorem State.exch_setCodec_armed (s : State) (a : Agent) (c : Codec) (y : Nat) : ((s.setCodec a c).exch y).armed = (s.exch y).armed := by
  rw [State.exch_setCodec]; (repeat' split) <;> rfl
@[simp] theorem State.exch_setCodec_len (s : State) (a : Agent) (c : Codec) (y : Nat) : ((s.setCodec a c).exch y).len = (s.exch y).len := by
  rw [State.exch_setCodec]; (repeat' split) <;> rfl
@[simp] theorem State.exch_setCodec_peer (s : State) (a : Agent) (c : Codec) (y : Nat) : ((s.setCodec a c).exch y).peer = (s.exch y).peer := by
  rw [State.exch_setCodec]; (repeat' split) <;> rfl
@[simp] theorem State.exch_setCodec_reply (s : State) (a : Agent) (c : Codec) (y : Nat) : ((s.setCodec a c).exch y).reply = (s.exch y).reply := by
  rw [State.exch_setCodec]; (repeat' split) <;> rfl
@[simp] theorem State.worker_setCodec_phase (s : State) (a : Agent) (c : Codec) (v : Nat) : ((s.setCodec a c).worker v).phase = (s.worker v).phase := by
  rw [State.worker_setCodec]; (repeat' split) <;> rfl
@[simp] theorem State.worker_setCodec_peer (s : State) (a : Agent) (c : Codec) (v : Nat) : ((s.setCodec a c).worker v).peer = (s.worker v).peer := by
  rw [State.worker_setCodec]; (repeat' split) <;> rfl
@[simp] theorem State.worker_setCodec_plan (s : State) (a : Agent) (c : Codec) (v : Nat) : ((s.setCodec a c).worker v).plan = (s.worker v).plan := by
  rw [State.worker_setCodec]; (repeat' split) <;> rfl
@[simp] theorem State.worker_setCodec_call (s : State) (a : Agent) (c : Codec) (v : Nat) : ((s.setCodec a c).worker v).call = (s.worker v).call := by
  rw [State.worker_setCodec]; (repeat' split) <;> rfl
@[simp] theorem State.worker_setCodec_appKind (s : State) (a : Agent) (c : Codec) (v : Nat) : ((s.setCodec a c).worker v).appKind = (s.worker v).appKind := by
  rw [State.worker_setCodec]; (repeat' split) <;> rfl
@[simp] theorem State.worker_setCodec_appCode (s : State) (a : Agent) (c : Codec) (v : Nat) : ((s.setCodec a c).worker v).appCode = (s.worker v).appCode := by
  rw [State.worker_setCodec]; (repeat' split) <;> rfl
@[simp] theorem State.worker_setCodec_appPayload (s : State) (a : Agent) (c : Codec) (v : Nat) : ((s.setCodec a c).worker v).appPayload = (s.worker v).appPayload := by
  rw [State.worker_setCodec]; (repeat' split) <;> rfl

/-! Slots, buffers and codec registers after each write. -/

theorem State.msg_setMsg (s : State) (r q : SlotRef) (m : Msg) : (s.setMsg r m).msg q = if q = r then m else s.msg q := by
  cases q with
  | main i =>
    cases r <;> simp [State.setMsg, State.msg, State.setExch, State.setWorker, lookup_store]
  | req w =>
    simp only [State.msg, State.worker_setMsg]
    by_cases h : r = .req w
    · subst h; simp
    · simp only [h, Ne.symm h, if_false]; split_ifs <;> rfl
  | rsp w =>
    simp only [State.msg, State.worker_setMsg]
    by_cases h : r = .rsp w
    · subst h; simp
    · simp only [h, Ne.symm h, if_false]; split_ifs <;> rfl
  | reply x =>
    simp only [State.msg, State.exch_setMsg]
    by_cases h : r = .reply x
    · subst h; simp
    · simp only [h, Ne.symm h, if_false]

@[simp] theorem State.msg_setMsg_same (s : State) (r : SlotRef) (m : Msg) : (s.setMsg r m).msg r = m := by
  simp [State.msg_setMsg]

theorem State.buf_setBuf (s : State) (r q : BufRef) (b : Buf) : (s.setBuf r b).buf q = if q = r then b else s.buf q := by
  cases q with
  | caller i =>
    cases r <;> simp [State.setBuf, State.buf, State.setExch, State.setWorker, lookup_store]
  | rx w =>
    simp only [State.buf, State.worker_setBuf]
    by_cases h : r = .rx w
    · subst h; simp
    · simp only [h, Ne.symm h, if_false]; split_ifs <;> rfl
  | tx w =>
    simp only [State.buf, State.worker_setBuf]
    by_cases h : r = .tx w
    · subst h; simp
    · simp only [h, Ne.symm h, if_false]; split_ifs <;> rfl
  | xbuf x =>
    simp only [State.buf, State.exch_setBuf]
    by_cases h : r = .xbuf x
    · subst h; simp
    · simp only [h, Ne.symm h, if_false]; split_ifs <;> rfl
  | xrx x =>
    simp only [State.buf, State.exch_setBuf]
    by_cases h : r = .xrx x
    · subst h; simp
    · simp only [h, Ne.symm h, if_false]; split_ifs <;> rfl

@[simp] theorem State.buf_setBuf_same (s : State) (r : BufRef) (b : Buf) : (s.setBuf r b).buf r = b := by
  simp [State.buf_setBuf]

theorem State.codec_setCodec (s : State) (a g : Agent) (c : Codec) :
    (s.setCodec a c).codec g = if g = a then c else s.codec g := by
  cases g with
  | caller => cases a <;> simp [State.setCodec, State.codec, State.setExch, State.setWorker]
  | worker w =>
    simp only [State.codec, State.worker_setCodec]
    by_cases h : a = .worker w
    · subst h; simp
    · simp only [h, Ne.symm h, if_false]
  | exchange x =>
    simp only [State.codec, State.exch_setCodec]
    by_cases h : a = .exchange x
    · subst h; simp
    · simp only [h, Ne.symm h, if_false]

@[simp] theorem State.codec_setCodec_same (s : State) (a : Agent) (c : Codec) : (s.setCodec a c).codec a = c := by
  simp [State.codec_setCodec]

@[simp] theorem State.msg_setBuf (s : State) (r : BufRef) (b : Buf) (q : SlotRef) : (s.setBuf r b).msg q = s.msg q := by
  cases q with
  | main i => cases r <;> rfl
  | req w => simp only [State.msg, State.worker_setBuf]; split_ifs <;> rfl
  | rsp w => simp only [State.msg, State.worker_setBuf]; split_ifs <;> rfl
  | reply x => simp only [State.msg, State.exch_setBuf]; split_ifs <;> rfl

@[simp] theorem State.msg_setCodec (s : State) (a : Agent) (c : Codec) (q : SlotRef) : (s.setCodec a c).msg q = s.msg q := by
  cases q with
  | main i => cases a <;> rfl
  | req w => simp only [State.msg, State.worker_setCodec]; split_ifs <;> rfl
  | rsp w => simp only [State.msg, State.worker_setCodec]; split_ifs <;> rfl
  | reply x => simp only [State.msg, State.exch_setCodec]; split_ifs <;> rfl

@[simp] theorem State.buf_setMsg (s : State) (r : SlotRef) (m : Msg) (q : BufRef) : (s.setMsg r m).buf q = s.buf q := by
  cases q with
  | caller i => cases r <;> rfl
  | rx w => simp only [State.buf, State.worker_setMsg]; split_ifs <;> rfl
  | tx w => simp only [State.buf, State.worker_setMsg]; split_ifs <;> rfl
  | xbuf x => simp only [State.buf, State.exch_setMsg]; split_ifs <;> rfl
  | xrx x => simp only [State.buf, State.exch_setMsg]; split_ifs <;> rfl

@[simp] theorem State.buf_setCodec (s : State) (a : Agent) (c : Codec) (q : BufRef) : (s.setCodec a c).buf q = s.buf q := by
  cases q with
  | caller i => cases a <;> rfl
  | rx w => simp only [State.buf, State.worker_setCodec]; split_ifs <;> rfl
  | tx w => simp only [State.buf, State.worker_setCodec]; split_ifs <;> rfl
  | xbuf x => simp only [State.buf, State.exch_setCodec]; split_ifs <;> rfl
  | xrx x => simp only [State.buf, State.exch_setCodec]; split_ifs <;> rfl

@[simp] theorem State.codec_setMsg (s : State) (r : SlotRef) (m : Msg) (g : Agent) : (s.setMsg r m).codec g = s.codec g := by
  cases g with
  | caller => cases r <;> rfl
  | worker w => simp only [State.codec, State.worker_setMsg]; split_ifs <;> rfl
  | exchange x => simp only [State.codec, State.exch_setMsg]; split_ifs <;> rfl

@[simp] theorem State.codec_setBuf (s : State) (r : BufRef) (b : Buf) (g : Agent) : (s.setBuf r b).codec g = s.codec g := by
  cases g with
  | caller => cases r <;> rfl
  | worker w => simp only [State.codec, State.worker_setBuf]; split_ifs <;> rfl
  | exchange x => simp only [State.codec, State.exch_setBuf]; split_ifs <;> rfl

@[simp] theorem State.msg_draw (s : State) (q : SlotRef) : s.draw.msg q = s.msg q := by cases q <;> rfl
@[simp] theorem State.buf_draw (s : State) (q : BufRef) : s.draw.buf q = s.buf q := by cases q <;> rfl
@[simp] theorem State.codec_draw (s : State) (g : Agent) : s.draw.codec g = s.codec g := by cases g <;> rfl
@[simp] theorem State.msg_transmit (s : State) (p : PeerAddr) (bs : List Byte) (q : SlotRef) : (s.transmit p bs).msg q = s.msg q := by
  cases q <;> rfl
@[simp] theorem State.buf_transmit (s : State) (p : PeerAddr) (bs : List Byte) (q : BufRef) : (s.transmit p bs).buf q = s.buf q := by
  cases q <;> rfl
@[simp] theorem State.codec_transmit (s : State) (p : PeerAddr) (bs : List Byte) (g : Agent) : (s.transmit p bs).codec g = s.codec g := by
  cases g <;> rfl
@[simp] theorem State.msg_endOp (s : State) (a : Agent) (e : Err) (v : Option Nat) (q : SlotRef) : (s.endOp a e v).msg q = s.msg q :=
  State.msg_setCodec _ _ _ _
@[simp] theorem State.buf_endOp (s : State) (a : Agent) (e : Err) (v : Option Nat) (q : BufRef) : (s.endOp a e v).buf q = s.buf q :=
  State.buf_setCodec _ _ _ _
theorem State.codec_endOp (s : State) (a g : Agent) (e : Err) (v : Option Nat) :
    (s.endOp a e v).codec g = if g = a then { s.codec a with err := e, result := v } else s.codec g := State.codec_setCodec _ _ _ _
@[simp] theorem State.codec_endOp_same (s : State) (a : Agent) (e : Err) (v : Option Nat) :
    (s.endOp a e v).codec a = { s.codec a with err := e, result := v } := State.codec_setCodec_same _ _ _
@[simp] theorem State.msg_toPhase (s : State) (w : Nat) (p : Phase) (q : SlotRef) : (s.toPhase w p).msg q = s.msg q := by
  cases q with
  | main i => rfl
  | req v => simp only [State.msg, State.worker_toPhase]; split_ifs with h <;> first | (subst h; rfl) | rfl
  | rsp v => simp only [State.msg, State.worker_toPhase]; split_ifs with h <;> first | (subst h; rfl) | rfl
  | reply x => rfl
@[simp] theorem State.buf_toPhase (s : State) (w : Nat) (p : Phase) (q : BufRef) : (s.toPhase w p).buf q = s.buf q := by
  cases q with
  | caller i => rfl
  | rx v => simp only [State.buf, State.worker_toPhase]; split_ifs with h <;> first | (subst h; rfl) | rfl
  | tx v => simp only [State.buf, State.worker_toPhase]; split_ifs with h <;> first | (subst h; rfl) | rfl
  | xbuf x => rfl
  | xrx x => rfl
@[simp] theorem State.codec_toPhase (s : State) (w : Nat) (p : Phase) (g : Agent) : (s.toPhase w p).codec g = s.codec g := by
  cases g with
  | caller => rfl
  | worker v => simp only [State.codec, State.worker_toPhase]; split_ifs with h <;> first | (subst h; rfl) | rfl
  | exchange x => rfl

/-! The last write of a slot, a buffer, codec registers or a context counts. -/

@[simp] theorem State.setExch_setExch (s : State) (x : Nat) (e e' : Exch) : (s.setExch x e).setExch x e' = s.setExch x e' := by
  simp only [State.setExch, store_store]

@[simp] theorem State.setWorker_setWorker (s : State) (w : Nat) (k k' : Worker) :
    (s.setWorker w k).setWorker w k' = s.setWorker w k' := by
  simp only [State.setWorker, store_store]

@[simp] theorem State.setMsg_setMsg (s : State) (r : SlotRef) (m m' : Msg) : (s.setMsg r m).setMsg r m' = s.setMsg r m' := by
  cases r <;> simp [State.setMsg, store_store]

@[simp] theorem State.setBuf_setBuf (s : State) (r : BufRef) (b b' : Buf) : (s.setBuf r b).setBuf r b' = s.setBuf r b' := by
  cases r <;> simp [State.setBuf, store_store]

@[simp] theorem State.setCodec_setCodec (s : State) (a : Agent) (c c' : Codec) :
    (s.setCodec a c).setCodec a c' = s.setCodec a c' := by
  cases a <;> simp [State.setCodec]

/-! The caller's codec registers are the caller agent's copy. -/

theorem State.codec_caller (s : State) : s.codec .caller = s.caller := rfl

end Sys2Proof.Machine
end

