-- ==== Sys2Proof/Laws/Contexts.lean ====
section
/-! SUPPORT. Which worker and exchange contexts each shared operation can write, and that none of them writes the
configuration or the port (10_state.md R51). -/

namespace Sys2Proof.Machine

/-- Every worker context outside `ws` and every exchange context outside `xs` stays, buffers and slots with it, and
  so do
the configuration and the port. -/
structure LocalTo (ws xs : List Nat) (σ t : State) : Prop where
  worker          : ∀ w, w ∉ ws → t.worker w = σ.worker w
  exch            : ∀ x, x ∉ xs → t.exch x = σ.exch x
  params          : t.params = σ.params
  w0              : t.w0 = σ.w0
  maxAttempts     : t.maxAttempts = σ.maxAttempts
  rstOnParseError : t.rstOnParseError = σ.rstOnParseError
  listenPort      : t.listenPort = σ.listenPort
  port            : t.port = σ.port

/-- The slot lies in no context, or in one of the contexts named. -/
def SlotRef.within (ws xs : List Nat) : SlotRef → Prop
  | .main _ => True
  | .req w => w ∈ ws
  | .rsp w => w ∈ ws
  | .reply x => x ∈ xs

/-- The buffer lies in no context, or in one of the contexts named. -/
def BufRef.within (ws xs : List Nat) : BufRef → Prop
  | .caller _ => True
  | .rx w => w ∈ ws
  | .tx w => w ∈ ws
  | .xbuf x => x ∈ xs
  | .xrx x => x ∈ xs

/-- The agent is the caller or one of the contexts named. -/
def Agent.within (ws xs : List Nat) : Agent → Prop
  | .caller => True
  | .worker w => w ∈ ws
  | .exchange x => x ∈ xs

variable {ws xs : List Nat}

theorem LocalTo.refl (σ : State) : LocalTo ws xs σ σ := ⟨fun _ _ => rfl, fun _ _ => rfl, rfl, rfl, rfl, rfl, rfl, rfl⟩

theorem LocalTo.trans {a b c : State} (h : LocalTo ws xs a b) (k : LocalTo ws xs b c) : LocalTo ws xs a c :=
  ⟨fun w hw => (k.worker w hw).trans (h.worker w hw), fun x hx => (k.exch x hx).trans
    (h.exch x hx), k.params.trans h.params, k.w0.trans h.w0, k.maxAttempts.trans h.maxAttempts,
      k.rstOnParseError.trans h.rstOnParseError, k.listenPort.trans h.listenPort, k.port.trans h.port⟩

theorem localTo_setMsg (σ : State) (r : SlotRef) (m : Msg) (h : SlotRef.within ws xs r) :
    LocalTo ws xs σ (σ.setMsg r m) := by
  constructor
  · intro w hw; rw [State.worker_setMsg, if_neg (by rintro rfl; exact hw h), if_neg (by rintro rfl; exact hw h)]
  · intro x hx; rw [State.exch_setMsg, if_neg (by rintro rfl; exact hx h)]
  all_goals simp

theorem localTo_setBuf (σ : State) (r : BufRef) (m : Buf) (h : BufRef.within ws xs r) :
    LocalTo ws xs σ (σ.setBuf r m) := by
  constructor
  · intro w hw; rw [State.worker_setBuf, if_neg (by rintro rfl; exact hw h), if_neg (by rintro rfl; exact hw h)]
  · intro x hx; rw [State.exch_setBuf, if_neg (by rintro rfl; exact hx h), if_neg (by rintro rfl; exact hx h)]
  all_goals simp

theorem localTo_setCodec (σ : State) (r : Agent) (m : Codec) (h : Agent.within ws xs r) :
    LocalTo ws xs σ (σ.setCodec r m) := by
  constructor
  · intro w hw; rw [State.worker_setCodec, if_neg (by rintro rfl; exact hw h)]
  · intro x hx; rw [State.exch_setCodec, if_neg (by rintro rfl; exact hx h)]
  all_goals simp

theorem localTo_setWorker (σ : State) (w : Nat) (k : Worker) (h : w ∈ ws) : LocalTo ws xs σ (σ.setWorker w k) := by
  constructor
  · intro v hv; rw [State.worker_setWorker, if_neg (by rintro rfl; exact hv h)]
  · intro x hx; rfl
  all_goals rfl

theorem localTo_setExch (σ : State) (x : Nat) (k : Exch) (h : x ∈ xs) : LocalTo ws xs σ (σ.setExch x k) := by
  constructor
  · intro v hv; rfl
  · intro y hy; rw [State.exch_setExch, if_neg (by rintro rfl; exact hy h)]
  all_goals rfl

theorem localTo_draw (σ : State) :
    LocalTo ws xs σ σ.draw := ⟨fun _ _ => rfl, fun _ _ => rfl, rfl, rfl, rfl, rfl, rfl, rfl⟩

theorem localTo_transmit (σ : State) (p b) :
    LocalTo ws xs σ (σ.transmit p b) := ⟨fun _ _ => rfl, fun _ _ => rfl, rfl, rfl, rfl, rfl, rfl, rfl⟩

theorem localTo_calls (σ : State) (c) :
    LocalTo ws xs σ { σ with calls := c } := ⟨fun _ _ => rfl, fun _ _ => rfl, rfl, rfl, rfl, rfl, rfl, rfl⟩

theorem localTo_endOp (σ : State) (a e v) (h : Agent.within ws xs a) :
    LocalTo ws xs σ (σ.endOp a e v) := localTo_setCodec _ _ _ h

theorem localTo_raise (σ : State) (a e) (h : Agent.within ws xs a) :
    LocalTo ws xs σ (σ.raise a e) := localTo_setCodec _ _ _ h

theorem localTo_done (σ : State) (a) (h : Agent.within ws xs a) :
    LocalTo ws xs σ (σ.done a) := localTo_setCodec _ _ _ h

theorem localTo_toPhase (σ : State) (w p) (h : w ∈ ws) : LocalTo ws xs σ (σ.toPhase w p) := localTo_setWorker _ _ _ h

theorem localTo_opFree (σ : State) (a d) (h : Agent.within ws xs a) (h2 : SlotRef.within ws xs d) :
    LocalTo ws xs σ (σ.opFree a d) := by
  unfold State.opFree
  refine LocalTo.trans (b := σ.setMsg d (freedMsg σ.draws (σ.msg d))) (localTo_setMsg _ _ _ h2) (LocalTo.trans ?_
    (localTo_done _ _ h))
  split_ifs
  · exact LocalTo.refl _
  · exact localTo_draw _

theorem localTo_opBuildEmpty (σ : State) (a k d r) (h : Agent.within ws xs a) (h2 : SlotRef.within ws xs d) :
    LocalTo ws xs σ (σ.opBuildEmpty a k d r) :=
  (localTo_setMsg _ _ _ h2).trans (localTo_done _ _ h)

theorem localTo_opBuildResponse (σ : State) (a d r c p) (h : Agent.within ws xs a) (h2 : SlotRef.within ws xs d) :
    LocalTo ws xs σ (σ.opBuildResponse a d r c p) := by
  unfold State.opBuildResponse
  cases p with
  | none => exact (localTo_setMsg _ _ _ h2).trans (localTo_done _ _ h)
  | some v =>
    dsimp only
    split_ifs
    · exact (localTo_setMsg _ _ _ h2).trans (localTo_raise _ _ _ h)
    · exact (localTo_setMsg _ _ _ h2).trans (localTo_done _ _ h)

theorem localTo_opSerialize (σ : State) (a r t cap) (h : Agent.within ws xs a) (h2 : BufRef.within ws xs t) :
    LocalTo ws xs σ (σ.opSerialize a r t cap) := by
  unfold State.opSerialize
  dsimp only
  split
  · exact (localTo_setBuf _ _ _ h2).trans ((localTo_setCodec _ _ _ h).trans (localTo_endOp _ _ _ _ h))
  · exact (localTo_setBuf _ _ _ h2).trans ((localTo_draw _).trans ((localTo_setCodec _ _ _ h).trans
      (localTo_raise _ _ _ h)))
  · exact localTo_raise _ _ _ h

theorem localTo_opParse (σ : State) (a d bs) (h : Agent.within ws xs a) (h2 : SlotRef.within ws xs d) :
    LocalTo ws xs σ (σ.opParse a d bs) := by
  unfold State.opParse State.storeParse
  dsimp only
  split_ifs
  · exact (localTo_setMsg _ _ _ h2).trans ((localTo_setCodec _ _ _ h).trans (localTo_endOp _ _ _ _ h))
  · exact (localTo_setMsg _ _ _ h2).trans ((localTo_setCodec _ _ _ h).trans ((localTo_draw _).trans
      (localTo_endOp _ _ _ _ h)))

theorem localTo_updateMsg (σ : State) (s f) :
    LocalTo ws xs σ (σ.updateMsg s f) := (localTo_setMsg _ _ _ (by trivial)).trans (localTo_done _ _ (by trivial))

theorem localTo_callerParse (σ : State) (d src n) : LocalTo ws xs σ (σ.callerParse d src n) := by
  have hi : ∀ d, LocalTo ws xs σ (σ.parseInvalid d) := by
    intro d; unfold State.parseInvalid; dsimp only; split_ifs
    · exact (localTo_setCodec σ .caller _ (by trivial)).trans ((localTo_setMsg _ _ _ (by trivial)).trans
        ((localTo_draw _).trans (localTo_raise _ _ _ (by trivial))))
    · exact (localTo_setCodec σ .caller _ (by trivial)).trans (localTo_raise _ _ _ (by trivial))
  unfold State.callerParse
  split_ifs
  · split
    · exact hi _
    · exact localTo_opParse _ _ _ _ trivial trivial
  · exact hi _

theorem localTo_optRound (σ : State) (d b r) : LocalTo ws xs σ (σ.optRound d b r) := by
  unfold State.optRound
  dsimp only
  split_ifs
  · exact localTo_raise _ _ _ trivial
  · split
    · exact (localTo_setMsg _ _ _ (by trivial)).trans ((localTo_setCodec _ .caller _ (by trivial)).trans
        (localTo_done _ _ (by trivial)))
    · exact (localTo_setMsg _ _ _ (by trivial)).trans ((localTo_setCodec _ .caller _ (by trivial)).trans
        (localTo_done _ _ (by trivial)))
    · exact (localTo_setMsg _ _ _ (by trivial)).trans ((localTo_setCodec _ .caller _ (by trivial)).trans
        ((localTo_draw _).trans (localTo_raise _ _ _ (by trivial))))

theorem localTo_settle (σ : State) (x) (h : x ∈ xs) : LocalTo ws xs σ (σ.settle x) := by
  unfold State.settle
  dsimp only
  split_ifs
  · split <;> first | exact localTo_setExch _ _ _ h | exact LocalTo.refl _
  · exact LocalTo.refl _

theorem localTo_recv (σ : State) (x dg) (h : x ∈ xs) : LocalTo ws xs σ (σ.recv x dg) := by
  unfold State.recv
  dsimp only
  split_ifs
  · exact localTo_raise _ _ _ trivial
  · exact (localTo_setBuf _ _ _ (by exact h)).trans ((localTo_opParse _ _ _ _ (by exact h) (by exact h)).trans
      (localTo_setMsg _ _ _ (by exact h)))
  · exact (localTo_setBuf _ _ _ (by exact h)).trans ((localTo_opParse _ _ _ _ (by exact h) (by exact h)).trans
      (localTo_settle _ _ (by exact h)))

theorem localTo_endXsend (σ : State) (x e) (h : x ∈ xs) :
    LocalTo ws xs σ (σ.endXsend x e) := (localTo_endOp _ _ _ _ (by exact h)).trans (localTo_endOp _ _ _ _
      (by trivial))

theorem localTo_xSerialize (σ : State) (x s) (h : x ∈ xs) : LocalTo ws xs σ (σ.xSerialize x s) := by
  unfold State.xSerialize
  split_ifs
  · exact localTo_opSerialize _ _ _ _ _ h h
  · exact localTo_raise _ _ _ h

theorem localTo_xTransmit (σ : State) (x s p) (h : x ∈ xs) : LocalTo ws xs σ (σ.xTransmit x s p) := by
  unfold State.xTransmit
  dsimp only
  split_ifs
  · exact (localTo_transmit _ _ _).trans (localTo_endXsend _ _ _ (by exact h))
  · exact (localTo_transmit _ _ _).trans ((localTo_setExch _ _ _ (by exact h)).trans (localTo_endXsend _ _ _
      (by exact h)))
  · exact (localTo_transmit _ _ _).trans (localTo_endXsend _ _ _ (by exact h))

theorem localTo_endWorker (σ : State) (w) (h : w ∈ ws) : LocalTo ws xs σ (σ.endWorker w) :=
  (localTo_opFree _ _ _ (by exact h) (by exact h)).trans ((localTo_opFree _ _ _ (by exact h) (by exact h)).trans
    (localTo_setWorker _ _ _ (by exact h)))

theorem localTo_workerParse (σ : State) (w) (h : w ∈ ws) : LocalTo ws xs σ (σ.workerParse w) := by
  unfold State.workerParse
  split_ifs
  · exact (localTo_opParse _ _ _ _ (by exact h) (by exact h)).trans (localTo_toPhase _ _ _ (by exact h))
  · exact LocalTo.refl _

theorem localTo_workerDecide (σ : State) (w) (h : w ∈ ws) : LocalTo ws xs σ (σ.workerDecide w) := by
  unfold State.workerDecide
  dsimp only
  split_ifs
  · exact (localTo_setWorker _ _ _ (by exact h)).trans (localTo_toPhase _ _ _ (by exact h))
  · exact (localTo_setWorker _ _ _ (by exact h)).trans (localTo_endWorker _ _ (by exact h))
  · exact (localTo_setWorker _ _ _ (by exact h)).trans (localTo_toPhase _ _ _ (by exact h))
  · exact LocalTo.refl _

theorem localTo_workerCall (σ : State) (w) (h : w ∈ ws) : LocalTo ws xs σ (σ.workerCall w) := by
  unfold State.workerCall
  split_ifs
  · exact (localTo_setWorker _ _ _ (by exact h)).trans (localTo_calls _ _)
  · exact LocalTo.refl _

theorem localTo_workerReturn (σ : State) (w r) (h : w ∈ ws) : LocalTo ws xs σ (σ.workerReturn w r) := by
  unfold State.workerReturn
  dsimp only
  split_ifs
  · exact (localTo_setWorker _ _ _ (by exact h)).trans (localTo_endWorker _ _ (by exact h))
  · exact (localTo_setWorker _ _ _ (by exact h)).trans (localTo_toPhase _ _ _ (by exact h))
  · exact LocalTo.refl _

theorem localTo_buildReply (σ : State) (w) (h : w ∈ ws) : LocalTo ws xs σ (σ.buildReply w) := by
  unfold State.buildReply State.buildReplyResponse
  dsimp only
  split
  · exact localTo_opBuildEmpty _ _ _ _ _ h h
  · exact localTo_opBuildEmpty _ _ _ _ _ h h
  · split
    · exact localTo_opBuildEmpty _ _ _ _ _ h h
    · exact localTo_opBuildResponse _ _ _ _ _ _ h h
    · split_ifs
      · exact (localTo_opBuildResponse _ _ _ _ _ _ (by exact h) (by exact h)).trans
          (localTo_opBuildResponse _ _ _ _ _ _ (by exact h) (by exact h))
      · exact localTo_opBuildResponse _ _ _ _ _ _ h h
  · exact LocalTo.refl _

theorem localTo_serializeReply (σ : State) (w) (h : w ∈ ws) : LocalTo ws xs σ (σ.serializeReply w) := by
  unfold State.serializeReply
  dsimp only
  split_ifs
  · exact localTo_endWorker _ _ h
  · exact (localTo_opSerialize _ _ _ _ _ (by exact h) (by exact h)).trans (localTo_toPhase _ _ _ (by exact h))
  · exact (localTo_opSerialize _ _ _ _ _ (by exact h) (by exact h)).trans (localTo_endWorker _ _ (by exact h))

theorem localTo_workerReply (σ : State) (w) (h : w ∈ ws) : LocalTo ws xs σ (σ.workerReply w) := by
  unfold State.workerReply
  split_ifs
  · exact (localTo_buildReply _ _ (by exact h)).trans (localTo_serializeReply _ _ (by exact h))
  · exact LocalTo.refl _

theorem localTo_workerSend (σ : State) (w) (h : w ∈ ws) : LocalTo ws xs σ (σ.workerSend w) := by
  unfold State.workerSend
  split_ifs
  · exact (localTo_transmit _ _ _).trans (localTo_endWorker _ _ (by exact h))
  · exact LocalTo.refl _

theorem localTo_accept (σ : State) (p d) (h : σ.freeWorker ∈ ws) : LocalTo ws xs σ (σ.accept p d) := by
  unfold State.accept
  dsimp only
  split_ifs
  · exact (localTo_setWorker _ _ _ (by exact h)).trans (localTo_draw _)
  · exact LocalTo.refl _

theorem localTo_runWorker (σ : State) (w) (h : w ∈ ws) : LocalTo ws xs σ (σ.runWorker w) :=
  (localTo_workerParse _ _ (by exact h)).trans ((localTo_workerDecide _ _ (by exact h)).trans
    ((localTo_workerCall _ _ (by exact h)).trans ((localTo_workerReply _ _ (by exact h)).trans
      (localTo_workerSend _ _ (by exact h)))))

theorem localTo_dispatch (σ : State) (p d) (h : σ.freeWorker ∈ ws) : LocalTo ws xs σ (σ.dispatch p d) := by
  unfold State.dispatch
  split_ifs
  · exact (localTo_accept _ _ _ (by exact h)).trans (localTo_runWorker _ _ (by exact h))
  · exact LocalTo.refl _

end Sys2Proof.Machine
end

