-- ==== Sys2Proof/Laws/Frame.lean ====
section
/-! SUPPORT. What each shared operation leaves unchanged, one lemma per operation; frames compose. -/

namespace Sys2Proof.Machine

/-! The contexts' registers after each write. -/

@[simp] theorem State.exch_setMsg_regs (s : State) (r : SlotRef) (m : Msg) (y : Nat) :
    ((s.setMsg r m).exch y).regs = (s.exch y).regs := by rw [State.exch_setMsg]; split_ifs <;> rfl
@[simp] theorem State.exch_setBuf_regs (s : State) (r : BufRef) (b : Buf) (y : Nat) :
    ((s.setBuf r b).exch y).regs = (s.exch y).regs := by rw [State.exch_setBuf]; split_ifs <;> rfl
@[simp] theorem State.exch_setCodec_regs (s : State) (a : Agent) (c : Codec) (y : Nat) :
    ((s.setCodec a c).exch y).regs = (s.exch y).regs := by rw [State.exch_setCodec]; split_ifs <;> rfl
@[simp] theorem State.worker_setMsg_regs (s : State) (r : SlotRef) (m : Msg) (v : Nat) :
    ((s.setMsg r m).worker v).regs = (s.worker v).regs := by rw [State.worker_setMsg]; split_ifs <;> rfl
@[simp] theorem State.worker_setBuf_regs (s : State) (r : BufRef) (b : Buf) (v : Nat) :
    ((s.setBuf r b).worker v).regs = (s.worker v).regs := by rw [State.worker_setBuf]; split_ifs <;> rfl
@[simp] theorem State.worker_setCodec_regs (s : State) (a : Agent) (c : Codec) (v : Nat) :
    ((s.setCodec a c).worker v).regs = (s.worker v).regs := by rw [State.worker_setCodec]; split_ifs <;> rfl

/-! Frames compose. -/

theorem Frame.refl (τ : Touched) (s : State) : Frame τ s s := by constructor <;> intros <;> rfl

theorem Frame.trans {τ : Touched} {s t u : State} (h : Frame τ s t) (k : Frame τ t u) : Frame τ s u where
  slots r hr := (k.slots r hr).trans (h.slots r hr)
  lens b hb := (k.lens b hb).trans (h.lens b hb)
  bytes b hb a := (k.bytes b hb a).trans (h.bytes b hb a)
  codecs g hg := (k.codecs g hg).trans (h.codecs g hg)
  exchs x hx := (k.exchs x hx).trans (h.exchs x hx)
  workers w hw := (k.workers w hw).trans (h.workers w hw)
  params := k.params.trans h.params
  w0 := k.w0.trans h.w0
  maxAttempts := k.maxAttempts.trans h.maxAttempts
  rstOnParseError := k.rstOnParseError.trans h.rstOnParseError
  listenPort := k.listenPort.trans h.listenPort
  port := k.port.trans h.port

/-- A frame of less is a frame of more. -/
theorem Frame.mono {τ τ' : Touched} {s t : State} (h : Frame τ s t) (h1 : τ.slots ⊆ τ'.slots) (h2 : τ.bufs ⊆ τ'.bufs)
    (h3 : τ.codecs ⊆ τ'.codecs) (h4 : τ.exchs ⊆ τ'.exchs) (h5 : τ.workers ⊆ τ'.workers) : Frame τ' s t where
  slots r hr := h.slots r fun m => hr (h1 m)
  lens b hb := h.lens b fun m => hb (h2 m)
  bytes b hb a := h.bytes b (fun m => hb (h2 m)) a
  codecs g hg := h.codecs g fun m => hg (h3 m)
  exchs x hx := h.exchs x fun m => hx (h4 m)
  workers w hw := h.workers w fun m => hw (h5 m)
  params := h.params
  w0 := h.w0
  maxAttempts := h.maxAttempts
  rstOnParseError := h.rstOnParseError
  listenPort := h.listenPort
  port := h.port

/-- A frame from whole buffers. -/
theorem Frame.ofBufs {τ : Touched} {s t : State} (h1 : ∀ r, r ∉ τ.slots → t.msg r = s.msg r)
    (h2 : ∀ b, b ∉ τ.bufs → t.buf b = s.buf b) (h3 : ∀ g, g ∉ τ.codecs → t.codec g = s.codec g)
    (h4 : ∀ x, x ∉ τ.exchs → (t.exch x).regs = (s.exch x).regs)
    (h5 : ∀ w, w ∉ τ.workers → (t.worker w).regs = (s.worker w).regs) (h6 : t.params = s.params) (h7 : t.w0 = s.w0)
    (h8 : t.maxAttempts = s.maxAttempts) (h9 : t.rstOnParseError = s.rstOnParseError)
    (h10 : t.listenPort = s.listenPort) (h11 : t.port = s.port) : Frame τ s t where
  slots := h1
  lens b hb := by rw [h2 b hb]
  bytes b hb a := by simp only [State.readByte, h2 b hb]
  codecs := h3
  exchs := h4
  workers := h5
  params := h6
  w0 := h7
  maxAttempts := h8
  rstOnParseError := h9
  listenPort := h10
  port := h11

/-! One frame per write. -/

theorem frame_setMsg {τ : Touched} (s : State) (r : SlotRef) (m : Msg) (h : r ∈ τ.slots) : Frame τ s (s.setMsg r m) := by
  refine Frame.ofBufs (fun q hq => ?_) ?_ ?_ ?_ ?_ ?_ ?_ ?_ ?_ ?_ ?_ <;> try (intros; simp)
  · rw [State.msg_setMsg, if_neg]; rintro rfl; exact hq h

theorem frame_setBuf {τ : Touched} (s : State) (r : BufRef) (b : Buf) (h : r ∈ τ.bufs) : Frame τ s (s.setBuf r b) := by
  refine Frame.ofBufs ?_ (fun q hq => ?_) ?_ ?_ ?_ ?_ ?_ ?_ ?_ ?_ ?_ <;> try (intros; simp)
  · rw [State.buf_setBuf, if_neg]; rintro rfl; exact hq h

theorem frame_setCodec {τ : Touched} (s : State) (a : Agent) (c : Codec) (h : a ∈ τ.codecs) :
    Frame τ s (s.setCodec a c) := by
  refine Frame.ofBufs ?_ ?_ (fun q hq => ?_) ?_ ?_ ?_ ?_ ?_ ?_ ?_ ?_ <;> try (intros; simp)
  · rw [State.codec_setCodec, if_neg]; rintro rfl; exact hq h

theorem frame_endOp {τ : Touched} (s : State) (a : Agent) (e : Err) (v : Option Nat) (h : a ∈ τ.codecs) :
    Frame τ s (s.endOp a e v) := frame_setCodec _ _ _ h

theorem frame_raise {τ : Touched} (s : State) (a : Agent) (e : Err) (h : a ∈ τ.codecs) : Frame τ s (s.raise a e) :=
  frame_setCodec _ _ _ h

theorem frame_done {τ : Touched} (s : State) (a : Agent) (h : a ∈ τ.codecs) : Frame τ s (s.done a) :=
  frame_setCodec _ _ _ h

theorem frame_draw {τ : Touched} (s : State) : Frame τ s s.draw := by
  refine Frame.ofBufs ?_ ?_ ?_ ?_ ?_ ?_ ?_ ?_ ?_ ?_ ?_ <;> intros <;> simp

theorem frame_transmit {τ : Touched} (s : State) (p : PeerAddr) (bs : List Byte) : Frame τ s (s.transmit p bs) := by
  refine Frame.ofBufs ?_ ?_ ?_ ?_ ?_ ?_ ?_ ?_ ?_ ?_ ?_ <;> intros <;> simp

/-- An exchange context written in its registers only. -/
theorem frame_setExch_regs {τ : Touched} (s : State) (x : Nat) (e : Exch) (hx : x ∈ τ.exchs)
    (h1 : e.replyMsg = (s.exch x).replyMsg) (h2 : e.xbuf = (s.exch x).xbuf) (h3 : e.xrx = (s.exch x).xrx)
    (h4 : e.codec = (s.exch x).codec) : Frame τ s (s.setExch x e) := by
  refine Frame.ofBufs (fun r _ => ?_) (fun b _ => ?_) (fun g _ => ?_) (fun y hy => ?_) (fun _ _ => rfl)
    rfl rfl rfl rfl rfl rfl
  · cases r <;> simp only [State.msg, State.worker_setExch, State.exch_setExch] <;> first | rfl | (split_ifs with h <;> simp_all)
  · cases b <;> simp only [State.buf, State.worker_setExch, State.exch_setExch] <;> first | rfl | (split_ifs with h <;> simp_all)
  · cases g <;> simp only [State.codec, State.worker_setExch, State.exch_setExch] <;> first | rfl | (split_ifs with h <;> simp_all)
  · rw [State.exch_setExch, if_neg]; rintro rfl; exact hy hx

/-- A worker context written in its registers only. -/
theorem frame_setWorker_regs {τ : Touched} (s : State) (w : Nat) (k : Worker) (hw : w ∈ τ.workers)
    (h1 : k.reqMsg = (s.worker w).reqMsg) (h2 : k.rspMsg = (s.worker w).rspMsg) (h3 : k.rx = (s.worker w).rx)
    (h4 : k.tx = (s.worker w).tx) (h5 : k.codec = (s.worker w).codec) : Frame τ s (s.setWorker w k) := by
  refine Frame.ofBufs (fun r _ => ?_) (fun b _ => ?_) (fun g _ => ?_) (fun _ _ => rfl) (fun y hy => ?_)
    rfl rfl rfl rfl rfl rfl
  · cases r <;> simp only [State.msg, State.exch_setWorker, State.worker_setWorker] <;> first | rfl | (split_ifs with h <;> simp_all)
  · cases b <;> simp only [State.buf, State.exch_setWorker, State.worker_setWorker] <;> first | rfl | (split_ifs with h <;> simp_all)
  · cases g <;> simp only [State.codec, State.exch_setWorker, State.worker_setWorker] <;> first | rfl | (split_ifs with h <;> simp_all)
  · rw [State.worker_setWorker, if_neg]; rintro rfl; exact hy hw

theorem frame_toPhase {τ : Touched} (s : State) (w : Nat) (p : Phase) (hw : w ∈ τ.workers) : Frame τ s (s.toPhase w p) :=
  frame_setWorker_regs _ _ _ hw rfl rfl rfl rfl rfl

/-! One frame per shared operation. -/

theorem frame_opInit {τ : Touched} (s : State) (a : Agent) (d : SlotRef) (ha : a ∈ τ.codecs) (hd : d ∈ τ.slots) :
    Frame τ s (s.opInit a d) := (frame_setMsg _ _ _ hd).trans (frame_done _ _ ha)

theorem frame_opFree {τ : Touched} (s : State) (a : Agent) (d : SlotRef) (ha : a ∈ τ.codecs) (hd : d ∈ τ.slots) :
    Frame τ s (s.opFree a d) := by
  unfold State.opFree
  refine Frame.trans (t := s.setMsg d (freedMsg s.draws (s.msg d))) (frame_setMsg _ _ _ hd) (Frame.trans ?_ (frame_done _ _ ha))
  split_ifs
  · exact Frame.refl _ _
  · exact frame_draw _

theorem frame_opBuildEmpty {τ : Touched} (s : State) (a : Agent) (k : Kind) (d r : SlotRef) (ha : a ∈ τ.codecs)
    (hd : d ∈ τ.slots) : Frame τ s (s.opBuildEmpty a k d r) := (frame_setMsg _ _ _ hd).trans (frame_done _ _ ha)

theorem frame_opBuildResponse {τ : Touched} (s : State) (a : Agent) (d r : SlotRef) (c : Byte) (p : Option (List Byte))
    (ha : a ∈ τ.codecs) (hd : d ∈ τ.slots) : Frame τ s (s.opBuildResponse a d r c p) := by
  unfold State.opBuildResponse
  cases p with
  | none => exact (frame_setMsg _ _ _ hd).trans (frame_done _ _ ha)
  | some v =>
    dsimp only
    split_ifs
    · exact (frame_setMsg _ _ _ hd).trans (frame_raise _ _ _ ha)
    · exact (frame_setMsg _ _ _ hd).trans (frame_done _ _ ha)

theorem frame_opSerialize {τ : Touched} (s : State) (a : Agent) (r : SlotRef) (t : BufRef) (cap : Option Nat)
    (ha : a ∈ τ.codecs) (ht : t ∈ τ.bufs) : Frame τ s (s.opSerialize a r t cap) := by
  unfold State.opSerialize
  dsimp only
  split
  · exact (frame_setBuf _ _ _ ht).trans ((frame_setCodec _ _ _ ha).trans (frame_endOp _ _ _ _ ha))
  · exact (frame_setBuf _ _ _ ht).trans ((frame_draw _).trans ((frame_setCodec _ _ _ ha).trans (frame_raise _ _ _ ha)))
  · exact frame_raise _ _ _ ha

theorem frame_storeParse {τ : Touched} (s : State) (a : Agent) (d : SlotRef) (o : ParseOut) (ha : a ∈ τ.codecs)
    (hd : d ∈ τ.slots) : Frame τ s (s.storeParse a d o) := (frame_setMsg _ _ _ hd).trans (frame_setCodec _ _ _ ha)

theorem frame_opParse {τ : Touched} (s : State) (a : Agent) (d : SlotRef) (bs : List Byte) (ha : a ∈ τ.codecs)
    (hd : d ∈ τ.slots) : Frame τ s (s.opParse a d bs) := by
  have h := frame_storeParse s a d (parse s.params s.draws (s.msg d) bs) ha hd
  unfold State.opParse
  dsimp only
  split_ifs
  · exact h.trans (frame_endOp _ _ _ _ ha)
  · exact h.trans ((frame_draw _).trans (frame_endOp _ _ _ _ ha))

/-! What goes out. -/

theorem Quiet.refl (s : State) : Quiet s s := ⟨rfl, rfl, rfl⟩

theorem Quiet.trans {s t u : State} (h : Quiet s t) (k : Quiet t u) : Quiet s u :=
  ⟨k.out.trans h.out, k.calls.trans h.calls, k.sendAnswers.trans h.sendAnswers⟩

theorem quiet_setMsg (s : State) (r : SlotRef) (m : Msg) : Quiet s (s.setMsg r m) := ⟨by simp, by simp, by simp⟩
theorem quiet_setBuf (s : State) (r : BufRef) (b : Buf) : Quiet s (s.setBuf r b) := ⟨by simp, by simp, by simp⟩
theorem quiet_setCodec (s : State) (a : Agent) (c : Codec) : Quiet s (s.setCodec a c) := ⟨by simp, by simp, by simp⟩
theorem quiet_endOp (s : State) (a : Agent) (e : Err) (v : Option Nat) : Quiet s (s.endOp a e v) := quiet_setCodec _ _ _
theorem quiet_raise (s : State) (a : Agent) (e : Err) : Quiet s (s.raise a e) := quiet_setCodec _ _ _
theorem quiet_done (s : State) (a : Agent) : Quiet s (s.done a) := quiet_setCodec _ _ _
theorem quiet_draw (s : State) : Quiet s s.draw := ⟨rfl, rfl, rfl⟩
theorem quiet_setExch (s : State) (x : Nat) (e : Exch) : Quiet s (s.setExch x e) := ⟨rfl, rfl, rfl⟩
theorem quiet_setWorker (s : State) (w : Nat) (k : Worker) : Quiet s (s.setWorker w k) := ⟨rfl, rfl, rfl⟩
theorem quiet_toPhase (s : State) (w : Nat) (p : Phase) : Quiet s (s.toPhase w p) := ⟨rfl, rfl, rfl⟩

theorem quiet_opInit (s : State) (a : Agent) (d : SlotRef) : Quiet s (s.opInit a d) :=
  (quiet_setMsg _ _ _).trans (quiet_done _ _)

theorem quiet_opFree (s : State) (a : Agent) (d : SlotRef) : Quiet s (s.opFree a d) := by
  unfold State.opFree
  refine Quiet.trans (t := s.setMsg d (freedMsg s.draws (s.msg d))) (quiet_setMsg _ _ _) (Quiet.trans ?_ (quiet_done _ _))
  split_ifs
  · exact Quiet.refl _
  · exact quiet_draw _

theorem quiet_opBuildEmpty (s : State) (a : Agent) (k : Kind) (d r : SlotRef) : Quiet s (s.opBuildEmpty a k d r) :=
  (quiet_setMsg _ _ _).trans (quiet_done _ _)

theorem quiet_opBuildResponse (s : State) (a : Agent) (d r : SlotRef) (c : Byte) (p : Option (List Byte)) :
    Quiet s (s.opBuildResponse a d r c p) := by
  unfold State.opBuildResponse
  cases p with
  | none => exact (quiet_setMsg _ _ _).trans (quiet_done _ _)
  | some v =>
    dsimp only
    split_ifs
    · exact (quiet_setMsg _ _ _).trans (quiet_raise _ _ _)
    · exact (quiet_setMsg _ _ _).trans (quiet_done _ _)

theorem quiet_opSerialize (s : State) (a : Agent) (r : SlotRef) (t : BufRef) (cap : Option Nat) :
    Quiet s (s.opSerialize a r t cap) := by
  unfold State.opSerialize
  dsimp only
  split
  · exact (quiet_setBuf _ _ _).trans ((quiet_setCodec _ _ _).trans (quiet_endOp _ _ _ _))
  · exact (quiet_setBuf _ _ _).trans ((quiet_draw _).trans ((quiet_setCodec _ _ _).trans (quiet_raise _ _ _)))
  · exact quiet_raise _ _ _

theorem quiet_storeParse (s : State) (a : Agent) (d : SlotRef) (o : ParseOut) : Quiet s (s.storeParse a d o) :=
  (quiet_setMsg _ _ _).trans (quiet_setCodec _ _ _)

theorem quiet_opParse (s : State) (a : Agent) (d : SlotRef) (bs : List Byte) : Quiet s (s.opParse a d bs) := by
  have h := quiet_storeParse s a d (parse s.params s.draws (s.msg d) bs)
  unfold State.opParse
  dsimp only
  split_ifs
  · exact h.trans (quiet_endOp _ _ _ _)
  · exact h.trans ((quiet_draw _).trans (quiet_endOp _ _ _ _))

end Sys2Proof.Machine
end

