-- ==== Sys2Proof/Laws/Ops.lean ====
section
/-! SUPPORT. One lemma per shared operation that says everything it does: the slot, the buffer and the codec registers it
writes, the free values it uses up, its frame and what goes out. -/

namespace Sys2Proof.Machine

/-! The end of an operation. -/

/-- The codec registers after an operation that writes `ERR` and the result alone. -/
def Codec.ended (c : Codec) (e : Err) (v : Option Nat) : Codec := { c with err := e, result := v }

@[simp] theorem Codec.ended_err (c : Codec) (e : Err) (v : Option Nat) : (c.ended e v).err = e := rfl
@[simp] theorem Codec.ended_result (c : Codec) (e : Err) (v : Option Nat) : (c.ended e v).result = v := rfl
theorem Codec.keeps_ended (c : Codec) (e : Err) (v : Option Nat) : Codec.Keeps c (c.ended e v) := ⟨rfl, rfl, rfl⟩

@[simp] theorem State.codec_raise_same (s : State) (a : Agent) (e : Err) : (s.raise a e).codec a = (s.codec a).ended e none :=
  State.codec_setCodec_same _ _ _
@[simp] theorem State.codec_done_same (s : State) (a : Agent) : (s.done a).codec a = (s.codec a).ended .ok none :=
  State.codec_setCodec_same _ _ _
@[simp] theorem State.msg_raise (s : State) (a : Agent) (e : Err) (q : SlotRef) : (s.raise a e).msg q = s.msg q :=
  State.msg_setCodec _ _ _ _
@[simp] theorem State.msg_done (s : State) (a : Agent) (q : SlotRef) : (s.done a).msg q = s.msg q := State.msg_setCodec _ _ _ _
@[simp] theorem State.buf_raise (s : State) (a : Agent) (e : Err) (q : BufRef) : (s.raise a e).buf q = s.buf q :=
  State.buf_setCodec _ _ _ _
@[simp] theorem State.buf_done (s : State) (a : Agent) (q : BufRef) : (s.done a).buf q = s.buf q := State.buf_setCodec _ _ _ _

/-- An operation of agent `a` on slot `d` that leaves message `m`, ends with `e` and uses up `n` draws. -/
structure SlotOp (a : Agent) (d : SlotRef) (m : Msg) (e : Err) (n : Nat) (s t : State) : Prop where
  slot  : t.msg d = m
  codec : t.codec a = (s.codec a).ended e none
  draws : t.draws = s.draws + n
  frame : Frame { slots := [d], bufs := [], codecs := [a], exchs := [], workers := [] } s t
  quiet : Quiet s t

/-- A write of one slot that then ends. -/
theorem slotOp_endOp (s : State) (a : Agent) (d : SlotRef) (m : Msg) (e : Err) :
    SlotOp a d m e 0 s ((s.setMsg d m).endOp a e none) where
  slot := by simp
  codec := by simp [Codec.ended]
  draws := by simp
  frame := (frame_setMsg _ _ _ (by simp)).trans (frame_endOp _ _ _ _ (by simp))
  quiet := (quiet_setMsg _ _ _).trans (quiet_endOp _ _ _ _)

theorem opInit_spec (s : State) (a : Agent) (d : SlotRef) : SlotOp a d (initMsg (s.msg d)) .ok 0 s (s.opInit a d) :=
  slotOp_endOp _ _ _ _ _

theorem opBuildEmpty_spec (s : State) (a : Agent) (k : Kind) (d r : SlotRef) :
    SlotOp a d (emptyReply k (s.msg r).mid (s.msg d)) .ok 0 s (s.opBuildEmpty a k d r) := slotOp_endOp _ _ _ _ _

theorem freedMsg_opts (n : Nat) (m : Msg) : (freedMsg n m).opts = [] := by unfold freedMsg; split_ifs <;> rfl
theorem freedMsg_payload (n : Nat) (m : Msg) : (freedMsg n m).payload = none := by unfold freedMsg; split_ifs <;> rfl
theorem freedMsg_hdrOpen (n : Nat) (m : Msg) : (freedMsg n m).hdrOpen = true := by
  unfold freedMsg; split_ifs with h
  · exact h
  · rfl
theorem freedMsg_token_length {n : Nat} {m : Msg} (h : m.token.length = 8) : (freedMsg n m).token.length = 8 := by
  unfold freedMsg; split_ifs <;> first | exact h | rfl

theorem opFree_spec (s : State) (a : Agent) (d : SlotRef) :
    SlotOp a d (freedMsg s.draws (s.msg d)) .ok (if (s.msg d).hdrOpen then 0 else 1) s (s.opFree a d) where
  slot := by unfold State.opFree; dsimp only; split_ifs <;> simp
  codec := by unfold State.opFree; dsimp only; split_ifs <;> simp
  draws := by unfold State.opFree; dsimp only; split_ifs <;> simp [State.draw]
  frame := frame_opFree _ _ _ (by simp) (by simp)
  quiet := quiet_opFree _ _ _

/-- BUILD_RESPONSE (30_encoding.md R114): with a payload over `MAX_PAYLOAD` it ends Invalid, the payload left out. -/
theorem opBuildResponse_spec (s : State) (a : Agent) (d r : SlotRef) (c : Byte) (p : Option (List Byte)) :
    SlotOp a d
      (if exceeds s.params.maxPayload (p.getD []).length ∧ p.isSome then responseMsg c (s.msg r) (s.msg d)
        else { responseMsg c (s.msg r) (s.msg d) with payload := p })
      (if exceeds s.params.maxPayload (p.getD []).length ∧ p.isSome then .invalid else .ok) 0 s
      (s.opBuildResponse a d r c p) := by
  unfold State.opBuildResponse
  cases p with
  | none => rw [if_neg (by simp), if_neg (by simp)]; exact slotOp_endOp _ _ _ _ _
  | some v =>
    dsimp only
    by_cases h : exceeds s.params.maxPayload v.length
    · rw [if_pos h, if_pos ⟨h, rfl⟩, if_pos ⟨h, rfl⟩]; exact slotOp_endOp _ _ _ _ _
    · rw [if_neg h, if_neg (fun hc => h hc.1), if_neg (fun hc => h hc.1)]; exact slotOp_endOp _ _ _ _ _

/-! PARSE for an agent. -/

/-- PARSE (42_parse.md R180): the destination slot and the codec registers are the outcome's. -/
structure ParseOp (a : Agent) (d : SlotRef) (o : ParseOut) (s t : State) : Prop where
  slot  : t.msg d = o.msg
  codec : t.codec a = { pos := o.pos, prev := o.prev, err := o.err, hdrValid := o.hdrValid, result := none }
  draws : t.draws = s.draws + (if o.err = .ok then 0 else 1)
  bufs  : ∀ b, t.buf b = s.buf b
  frame : Frame { slots := [d], bufs := [], codecs := [a], exchs := [], workers := [] } s t
  quiet : Quiet s t

theorem opParse_spec (s : State) (a : Agent) (d : SlotRef) (bytes : List Byte) :
    ParseOp a d (parse s.params s.draws (s.msg d) bytes) s (s.opParse a d bytes) where
  slot := by unfold State.opParse State.storeParse; dsimp only; split_ifs <;> simp
  codec := by unfold State.opParse State.storeParse; dsimp only; split_ifs <;> simp
  draws := by unfold State.opParse State.storeParse; dsimp only; split_ifs <;> simp [State.draw]
  bufs b := by unfold State.opParse State.storeParse; dsimp only; split_ifs <;> simp
  frame := frame_opParse _ _ _ _ (by simp) (by simp)
  quiet := quiet_opParse _ _ _ _

/-! SERIALIZE for an agent. -/

/-- The possible ends of SERIALIZE (41_serialize.md R170, R171). -/
inductive SerOp (a : Agent) (b : BufRef) (cap : Option Nat) (m : Msg) (o : SerOut) (s t : State) : Prop where
  | wrote (ok : o.err = .ok) (buf : t.buf b = (s.buf b).load o.bytes)
      (codec : t.codec a =
        { s.codec a with pos := o.bytes.length, prev := o.prev, err := .ok, result := some o.bytes.length })
      (draws : t.draws = s.draws)
  | clobbered (err : o.err = .optionsNotSupported) (len : (t.buf b).len = (s.buf b).len)
      (mem : (t.buf b).mem =
        Memory.writeBytes (s.buf b).mem 0 (freeBytes s.draws 0 (clobbered cap (required m) (s.buf b))))
      (codec : t.codec a =
        { s.codec a with pos := o.bytes.length, prev := o.prev, err := .optionsNotSupported, result := none })
      (draws : t.draws = s.draws + 1)
  | stopped (err : o.err = .invalid ∨ o.err = .tokenTooLarge ∨ o.err = .truncated) (eq : t = s.raise a o.err)

theorem serialize_errs (nib : NibMax) (m : Msg) (cap : Option Nat) :
    (serialize nib m cap).err ∈ [Err.ok, .optionsNotSupported, .invalid, .tokenTooLarge, .truncated] := by
  rw [serialize_err]; split_ifs <;> simp

theorem opSerialize_spec (s : State) (a : Agent) (r : SlotRef) (b : BufRef) (cap : Option Nat) :
    SerOp a b cap (s.msg r) (serialize s.params.nibMax (s.msg r) cap) s (s.opSerialize a r b cap) := by
  have h := serialize_errs s.params.nibMax (s.msg r) cap
  unfold State.opSerialize
  dsimp only
  split
  · rename_i e
    exact .wrote e (by simp) (by simp) (by simp)
  · rename_i e
    exact .clobbered e (by simp) (by simp) (by simp [Codec.ended]) (by simp [State.draw])
  · rename_i e n1 n2
    simp only [List.mem_cons, List.not_mem_nil, or_false] at h
    rcases h with h | h | h | h | h
    · exact absurd h n1
    · exact absurd h n2
    · exact .stopped (by simp [h]) rfl
    · exact .stopped (by simp [h]) rfl
    · exact .stopped (by simp [h]) rfl

theorem opSerialize_frame (s : State) (a : Agent) (r : SlotRef) (b : BufRef) (cap : Option Nat) :
    Frame { slots := [], bufs := [b], codecs := [a], exchs := [], workers := [] } s (s.opSerialize a r b cap) ∧
      Quiet s (s.opSerialize a r b cap) := ⟨frame_opSerialize _ _ _ _ _ (by simp) (by simp), quiet_opSerialize _ _ _ _ _⟩

/-- SERIALIZE that succeeds. -/
theorem opSerialize_ok {s : State} {a : Agent} {r : SlotRef} {b : BufRef} {cap : Option Nat}
    (h : (serialize s.params.nibMax (s.msg r) cap).err = .ok) :
    (s.opSerialize a r b cap).buf b = (s.buf b).load (serialize s.params.nibMax (s.msg r) cap).bytes ∧
      (s.opSerialize a r b cap).codec a =
        { s.codec a with
          pos := (serialize s.params.nibMax (s.msg r) cap).bytes.length,
          prev := (serialize s.params.nibMax (s.msg r) cap).prev, err := .ok,
          result := some (serialize s.params.nibMax (s.msg r) cap).bytes.length } ∧
      (s.opSerialize a r b cap).draws = s.draws := by
  cases opSerialize_spec s a r b cap with
  | wrote _ h1 h2 h3 => exact ⟨h1, h2, h3⟩
  | clobbered e => rw [h] at e; cases e
  | stopped e => rw [h] at e; rcases e with e | e | e <;> cases e

/-- The agent's `ERR` after SERIALIZE. -/
theorem opSerialize_err (s : State) (a : Agent) (r : SlotRef) (b : BufRef) (cap : Option Nat) :
    ((s.opSerialize a r b cap).codec a).err = (serialize s.params.nibMax (s.msg r) cap).err := by
  cases opSerialize_spec s a r b cap with
  | wrote e _ h => rw [h, e]
  | clobbered e _ _ h => rw [h, e]
  | stopped _ h => rw [h]; simp

/-! Bytes of a buffer after a load. -/

theorem Buf.read_load_past (b : Buf) (vs : List Byte) (a : Nat) (h : vs.length ≤ a) :
    Memory.read (b.load vs).mem a = Memory.read b.mem a := by
  simp only [Buf.load, Memory.read_writeBytes]; rw [if_neg (by omega)]

theorem Buf.read_load (b : Buf) (vs : List Byte) (a : Nat) (h : a < vs.length) :
    Memory.read (b.load vs).mem a = vs.getD a 0 := by
  simp only [Buf.load, Memory.read_writeBytes]; rw [if_pos (by omega)]; simp

/-! The transport. -/

theorem transmit_spec (s : State) (p : PeerAddr) (bytes : List Byte) :
    (s.transmit p bytes).out = s.out ++ [{ peer := p, bytes := bytes }] ∧ (s.transmit p bytes).calls = s.calls ∧
      (s.transmit p bytes).sendAnswers = s.sendAnswers.tail ∧ (s.transmit p bytes).draws = s.draws ∧
      ∀ τ, Frame τ s (s.transmit p bytes) := ⟨rfl, rfl, rfl, rfl, fun _ => frame_transmit _ _ _⟩

/-! The end of a worker. -/

@[simp] theorem endedWorker_regs (k : Worker) : (endedWorker k).regs = ⟨.done, ⟨0⟩, .noReply, .noCall, .nothing, 0, none⟩ := rfl
@[simp] theorem endedWorker_phase (k : Worker) : (endedWorker k).phase = .done := rfl
@[simp] theorem endedWorker_reqMsg (k : Worker) : (endedWorker k).reqMsg = k.reqMsg := rfl
@[simp] theorem endedWorker_rspMsg (k : Worker) : (endedWorker k).rspMsg = k.rspMsg := rfl
@[simp] theorem endedWorker_codec (k : Worker) : (endedWorker k).codec = k.codec := rfl
@[simp] theorem endedWorker_rx (k : Worker) : (endedWorker k).rx = ⟨0, []⟩ := rfl
@[simp] theorem endedWorker_tx (k : Worker) : (endedWorker k).tx = ⟨0, []⟩ := rfl
@[simp] theorem endedWorker_endedWorker (k : Worker) : endedWorker (endedWorker k) = endedWorker k := rfl

/-- A worker context given back writes that context's registers and its two buffers, no slot and no codec copy. -/
theorem frame_setEnded (s : State) (w : Nat) :
    Frame { slots := [], bufs := [.rx w, .tx w], codecs := [], exchs := [], workers := [w] } s
      (s.setWorker w (endedWorker (s.worker w))) := by
  refine Frame.ofBufs (fun r _ => ?_) (fun b hb => ?_) (fun g _ => ?_) (fun _ _ => rfl) (fun y hy => ?_)
    rfl rfl rfl rfl rfl rfl
  · cases r <;> simp only [State.msg, State.exch_setWorker, State.worker_setWorker] <;> first | rfl | (split_ifs with h <;> simp_all)
  · cases b <;> simp only [State.buf, State.exch_setWorker, State.worker_setWorker] <;>
      first | rfl | (rw [if_neg (by rintro rfl; simp at hb)])
  · cases g <;> simp only [State.codec, State.exch_setWorker, State.worker_setWorker] <;> first | rfl | (split_ifs with h <;> simp_all)
  · rw [State.worker_setWorker, if_neg]; rintro rfl; simp at hy

/-- The end of a worker (45_dispatcher.md R267, 70_reset_and_hazards.md R335): nothing of the datagram remains, `ERR` is OK, no
datagram goes out, and of the rest of the block nothing changes. -/
structure EndOp (w : Nat) (s t : State) : Prop where
  ended  : t.Ended w
  worker : t.worker w = endedWorker (t.worker w)
  req    : t.msg (.req w) = freedMsg s.draws (s.msg (.req w))
  codec  : t.codec (.worker w) = (s.codec (.worker w)).ended .ok none
  frame  : Frame { slots := [.req w, .rsp w], bufs := [.rx w, .tx w], codecs := [.worker w], exchs := [], workers := [w] } s t
  quiet  : Quiet s t

theorem endWorker_spec (s : State) (w : Nat) : EndOp w s (s.endWorker w) := by
  have h1 := opFree_spec s (.worker w) (.req w)
  have h2 := opFree_spec (s.opFree (.worker w) (.req w)) (.worker w) (.rsp w)
  unfold State.endWorker
  dsimp only
  generalize e2 : (s.opFree (.worker w) (.req w)).opFree (.worker w) (.rsp w) = u at h2 ⊢
  generalize s.opFree (.worker w) (.req w) = v at h1 h2 e2
  have hf := frame_setEnded u w
  have hm : (u.setWorker w (endedWorker (u.worker w))).worker w = endedWorker (u.worker w) := State.worker_setWorker_same _ _ _
  have hreq : u.msg (.req w) = freedMsg s.draws (s.msg (.req w)) := (h2.frame.slots _ (by simp)).trans h1.slot
  refine ⟨⟨by rw [hm]; rfl, by simp [State.buf, hm], by simp [State.buf, hm], ?_⟩, by rw [hm]; rfl,
    (hf.slots _ (by simp)).trans hreq, ?_, ?_, (h1.quiet.trans h2.quiet).trans (quiet_setWorker _ _ _)⟩
  · intro r hr
    rw [hf.slots r (by simp)]
    rcases List.mem_pair.1 hr with rfl | rfl
    · rw [hreq]; simp [Msg.optCount, Msg.hasPayload, freedMsg_opts, freedMsg_payload]
    · rw [h2.slot]; simp [Msg.optCount, Msg.hasPayload, freedMsg_opts, freedMsg_payload]
  · rw [hf.codecs _ (by simp), h2.codec, h1.codec]; rfl
  · exact ((h1.frame.mono (by simp) (by simp) (by simp) (by simp) (by simp)).trans
      (h2.frame.mono (by simp) (by simp) (by simp) (by simp) (by simp))).trans
      (hf.mono (by simp) (by simp) (by simp) (by simp) (by simp))

end Sys2Proof.Machine
end

