-- ==== Sys2Proof/Laws/Options.lean ====
section
/-! SUPPORT. Laws of ADD_OPTION's insertion: where the entry goes, that the list stays sorted, the entries of one number. -/

namespace Sys2Proof.Machine

/-- On a sorted list the entries up to a number are its front. -/
theorem countP_le_split (n : Nat) : ∀ (os : List Opt) (lo), sortedFrom lo os = true →
    os.take (os.countP fun p => decide (p.number ≤ n)) = os.filter (fun o => decide (o.number ≤ n)) ∧
    os.drop (os.countP fun p => decide (p.number ≤ n)) = os.filter (fun o => decide (n < o.number))
  | [], _, _ => by simp
  | o :: os, lo, h => by
    simp only [sortedFrom, Bool.and_eq_true, decide_eq_true_eq] at h
    obtain ⟨a, b⟩ := countP_le_split n os _ h.2
    by_cases ho : o.number ≤ n
    · rw [List.countP_cons_of_pos (by simpa using ho)]
      simp [a, b, ho, Nat.not_lt.2 ho]
    · have : ∀ p ∈ os, ¬ p.number ≤ n := fun p hp => by have := sortedFrom_le h.2 p hp; omega
      have h0 : (os.countP fun p => decide (p.number ≤ n)) = 0 := by simp only [List.countP_eq_zero, decide_eq_true_eq]; exact this
      rw [List.countP_cons_of_neg (by simpa using ho), h0]
      simp [ho, Nat.lt_of_not_le ho]
      constructor
      · exact fun p hp => by have := this p hp; omega
      · exact (List.filter_eq_self.2 fun p hp => by have := this p hp; simp; omega).symm

/-- ADD_OPTION puts its entry after every entry of an equal or lower number (40_message_ops.md R133). -/
theorem insertOpt_eq (o : Opt) (os : List Opt) (h : sortedOpts os = true) : insertOpt o os =
   (os.filter fun p => decide (p.number ≤ o.number)) ++ o :: (os.filter fun p => decide (o.number < p.number)) := by
  unfold insertOpt
  dsimp only
  obtain ⟨a, b⟩ := countP_le_split o.number os 0 h
  rw [a, b]

/-- Insertion keeps the list sorted (40_message_ops.md R134, R143). -/
theorem insertOpt_sorted (o : Opt) (os : List Opt) (h : sortedOpts os = true) : sortedOpts (insertOpt o os) = true := by
  rw [insertOpt_eq o os h]
  unfold sortedOpts at *
  rw [sortedFrom_append]
  have h1 : ∀ lo (os : List Opt) (p : Opt → Bool), sortedFrom lo os = true → sortedFrom lo (os.filter p) = true := by
    intro lo os p
    induction os generalizing lo with
    | nil => simp
    | cons a os ih =>
      intro h
      simp only [sortedFrom, Bool.and_eq_true, decide_eq_true_eq] at h
      by_cases hp : p a
      · simp [hp, sortedFrom, h.1, ih _ h.2]
      · simp only [hp, List.filter_cons]; exact ih _ (sortedFrom_mono h.1 h.2)
  rw [h1 _ _ _ h, Bool.true_and]
  simp only [sortedFrom, Bool.and_eq_true, decide_eq_true_eq]
  constructor
  · unfold lastFrom
    cases hl : (os.filter fun p => decide (p.number ≤ o.number)).getLast? with
    | none => simp
    | some q =>
      have := List.mem_of_getLast? hl
      simp at this; simp; exact this.2
  · have : ∀ lo (l : List Opt), sortedFrom lo l = true → (∀ q ∈ l, o.number ≤ q.number) → sortedFrom o.number l = true := by
      intro lo l h h'
      cases l with
      | nil => rfl
      | cons a l =>
        simp only [sortedFrom, Bool.and_eq_true, decide_eq_true_eq] at h ⊢
        exact ⟨h' a (by simp), h.2⟩
    exact this 0 _ (h1 _ _ _ h) (by intro q hq; simp at hq; omega)

/-- The entries of one number: those of before, then the new one when it has that number. -/
theorem insertOpt_filter (o : Opt) (os : List Opt) (n : Nat) (h : sortedOpts os = true) :
   (insertOpt o os).filter (fun p => decide (p.number = n)) = os.filter (fun p => decide (p.number = n)) ++ (if o.number = n then [o] else []) := by
  rw [insertOpt_eq o os h, List.filter_append, List.filter_cons, List.filter_filter, List.filter_filter]
  by_cases hn : o.number = n
  · have a : os.filter (fun p => decide (p.number = n) && decide (p.number ≤ o.number)) = os.filter fun p => decide (p.number = n) :=
      List.filter_congr fun x _ => by by_cases hx : x.number = n <;> simp [hx]; omega
    have b : os.filter (fun p => decide (p.number = n) && decide (o.number < p.number)) = [] :=
      List.filter_eq_nil_iff.2 fun x _ => by
        rw [Bool.and_eq_true, decide_eq_true_eq, decide_eq_true_eq]; omega
    rw [a, b]; simp [hn]
  · by_cases hlt : n < o.number
    · have a : os.filter (fun p => decide (p.number = n) && decide (p.number ≤ o.number)) = os.filter fun p => decide (p.number = n) :=
        List.filter_congr fun x _ => by by_cases hx : x.number = n <;> simp [hx]; omega
      have b : os.filter (fun p => decide (p.number = n) && decide (o.number < p.number)) = [] :=
        List.filter_eq_nil_iff.2 fun x _ => by
          rw [Bool.and_eq_true, decide_eq_true_eq, decide_eq_true_eq]; omega
      rw [a, b]; simp [hn]
    · have a : os.filter (fun p => decide (p.number = n) && decide (o.number < p.number)) = os.filter fun p => decide (p.number = n) :=
        List.filter_congr fun x _ => by by_cases hx : x.number = n <;> simp [hx]; omega
      have b : os.filter (fun p => decide (p.number = n) && decide (p.number ≤ o.number)) = [] :=
        List.filter_eq_nil_iff.2 fun x _ => by
          rw [Bool.and_eq_true, decide_eq_true_eq, decide_eq_true_eq]; omega
      rw [a, b]; simp [hn]

end Sys2Proof.Machine
end

