-- ==== Sys2Proof/Laws/Invariant.lean ====
section
/-! SUPPORT. The invariant taken apart, and each part through each shared operation: the data in form (`State.InForm`),
the registers of an exchange context (`Exch.controlled`), the registers of a worker context (`Worker.controlled`). -/

namespace Sys2Proof.Machine

/-- Every table, every slot and every buffer is in form. -/
structure State.InForm (s : State) : Prop where
  msgs      : canonical Msg.reset s.msgs = true
  bufs      : canonical Buf.reset s.bufs = true
  exchanges : canonical Exch.reset s.exchanges = true
  workers   : canonical Worker.reset s.workers = true
  msg       : ∀ r, (s.msg r).wf = true
  buf       : ∀ b, Memory.wf (s.buf b).mem = true

/-- The part of `Exch.wf` about registers. -/
structure Exch.controlled (x : Nat) (e : Exch) : Prop where
  armed : e.armed = true ↔ e.state = .awaitingAck
  copy  : e.state = .awaitingAck → e.len = e.xbuf.len
  named : e.reply = some (.reply x) ↔ (e.state = .acked ∨ e.state = .reset)

/-- The part of `Worker.wf` about registers. -/
structure Worker.controlled (k : Worker) : Prop where
  fresh   : k.phase = .parse ∨ k.phase = .decide → k.call = .noCall
  parsed  : k.phase = .decide → k.codec.err = .ok → k.reqMsg.tkl.toNat ≤ Config.tklMax
  calling : k.phase = .call → k.call ≠ .returned ∧ (k.plan = .sendResponse ∨ k.plan = .noReply)
  pending : k.call = .pending → k.phase = .call
  planned : k.phase = .reply → k.plan ≠ .noReply
  token   : k.phase = .call ∨ (k.phase = .reply ∧ k.plan = .sendResponse) → k.reqMsg.tkl.toNat ≤ Config.tklMax
  ended   : k.phase = .done →
    k = endedWorker k ∧ ∀ m ∈ [k.reqMsg, k.rspMsg], m.opts = [] ∧ m.payload = none

theorem State.inv_iff (s : State) :
    s.Inv ↔ s.params.legal = true ∧ State.InForm s ∧ (∀ x, (s.exch x).controlled x) ∧ ∀ w, (s.worker w).controlled := by
  constructor
  · intro h
    refine ⟨h.params, ⟨h.msgs, h.bufs, h.exchanges, h.workers, ?_, ?_⟩,
      fun x => ⟨(h.exch x).armed, (h.exch x).copy, (h.exch x).named⟩,
      fun w => ⟨(h.worker w).fresh, (h.worker w).parsed, (h.worker w).calling, (h.worker w).pending,
        (h.worker w).planned, (h.worker w).token, (h.worker w).ended⟩⟩
    · intro r; cases r with
      | main i => exact h.slots i
      | req w => exact (h.worker w).req
      | rsp w => exact (h.worker w).rsp
      | reply x => exact (h.exch x).reply
    · intro r; cases r with
      | caller i => exact h.mem i
      | rx w => exact (h.worker w).rx
      | tx w => exact (h.worker w).tx
      | xbuf x => exact (h.exch x).xbuf
      | xrx x => exact (h.exch x).xrx
  · rintro ⟨p, c, e, w⟩
    exact ⟨p, c.msgs, c.bufs, c.exchanges, c.workers, fun b => c.buf (.caller b), fun i => c.msg (.main i),
      fun x => ⟨c.buf (.xbuf x), c.buf (.xrx x), c.msg (.reply x), (e x).armed, (e x).copy, (e x).named⟩,
      fun v => ⟨c.buf (.rx v), c.buf (.tx v), c.msg (.req v), c.msg (.rsp v), (w v).fresh, (w v).parsed,
        (w v).calling, (w v).pending, (w v).planned, (w v).token, (w v).ended⟩⟩

theorem inForm_setWorker (s : State) (w : Nat) (k : Worker) (h : State.InForm s) (h1 : k.reqMsg.wf = true)
    (h2 : k.rspMsg.wf = true) (h3 : Memory.wf k.rx.mem = true) (h4 : Memory.wf k.tx.mem = true) :
    State.InForm (s.setWorker w k) := by
  refine ⟨h.msgs, h.bufs, h.exchanges, canonical_store _ _ _ _ h.workers, ?_, ?_⟩
  · intro r
    have := h.msg r
    cases r <;> simp only [State.msg, State.worker_setWorker, State.exch_setWorker] at * <;>
      first | exact this | (split_ifs <;> simp_all)
  · intro r
    have := h.buf r
    cases r <;> simp only [State.buf, State.worker_setWorker, State.exch_setWorker] at * <;>
      first | exact this | (split_ifs <;> simp_all)

theorem inForm_setExch (s : State) (w : Nat) (k : Exch) (h : State.InForm s) (h1 : k.replyMsg.wf = true)
    (h3 : Memory.wf k.xbuf.mem = true) (h4 : Memory.wf k.xrx.mem = true) :
    State.InForm (s.setExch w k) := by
  refine ⟨h.msgs, h.bufs, canonical_store _ _ _ _ h.exchanges, h.workers, ?_, ?_⟩
  · intro r
    have := h.msg r
    cases r <;> simp only [State.msg, State.worker_setExch, State.exch_setExch] at * <;>
      first | exact this | (split_ifs <;> simp_all)
  · intro r
    have := h.buf r
    cases r <;> simp only [State.buf, State.worker_setExch, State.exch_setExch] at * <;>
      first | exact this | (split_ifs <;> simp_all)

theorem inForm_setMsg (s : State) (r : SlotRef) (m : Msg) (h : State.InForm s) (hm : m.wf = true) :
    State.InForm (s.setMsg r m) := by
  cases r with
  | main i =>
    refine ⟨canonical_store _ _ _ _ h.msgs, h.bufs, h.exchanges, h.workers, ?_, h.buf⟩
    intro q; rw [State.msg_setMsg]; split_ifs
    · exact hm
    · exact h.msg q
  | req w => exact inForm_setWorker _ _ _ h hm (h.msg (.rsp w)) (h.buf (.rx w)) (h.buf (.tx w))
  | rsp w => exact inForm_setWorker _ _ _ h (h.msg (.req w)) hm (h.buf (.rx w)) (h.buf (.tx w))
  | reply x => exact inForm_setExch _ _ _ h hm (h.buf (.xbuf x)) (h.buf (.xrx x))

theorem inForm_setBuf (s : State) (r : BufRef) (b : Buf) (h : State.InForm s) (hm : Memory.wf b.mem = true) :
    State.InForm (s.setBuf r b) := by
  cases r with
  | caller i =>
    refine ⟨h.msgs, canonical_store _ _ _ _ h.bufs, h.exchanges, h.workers, h.msg, ?_⟩
    intro q; rw [State.buf_setBuf]; split_ifs
    · exact hm
    · exact h.buf q
  | rx w => exact inForm_setWorker _ _ _ h (h.msg (.req w)) (h.msg (.rsp w)) hm (h.buf (.tx w))
  | tx w => exact inForm_setWorker _ _ _ h (h.msg (.req w)) (h.msg (.rsp w)) (h.buf (.rx w)) hm
  | xbuf x => exact inForm_setExch _ _ _ h (h.msg (.reply x)) hm (h.buf (.xrx x))
  | xrx x => exact inForm_setExch _ _ _ h (h.msg (.reply x)) (h.buf (.xbuf x)) hm

theorem inForm_setCodec (s : State) (a : Agent) (c : Codec) (h : State.InForm s) : State.InForm (s.setCodec a c) := by
  cases a with
  | caller => exact ⟨h.msgs, h.bufs, h.exchanges, h.workers, h.msg, h.buf⟩
  | worker w => exact inForm_setWorker _ _ _ h (h.msg (.req w)) (h.msg (.rsp w)) (h.buf (.rx w)) (h.buf (.tx w))
  | exchange x => exact inForm_setExch _ _ _ h (h.msg (.reply x)) (h.buf (.xbuf x)) (h.buf (.xrx x))

theorem inForm_draw (s : State) (h : State.InForm s) :
    State.InForm s.draw := ⟨h.msgs, h.bufs, h.exchanges, h.workers, h.msg, h.buf⟩

theorem inForm_transmit (s : State) (p b) (h : State.InForm s) :
    State.InForm (s.transmit p b) := ⟨h.msgs, h.bufs, h.exchanges, h.workers, h.msg, h.buf⟩

theorem inForm_calls (s : State) (c) (h : State.InForm s) :
    State.InForm { s with calls := c } := ⟨h.msgs, h.bufs, h.exchanges, h.workers, h.msg, h.buf⟩

theorem inForm_endOp (s : State) (a e v) (h : State.InForm s) :
    State.InForm (s.endOp a e v) := inForm_setCodec _ _ _ h

theorem inForm_raise (s : State) (a e) (h : State.InForm s) : State.InForm (s.raise a e) := inForm_setCodec _ _ _ h

theorem inForm_done (s : State) (a) (h : State.InForm s) : State.InForm (s.done a) := inForm_setCodec _ _ _ h

theorem inForm_toPhase (s : State) (w p) (h : State.InForm s) :
    State.InForm (s.toPhase w p) := inForm_setWorker _ _ _ h (h.msg (.req w)) (h.msg (.rsp w)) (h.buf (.rx w))
      (h.buf (.tx w))

theorem Msg.wf_iff (m : Msg) :
    m.wf = true ↔ m.token.length = 8 ∧ sortedOpts m.opts = true ∧ ∀ o ∈ m.opts, o.value.length ≤ 15 := by
  simp [Msg.wf, and_assoc]

theorem Msg.wf_empty {m : Msg} (h : m.token.length = 8) (h2 : m.opts = []) :
    m.wf = true := by rw [Msg.wf_iff, h2]; exact ⟨h, rfl, by simp⟩

theorem Msg.wf_init {m : Msg} (h : m.wf = true) : (initMsg m).wf = true := Msg.wf_empty ((Msg.wf_iff _).1 h).1 rfl

theorem Msg.wf_emptyReply {m : Msg} (k mid) (h : m.wf = true) :
    (emptyReply k mid m).wf = true := Msg.wf_empty ((Msg.wf_iff _).1 h).1 rfl

theorem Msg.wf_freed {m : Msg} (n) (h : m.wf = true) :
    (freedMsg n m).wf = true := Msg.wf_empty (freedMsg_token_length ((Msg.wf_iff _).1 h).1) (freedMsg_opts _ _)

theorem Msg.wf_response {q : Msg} (c old) (h : q.wf = true) :
    (responseMsg c q old).wf = true := Msg.wf_empty ((Msg.wf_iff _).1 h).1 rfl

theorem overlayToken_length {v t : List Byte} (h : v.length ≤ 8) (ht : t.length = 8) :
    (overlayToken v t).length = 8 := by
  simp [overlayToken]; omega

theorem values_of_encodable {n prev : Nat} {os : List Opt} (h : encodable n prev os = true) :
    ∀ o ∈ os, o.value.length ≤ n := by
  induction os generalizing prev with
  | nil => simp
  | cons o os ih =>
    simp only [encodable, Bool.and_eq_true, decide_eq_true_eq] at h
    intro p hp
    rcases List.mem_cons.1 hp with rfl | hp
    · exact h.1.2
    · exact ih h.2 p hp

theorem Msg.wf_parse {P : Params} {n : Nat} {old : Msg} {bytes : List Byte} (h : old.wf = true) :
    (parse P n old bytes).msg.wf = true := by
  by_cases hok : (parse P n old bytes).err = .ok
  · obtain ⟨a1, a2, a3, a4, -⟩ := serialize_parse (nib := .fourteen) (cap := none) hok rfl
    rw [Msg.wf_iff]
    refine ⟨?_, a1, fun o ho => (values_of_encodable a2 o ho).trans (by omega)⟩
    obtain ⟨b0, b1, b2, b3, rest, rfl, -, ht, -, -, e⟩ := parse_ok hok
    rw [e]
    exact overlayToken_length (by simp; omega) ((Msg.wf_iff _).1 h).1
  · rcases parse_failed hok with ⟨e, -⟩ | ⟨b0, b1, b2, b3, rest, -, -, e⟩
    · rw [e]; exact Msg.wf_empty rfl rfl
    · rw [e]; exact Msg.wf_empty rfl rfl

theorem inForm_opInit (s : State) (a d) (h : State.InForm s) :
    State.InForm (s.opInit a d) := inForm_done _ _ (inForm_setMsg _ _ _ h (Msg.wf_init (h.msg d)))

theorem inForm_opFree (s : State) (a d) (h : State.InForm s) : State.InForm (s.opFree a d) := by
  unfold State.opFree
  refine inForm_done _ _ ?_
  split_ifs
  · exact inForm_setMsg _ _ _ h (Msg.wf_freed _ (h.msg d))
  · exact inForm_draw _ (inForm_setMsg _ _ _ h (Msg.wf_freed _ (h.msg d)))

theorem inForm_opBuildEmpty (s : State) (a k d r) (h : State.InForm s) :
    State.InForm (s.opBuildEmpty a k d r) := inForm_done _ _ (inForm_setMsg _ _ _ h (Msg.wf_emptyReply _ _ (h.msg d)))

theorem inForm_opBuildResponse (s : State) (a d r c p) (h : State.InForm s) :
    State.InForm (s.opBuildResponse a d r c p) := by
  have hw := Msg.wf_response c (s.msg d) (h.msg r)
  unfold State.opBuildResponse
  cases p with
  | none => exact inForm_done _ _ (inForm_setMsg _ _ _ h hw)
  | some v =>
    dsimp only
    split_ifs
    · exact inForm_raise _ _ _ (inForm_setMsg _ _ _ h hw)
    · exact inForm_done _ _ (inForm_setMsg _ _ _ h hw)

theorem inForm_opSerialize (s : State) (a r t cap) (h : State.InForm s) : State.InForm (s.opSerialize a r t cap) := by
  unfold State.opSerialize
  dsimp only
  split
  · exact inForm_endOp _ _ _ _ (inForm_setCodec _ _ _ (inForm_setBuf _ _ _ h (Buf.wf_load _ _ (h.buf t))))
  · exact inForm_raise _ _ _ (inForm_setCodec _ _ _ (inForm_draw _
      (inForm_setBuf _ _ _ h (Memory.wf_writeBytes _ _ _ (h.buf t)))))
  · exact inForm_raise _ _ _ h

theorem inForm_opParse (s : State) (a d bs) (h : State.InForm s) : State.InForm (s.opParse a d bs) := by
  have h1 : State.InForm (s.storeParse a d (parse s.params s.draws (s.msg d) bs)) :=
    inForm_setCodec _ _ _ (inForm_setMsg _ _ _ h (Msg.wf_parse (h.msg d)))
  unfold State.opParse
  dsimp only
  split_ifs
  · exact inForm_endOp _ _ _ _ h1
  · exact inForm_endOp _ _ _ _ (inForm_draw _ h1)

theorem inForm_updateMsg (s : State) (i f) (h : State.InForm s) (hf : (f (s.msg (.main i))).wf = true) :
    State.InForm (s.updateMsg i f) := inForm_done _ _ (inForm_setMsg _ _ _ h hf)

theorem inForm_callerParse (s : State) (d src n) (h : State.InForm s) : State.InForm (s.callerParse d src n) := by
  have hi : State.InForm (s.parseInvalid d) := by
    unfold State.parseInvalid
    dsimp only
    split_ifs
    · exact inForm_raise _ _ _ (inForm_draw _
        (inForm_setMsg _ _ _ (inForm_setCodec s .caller _ h) (Msg.wf_empty rfl rfl)))
    · exact inForm_raise _ _ _ (inForm_setCodec s .caller _ h)
  unfold State.callerParse
  split_ifs
  · split
    · exact hi
    · exact inForm_opParse _ _ _ _ h
  · exact hi

theorem inForm_optRound (s : State) (d b r) (h : State.InForm s) : State.InForm (s.optRound d b r) := by
  unfold State.optRound
  dsimp only
  split_ifs with hc
  · exact inForm_raise _ _ _ h
  · have hm := (Msg.wf_iff _).1 (h.msg (.main d))
    simp only [not_or, Bool.not_eq_false] at hc
    have hprev : s.caller.prev = lastNumber (s.msg (.main d)).opts := by
      have := hc.2; simp [inRound] at this; exact this.2
    split
    · rename_i o r' hr
      obtain ⟨p1, p2, p3, p4, p5, p6, p7⟩ := parseRound_entry hr
      refine inForm_done _ _ (inForm_setCodec _ .caller _ (inForm_setMsg _ _ _ h ?_))
      rw [Msg.wf_iff]
      refine ⟨hm.1, ?_, ?_⟩
      · unfold sortedOpts at *
        rw [sortedFrom_append, hm.2.1]
        simp only [sortedFrom, Bool.and_true, Bool.true_and, decide_eq_true_eq]
        rw [p5, hprev, lastNumber_eq]; omega
      · intro q hq
        rcases List.mem_append.1 hq with hq | hq
        · exact hm.2.2 q hq
        · simp only [List.mem_singleton] at hq; subst hq; rw [p6]; have := (optLength b).isLt; omega
    · exact inForm_done _ _ (inForm_setCodec _ .caller _ (inForm_setMsg _ _ _ h (by rw [Msg.wf_iff]; exact hm)))
    · exact inForm_raise _ _ _ (inForm_draw _
        (inForm_setCodec _ .caller _ (inForm_setMsg _ _ _ h (Msg.wf_empty rfl rfl))))

theorem inForm_settle (s : State) (x) (h : State.InForm s) : State.InForm (s.settle x) := by
  unfold State.settle
  dsimp only
  split_ifs
  · split <;> first | exact h | exact inForm_setExch _ _ _ h (h.msg (.reply x)) (h.buf (.xbuf x)) (h.buf (.xrx x))
  · exact h

theorem inForm_recv (s : State) (x dg) (h : State.InForm s) : State.InForm (s.recv x dg) := by
  have hp := inForm_opParse _ (.exchange x) (.reply x) (((s.setBuf (.xrx x) ((s.buf (.xrx x)).load (s.cut dg))).buf (.xrx x)).bytes)
    (inForm_setBuf _ (.xrx x) _ h (Buf.wf_load _ (s.cut dg) (h.buf (.xrx x))))
  unfold State.recv
  dsimp only
  split_ifs
  · exact inForm_raise _ _ _ h
  · exact inForm_setMsg _ _ _ hp (h.msg _)
  · exact inForm_settle _ _ hp

theorem inForm_endXsend (s : State) (x e) (h : State.InForm s) :
    State.InForm (s.endXsend x e) := inForm_endOp _ _ _ _ (inForm_endOp _ _ _ _ h)

theorem inForm_xSerialize (s : State) (x i) (h : State.InForm s) : State.InForm (s.xSerialize x i) := by
  unfold State.xSerialize; split_ifs
  · exact inForm_opSerialize _ _ _ _ _ h
  · exact inForm_raise _ _ _ h

theorem inForm_xTransmit (s : State) (x i p) (h : State.InForm s) : State.InForm (s.xTransmit x i p) := by
  unfold State.xTransmit
  dsimp only
  split_ifs
  · exact inForm_endXsend _ _ _ (inForm_transmit _ _ _ h)
  · exact inForm_endXsend _ _ _ (inForm_setExch _ _ _ (inForm_transmit _ _ _ h) (h.msg (.reply x))
      (h.buf (.xbuf x)) (h.buf (.xrx x)))
  · exact inForm_endXsend _ _ _ (inForm_transmit _ _ _ h)

theorem inForm_wset (s : State) (w) (k : Worker) (h : State.InForm s) (e : k.reqMsg =
    (s.worker w).reqMsg ∧ k.rspMsg = (s.worker w).rspMsg ∧ k.rx = (s.worker w).rx ∧ k.tx = (s.worker w).tx) :
    State.InForm (s.setWorker w k) := by
  obtain ⟨e1, e2, e3, e4⟩ := e
  exact inForm_setWorker _ _ _ h (e1 ▸ h.msg (.req w))
    (e2 ▸ h.msg (.rsp w)) (e3 ▸ h.buf (.rx w)) (e4 ▸ h.buf (.tx w))

theorem inForm_endWorker (s : State) (w) (h : State.InForm s) : State.InForm (s.endWorker w) := by
  unfold State.endWorker
  dsimp only
  have hu := inForm_opFree _ (.worker w) (.rsp w) (inForm_opFree s (.worker w) (.req w) h)
  generalize State.opFree _ _ _ = u at hu ⊢
  exact inForm_setWorker _ _ _ hu (hu.msg (.req w)) (hu.msg (.rsp w)) rfl rfl

theorem inForm_workerParse (s : State) (w) (h : State.InForm s) : State.InForm (s.workerParse w) := by
  unfold State.workerParse; split_ifs
  · exact inForm_toPhase _ _ _ (inForm_opParse _ _ _ _ h)
  · exact h

theorem inForm_workerDecide (s : State) (w) (h : State.InForm s) : State.InForm (s.workerDecide w) := by
  unfold State.workerDecide
  have := inForm_wset s w { s.worker w with plan := s.planOf w } h ⟨rfl, rfl, rfl, rfl⟩
  dsimp only
  split_ifs
  · exact inForm_toPhase _ _ _ this
  · exact inForm_endWorker _ _ this
  · exact inForm_toPhase _ _ _ this
  · exact h

theorem inForm_workerCall (s : State) (w) (h : State.InForm s) : State.InForm (s.workerCall w) := by
  unfold State.workerCall; split_ifs
  · exact inForm_calls _ _ (inForm_wset s w { s.worker w with call := .pending } h ⟨rfl, rfl, rfl, rfl⟩)
  · exact h

theorem inForm_workerReturn (s : State) (w r) (h : State.InForm s) : State.InForm (s.workerReturn w r) := by
  have := inForm_wset s w (recordResult r (s.worker w)) h (by cases r <;> exact ⟨rfl, rfl, rfl, rfl⟩)
  unfold State.workerReturn
  dsimp only
  split_ifs
  · exact inForm_endWorker _ _ this
  · exact inForm_toPhase _ _ _ this
  · exact h

theorem inForm_buildReply (s : State) (w) (h : State.InForm s) : State.InForm (s.buildReply w) := by
  unfold State.buildReply State.buildReplyResponse
  dsimp only
  split
  · exact inForm_opBuildEmpty _ _ _ _ _ h
  · exact inForm_opBuildEmpty _ _ _ _ _ h
  · split
    · exact inForm_opBuildEmpty _ _ _ _ _ h
    · exact inForm_opBuildResponse _ _ _ _ _ _ h
    · split_ifs
      · exact inForm_opBuildResponse _ _ _ _ _ _ (inForm_opBuildResponse _ _ _ _ _ _ h)
      · exact inForm_opBuildResponse _ _ _ _ _ _ h
  · exact h

theorem inForm_workerReply (s : State) (w) (h : State.InForm s) : State.InForm (s.workerReply w) := by
  unfold State.workerReply; split_ifs
  · unfold State.serializeReply
    have := inForm_buildReply s w h
    dsimp only
    split_ifs
    · exact inForm_endWorker _ _ this
    · exact inForm_toPhase _ _ _ (inForm_opSerialize _ _ _ _ _ this)
    · exact inForm_endWorker _ _ (inForm_opSerialize _ _ _ _ _ this)
  · exact h

theorem inForm_workerSend (s : State) (w) (h : State.InForm s) : State.InForm (s.workerSend w) := by
  unfold State.workerSend; split_ifs
  · exact inForm_endWorker _ _ (inForm_transmit _ _ _ h)
  · exact h

theorem inForm_accept (s : State) (p d) (h : State.InForm s) : State.InForm (s.accept p d) := by
  unfold State.accept; dsimp only; split_ifs
  · have h₁ := Buf.wf_load (s.buf (.rx s.freeWorker)) (s.cut d) (h.buf _)
    exact inForm_draw _ (inForm_setWorker _ _ _ h (h.msg (.req _)) (h.msg (.rsp _)) h₁ (h.buf (.tx _)))
  · exact h

theorem inForm_dispatch (s : State) (p d) (h : State.InForm s) : State.InForm (s.dispatch p d) := by
  unfold State.dispatch; split_ifs
  · exact inForm_workerSend _ _ (inForm_workerReply _ _ (inForm_workerCall _ _
      (inForm_workerDecide _ _ (inForm_workerParse _ _ (inForm_accept _ _ _ h)))))
  · exact h

theorem inForm_arrive (s : State) (dest d) (h : State.InForm s) : State.InForm (s.arrive dest d) := by
  cases dest with
  | dispatcher p => exact inForm_dispatch _ _ _ h
  | exchange x => exact inForm_recv _ _ _ h
  | slot i => exact inForm_callerParse _ _ _ _ h

/-! Registers. -/

theorem Exch.controlled_of {x : Nat} {e e' : Exch} (h : e.controlled x) (hr : e'.regs = e.regs)
    (hl : e'.state = .awaitingAck → e'.xbuf.len = e.xbuf.len) :
    e'.controlled x := by
  simp only [Exch.regs, ExchRegs.mk.injEq] at hr
  obtain ⟨h1, h2, h3, h4, h5, h6, h7, h8⟩ := hr
  refine ⟨by rw [h5, h1]; exact h.armed, ?_, by rw [h8, h1]; exact h.named⟩
  intro hs; rw [h6, hl hs]; exact h.copy (h1 ▸ hs)

/-- A worker that is about to send, with no call outstanding. -/
theorem Worker.controlled_sending {k : Worker} (h : k.phase = .send) (hc : k.call ≠ .pending) : k.controlled :=
  ⟨by simp [h], by simp [h], by simp [h], by simp [hc], by simp [h], by simp [h], by simp [h]⟩

/-- The context of a worker that has ended. -/
theorem controlled_endWorker (σ : State) (w) : ((σ.endWorker w).worker w).controlled := by
  have h := endWorker_spec σ w
  have e := h.worker
  have hs := h.ended.slots
  generalize State.endWorker σ w = t at e hs
  have hp : (t.worker w).phase = .done := by rw [e]; rfl
  have hc : (t.worker w).call = .noCall := by rw [e]; rfl
  refine ⟨by simp [hp], by simp [hp], by simp [hp], by simp [hc], by simp [hp], by simp [hp], fun _ => ⟨e, ?_⟩⟩
  intro m hm
  rcases List.mem_pair.1 hm with rfl | rfl
  · have := hs (.req w) (by simp)
    simpa [State.msg, Msg.optCount, Msg.hasPayload] using this
  · have := hs (.rsp w) (by simp)
    simpa [State.msg, Msg.optCount, Msg.hasPayload] using this

theorem regs_opFree (σ : State) (a d v) :
    ((σ.opFree a d).worker v).regs = (σ.worker v).regs := (opFree_spec σ a d).frame.workers v (by simp)

theorem phase_toPhase (σ : State) (w p) :
    ((σ.toPhase w p).worker w) = { σ.worker w with phase := p } := by unfold State.toPhase; rw
      [State.worker_setWorker, if_pos rfl]

theorem regs_phase {k k' : Worker} (h : k'.regs = k.regs) :
    k'.phase = k.phase ∧ k'.call = k.call ∧ k'.plan = k.plan := by
  simp only [Worker.regs, WorkerRegs.mk.injEq] at h; exact ⟨h.1, h.2.2.2.1, h.2.2.1⟩

theorem controlled_workerParse (σ : State) (w) (h : (σ.worker w).controlled) :
    ((σ.workerParse w).worker w).controlled := by
  unfold State.workerParse; split_ifs with hp
  · have hs := opParse_spec σ (.worker w) (.req w) (σ.worker w).rx.bytes
    rw [phase_toPhase]
    obtain ⟨r1, r2, r3⟩ := regs_phase (hs.frame.workers w (by simp))
    have hc := h.fresh (.inl hp)
    have e1 : ((σ.opParse (.worker w) (.req w) (σ.worker w).rx.bytes).worker w).codec = _ := hs.codec
    have e2 : ((σ.opParse (.worker w) (.req w) (σ.worker w).rx.bytes).worker w).reqMsg = _ := hs.slot
    refine ⟨fun _ => r2.trans hc, ?_, by simp, ?_, by simp, by simp, by simp⟩
    · intro _ he
      simp only [e1] at he
      simp only [e2]
      obtain ⟨b0, b1, b2, b3, rest, -, -, ht, -, -, e⟩ := parse_ok he
      rw [e]; exact ht
    · intro hc'; simp [r2, hc] at hc'
  · exact h

theorem controlled_workerDecide (σ : State) (w) (h : (σ.worker w).controlled) :
    ((σ.workerDecide w).worker w).controlled := by
  unfold State.workerDecide
  dsimp only
  by_cases hp : (σ.worker w).phase = .decide
  · have hc := h.fresh (.inr hp)
    rw [if_pos hp]
    split_ifs with h1 h2
    · rw [phase_toPhase, State.worker_setWorker, if_pos rfl]
      simp only [needsCall, Bool.and_eq_true, decide_eq_true_eq, Bool.or_eq_true] at h1
      refine ⟨by simp, by simp, fun _ => ⟨by simp [hc], ?_⟩, by simp, by simp, fun _ => h.parsed hp h1.1.1, by simp⟩
      simp only [State.planOf, respond]
      rw [if_neg (by simp [h1.1.1]), if_neg (by simp [h1.1.1])]
      rcases h1.1.2 with e | e <;> rw [e] <;> simp [h1.2]
    · exact controlled_endWorker _ _
    · rw [phase_toPhase, State.worker_setWorker, if_pos rfl]
      refine ⟨by simp, by simp, by simp, by simp [hc], fun _ => h2, ?_, by simp⟩
      simp only [reduceCtorEq, true_and, false_or]
      intro hpl
      apply h.parsed hp
      simp only [State.planOf, respond] at hpl
      split_ifs at hpl with a b <;> (by_contra hh; exact hh (not_not.1 b))
  · rw [if_neg hp]; exact h

theorem controlled_workerCall (σ : State) (w) (h : (σ.worker w).controlled) :
    ((σ.workerCall w).worker w).controlled := by
  unfold State.workerCall
  split_ifs with hp
  · show ((σ.setWorker w _).worker w).controlled
    rw [State.worker_setWorker, if_pos rfl]
    exact ⟨by simp [hp.1], by simp [hp.1], fun _ => ⟨by simp, (h.calling hp.1).2⟩, fun _ => hp.1, by simp [hp.1],
      fun _ => h.token (.inl hp.1), by simp [hp.1]⟩
  · exact h

theorem controlled_workerReturn (σ : State) (w r) (h : (σ.worker w).controlled) :
    ((σ.workerReturn w r).worker w).controlled := by
  unfold State.workerReturn
  dsimp only
  by_cases hp : (σ.worker w).call = .pending
  · rw [if_pos hp]
    have hc := h.pending hp
    split_ifs with h2
    · exact controlled_endWorker _ _
    · rw [phase_toPhase, State.worker_setWorker, if_pos rfl]
      have ht := h.token (.inl hc)
      refine ⟨by simp, by simp, by simp, ?_, ?_, ?_, by simp⟩
      · cases r <;> simp [recordResult]
      · cases r <;> simp [recordResult, h2]
      · intro _; cases r <;> exact ht
  · rw [if_neg hp]; exact h

theorem frame_buildReply (σ : State) (w) :
    Frame { slots := [.rsp w], bufs := [], codecs := [.worker w], exchs := [], workers := [] } σ
      (σ.buildReply w) := by
  unfold State.buildReply State.buildReplyResponse
  dsimp only
  split
  · exact (opBuildEmpty_spec ..).frame
  · exact (opBuildEmpty_spec ..).frame
  · split
    · exact (opBuildEmpty_spec ..).frame
    · exact (opBuildResponse_spec ..).frame
    · split_ifs
      · exact (opBuildResponse_spec ..).frame.trans (opBuildResponse_spec ..).frame
      · exact (opBuildResponse_spec ..).frame
  · exact Frame.refl _ _

theorem controlled_workerReply (σ : State) (w) (h : (σ.worker w).controlled) :
    ((σ.workerReply w).worker w).controlled := by
  unfold State.workerReply
  split_ifs with hp
  · have hc : (σ.worker w).call ≠ .pending := fun e => by have := h.pending e; rw [hp] at this; cases this
    have h1 := (regs_phase ((frame_buildReply σ w).workers w (by simp))).2.1
    unfold State.serializeReply
    dsimp only
    have h2 : ∀ cap, (((σ.buildReply w).opSerialize (.worker w) (.rsp w) (.tx w) cap).worker w).call =
        (σ.worker w).call := by
      intro cap
      have hf := (opSerialize_frame (σ.buildReply w) (.worker w) (.rsp w) (.tx w) cap).1
      exact (regs_phase (hf.workers w (by simp))).2.1.trans h1
    split_ifs
    · exact controlled_endWorker _ _
    · rw [phase_toPhase]
      refine Worker.controlled_sending rfl ?_
      show ((State.opSerialize _ _ _ _ _).worker w).call ≠ _
      rw [h2]; exact hc
    · exact controlled_endWorker _ _
  · exact h

theorem controlled_workerSend (σ : State) (w) (h : (σ.worker w).controlled) :
    ((σ.workerSend w).worker w).controlled := by
  unfold State.workerSend
  split_ifs
  · exact controlled_endWorker _ _
  · exact h

theorem controlled_accept (σ : State) (p d) (h : (σ.worker σ.freeWorker).controlled) :
    ((σ.accept p d).worker σ.freeWorker).controlled := by
  unfold State.accept; dsimp only; split_ifs
  · rw [State.worker_draw, State.worker_setWorker, if_pos rfl]
    constructor <;> simp [acceptedWorker]
  · exact h

theorem controlled_dispatch (σ : State) (p d) (h : (σ.worker σ.freeWorker).controlled) :
    ((σ.dispatch p d).worker σ.freeWorker).controlled := by
  unfold State.dispatch; split_ifs
  · exact controlled_workerSend _ _ (controlled_workerReply _ _ (controlled_workerCall _ _
      (controlled_workerDecide _ _ (controlled_workerParse _ _ (controlled_accept _ _ _ h)))))
  · exact h

theorem controlled_raise (σ : State) (x) (e) (h : (σ.exch x).controlled x) :
    ((σ.raise .caller e).exch x).controlled x := h

/-- The state of XRECV once the datagram is in the receive buffer and parsed. -/
theorem parsed_exch (σ : State) (x : Nat) (b : Buf) (bytes : List Byte) :
    let u := (σ.setBuf (.xrx x) b).opParse (.exchange x) (.reply x) bytes
    (u.exch x).regs = (σ.exch x).regs ∧ (u.exch x).xbuf = (σ.exch x).xbuf := by
  have hs := opParse_spec (σ.setBuf (.xrx x) b) (.exchange x) (.reply x) bytes
  refine ⟨(hs.frame.exchs x (by simp)).trans (by simp), (hs.bufs (.xbuf x)).trans ?_⟩
  rw [State.buf_setBuf, if_neg (by simp)]; rfl

theorem controlled_settle (σ : State) (x) (h : (σ.exch x).controlled x) : ((σ.settle x).exch x).controlled x := by
  unfold State.settle
  dsimp only
  split_ifs
  · split <;> first
      | exact h
      | (rw [State.exch_setExch, if_pos rfl]; constructor <;> simp [answeredExch])
  · exact h

theorem controlled_recv (σ : State) (x d) (h : (σ.exch x).controlled x) : ((σ.recv x d).exch x).controlled x := by
  unfold State.recv
  dsimp only
  have hu := parsed_exch σ x ((σ.buf (.xrx x)).load (σ.cut d))
    ((σ.setBuf (.xrx x) ((σ.buf (.xrx x)).load (σ.cut d))).buf (.xrx x)).bytes
  dsimp only at hu
  generalize State.opParse _ _ _ _ = u at hu ⊢
  have hc : (u.exch x).controlled x := Exch.controlled_of h hu.1 (fun _ => by rw [hu.2])
  split_ifs
  · exact controlled_raise _ _ _ h
  · refine Exch.controlled_of hc ?_ (fun _ => ?_) <;> simp [State.exch_setMsg, Exch.regs]
  · exact controlled_settle _ _ hc

theorem controlled_endXsend (σ : State) (x e) (h : (σ.exch x).controlled x) :
    ((σ.endXsend x e).exch x).controlled x := by
  refine Exch.controlled_of h ?_ ?_
  · unfold State.endXsend State.endOp; simp
  · intro _; unfold State.endXsend State.endOp; simp [State.exch_setCodec]

theorem Exch.controlled_open (x) (e e' : Exch) (h : e.controlled x) (hs : e.state = .awaitingSend)
    (hr : e'.regs = e.regs) :
    e'.controlled x :=
  Exch.controlled_of h hr fun he => by
    have := congrArg ExchRegs.state hr
    simp only [Exch.regs] at this
    rw [this, hs] at he; cases he

theorem controlled_xsend (σ t : State) (x s p) (h : (σ.exch x).controlled x) (he : execXsend x s p σ = .next t) :
    (t.exch x).controlled x := by
  unfold execXsend at he
  dsimp only at he
  obtain rfl := Host.Outcome.next.inj he
  split_ifs with h1 h2 h3
  · exact controlled_raise _ _ _ h
  · exact controlled_endXsend _ _ _ h
  · have h2' := not_not.1 h2
    have hr : ((σ.xSerialize x s).exch x).regs = (σ.exch x).regs := by
      unfold State.xSerialize; split_ifs
      · exact (opSerialize_frame _ _ _ _ _).1.exchs x (by simp)
      · unfold State.raise State.endOp; simp
    have hu := Exch.controlled_open x _ _ h h2' hr
    unfold State.xTransmit
    dsimp only
    split_ifs
    · exact controlled_endXsend _ _ _ hu
    · refine controlled_endXsend _ _ _ ?_
      rw [State.exch_setExch, if_pos rfl]
      have h4 := h.named
      rw [h2'] at h4
      have h5 := congrArg ExchRegs.reply hr
      simp only [Exch.regs] at h5
      refine ⟨by simp [startedExch], fun _ => rfl, ?_⟩
      show (((State.xSerialize σ x s).exch x).reply = _) ↔ _
      rw [h5, h4]; simp [startedExch]
    · exact controlled_endXsend _ _ _ hu
  · have h2' := not_not.1 h2
    have hr : ((σ.xSerialize x s).exch x).regs = (σ.exch x).regs := by
      unfold State.xSerialize; split_ifs
      · exact (opSerialize_frame _ _ _ _ _).1.exchs x (by simp)
      · unfold State.raise State.endOp; simp
    exact controlled_endXsend _ _ _ (Exch.controlled_open x _ _ h h2' hr)

theorem controlled_xexpire (σ t : State) (x) (h : (σ.exch x).controlled x) (he : execXexpire x σ = .next t) :
    (t.exch x).controlled x := by
  unfold execXexpire at he
  split_ifs at he with h1 h2 h3 h4 <;> obtain rfl := Host.Outcome.next.inj he
  · exact controlled_raise _ _ _ h
  · exact h
  · rw [State.exch_setExch, if_pos rfl]
    have : (σ.exch x).state = .awaitingAck := by simp [Exch.expirable] at h2; exact h2.1
    exact ⟨by simp [retriedExch, this], fun _ => h.copy this, h.named⟩
  · rw [State.exch_setExch, if_pos rfl]
    have : (σ.exch x).state = .awaitingAck := by simp [Exch.expirable] at h2; exact h2.1
    have hn := h.named
    rw [this] at hn
    exact ⟨by simp [timedOutExch], by simp [timedOutExch], by simp only [timedOutExch]; rw [hn]; simp⟩

end Sys2Proof.Machine
end

