-- ==== Sys2Proof/Laws/PerInstr.lean ====
section
/-! SUPPORT. A family of statements about every instruction as syntax: its record's format is the format of its
opcode-table row. -/

namespace Sys2Proof.Laws.RowFormat

/-- The row of an instruction is one of the rows of its record's format (30_encoding.md R110). -/
def Statement (i : Instr) : Prop := (rowsOf (encode i).fmt).any (fun r => r.number == rowOf i) = true

theorem hdrBadver0 (kind : Kind) (tkl : BitVec 4) (code : Byte) (mid : Mid) (dest : Dest) (rest : List Byte) :
    Statement (.hdrBadver0 kind tkl code mid dest rest) := rfl
theorem hdrBadver2 (kind : Kind) (tkl : BitVec 4) (code : Byte) (mid : Mid) (dest : Dest) (rest : List Byte) :
    Statement (.hdrBadver2 kind tkl code mid dest rest) := rfl
theorem hdrBadver3 (kind : Kind) (tkl : BitVec 4) (code : Byte) (mid : Mid) (dest : Dest) (rest : List Byte) :
    Statement (.hdrBadver3 kind tkl code mid dest rest) := rfl
theorem hdrTkl9 (kind : Kind) (code : Byte) (mid : Mid) (dest : Dest) (rest : List Byte) :
    Statement (.hdrTkl9 kind code mid dest rest) := rfl
theorem hdrTkl10to11 (kind : Kind) (low : BitVec 1) (code : Byte) (mid : Mid) (dest : Dest) (rest : List Byte) :
    Statement (.hdrTkl10to11 kind low code mid dest rest) := rfl
theorem hdrTkl12to15 (kind : Kind) (low : BitVec 2) (code : Byte) (mid : Mid) (dest : Dest) (rest : List Byte) :
    Statement (.hdrTkl12to15 kind low code mid dest rest) := rfl
theorem conGet (tkl : BitVec 4) (mid : Mid) (dest : Dest) (rest : List Byte) :
    Statement (.conGet tkl mid dest rest) := rfl
theorem conPost (tkl : BitVec 4) (mid : Mid) (dest : Dest) (rest : List Byte) :
    Statement (.conPost tkl mid dest rest) := rfl
theorem conPut (tkl : BitVec 4) (mid : Mid) (dest : Dest) (rest : List Byte) :
    Statement (.conPut tkl mid dest rest) := rfl
theorem conDelete (tkl : BitVec 4) (mid : Mid) (dest : Dest) (rest : List Byte) :
    Statement (.conDelete tkl mid dest rest) := rfl
theorem nonGet (tkl : BitVec 4) (mid : Mid) (dest : Dest) (rest : List Byte) :
    Statement (.nonGet tkl mid dest rest) := rfl
theorem nonPost (tkl : BitVec 4) (mid : Mid) (dest : Dest) (rest : List Byte) :
    Statement (.nonPost tkl mid dest rest) := rfl
theorem nonPut (tkl : BitVec 4) (mid : Mid) (dest : Dest) (rest : List Byte) :
    Statement (.nonPut tkl mid dest rest) := rfl
theorem nonDelete (tkl : BitVec 4) (mid : Mid) (dest : Dest) (rest : List Byte) :
    Statement (.nonDelete tkl mid dest rest) := rfl
theorem ackAny (tkl : BitVec 4) (code : Byte) (mid : Mid) (dest : Dest) (rest : List Byte) :
    Statement (.ackAny tkl code mid dest rest) := rfl
theorem rstAny (tkl : BitVec 4) (code : Byte) (mid : Mid) (dest : Dest) (rest : List Byte) :
    Statement (.rstAny tkl code mid dest rest) := rfl
theorem conOther (tkl : BitVec 4) (code : Byte) (mid : Mid) (dest : Dest) (rest : List Byte) :
    Statement (.conOther tkl code mid dest rest) := rfl
theorem nonOther (tkl : BitVec 4) (code : Byte) (mid : Mid) (dest : Dest) (rest : List Byte) :
    Statement (.nonOther tkl code mid dest rest) := rfl
theorem optMarker (d : Nat) (rest : List Byte) : Statement (.optMarker d rest) := rfl
theorem optRsvdDelta (length : BitVec 4) (d : Nat) (rest : List Byte) : Statement (.optRsvdDelta length d rest) := rfl
theorem optRsvdLen (delta : BitVec 4) (d : Nat) (rest : List Byte) : Statement (.optRsvdLen delta d rest) := rfl
theorem optEntry (delta : BitVec 4) (length : BitVec 4) (d : Nat) (rest : List Byte) :
    Statement (.optEntry delta length d rest) := rfl
theorem codeEmpty (s : Nat) : Statement (.codeEmpty s) := rfl
theorem codeGet (s : Nat) : Statement (.codeGet s) := rfl
theorem codePost (s : Nat) : Statement (.codePost s) := rfl
theorem codePut (s : Nat) : Statement (.codePut s) := rfl
theorem codeDelete (s : Nat) : Statement (.codeDelete s) := rfl
theorem codeCreated (s : Nat) : Statement (.codeCreated s) := rfl
theorem codeDeleted (s : Nat) : Statement (.codeDeleted s) := rfl
theorem codeChanged (s : Nat) : Statement (.codeChanged s) := rfl
theorem codeContent (s : Nat) : Statement (.codeContent s) := rfl
theorem codeBadRequest (s : Nat) : Statement (.codeBadRequest s) := rfl
theorem codeNotFound (s : Nat) : Statement (.codeNotFound s) := rfl
theorem codeInternalError (s : Nat) : Statement (.codeInternalError s) := rfl
theorem codeOther (cls : BitVec 3) (detail : BitVec 5) (s : Nat) : Statement (.codeOther cls detail s) := rfl
theorem init (s : Nat) : Statement (.init s) := rfl
theorem serialize (s : Nat) (target : Target) (cap : Nat) :
    Statement (.serialize s target cap) := by cases target <;> rfl
theorem parse (d : Nat) (source : Source) (n : Nat) : Statement (.parse d source n) := by cases source <;> rfl
theorem addOption (s : Nat) (number : BitVec 16) (value : List Byte) : Statement (.addOption s number value) := rfl
theorem free (s : Nat) : Statement (.free s) := rfl
theorem buildEmptyAck (d : Nat) (r : Nat) : Statement (.buildEmptyAck d r) := rfl
theorem buildRstFor (d : Nat) (r : Nat) : Statement (.buildRstFor d r) := rfl
theorem setKind (s : Nat) (v : Kind) : Statement (.setKind s v) := rfl
theorem setCode (s : Nat) (v : Byte) : Statement (.setCode s v) := rfl
theorem setMid (s : Nat) (v : Mid) : Statement (.setMid s v) := rfl
theorem setToken (s : Nat) (value : List Byte) : Statement (.setToken s value) := rfl
theorem setPayload (s : Nat) (value : List Byte) : Statement (.setPayload s value) := rfl
theorem clearPayload (s : Nat) : Statement (.clearPayload s) := rfl
theorem xsend (x : Nat) (s : Nat) (peer : PeerAddr) : Statement (.xsend x s peer) := rfl
theorem xexpire (x : Nat) : Statement (.xexpire x) := rfl
theorem xrecv (x : Nat) (datagram : List Byte) : Statement (.xrecv x datagram) := rfl
theorem rxAccept (peer : PeerAddr) (datagram : List Byte) : Statement (.rxAccept peer datagram) := rfl
theorem wParse (w : Nat) : Statement (.wParse w) := rfl
theorem wDecide (w : Nat) : Statement (.wDecide w) := rfl
theorem wCall (w : Nat) : Statement (.wCall w) := rfl
theorem wReturn (w : Nat) (result : AppResult) :
    Statement (.wReturn w result) := by
  rcases result with _ | _ | ⟨_, _ | _⟩ <;> rfl
theorem wReply (w : Nat) : Statement (.wReply w) := rfl
theorem wSend (w : Nat) : Statement (.wSend w) := rfl
theorem cmdUnassigned (op : BitVec 5) : Statement (.cmdUnassigned op) := rfl

end Sys2Proof.Laws.RowFormat
end

