-- ==== Sys2Proof/Tests/Slice0.lean ====
section
/-! SUPPORT. Tests by decide: ill-formed terms refused, words written out from spec/30_encoding.md decoded, one step of each
instruction against spec/95_test_vectors.md, and a witness for the hypotheses of each statement. -/

namespace Sys2Proof.Tests

open Sys2Proof Sys2Proof.Machine

/-! Ill-formed terms. -/

/-- A token length of 9 or more belongs to the TKL rows (30_encoding.md R111). -/
theorem test_wellFormed_refuses_long_token :
    [Instr.conGet 9 0 (.slot 0) [], .conPost 9 0 (.slot 0) [], .conPut 15 0 (.slot 0) [], .conDelete 12 0 (.slot 0) [],
      .nonGet 9 0 (.slot 0) [], .nonPost 10 0 (.slot 0) [], .nonPut 9 0 (.slot 0) [], .nonDelete 9 0 (.slot 0) [],
      .ackAny 9 0 0 (.slot 0) [], .rstAny 9 0 0 (.slot 0) [], .conOther 9 0 0 (.slot 0) [],
      .nonOther 9 0 0 (.slot 0) []].all (fun i => !wellFormed i) = true := by decide

/-- A method code belongs to the method rows (30_encoding.md R111). -/
theorem test_wellFormed_refuses_method_as_other :
    wellFormed (.conOther 0 1 0 (.slot 0) []) = false ∧ wellFormed (.nonOther 0 4 0 (.slot 0) []) = false ∧
    wellFormed (.conOther 8 5 0 (.slot 0) []) = true := by decide

/-- A nibble 15 belongs to the earlier OPT rows (30_encoding.md R102). -/
theorem test_wellFormed_refuses_reserved_nibble :
    wellFormed (.optRsvdDelta 15 0 []) = false ∧ wellFormed (.optRsvdLen 15 0 []) = false ∧
    wellFormed (.optEntry 15 0 0 []) = false ∧ wellFormed (.optEntry 0 15 0 []) = false ∧
    wellFormed (.optEntry 14 14 0 []) = true := by decide

/-- A named code belongs to its own CODE row, an assigned transaction code to its own CMD row. -/
theorem test_wellFormed_refuses_named_code :
    wellFormed (.codeOther 2 5 0) = false ∧ wellFormed (.codeOther 2 6 0) = true ∧
    wellFormed (.cmdUnassigned 0x16) = false ∧ wellFormed (.cmdUnassigned 0x17) = true := by decide

/-! Words written out from the spec's encodings. -/

/-- Header words: version 7:6, kind 5:4, tkl 3:0, code, id high byte first (30_encoding.md R91). -/
theorem test_decode_header_words :
    decode (Record.of .hdr [0x3A, 0x02, 0x12, 0x34] 0 7 0 0 [1]) = .ok (.hdrBadver0 .rst 10 2 0x1234 (.dispatcher ⟨7⟩) [1]) ∧
    decode (Record.of .hdr [0x80, 0x01, 0x55, 0x55] 0 7 0 0 [1]) = .ok (.hdrBadver2 .con 0 1 0x5555 (.dispatcher ⟨7⟩) [1]) ∧
    decode (Record.of .hdr [0xC9, 0x00, 0x00, 0x00] 0 7 0 0 [1]) = .ok (.hdrBadver3 .con 9 0 0 (.dispatcher ⟨7⟩) [1]) ∧
    decode (Record.of .hdr [0x49, 0x01, 0x00, 0x01] 0 7 0 0 [1]) = .ok (.hdrTkl9 .con 1 1 (.dispatcher ⟨7⟩) [1]) ∧
    decode (Record.of .hdr [0x5B, 0x01, 0x00, 0x01] 0 7 0 0 [1]) = .ok (.hdrTkl10to11 .non 1 1 1 (.dispatcher ⟨7⟩) [1]) ∧
    decode (Record.of .hdr [0x6E, 0x01, 0x00, 0x01] 0 7 0 0 [1]) = .ok (.hdrTkl12to15 .ack 2 1 1 (.dispatcher ⟨7⟩) [1]) ∧
    decode (Record.of .hdr [0x48, 0x01, 0x0A, 0x0B] 0 7 0 0 [1]) = .ok (.conGet 8 0x0A0B (.dispatcher ⟨7⟩) [1]) ∧
    decode (Record.of .hdr [0x42, 0x02, 0x12, 0x34] 0 7 0 0 [1]) = .ok (.conPost 2 0x1234 (.dispatcher ⟨7⟩) [1]) ∧
    decode (Record.of .hdr [0x40, 0x03, 0x00, 0xFF] 0 7 0 0 [1]) = .ok (.conPut 0 0x00FF (.dispatcher ⟨7⟩) [1]) ∧
    decode (Record.of .hdr [0x41, 0x04, 0x00, 0x11] 0 7 0 0 [1]) = .ok (.conDelete 1 0x0011 (.dispatcher ⟨7⟩) [1]) ∧
    decode (Record.of .hdr [0x50, 0x01, 0xBE, 0xEF] 0 7 0 0 [1]) = .ok (.nonGet 0 0xBEEF (.dispatcher ⟨7⟩) [1]) ∧
    decode (Record.of .hdr [0x51, 0x02, 0x22, 0x22] 0 7 0 0 [1]) = .ok (.nonPost 1 0x2222 (.dispatcher ⟨7⟩) [1]) ∧
    decode (Record.of .hdr [0x52, 0x03, 0x22, 0x22] 0 7 0 0 [1]) = .ok (.nonPut 2 0x2222 (.dispatcher ⟨7⟩) [1]) ∧
    decode (Record.of .hdr [0x51, 0x04, 0xFF, 0xFF] 0 7 0 0 [1]) = .ok (.nonDelete 1 0xFFFF (.dispatcher ⟨7⟩) [1]) ∧
    decode (Record.of .hdr [0x68, 0x45, 0xBE, 0xEF] 0 7 0 0 [1]) = .ok (.ackAny 8 0x45 0xBEEF (.dispatcher ⟨7⟩) [1]) ∧
    decode (Record.of .hdr [0x72, 0x00, 0x00, 0x0B] 0 7 0 0 [1]) = .ok (.rstAny 2 0 0x000B (.dispatcher ⟨7⟩) [1]) ∧
    decode (Record.of .hdr [0x40, 0x45, 0x00, 0x0D] 0 7 0 0 [1]) = .ok (.conOther 0 0x45 0x000D (.dispatcher ⟨7⟩) [1]) ∧
    decode (Record.of .hdr [0x50, 0x00, 0x00, 0x09] 0 7 0 0 [1]) = .ok (.nonOther 0 0 9 (.dispatcher ⟨7⟩) [1]) := by decide

/-- Option bytes: delta 7:4, length 3:0 (30_encoding.md R101, R102). -/
theorem test_decode_option_words :
    decode (Record.of .opt [0xFF] 2 0 0 0 [1]) = .ok (.optMarker 2 [1]) ∧
    decode (Record.of .opt [0xF1] 2 0 0 0 [1]) = .ok (.optRsvdDelta 1 2 [1]) ∧
    decode (Record.of .opt [0x1F] 2 0 0 0 [1]) = .ok (.optRsvdLen 1 2 [1]) ∧
    decode (Record.of .opt [0xB6] 2 0 0 0 [1]) = .ok (.optEntry 11 6 2 [1]) := by decide

/-- Code bytes: class 7:5, detail 4:0 (30_encoding.md R95, R96, R98). -/
theorem test_decode_code_words :
    decode (Record.of .code [0x00] 3 0 0 0 []) = .ok (.codeEmpty 3) ∧
    decode (Record.of .code [0x01] 3 0 0 0 []) = .ok (.codeGet 3) ∧
    decode (Record.of .code [0x02] 3 0 0 0 []) = .ok (.codePost 3) ∧
    decode (Record.of .code [0x03] 3 0 0 0 []) = .ok (.codePut 3) ∧
    decode (Record.of .code [0x04] 3 0 0 0 []) = .ok (.codeDelete 3) ∧
    decode (Record.of .code [0x41] 3 0 0 0 []) = .ok (.codeCreated 3) ∧
    decode (Record.of .code [0x42] 3 0 0 0 []) = .ok (.codeDeleted 3) ∧
    decode (Record.of .code [0x44] 3 0 0 0 []) = .ok (.codeChanged 3) ∧
    decode (Record.of .code [0x45] 3 0 0 0 []) = .ok (.codeContent 3) ∧
    decode (Record.of .code [0x80] 3 0 0 0 []) = .ok (.codeBadRequest 3) ∧
    decode (Record.of .code [0x84] 3 0 0 0 []) = .ok (.codeNotFound 3) ∧
    decode (Record.of .code [0xA0] 3 0 0 0 []) = .ok (.codeInternalError 3) ∧
    decode (Record.of .code [0x8F] 3 0 0 0 []) = .ok (.codeOther 4 15 3) := by decide

/-- Transaction codes (30_encoding.md R112). -/
theorem test_decode_command_words :
    decode (Record.of .cmd [0x00] 5 0 0 0 []) = .ok (.init 5) ∧
    decode (Record.of .cmd [0x01] 5 6 7 0 []) = .ok (.serialize 5 (.buffer 6) 7) ∧
    decode (Record.of .cmd [0x02] 5 6 7 1 []) = .ok (.parse 5 (.buffer 6) 7) ∧
    decode (Record.of .cmd [0x03] 5 11 0 0 [0x61]) = .ok (.addOption 5 11 [0x61]) ∧
    decode (Record.of .cmd [0x04] 5 0 0 0 []) = .ok (.free 5) ∧
    decode (Record.of .cmd [0x05] 5 6 0 0 []) = .ok (.buildEmptyAck 5 6) ∧
    decode (Record.of .cmd [0x06] 5 6 0 0 []) = .ok (.buildRstFor 5 6) ∧
    decode (Record.of .cmd [0x07] 5 2 0 0 []) = .ok (.setKind 5 .ack) ∧
    decode (Record.of .cmd [0x08] 5 0x45 0 0 []) = .ok (.setCode 5 0x45) ∧
    decode (Record.of .cmd [0x09] 5 0x1234 0 0 []) = .ok (.setMid 5 0x1234) ∧
    decode (Record.of .cmd [0x0A] 5 0 0 0 [0xAA]) = .ok (.setToken 5 [0xAA]) ∧
    decode (Record.of .cmd [0x0B] 5 0 0 0 [0xAA]) = .ok (.setPayload 5 [0xAA]) ∧
    decode (Record.of .cmd [0x0C] 5 0 0 0 []) = .ok (.clearPayload 5) ∧
    decode (Record.of .cmd [0x0D] 1 5 9 0 []) = .ok (.xsend 1 5 ⟨9⟩) ∧
    decode (Record.of .cmd [0x0E] 1 0 0 0 []) = .ok (.xexpire 1) ∧
    decode (Record.of .cmd [0x0F] 1 0 0 0 [0x60]) = .ok (.xrecv 1 [0x60]) ∧
    decode (Record.of .cmd [0x10] 9 0 0 0 [0x60]) = .ok (.rxAccept ⟨9⟩ [0x60]) ∧
    decode (Record.of .cmd [0x11] 4 0 0 0 []) = .ok (.wParse 4) ∧
    decode (Record.of .cmd [0x12] 4 0 0 0 []) = .ok (.wDecide 4) ∧
    decode (Record.of .cmd [0x13] 4 0 0 0 []) = .ok (.wCall 4) ∧
    decode (Record.of .cmd [0x14] 4 3 0x45 0 [0x32]) = .ok (.wReturn 4 (.response 0x45 (some [0x32]))) ∧
    decode (Record.of .cmd [0x15] 4 0 0 0 []) = .ok (.wReply 4) ∧
    decode (Record.of .cmd [0x16] 4 0 0 0 []) = .ok (.wSend 4) ∧
    decode (Record.of .cmd [0x1F] 0 0 0 0 []) = .ok (.cmdUnassigned 0x1F) := by decide

/-- The other operand forms of SERIALIZE, PARSE and W_RETURN, and of a datagram's arrival (log 2). -/
theorem test_decode_operand_forms :
    decode (Record.of .cmd [0x01] 5 0 7 1 []) = .ok (.serialize 5 .missing 7) ∧
    decode (Record.of .cmd [0x02] 5 0 1 0 [0x40]) = .ok (.parse 5 (.bytes [0x40]) 1) ∧
    decode (Record.of .cmd [0x02] 5 0 1 2 []) = .ok (.parse 5 .missing 1) ∧
    decode (Record.of .cmd [0x14] 4 0 0 0 []) = .ok (.wReturn 4 .nothing) ∧
    decode (Record.of .cmd [0x14] 4 1 0 0 []) = .ok (.wReturn 4 .failure) ∧
    decode (Record.of .cmd [0x14] 4 2 0x41 0 []) = .ok (.wReturn 4 (.response 0x41 none)) ∧
    decode (Record.of .hdr [0x60, 0x00, 0x0A, 0x0B] 1 3 0 0 []) = .ok (.ackAny 0 0 0x0A0B (.exchange 3) []) ∧
    decode (Record.of .hdr [0x60, 0x00, 0x0A, 0x0B] 2 3 0 0 []) = .ok (.ackAny 0 0 0x0A0B (.slot 3) []) := by decide

/-- A record that is no instruction is refused by name (log 2). -/
theorem test_decode_refuses_by_name :
    decode (Record.of .hdr [0x40, 0x01] 0 0 0 0 []) = .error .wordLength ∧
    decode (Record.of .cmd [0x20] 0 0 0 0 []) = .error .codeTooWide ∧
    decode (Record.of .cmd [0x07] 0 4 0 0 []) = .error .operandTooWide ∧
    decode (Record.of .hdr [0x40, 0x01, 0, 0] 3 0 0 0 []) = .error .badSelector := by decide

/-- Bare words numbered as spec/opcode_table.json numbers them, operand lanes zero (log 3). -/
theorem test_decode_table_words :
    decodeTableWord 32 0x42021234 = some (.conPost 2 0x1234 (.dispatcher ⟨0⟩) []) ∧
    decodeTableWord 8 0x0D = some (.xsend 0 0 ⟨0⟩) ∧
    decodeTableWord 8 0x45 = some (.codeContent 0) ∧
    decodeTableWord 8 0xB6 = some (.optEntry 11 6 0 []) ∧
    decodeTableWord 8 0x1F = some (.cmdUnassigned 0x1F) := by decide

/-! Small states. -/

/-- The state after a run that answers next states. -/
def after (is : List Instr) (σ : State) : State :=
  match execAll is σ with
  | .next t => t
  | _ => σ

/-- The instruction answers a next state. -/
def completes (i : Instr) (σ : State) : Bool :=
  match exec i σ with
  | .next _ => true
  | _ => false

/-- V-PAR-10. -/
def post : List Byte := [0x42, 0x02, 0x12, 0x34, 0xAA, 0xBB, 0xFF, 0x68, 0x65, 0x6C, 0x6C, 0x6F]

/-- The constraints on the parameters, at their bounds (00_scope.md R9). -/
theorem test_params_legal :
    Params.legal Params.standard = true ∧
    Params.legal { Params.standard with maxOptions := some 4681, maxDatagram := some 4 } = true ∧
    [{ Params.standard with maxOptions := some 0 }, { Params.standard with maxOptions := some 4682 },
      { Params.standard with maxDatagram := some 3 }, { Params.standard with nMsg := some 0 },
      { Params.standard with nWorkers := some 0 }, { Params.standard with nExch := 0 }].all (fun P => !P.legal) = true := by decide

/-- Boot with scenario 5's values (43_exchange.md R208). -/
def booted : State := State.reset.boot 2000 4 false 5683

/-- Slot 0 holds `CON GET mid=0x0A0B tok=01` (95_test_vectors.md 2.5). -/
def ready : State := after [.setCode 0 0x01, .setMid 0 0x0A0B, .setToken 0 [0x01]] booted

/-- V-XCH-1: exchange 0 waits for its answer. -/
def waiting : State := after [.xsend 0 0 ⟨7⟩] ready

/-- Slot 1 holds V-PAR-10, slot 0 holds options 3, 11, 12 of V-OPT-2. -/
def filled : State :=
  after [.parse 1 (.bytes post) 12, .addOption 0 12 [0x00], .addOption 0 3 [0x68], .addOption 0 11 [0x61]] State.reset

/-- Worker 0 has V-RSP-4's datagram. -/
def accepted : State := after [.rxAccept ⟨9⟩ [0x41, 0x01, 0x00, 0x10, 0x09]] State.reset

/-- Worker 0 has parsed it. -/
def parsed : State := after [.wParse 0] accepted

/-- Worker 0 waits for its collaborator call. -/
def calling : State := after [.wDecide 0] parsed

/-- Worker 0's call is outstanding. -/
def pending : State := after [.wCall 0] calling

/-- Worker 0 owes the reply of V-RSP-4. -/
def replying : State := after [.wReturn 0 (.response 0x45 (some [0x32, 0x31]))] pending

/-- Worker 0's reply is serialized. -/
def sending : State := after [.wReply 0] replying

/-- Every store bounded: one slot pair, one worker, small capacities. -/
def small : State :=
  { State.reset with
    params := { State.reset.params with
      maxOptions := some 1, maxPayload := some 1, maxDatagram := some 5, nMsg := some 2, nWorkers := some 1 } }

/-- Inside a PARSE of slot 0: header and token parsed, the options to come. -/
def inside : State := after [.parse 0 (.bytes [0x40, 0x01, 0x00, 0x01]) 4] State.reset

/-- The header of V-XCH-1 without its token. -/
def get : Msg := (ready.msg (.main 0))

/-! One step of each instruction, results from spec/95_test_vectors.md. -/

/-- V-MSG-1: INIT over a parsed message. -/
theorem test_init :
    ((after [.init 1] filled).msg (.main 1)) = { Msg.reset with token := [0xAA, 0xBB, 0, 0, 0, 0, 0, 0] } := by decide

/-- V-SER-1 with `cap = 12`. -/
theorem test_serialize :
    ((after [.serialize 1 (.buffer 0) 12] filled).buf (.caller 0)).bytes = post := by decide

/-- V-SER-17: `cap = 11`. -/
theorem test_serialize_truncated :
    (after [.serialize 1 (.buffer 0) 11] filled).caller.err = .truncated ∧
    ((after [.serialize 1 (.buffer 0) 11] filled).buf (.caller 0)).len = 0 := by decide

/-- V-PAR-16. -/
theorem test_parse :
    ((after [.parse 0 (.bytes [0x40, 0x01, 0x00, 0x01, 0xB6, 0x73, 0x65, 0x6E, 0x73, 0x6F, 0x72, 0x01, 0x31]) 13] State.reset).msg
      (.main 0)).opts = [{ number := 11, value := [0x73, 0x65, 0x6E, 0x73, 0x6F, 0x72] }, { number := 11, value := [0x31] }] := by decide

/-- V-PAR-6: the version is tested before the token length. -/
theorem test_parse_version :
    (after [.parse 0 (.bytes [0xC9, 0x00, 0x00, 0x00]) 4] State.reset).caller.err = .versionMismatch := by decide

/-- V-OPT-3: an equal number goes after the old one. -/
theorem test_addOption :
    ((after [.addOption 0 11 [0x62]] filled).msg (.main 0)).opts.map Opt.number = [3, 11, 11, 12] ∧
    ((after [.addOption 0 11 [0x62]] filled).msg (.main 0)).opts.map Opt.value = [[0x68], [0x61], [0x62], [0x00]] := by decide

/-- V-OPT-4: a value of 15 bytes. -/
theorem test_addOption_oversize :
    (after [.addOption 0 5 (List.replicate 15 0x42)] filled).caller.err = .optionOversize := by decide

/-- V-MSG-4. -/
theorem test_free :
    ((after [.free 1] filled).msg (.main 1)).payload = none ∧ ((after [.free 0] filled).msg (.main 0)).opts = [] := by decide

/-- V-MSG-2: the token is not echoed. -/
theorem test_buildEmptyAck :
    ((after [.buildEmptyAck 2 1] filled).msg (.main 2)) = { Msg.reset with kind := .ack, mid := 0x1234 } := by decide

/-- V-MSG-7: `d = r`; and the Reset for slot 1. -/
theorem test_buildRstFor :
    (after [.buildRstFor 0 0] filled).caller.err = .invalid ∧
    ((after [.buildRstFor 2 1] filled).msg (.main 2)) = { Msg.reset with kind := .rst, mid := 0x1234 } := by decide

/-- 40_message_ops.md R140. -/
theorem test_setKind :
    ((after [.setKind 1 .non] filled).msg (.main 1)).kind = .non := by decide

/-- 40_message_ops.md R140. -/
theorem test_setCode :
    ((after [.setCode 1 0x45] filled).msg (.main 1)).code = 0x45 := by decide

/-- 40_message_ops.md R140. -/
theorem test_setMid :
    ((after [.setMid 1 0xBEEF] filled).msg (.main 1)).mid = 0xBEEF := by decide

/-- 40_message_ops.md R141; V-MSG-5: nine bytes are too many. -/
theorem test_setToken :
    ((after [.setToken 0 [0xAA, 0xBB]] State.reset).msg (.main 0)).tokenBytes = [0xAA, 0xBB] ∧
    (after [.setToken 0 [1, 2, 3, 4, 5, 6, 7, 8, 9]] State.reset).caller.err = .tokenTooLarge := by decide

/-- V-MSG-6: a present, empty payload. -/
theorem test_setPayload :
    ((after [.setPayload 0 []] State.reset).msg (.main 0)).payload = some [] := by decide

/-- V-MSG-6. -/
theorem test_clearPayload :
    ((after [.clearPayload 1] filled).msg (.main 1)).payload = none := by decide

/-- Each CODE row stores its byte (30_encoding.md R96, R98). -/
theorem test_code_rows :
    [Instr.codeEmpty 0, .codeGet 0, .codePost 0, .codePut 0, .codeDelete 0, .codeCreated 0, .codeDeleted 0, .codeChanged 0,
      .codeContent 0, .codeBadRequest 0, .codeNotFound 0, .codeInternalError 0, .codeOther 4 15 0].map
        (fun i => ((after [i] State.reset).msg (.main 0)).code) =
      [0x00, 0x01, 0x02, 0x03, 0x04, 0x41, 0x42, 0x44, 0x45, 0x80, 0x84, 0xA0, 0x8F] := by decide

/-- V-PAR-11: an empty payload after the marker. -/
theorem test_optMarker :
    ((after [.optMarker 0 []] inside).msg (.main 0)).payload = some [] := by decide

/-- V-PAR-12. -/
theorem test_optRsvdDelta :
    (after [.optRsvdDelta 0 0 []] inside).caller.err = .optionsNotSupported := by decide

/-- V-PAR-13. -/
theorem test_optRsvdLen :
    (after [.optRsvdLen 0 0 []] inside).caller.err = .optionsNotSupported := by decide

/-- V-PAR-15: six value bytes wanted, three left; V-PAR-19: nibble 13 is a plain value. -/
theorem test_optEntry :
    (after [.optEntry 11 6 0 [0x73, 0x65, 0x6E]] inside).caller.err = .truncated ∧
    ((after [.optEntry 13 1 0 [0x41, 0xE0]] inside).msg (.main 0)).opts = [{ number := 13, value := [0x41] }] := by decide

/-- V-XCH-1. -/
theorem test_xsend :
    waiting.out = [⟨⟨7⟩, [0x41, 0x01, 0x0A, 0x0B, 0x01]⟩] ∧
    (waiting.exch 0).regs = ⟨.awaitingAck, 0x0A0B, 1, 2000, true, 5, ⟨7⟩, none⟩ := by decide

/-- V-XCH-12: not again in AwaitingAck; and a refused send is recorded all the same (10_state.md R48, 43_exchange.md R205). -/
theorem test_xsend_again :
    (after [.xsend 0 0 ⟨7⟩] waiting).caller.err = .invalid ∧ (after [.xsend 0 0 ⟨7⟩] waiting).out = waiting.out ∧
    (after [.xsend 0 0 ⟨7⟩] { ready with sendAnswers := [false] }).out = waiting.out ∧
    ((after [.xsend 0 0 ⟨7⟩] { ready with sendAnswers := [false] }).exch 0).state = .awaitingSend := by decide

/-- V-SC5, first expiry. -/
theorem test_xexpire :
    ((after [.xexpire 0] waiting).exch 0).regs = ⟨.awaitingAck, 0x0A0B, 2, 4000, true, 5, ⟨7⟩, none⟩ ∧
    (after [.xexpire 0] waiting).out.length = 2 := by decide

/-- V-XCH-10: with one attempt the first expiry times out. -/
theorem test_xexpire_last :
    ((after [.xexpire 0] { waiting with maxAttempts := 1 }).exch 0).state = .timedOut := by decide

/-- V-XCH-3. -/
theorem test_xrecv :
    ((after [.xrecv 0 [0x61, 0x45, 0x0A, 0x0B, 0x01, 0xFF, 0x32, 0x31]] waiting).exch 0).state = .acked ∧
    ((after [.xrecv 0 [0x61, 0x45, 0x0A, 0x0B, 0x01, 0xFF, 0x32, 0x31]] waiting).msg (.reply 0)).payload = some [0x32, 0x31] := by decide

/-- V-XCH-5: another id; and after an answer another ACK is received and parsed (43_exchange.md R209), and the delivered reply
stays (R211, R213). -/
theorem test_xrecv_ignored :
    ((after [.xrecv 0 [0x60, 0x00, 0x0A, 0x0C]] waiting).exch 0).regs = (waiting.exch 0).regs ∧
    ((after [.xrecv 0 [0x60, 0x45, 0x0A, 0x0B]] (after [.xrecv 0 [0x60, 0x00, 0x0A, 0x0B]] waiting)).msg (.reply 0)).code = 0x00 ∧
    ((after [.xrecv 0 [0x60, 0x45, 0x0A]] (after [.xrecv 0 [0x60, 0x00, 0x0A, 0x0B]] waiting)).exch 0).codec.err = .truncated ∧
    ((after [.xrecv 0 [0x60, 0x45, 0x0A]] (after [.xrecv 0 [0x60, 0x00, 0x0A, 0x0B]] waiting)).buf (.xrx 0)).bytes = [0x60, 0x45, 0x0A] := by decide

/-- 45_dispatcher.md R252. -/
theorem test_rxAccept :
    (accepted.worker 0).phase = .parse ∧ (accepted.worker 0).rx.bytes = [0x41, 0x01, 0x00, 0x10, 0x09] := by decide

/-- 45_dispatcher.md R255. -/
theorem test_wParse :
    (parsed.worker 0).phase = .decide ∧ (parsed.msg (.req 0)).tokenBytes = [0x09] := by decide

/-- 45_dispatcher.md R256. -/
theorem test_wDecide :
    (calling.worker 0).phase = .call ∧ (calling.worker 0).plan = .sendResponse := by decide

/-- 45_dispatcher.md R260. -/
theorem test_wCall :
    (pending.worker 0).call = .pending ∧ pending.calls = [⟨0, ⟨9⟩, 0x01, [0x09], [], none⟩] := by decide

/-- 45_dispatcher.md R261. -/
theorem test_wReturn :
    (replying.worker 0).phase = .reply ∧ (replying.worker 0).call = .returned := by decide

/-- V-RSP-4. -/
theorem test_wReply :
    (sending.worker 0).tx.bytes = [0x61, 0x45, 0x00, 0x10, 0x09, 0xFF, 0x32, 0x31] := by decide

/-- V-RSP-4. -/
theorem test_wSend :
    (after [.wSend 0] sending).out = [⟨⟨9⟩, [0x61, 0x45, 0x00, 0x10, 0x09, 0xFF, 0x32, 0x31]⟩] ∧
    ((after [.wSend 0] sending).worker 0).phase = .done := by decide

/-- After W_SEND nothing of the datagram is left (45_dispatcher.md R267). -/
theorem test_wSend_leaves_nothing :
    ((after [.wSend 0] sending).worker 0).rx = ⟨0, []⟩ ∧ ((after [.wSend 0] sending).worker 0).tx = ⟨0, []⟩ ∧
    ((after [.wSend 0] sending).worker 0).peer = ⟨0⟩ ∧ ((after [.wSend 0] sending).msg (.rsp 0)).payload = none ∧
    ((after [.wSend 0] sending).worker 0).appPayload = none := by decide

/-- V-MSG-8. -/
theorem test_cmdUnassigned :
    (after [.cmdUnassigned 0x1F] filled).caller.err = .invalid ∧
    (after [.cmdUnassigned 0x1F] filled).msgs = filled.msgs := by decide

/-- V-RSP-3, V-RSP-8, V-RSP-9, V-RSP-13, V-RSP-15 and version 3: a Reset with the id goes out. -/
theorem test_header_rows_reset :
    [Instr.hdrBadver2 .con 0 0x01 0x5555 (.dispatcher ⟨9⟩) [], .ackAny 0 0x00 0x000A (.dispatcher ⟨9⟩) [], .conOther 0 0x00 0x0009 (.dispatcher ⟨9⟩) [],
      .hdrBadver2 .non 0 0x02 0x2222 (.dispatcher ⟨9⟩) [], .rstAny 2 0x00 0x000B (.dispatcher ⟨9⟩) [0xC1, 0xC2], .hdrBadver3 .con 9 0 0 (.dispatcher ⟨9⟩) [],
      .hdrBadver0 .con 0 0x02 0x1234 (.dispatcher ⟨9⟩) [0xFF]].map (fun i => (after [i] State.reset).out.map Datagram.bytes) =
      [[[0x70, 0, 0x55, 0x55]], [[0x70, 0, 0, 0x0A]], [[0x70, 0, 0, 0x09]], [[0x70, 0, 0x22, 0x22]], [[0x70, 0, 0, 0x0B]],
        [[0x70, 0, 0, 0]], [[0x70, 0, 0x12, 0x34]]] := by decide

/-- V-RSP-10, V-RSP-11, V-RSP-14 and the other token lengths: nothing goes out, nothing is called. -/
theorem test_header_rows_silent :
    [Instr.nonOther 0 0x00 0x0009 (.dispatcher ⟨9⟩) [], .nonOther 0 0x45 0x0009 (.dispatcher ⟨9⟩) [], .hdrTkl9 .con 0x01 0x000C (.dispatcher ⟨9⟩) [],
      .hdrTkl10to11 .con 1 0x01 0x000C (.dispatcher ⟨9⟩) [], .hdrTkl12to15 .con 3 0x01 0x000C (.dispatcher ⟨9⟩) [],
      .conGet 0 0x0001 (.dispatcher ⟨9⟩) [0xF0]].all (fun i => (after [i] State.reset).out = [] ∧ (after [i] State.reset).calls = []) = true := by decide

/-- V-RSP-1, V-RSP-2, V-RSP-4, V-RSP-7 up to the call: each method calls the collaborator with its code. -/
theorem test_header_rows_call :
    [Instr.conGet 1 0x0010 (.dispatcher ⟨9⟩) [0x09], .conPost 0 1 (.dispatcher ⟨9⟩) [], .conPut 0 1 (.dispatcher ⟨9⟩) [], .conDelete 1 0x0011 (.dispatcher ⟨9⟩) [0x09],
      .nonGet 0 1 (.dispatcher ⟨9⟩) [], .nonPost 1 0x2222 (.dispatcher ⟨9⟩) [0x07], .nonPut 0 1 (.dispatcher ⟨9⟩) [], .nonDelete 0 1 (.dispatcher ⟨9⟩) []].map
        (fun i => (after [i] State.reset).calls.map CallView.method) = [[1], [2], [3], [4], [1], [2], [3], [4]] := by decide

/-- V-XCH-2 as a header row at the exchange, V-PAR-8 as one given to PARSE. -/
theorem test_header_rows_elsewhere :
    ((after [.ackAny 0 0x00 0x0A0B (.exchange 0) []] waiting).exch 0).state = .acked ∧
    (after [.hdrTkl9 .con 0x01 0x0001 (.slot 0) (List.replicate 9 0)] State.reset).caller.err = .tokenTooLarge := by decide

/-- A bare table word placed as the next record runs as the first instruction (log 1). -/
theorem test_step_from_reset :
    (match step (State.reset.withFetchWord 8 0x1F) with
      | .next t => decide (t.caller.err = .invalid)
      | _ => false) = true := by decide

/-! Witnesses: concrete states and operands that meet the hypotheses of each statement, each clause at a boundary. -/

/-- A state of empty tables meets the invariant: the witness for statements over it. -/
theorem booted_inv : booted.Inv where
  params := rfl
  msgs := rfl
  bufs := rfl
  exchanges := rfl
  workers := rfl
  mem _ := rfl
  slots _ := rfl
  exch _ :=
    { xbuf := rfl, xrx := rfl, reply := rfl, armed := ⟨fun h => (nomatch h), fun h => nomatch h⟩, copy := fun h => (nomatch h),
      named := ⟨fun h => (nomatch h), fun h => nomatch h⟩ }
  worker _ :=
    { rx := rfl, tx := rfl, req := rfl, rsp := rfl, fresh := fun _ => rfl, parsed := fun h => (nomatch h),
      calling := fun h => (nomatch h), pending := fun h => (nomatch h), planned := fun h => (nomatch h),
      token := fun _ => Nat.zero_le _, ended := fun h => (nomatch h) }

theorem witness_StepRunsTheDecodedRecord :
    (State.reset.withFetchWord 8 0x1F).port = [Record.of .cmd [0x1F] 0 0 0 0 []] ∧
    decode (Record.of .cmd [0x1F] 0 0 0 0 []) = .ok (.cmdUnassigned 0x1F) ∧
    decode (Record.of .cmd [0x20] 0 0 0 0 []) = .error .codeTooWide ∧
    State.reset.port = [] := by decide

theorem witness_StepKeepsTheInvariant :
    booted.Inv ∧
    step booted = .next booted := ⟨booted_inv, rfl⟩

theorem witness_EveryInstructionCompletes :
    booted.Inv := booted_inv

theorem witness_DecodeOfEncode :
    wellFormed (.conGet 8 0xFFFF (.dispatcher ⟨7⟩) [1]) = true ∧
    wellFormed (.optEntry 14 14 0 [1]) = true ∧
    wellFormed (.codeOther 7 31 0) = true ∧
    wellFormed (.cmdUnassigned 0x1F) = true := by decide

theorem witness_DecodeFollowsTheOpcodeTable :
    decode (Record.of .hdr [0x4F, 0xFF, 0xFF, 0xFF] 0 7 0 0 [1]) = .ok (.hdrTkl12to15 .con 3 0xFF 0xFFFF (.dispatcher ⟨7⟩) [1]) := by decide

theorem witness_EncodeKeepsTheWord :
    decode (Record.of .cmd [0x09] 5 0xFFFF 8 8 [8]) = .ok (.setMid 5 0xFFFF) := by decide

theorem witness_InitWritesTheFreshMessage :
    filled.slotOk 1 = true ∧
    small.slotOk 1 = true := by decide

theorem witness_FieldWritesChangeOneField :
    filled.slotOk 1 = true ∧
    small.slotOk 1 = true := by decide

theorem witness_CodeRowsStoreTheirByte :
    filled.slotOk 1 = true ∧
    small.slotOk 1 = true := by decide

theorem witness_SetTokenWritesLengthAndBytes :
    filled.slotOk 1 = true ∧
    ([1, 2, 3, 4, 5, 6, 7, 8] : List Byte).length ≤ 8 ∧
    ¬([1, 2, 3, 4, 5, 6, 7, 8, 9] : List Byte).length ≤ 8 := by decide

theorem witness_PayloadWrites :
    small.slotOk 1 = true ∧
    exceeds small.params.maxPayload ([0x61] : List Byte).length = false ∧
    exceeds small.params.maxPayload ([0x61, 0x62] : List Byte).length = true := by decide

theorem witness_AddOptionInsertsAfterEquals :
    filled.slotOk 0 = true ∧
    sortedOpts (filled.msg (.main 0)).opts = true ∧
    (List.replicate 14 (0x42 : Byte)).length ≤ filled.params.nibMax.value ∧
    fullAt filled.params.maxOptions (filled.msg (.main 0)).optCount = false ∧
    fullAt small.params.maxOptions (small.msg (.main 0)).optCount = false := by decide

theorem witness_AddOptionRefusals :
    small.slotOk 0 = true ∧
    small.params.nibMax.value < (List.replicate 15 (0x42 : Byte)).length ∧
    (List.replicate 14 (0x42 : Byte)).length ≤ small.params.nibMax.value ∧
    fullAt small.params.maxOptions ((after [.addOption 0 1 []] small).msg (.main 0)).optCount = true := by decide

theorem witness_AddOptionSequencesStaySortedAndStable :
    small.slotOk 0 = true ∧
    sortedOpts (small.msg (.main 0)).opts = true ∧
    (small.msg (.main 0)).optCount ≤ 1 ∧
    small.params.maxOptions = some 1 ∧
    filled.slotOk 0 = true ∧
    sortedOpts (filled.msg (.main 0)).opts = true ∧
    filled.params.maxOptions = none := by decide

theorem witness_FreeEmptiesTheSlotOnce :
    filled.slotOk 1 = true := by decide

theorem witness_EmptyRepliesMirrorTheId :
    small.slotOk 0 = true ∧
    small.slotOk 1 = true ∧
    (0 : Nat) ≠ 1 ∧
    small.slotOk 2 = false := by decide

theorem witness_FixedRepliesAreFourBytes :
    filled.slotOk 2 = true ∧
    filled.slotOk 1 = true ∧
    (2 : Nat) ≠ 1 ∧
    4 ≤ 4 := by decide

theorem witness_BadOperandsAreInvalid :
    small.slotOk 2 = false ∧
    small.slotOk 1 = true ∧
    small.exchOk 1 = false ∧
    small.workerOk 1 = false ∧
    small.exchOk 0 = true ∧
    small.workerOk 0 = true := by decide

theorem witness_SerializeWritesTheWireBytes :
    filled.slotOk 0 = true ∧
    (filled.msg (.main 0)).token.length = 8 ∧
    sortedOpts (filled.msg (.main 0)).opts = true ∧
    (filled.msg (.main 0)).tkl.toNat ≤ 8 ∧
    wireSize (filled.msg (.main 0)) ≤ 10 ∧
    encodable filled.params.nibMax.value 0 (filled.msg (.main 0)).opts = true ∧
    filled.slotOk 1 = true ∧
    (filled.msg (.main 1)).token.length = 8 ∧
    sortedOpts (filled.msg (.main 1)).opts = true ∧
    (filled.msg (.main 1)).tkl.toNat ≤ 8 ∧
    wireSize (filled.msg (.main 1)) ≤ 12 ∧
    encodable filled.params.nibMax.value 0 (filled.msg (.main 1)).opts = true ∧
    (filled.msg (.main 0)).opts = [⟨3, [0x68]⟩] ++ ⟨11, [0x61]⟩ :: [⟨12, [0x00]⟩] ∧
    (filled.msg (.main 1)).payload = some [0x68, 0x65, 0x6C, 0x6C, 0x6F] := by decide

/-- A slot with an unsorted list, which no run builds. -/
def unsorted : State := { State.reset with msgs := [(0, { Msg.reset with opts := [⟨2, []⟩, ⟨1, []⟩] })] }

/-- V-PAR-8's header in slot 0: a token length of 9. -/
def longToken : State := after [.parse 0 (.bytes [0x49, 0x01, 0x00, 0x01]) 4] State.reset

/-- V-SER-10's message in slot 0. -/
def wideDelta : State := after [.addOption 0 15 []] State.reset

theorem witness_SerializeErrorsInOrder :
    sortedOpts (unsorted.msg (.main 0)).opts = false ∧
    sortedOpts (longToken.msg (.main 0)).opts = true ∧
    8 < (longToken.msg (.main 0)).tkl.toNat ∧
    11 < wireSize (filled.msg (.main 1)) ∧
    ¬12 < wireSize (filled.msg (.main 1)) ∧
    wireSize (wideDelta.msg (.main 0)) = 5 ∧
    encodable wideDelta.params.nibMax.value 0 (wideDelta.msg (.main 0)).opts = false ∧
    encodable filled.params.nibMax.value 0 (filled.msg (.main 1)).opts = true ∧
    wideDelta.slotOk 0 = true := by decide

theorem witness_SerializeTruncationBoundary :
    filled.slotOk 1 = true ∧
    sortedOpts (filled.msg (.main 1)).opts = true ∧
    (filled.msg (.main 1)).tkl.toNat ≤ 8 ∧
    wideDelta.slotOk 0 = true ∧
    sortedOpts (wideDelta.msg (.main 0)).opts = true ∧
    (wideDelta.msg (.main 0)).tkl.toNat ≤ 8 := by decide

theorem witness_SerializeIsAFunctionOfMessageAndCapacity :
    filled.slotOk 1 = true ∧
    (after [.parse 2 (.bytes post) 12] booted).slotOk 2 = true ∧
    filled.params.nibMax = booted.params.nibMax ∧
    filled.msg (.main 1) = (after [.parse 2 (.bytes post) 12] booted).msg (.main 2) := by decide

/-- A caller's buffer 0 that holds V-SER-1's bytes. -/
def buffered : State := after [.serialize 1 (.buffer 0) 12] filled

theorem witness_ParseVersionGate :
    State.reset.slotOk 0 = true ∧
    State.reset.sourcePrefix (.bytes [0x8F, 0x01, 0x55, 0x55]) 4 = some [0x8F, 0x01, 0x55, 0x55] ∧
    (0x8F : Byte).toNat / 64 ≠ 1 ∧
    (0x3F : Byte).toNat / 64 ≠ 1 ∧
    (0xC0 : Byte).toNat / 64 ≠ 1 ∧
    buffered.sourcePrefix (.buffer 0) 12 = some post := by decide

theorem witness_ParseHeaderChecks :
    State.reset.slotOk 0 = true ∧
    State.reset.sourcePrefix (.bytes [0x40, 0x01, 0x00]) 3 = some [0x40, 0x01, 0x00] ∧
    ([0x40, 0x01, 0x00] : List Byte).length < 4 ∧
    (([0x49, 0x01, 0x00, 0x01] : List Byte).getD 0 0).toNat / 64 = 1 ∧
    8 < (([0x49, 0x01, 0x00, 0x01] : List Byte).getD 0 0).toNat % 16 ∧
    (([0x48, 0x01, 0x00, 0x01] : List Byte).getD 0 0).toNat % 16 ≤ 8 ∧
    ([0x41, 0x01, 0x00, 0x01] : List Byte).length - 4 < (([0x41, 0x01, 0x00, 0x01] : List Byte).getD 0 0).toNat % 16 ∧
    (post.getD 0 0).toNat % 16 ≤ post.length - 4 := by decide

theorem witness_ParseFailureLeavesHeaderOnly :
    State.reset.slotOk 0 = true ∧
    (after [.parse 0 (.bytes [0x40, 0x01, 0x00, 0x01, 0xF0]) 5] State.reset).caller.err = .optionsNotSupported ∧
    (after [.parse 0 (.bytes [0x40, 0x01, 0x00, 0x01, 0xF0]) 5] State.reset).caller.hdrValid = true ∧
    (after [.parse 0 .missing 0] State.reset).caller.err = .invalid := by decide

theorem witness_ParseSuccessGivesAWellFormedMessage :
    State.reset.slotOk 1 = true ∧
    State.reset.sourcePrefix (.bytes post) 12 = some post ∧
    (after [.parse 1 (.bytes post) 12] State.reset).caller.err = .ok := by decide

theorem witness_ParseIsTotal :
    small.slotOk 2 = false ∧
    State.reset.slotOk 1 = true ∧
    (post.length < 13) ∧
    (buffered.buf (.caller 0)).len < 13 ∧
    12 ≤ post.length ∧
    12 ≤ (buffered.buf (.caller 0)).len ∧
    (buffered.buf (.caller 0)).bytes.take 12 = post ∧
    buffered.slotOk 1 = true ∧
    (after [.parse 1 .missing 0] buffered).caller.err = .invalid ∧
    State.reset.params.maxOptions = none ∧
    State.reset.params.maxPayload = none := by decide

theorem witness_ParseOfSerialize :
    filled.slotOk 0 = true ∧
    (filled.msg (.main 0)).token.length = 8 ∧
    (filled.msg (.main 0)).version = 1 ∧
    sortedOpts (filled.msg (.main 0)).opts = true ∧
    (filled.msg (.main 0)).tkl.toNat ≤ 8 ∧
    wireSize (filled.msg (.main 0)) ≤ 10 ∧
    encodable 14 0 (filled.msg (.main 0)).opts = true ∧
    exceeds filled.params.maxPayload (filled.msg (.main 0)).payloadLen = false ∧
    exceeds filled.params.maxOptions (filled.msg (.main 0)).optCount = false ∧
    filled.slotOk 1 = true ∧
    (filled.msg (.main 1)).token.length = 8 ∧
    (filled.msg (.main 1)).version = 1 ∧
    sortedOpts (filled.msg (.main 1)).opts = true ∧
    (filled.msg (.main 1)).tkl.toNat ≤ 8 ∧
    wireSize (filled.msg (.main 1)) ≤ 12 ∧
    encodable 14 0 (filled.msg (.main 1)).opts = true ∧
    exceeds filled.params.maxPayload (filled.msg (.main 1)).payloadLen = false ∧
    exceeds filled.params.maxOptions (filled.msg (.main 1)).optCount = false ∧
    exceeds small.params.maxPayload 1 = false ∧
    exceeds small.params.maxOptions 1 = false := by decide

theorem witness_SerializeOfParse :
    State.reset.slotOk 1 = true ∧
    12 ≤ post.length ∧
    12 ≤ 12 ∧
    (after [.parse 1 (.bytes post) 12] State.reset).caller.err = .ok := by decide

theorem witness_OptionRowsRunOneRound :
    inside.slotOk 0 = true ∧
    inRound inside.caller.prev (inside.msg (.main 0)) = true ∧
    inRound filled.caller.prev (filled.msg (.main 1)) = false ∧
    filled.slotOk 1 = true ∧
    exceeds small.params.maxPayload ([0x61, 0x62] : List Byte).length = true ∧
    exceeds small.params.maxPayload ([0x61] : List Byte).length = false ∧
    fullAt small.params.maxOptions 1 = true ∧
    ([0x61] : List Byte).length < (2 : BitVec 4).toNat ∧
    ¬([0x61] : List Byte).length < (1 : BitVec 4).toNat ∧
    (14 : BitVec 4) ≠ 15 := by decide

theorem witness_ParseIsItsRounds :
    State.reset.slotOk 0 = true ∧
    headVersion 0x48 = 1 ∧
    (headTkl 0x48).toNat ≤ 8 ∧
    ([1, 2, 3, 4, 5, 6, 7, 8] : List Byte).length = (headTkl 0x48).toNat := by decide

theorem witness_XsendStartsAnExchange :
    ready.exchOk 0 = true ∧
    (ready.exch 0).state = .awaitingSend ∧
    ready.slotOk 0 = true ∧
    (serialize ready.params.nibMax (ready.msg (.main 0)) ready.params.maxDatagram).err = .ok ∧
    ready.sendAnswer = true ∧
    (ready.msg (.main 0)).kind = .con := by decide

/-- V-XCH-11: a Non-confirmable message in slot 0. -/
def readyNon : State := after [.setKind 0 .non] ready

/-- V-XCH-13: a message that does not serialize in slot 0. -/
def readyWide : State := after [.addOption 0 15 []] ready

/-- The transport refuses the next send. -/
def readyRefused : State := { ready with sendAnswers := [false] }

theorem witness_XsendNonConfirmableTracksNothing :
    readyNon.exchOk 0 = true ∧
    (readyNon.exch 0).state = .awaitingSend ∧
    readyNon.slotOk 0 = true ∧
    (serialize readyNon.params.nibMax (readyNon.msg (.main 0)) readyNon.params.maxDatagram).err = .ok ∧
    readyNon.sendAnswer = true ∧
    (readyNon.msg (.main 0)).kind ≠ .con := by decide

theorem witness_XsendErrorsLeaveTheContext :
    waiting.exchOk 0 = true ∧
    (waiting.exch 0).state ≠ .awaitingSend ∧
    small.exchOk 0 = true ∧
    (small.exch 0).state = .awaitingSend ∧
    small.slotOk 2 = false ∧
    (readyWide.exch 0).state = .awaitingSend ∧
    readyWide.slotOk 0 = true ∧
    (serialize readyWide.params.nibMax (readyWide.msg (.main 0)) readyWide.params.maxDatagram).err ≠ .ok ∧
    (serialize readyRefused.params.nibMax (readyRefused.msg (.main 0)) readyRefused.params.maxDatagram).err = .ok ∧
    readyRefused.sendAnswer = false := by decide

/-- Three attempts made of four. -/
def lastTry : State := after [.xexpire 0, .xexpire 0] waiting

/-- All four attempts made. -/
def spent : State := after [.xexpire 0] lastTry

theorem witness_XexpireResendsTheSameBytes :
    lastTry.exchOk 0 = true ∧
    (lastTry.exch 0).state = .awaitingAck ∧
    (lastTry.exch 0).armed = true ∧
    (lastTry.exch 0).attempts < lastTry.maxAttempts ∧
    (lastTry.exch 0).len ≤ (lastTry.buf (.xbuf 0)).len ∧
    2 * (lastTry.exch 0).wait.toNat < 2 ^ 32 := by decide

theorem witness_XexpireTimesOut :
    spent.exchOk 0 = true ∧
    (spent.exch 0).state = .awaitingAck ∧
    (spent.exch 0).armed = true ∧
    spent.maxAttempts ≤ (spent.exch 0).attempts ∧
    ready.exchOk 0 = true ∧
    (ready.exch 0).state ≠ .awaitingAck ∧
    (ready.exch 0).armed = false := by decide

/-- The transport takes the next send and refuses those after it. -/
def readyDeaf : State := { ready with sendAnswers := [true, false, false, false] }

theorem witness_WaitsDoubleUntilTimeout :
    ready.exchOk 0 = true ∧
    (ready.exch 0).state = .awaitingSend ∧
    ready.slotOk 0 = true ∧
    (serialize ready.params.nibMax (ready.msg (.main 0)) ready.params.maxDatagram).err = .ok ∧
    ready.sendAnswer = true ∧
    readyDeaf.sendAnswer = true ∧
    (ready.msg (.main 0)).kind = .con ∧
    bootLegal ready.w0 ready.maxAttempts = true ∧
    bootLegal 1 1 = true ∧
    bootLegal 2 32 = false := by decide

theorem witness_XrecvCorrelatedReplyEndsTheExchange :
    waiting.exchOk 0 = true ∧
    (waiting.exch 0).state = .awaitingAck ∧
    parses waiting.params (waiting.cut [0x60, 0x00, 0x0A, 0x0B]) = true ∧
    (parsedMsg waiting.params (waiting.cut [0x60, 0x00, 0x0A, 0x0B])).mid = (waiting.exch 0).mid ∧
    (parsedMsg waiting.params (waiting.cut [0x60, 0x00, 0x0A, 0x0B])).kind = .ack ∧
    parses waiting.params (waiting.cut [0x70, 0x00, 0x0A, 0x0B]) = true ∧
    (parsedMsg waiting.params (waiting.cut [0x70, 0x00, 0x0A, 0x0B])).mid = (waiting.exch 0).mid ∧
    (parsedMsg waiting.params (waiting.cut [0x70, 0x00, 0x0A, 0x0B])).kind = .rst := by decide

/-- V-XCH-2: the exchange ended by an Acknowledgement. -/
def answered : State := after [.xrecv 0 [0x60, 0x00, 0x0A, 0x0B]] waiting

theorem witness_XrecvIgnoresEverythingElse :
    answered.exchOk 0 = true ∧
    (answered.exch 0).state = .acked ∧
    ((after [.xrecv 0 [0x70, 0x00, 0x0A, 0x0B]] waiting).exch 0).state = .reset ∧
    waiting.exchOk 0 = true ∧
    (ready.exch 0).state ≠ .awaitingAck ∧
    parses waiting.params (waiting.cut [0xA0, 0x00, 0x0A, 0x0B]) = false ∧
    (parsedMsg waiting.params (waiting.cut [0x60, 0x00, 0x0A, 0x0C])).mid ≠ (waiting.exch 0).mid ∧
    (parsedMsg waiting.params (waiting.cut [0x40, 0x01, 0x0A, 0x0B])).kind = .con ∧
    (parsedMsg waiting.params (waiting.cut [0x50, 0x01, 0x0A, 0x0B])).kind = .non := by decide

theorem witness_ExchangesMoveOnlyAlongTheirArcs :
    completes (.xsend 0 0 ⟨7⟩) ready = true ∧
    completes (.xexpire 0) spent = true ∧
    completes (.xrecv 0 [0x70, 0x00, 0x0A, 0x0B]) answered = true ∧
    (answered.exch 0).state.terminal = true ∧
    (answered.exch 0).state = .acked := by decide

/-- The one worker of a bounded block is busy. -/
def busy : State := after [.rxAccept ⟨9⟩ []] small

theorem witness_RxAcceptStartsOneWorker :
    State.reset.workerOk State.reset.freeWorker = true ∧
    small.workerOk small.freeWorker = true ∧
    busy.workerOk busy.freeWorker = false := by decide

/-- An accepted worker's context is in form. -/
theorem accepted_worker_wf : (accepted.worker 0).wf where
  rx := by decide
  tx := by decide
  req := by decide
  rsp := by decide
  fresh := by decide
  parsed := by decide
  calling := by decide
  pending := by decide
  planned := by decide
  token := by decide
  ended := by decide

theorem witness_WorkerStepsReadOnlyTheirOwnContext :
    workerOf (.wParse 0) = some 0 ∧ accepted.workerOk 0 = true ∧ accepted.params = { accepted with w0 := 1 }.params ∧
    accepted.rstOnParseError = { accepted with w0 := 1 }.rstOnParseError ∧
    accepted.worker 0 = { accepted with w0 := 1 }.worker 0 ∧ (accepted.worker 0).wf ∧
    completes (.wParse 0) accepted = true ∧ completes (.wParse 0) { accepted with w0 := 1 } = true := by
  refine ⟨rfl, by decide, rfl, rfl, rfl, accepted_worker_wf, by decide, by decide⟩

theorem witness_WorkerParseRunsTheCodec :
    accepted.workerOk 0 = true ∧
    (accepted.worker 0).phase = .parse := by decide

/-- Worker 0 has parsed a datagram that is dropped silently (V-RSP-10). -/
def dropping : State := after [.rxAccept ⟨9⟩ [0x50, 0x45, 0x00, 0x09], .wParse 0] State.reset

theorem witness_WorkerDecideFollowsTheTable :
    parsed.workerOk 0 = true ∧
    (parsed.worker 0).phase = .decide ∧
    dropping.workerOk 0 = true ∧
    (dropping.worker 0).phase = .decide ∧
    (dropping.worker 0).reqMsg.kind = .non ∧
    ((after [.wDecide 0] dropping).worker 0).phase = .done := by decide

theorem witness_WorkerCallHandsOverTheView :
    calling.workerOk 0 = true ∧
    (calling.worker 0).phase = .call ∧
    (calling.worker 0).call = .noCall := by decide

/-- Worker 0 waits for a result nobody is owed (95_test_vectors.md V-RSP-2, without its payload). -/
def pendingNon : State := after [.nonPost 1 0x2222 (.dispatcher ⟨9⟩) [0x07]] State.reset

theorem witness_WorkerReturnRecordsTheResult :
    pending.workerOk 0 = true ∧
    (pending.worker 0).call = .pending ∧
    (pending.worker 0).plan = .sendResponse ∧
    pendingNon.workerOk 0 = true ∧
    (pendingNon.worker 0).call = .pending ∧
    (pendingNon.worker 0).plan = .noReply := by decide

/-- Worker 0 owes the Reset of a header of version 0 with a token length of 9. -/
def replyingRst : State := after [.rxAccept ⟨9⟩ [0x09, 0x01, 0x12, 0x34], .wParse 0, .wDecide 0] State.reset

theorem witness_WorkerReplyBuildsTheReplyBytes :
    replyingRst.workerOk 0 = true ∧
    (replyingRst.worker 0).phase = .reply ∧
    (replyingRst.worker 0).plan = .sendRst ∧
    (replyingRst.worker 0).reqMsg.tkl = 9 ∧
    replying.workerOk 0 = true ∧
    (replying.worker 0).phase = .reply ∧
    (replying.worker 0).plan ≠ .noReply ∧
    (replying.worker 0).reqMsg.token.length = 8 ∧
    (replying.worker 0).reqMsg.tkl.toNat ≤ 8 ∧
    exceeds replying.params.maxDatagram ((replying.worker 0).replyBytes replying.params).length = false ∧
    exceeds (some 7) ((replying.worker 0).replyBytes replying.params).length = true ∧
    ((after [.wReply 0] { replying with params := { replying.params with maxDatagram := some 7 } }).worker 0).phase = .done := by decide

theorem witness_WorkerSendTransmitsOnce :
    sending.workerOk 0 = true ∧
    (sending.worker 0).phase = .send := by decide

theorem witness_DisabledWorkerStepsChangeNothing :
    booted.workerOk 0 = true ∧
    (booted.worker 0).phase ≠ .parse ∧
    (booted.worker 0).phase ≠ .decide ∧
    (booted.worker 0).phase ≠ .call ∧
    (pending.worker 0).call ≠ .noCall ∧
    (booted.worker 0).call ≠ .pending ∧
    (booted.worker 0).phase ≠ .reply ∧
    (booted.worker 0).phase ≠ .send := by decide

theorem witness_HeaderRowsAreDatagramArrivals :
    State.reset.workerOk State.reset.freeWorker = true ∧
    busy.workerOk busy.freeWorker = false := by decide

theorem witness_HeaderRowsThatOweAReset :
    small.workerOk small.freeWorker = true ∧
    small.params.maxDatagram = some 5 ∧
    parses small.params (small.cut (headerBytes 1 .ack 0 0 0x000A)) = true ∧
    parses small.params (small.cut (headerBytes 1 .rst 1 0 0x000A ++ [0xC1])) = true ∧
    parses small.params (small.cut (headerBytes 1 .con 0 5 0x000A)) = true ∧
    isMethod 0 = false ∧
    isMethod 5 = false ∧
    (small.boot 1 1 true 0).rstOnParseError = true ∧
    (small.boot 1 1 true 0).workerOk (small.boot 1 1 true 0).freeWorker = true ∧
    parses small.params (small.cut (headerBytes 1 .con 0 1 1 ++ [0xF0])) = false ∧
    parses small.params (small.cut (headerBytes 1 .non 1 5 1)) = false := by decide

theorem witness_HeaderRowsAnsweredWithSilence :
    small.workerOk small.freeWorker = true ∧
    small.rstOnParseError = false ∧
    parses small.params (small.cut (headerBytes 1 .con 0 1 1 ++ [0xF0])) = false ∧
    parses small.params (small.cut (headerBytes 1 .non 0 5 9)) = true ∧
    isMethod 5 = false := by decide

theorem witness_MethodRowsCallTheCollaborator :
    small.workerOk small.freeWorker = true ∧
    parses small.params (small.cut (headerBytes 1 .con 1 1 1 ++ [0x09])) = true ∧
    parses small.params (small.cut (headerBytes 1 .con 0 2 1 ++ [0xFF])) = true ∧
    parses small.params (small.cut (headerBytes 1 .con 0 3 1 ++ [0xE0])) = true ∧
    parses small.params (small.cut (headerBytes 1 .con 0 4 1 ++ [])) = true ∧
    parses small.params (small.cut (headerBytes 1 .non 1 1 1 ++ [0x09])) = true ∧
    parses small.params (small.cut (headerBytes 1 .non 0 2 1 ++ [0xFF])) = true ∧
    parses small.params (small.cut (headerBytes 1 .non 0 3 1 ++ [0xE0])) = true ∧
    parses small.params (small.cut (headerBytes 1 .non 0 4 1 ++ [])) = true := by decide

theorem witness_ConfirmableGetsExactlyOneReply :
    State.reset.workerOk State.reset.freeWorker = true ∧
    parses State.reset.params (State.reset.cut post) = true ∧
    (parsedMsg State.reset.params (State.reset.cut post)).kind = .con ∧
    readyRefused.workerOk readyRefused.freeWorker = true ∧
    readyRefused.sendAnswer = false ∧
    isMethod (parsedMsg State.reset.params (State.reset.cut post)).code = true ∧
    exceeds State.reset.params.maxDatagram (resultBytes State.reset.params (parsedMsg State.reset.params post) .failure).length = false ∧
    (parsedMsg State.reset.params (State.reset.cut [0x40, 0x00, 0x00, 0x09])).kind = .con ∧
    isMethod (parsedMsg State.reset.params (State.reset.cut [0x40, 0x00, 0x00, 0x09])).code = false := by decide

theorem witness_NonConfirmableGetsNoReply :
    booted.workerOk booted.freeWorker = true ∧
    booted.cut [0x51, 0x02, 0x22, 0x22, 0x07] = 0x51 :: [0x02, 0x22, 0x22, 0x07] ∧
    (0x51 : Byte).toNat / 16 = 5 ∧
    booted.rstOnParseError = false ∧
    (booted.boot 1 1 true 0).rstOnParseError = true ∧
    parses booted.params (booted.cut [0x51, 0x02, 0x22, 0x22, 0x07]) = true ∧
    booted.cut [0x90, 0x02, 0x22, 0x22] = 0x90 :: 0x02 :: 0x22 :: 0x22 :: [] ∧
    (0x90 : Byte).toNat / 64 ≠ 1 := by decide

theorem witness_ContextsAreIsolated :
    completes (.wParse 0) accepted = true ∧
    workerOf (.wParse 0) ≠ some 1 ∧
    startsWorker (.rxAccept ⟨9⟩ []) = true ∧
    accepted.freeWorker ≠ 0 ∧
    exchOf (.xexpire 0) ≠ some 1 := by decide

theorem witness_ConfigurationStaysAndHistoriesGrow :
    completes (.xsend 0 0 ⟨7⟩) ready = true ∧
    completes (.wCall 0) calling = true := by decide

end Sys2Proof.Tests
end

section
/-! SUPPORT. What an instruction can do: the one shared operation it runs (`Effect`), the histories along each operation
(`Grows`), and the statements about the whole block that rest on this case split: the reset state (10_state.md R52), the
invariant (R29) and the configuration (R51). -/

namespace Sys2Proof.Machine

/-! What goes out of the operations above the slot operations. -/

theorem quiet_updateMsg (σ : State) (s : Nat) (f : Msg → Msg) : Quiet σ (σ.updateMsg s f) :=
  (quiet_setMsg _ _ _).trans (quiet_done _ _)

theorem quiet_parseInvalid (σ : State) (d : Nat) : Quiet σ (σ.parseInvalid d) := by
  have hc := quiet_setCodec σ .caller { σ.caller with pos := 0, prev := 0, hdrValid := false }
  unfold State.parseInvalid
  dsimp only
  split_ifs
  · exact hc.trans ((quiet_setMsg _ _ _).trans ((quiet_draw _).trans (quiet_raise _ _ _)))
  · exact hc.trans (quiet_raise _ _ _)

theorem quiet_callerParse (σ : State) (d : Nat) (source : Source) (n : Nat) : Quiet σ (σ.callerParse d source n) := by
  unfold State.callerParse
  split_ifs
  · split
    · exact quiet_parseInvalid _ _
    · exact quiet_opParse _ _ _ _
  · exact quiet_parseInvalid _ _

theorem quiet_optRound (σ : State) (d : Nat) (b : Byte) (rest : List Byte) : Quiet σ (σ.optRound d b rest) := by
  have hc : ∀ (u : State) (c : Codec), Quiet u (u.setCodec .caller c) := fun u c => quiet_setCodec u _ c
  unfold State.optRound
  dsimp only
  split_ifs
  · exact quiet_raise _ _ _
  · split
    · exact (quiet_setMsg _ _ _).trans ((hc _ _).trans (quiet_done _ _))
    · exact (quiet_setMsg _ _ _).trans ((hc _ _).trans (quiet_done _ _))
    · exact (quiet_setMsg _ _ _).trans ((hc _ _).trans ((quiet_draw _).trans (quiet_raise _ _ _)))

theorem quiet_settle (σ : State) (x : Nat) : Quiet σ (σ.settle x) := by
  unfold State.settle
  dsimp only
  split_ifs
  · split
    · exact quiet_setExch _ _ _
    · exact quiet_setExch _ _ _
    · exact Quiet.refl _
    · exact Quiet.refl _
  · exact Quiet.refl _

theorem quiet_recv (σ : State) (x : Nat) (datagram : List Byte) : Quiet σ (σ.recv x datagram) := by
  unfold State.recv
  dsimp only
  split_ifs
  · exact quiet_raise _ _ _
  · exact (quiet_setBuf _ _ _).trans ((quiet_opParse _ _ _ _).trans (quiet_setMsg _ _ _))
  · exact (quiet_setBuf _ _ _).trans ((quiet_opParse _ _ _ _).trans (quiet_settle _ _))

theorem quiet_endXsend (σ : State) (x : Nat) (e : Err) : Quiet σ (σ.endXsend x e) :=
  (quiet_endOp _ _ _ _).trans (quiet_endOp _ _ _ _)

theorem quiet_xSerialize (σ : State) (x s : Nat) : Quiet σ (σ.xSerialize x s) := by
  unfold State.xSerialize
  split_ifs
  · exact quiet_opSerialize _ _ _ _ _
  · exact quiet_raise _ _ _

theorem quiet_accept (σ : State) (peer : PeerAddr) (datagram : List Byte) : Quiet σ (σ.accept peer datagram) := by
  unfold State.accept
  dsimp only
  split_ifs
  · exact (quiet_setWorker _ _ _).trans (quiet_draw _)
  · exact Quiet.refl _

theorem quiet_workerParse (σ : State) (w : Nat) : Quiet σ (σ.workerParse w) := by
  unfold State.workerParse
  split_ifs
  · exact (quiet_opParse _ _ _ _).trans (quiet_toPhase _ _ _)
  · exact Quiet.refl _

theorem quiet_workerDecide (σ : State) (w : Nat) : Quiet σ (σ.workerDecide w) := by
  unfold State.workerDecide
  dsimp only
  split_ifs
  · exact (quiet_setWorker _ _ _).trans (quiet_toPhase _ _ _)
  · exact (quiet_setWorker _ _ _).trans (endWorker_spec _ _).quiet
  · exact (quiet_setWorker _ _ _).trans (quiet_toPhase _ _ _)
  · exact Quiet.refl _

theorem quiet_workerReturn (σ : State) (w : Nat) (r : AppResult) : Quiet σ (σ.workerReturn w r) := by
  unfold State.workerReturn
  dsimp only
  split_ifs
  · exact (quiet_setWorker _ _ _).trans (endWorker_spec _ _).quiet
  · exact (quiet_setWorker _ _ _).trans (quiet_toPhase _ _ _)
  · exact Quiet.refl _

theorem quiet_buildReplyResponse (σ : State) (w : Nat) : Quiet σ (σ.buildReplyResponse w) := by
  unfold State.buildReplyResponse
  dsimp only
  split
  · exact quiet_opBuildEmpty _ _ _ _ _
  · exact quiet_opBuildResponse _ _ _ _ _ _
  · split_ifs
    · exact (quiet_opBuildResponse _ _ _ _ _ _).trans (quiet_opBuildResponse _ _ _ _ _ _)
    · exact quiet_opBuildResponse _ _ _ _ _ _

theorem quiet_buildReply (σ : State) (w : Nat) : Quiet σ (σ.buildReply w) := by
  unfold State.buildReply
  split
  · exact quiet_opBuildEmpty _ _ _ _ _
  · exact quiet_opBuildEmpty _ _ _ _ _
  · exact quiet_buildReplyResponse _ _
  · exact Quiet.refl _

theorem quiet_serializeReply (σ : State) (w : Nat) : Quiet σ (σ.serializeReply w) := by
  unfold State.serializeReply
  dsimp only
  split_ifs
  · exact (endWorker_spec _ _).quiet
  · exact (quiet_opSerialize _ _ _ _ _).trans (quiet_toPhase _ _ _)
  · exact (quiet_opSerialize _ _ _ _ _).trans (endWorker_spec _ _).quiet

theorem quiet_workerReply (σ : State) (w : Nat) : Quiet σ (σ.workerReply w) := by
  unfold State.workerReply
  split_ifs
  · exact (quiet_buildReply _ _).trans (quiet_serializeReply _ _)
  · exact Quiet.refl _

/-! How far the two histories grow. -/

/-- The output history grows by at most `n` datagrams, the call history by at most `m` calls (20_memory.md R69, R78). -/
structure Grows (n m : Nat) (s t : State) : Prop where
  out   : ∃ d, t.out = s.out ++ d ∧ d.length ≤ n
  calls : ∃ c, t.calls = s.calls ++ c ∧ c.length ≤ m

theorem Quiet.grows {n m : Nat} {s t : State} (h : Quiet s t) : Grows n m s t :=
  ⟨⟨[], by simp [h.out]⟩, ⟨[], by simp [h.calls]⟩⟩

theorem Grows.trans {n m n' m' : Nat} {s t u : State} (h : Grows n m s t) (k : Grows n' m' t u) :
    Grows (n + n') (m + m') s u := by
  obtain ⟨⟨d, hd, hdn⟩, c, hc, hcm⟩ := h
  obtain ⟨⟨d', hd', hdn'⟩, c', hc', hcm'⟩ := k
  exact ⟨⟨d ++ d', by simp [hd', hd], by simp; omega⟩, ⟨c ++ c', by simp [hc', hc], by simp; omega⟩⟩

/-- A quiet operation before one that may send or call. -/
theorem Quiet.trans_grows {n m : Nat} {s t u : State} (h : Quiet s t) (k : Grows n m t u) : Grows n m s u := by
  simpa using h.grows (n := 0) (m := 0) |>.trans k

/-- A quiet operation after one that may send or call. -/
theorem Grows.trans_quiet {n m : Nat} {s t u : State} (h : Grows n m s t) (k : Quiet t u) : Grows n m s u :=
  h.trans (k.grows (n := 0) (m := 0))

theorem grows_transmit {m : Nat} (σ : State) (peer : PeerAddr) (bytes : List Byte) :
    Grows 1 m σ (σ.transmit peer bytes) :=
  ⟨⟨[{ peer := peer, bytes := bytes }], by simp⟩, ⟨[], by simp⟩⟩

/-- XSEND hands over at most one datagram (43_exchange.md R203, R204). -/
theorem grows_xTransmit {m : Nat} (σ : State) (x s : Nat) (peer : PeerAddr) : Grows 1 m σ (σ.xTransmit x s peer) := by
  unfold State.xTransmit
  dsimp only
  split_ifs
  · exact (grows_transmit _ _ _).trans_quiet (quiet_endXsend _ _ _)
  · exact (grows_transmit _ _ _).trans_quiet ((quiet_setExch _ _ _).trans (quiet_endXsend _ _ _))
  · exact (grows_transmit _ _ _).trans_quiet (quiet_endXsend _ _ _)

/-- W_CALL hands over at most one view (45_dispatcher.md R260). -/
theorem grows_workerCall {n : Nat} (σ : State) (w : Nat) : Grows n 1 σ (σ.workerCall w) := by
  unfold State.workerCall
  split_ifs
  · exact ⟨⟨[], by simp⟩, ⟨[callView w (σ.worker w)], by simp⟩⟩
  · exact (Quiet.refl _).grows

/-- W_SEND hands over at most one datagram (45_dispatcher.md R265). -/
theorem grows_workerSend {m : Nat} (σ : State) (w : Nat) : Grows 1 m σ (σ.workerSend w) := by
  unfold State.workerSend
  split_ifs
  · exact (grows_transmit _ _ _).trans_quiet (endWorker_spec _ _).quiet
  · exact (Quiet.refl _).grows

/-- A worker's run calls the collaborator in one of its steps and sends in another (45_dispatcher.md R254). -/
theorem grows_runWorker (σ : State) (w : Nat) : Grows 1 1 σ (σ.runWorker w) := by
  have hdecided : Quiet σ ((σ.workerParse w).workerDecide w) := (quiet_workerParse σ w).trans (quiet_workerDecide _ w)
  have hreplied : Grows 0 1 σ ((((σ.workerParse w).workerDecide w).workerCall w).workerReply w) :=
    hdecided.trans_grows ((grows_workerCall _ w).trans_quiet (quiet_workerReply _ w))
  exact hreplied.trans (grows_workerSend (m := 0) _ w)

theorem grows_dispatch (σ : State) (peer : PeerAddr) (datagram : List Byte) :
    Grows 1 1 σ (σ.dispatch peer datagram) := by
  unfold State.dispatch
  split_ifs
  · exact (quiet_accept _ _ _).trans_grows (grows_runWorker _ _)
  · exact (Quiet.refl _).grows

/-! What XSEND and XEXPIRE can do. -/

/-- The ends of XSEND (43_exchange.md R203, R205): refused for its index or its state, sent, or SERIALIZE failed. -/
theorem execXsend_cases {x s : Nat} {peer : PeerAddr} {σ t : State} (h : execXsend x s peer σ = .next t) :
    t = σ.raise .caller .invalid ∨ t = σ.endXsend x .invalid ∨ t = (σ.xSerialize x s).xTransmit x s peer ∨
      ∃ e, t = (σ.xSerialize x s).endXsend x e := by
  obtain rfl := Host.Outcome.next.inj h
  dsimp only
  split_ifs
  · exact .inl rfl
  · exact .inr (.inl rfl)
  · exact .inr (.inr (.inl rfl))
  · exact .inr (.inr (.inr ⟨_, rfl⟩))

/-- The ends of XEXPIRE (43_exchange.md R206, R207): a bad index, not enabled, sent once more, or timed out. -/
theorem execXexpire_cases {x : Nat} {σ t : State} (h : execXexpire x σ = .next t) :
    t = σ.raise .caller .invalid ∨ t = σ ∨
      (∃ peer bytes, t = (σ.transmit peer bytes).setExch x (retriedExch (σ.exch x))) ∨
      t = σ.setExch x (timedOutExch (σ.exch x)) := by
  unfold execXexpire at h
  split_ifs at h <;> obtain rfl := Host.Outcome.next.inj h
  · exact .inl rfl
  · exact .inr (.inl rfl)
  · exact .inr (.inr (.inl ⟨_, _, rfl⟩))
  · exact .inr (.inr (.inr rfl))

section Exchange
variable {x s : Nat} {peer : PeerAddr} {σ t : State}

theorem localTo_execXsend {ws xs : List Nat} (h : execXsend x s peer σ = .next t) (hx : x ∈ xs) :
    LocalTo ws xs σ t := by
  rcases execXsend_cases h with rfl | rfl | rfl | ⟨e, rfl⟩
  · exact localTo_raise _ _ _ trivial
  · exact localTo_endXsend _ _ _ hx
  · exact (localTo_xSerialize _ _ _ hx).trans (localTo_xTransmit _ _ _ _ hx)
  · exact (localTo_xSerialize _ _ _ hx).trans (localTo_endXsend _ _ _ hx)

theorem inForm_execXsend (h : execXsend x s peer σ = .next t) (hσ : σ.InForm) : t.InForm := by
  rcases execXsend_cases h with rfl | rfl | rfl | ⟨e, rfl⟩
  · exact inForm_raise _ _ _ hσ
  · exact inForm_endXsend _ _ _ hσ
  · exact inForm_xTransmit _ _ _ _ (inForm_xSerialize _ _ _ hσ)
  · exact inForm_endXsend _ _ _ (inForm_xSerialize _ _ _ hσ)

theorem grows_execXsend {m : Nat} (h : execXsend x s peer σ = .next t) : Grows 1 m σ t := by
  rcases execXsend_cases h with rfl | rfl | rfl | ⟨e, rfl⟩
  · exact (quiet_raise _ _ _).grows
  · exact (quiet_endXsend _ _ _).grows
  · exact (quiet_xSerialize _ _ _).trans_grows (grows_xTransmit _ _ _ _)
  · exact ((quiet_xSerialize _ _ _).trans (quiet_endXsend _ _ _)).grows

theorem localTo_execXexpire {ws xs : List Nat} (h : execXexpire x σ = .next t) (hx : x ∈ xs) : LocalTo ws xs σ t := by
  rcases execXexpire_cases h with rfl | rfl | ⟨peer, bytes, rfl⟩ | rfl
  · exact localTo_raise _ _ _ trivial
  · exact LocalTo.refl _
  · exact (localTo_transmit _ _ _).trans (localTo_setExch _ _ _ hx)
  · exact localTo_setExch _ _ _ hx

theorem inForm_execXexpire (h : execXexpire x σ = .next t) (hσ : σ.InForm) : t.InForm := by
  rcases execXexpire_cases h with rfl | rfl | ⟨peer, bytes, rfl⟩ | rfl
  · exact inForm_raise _ _ _ hσ
  · exact hσ
  · exact inForm_setExch _ _ _ (inForm_transmit _ _ _ hσ) (hσ.msg (.reply x)) (hσ.buf (.xbuf x)) (hσ.buf (.xrx x))
  · exact inForm_setExch _ _ _ hσ (hσ.msg (.reply x)) (hσ.buf (.xbuf x)) (hσ.buf (.xrx x))

theorem grows_execXexpire {m : Nat} (h : execXexpire x σ = .next t) : Grows 1 m σ t := by
  rcases execXexpire_cases h with rfl | rfl | ⟨peer, bytes, rfl⟩ | rfl
  · exact (quiet_raise _ _ _).grows
  · exact (Quiet.refl _).grows
  · exact (grows_transmit _ _ _).trans_quiet (quiet_setExch _ _ _)
  · exact (quiet_setExch _ _ _).grows

end Exchange

/-! What an instruction can do. -/

/-- What an instruction that answers a next state has done: the shared operation it ran. The lists name the worker contexts
and the exchange contexts that the operation steps or starts. -/
inductive Effect (σ : State) : List Nat → List Nat → State → Prop where
  | refused (e : Err) : Effect σ [] [] (σ.raise .caller e)
  | init (s : Nat) : Effect σ [] [] (σ.opInit .caller (.main s))
  | serialize (s b : Nat) (cap : Option Nat) : Effect σ [] [] (σ.opSerialize .caller (.main s) (.caller b) cap)
  | free (s : Nat) : Effect σ [] [] (σ.opFree .caller (.main s))
  | buildEmpty (kind : Kind) (d r : Nat) : Effect σ [] [] (σ.opBuildEmpty .caller kind (.main d) (.main r))
  | update (s : Nat) (f : Msg → Msg) (hf : ∀ m : Msg, m.wf = true → (f m).wf = true) : Effect σ [] [] (σ.updateMsg s f)
  | parse (d : Nat) (source : Source) (n : Nat) : Effect σ [] [] (σ.callerParse d source n)
  | optRound (d : Nat) (b : Byte) (rest : List Byte) : Effect σ [] [] (σ.optRound d b rest)
  | xsend (x s : Nat) (peer : PeerAddr) (t : State) (h : execXsend x s peer σ = .next t) : Effect σ [] [x] t
  | xexpire (x : Nat) (t : State) (h : execXexpire x σ = .next t) : Effect σ [] [x] t
  | recv (x : Nat) (datagram : List Byte) : Effect σ [] [x] (σ.recv x datagram)
  | accept (peer : PeerAddr) (datagram : List Byte) : Effect σ [σ.freeWorker] [] (σ.accept peer datagram)
  | dispatch (peer : PeerAddr) (datagram : List Byte) : Effect σ [σ.freeWorker] [] (σ.dispatch peer datagram)
  | workerParse (w : Nat) : Effect σ [w] [] (σ.workerParse w)
  | workerDecide (w : Nat) : Effect σ [w] [] (σ.workerDecide w)
  | workerCall (w : Nat) : Effect σ [w] [] (σ.workerCall w)
  | workerReturn (w : Nat) (r : AppResult) : Effect σ [w] [] (σ.workerReturn w r)
  | workerReply (w : Nat) : Effect σ [w] [] (σ.workerReply w)
  | workerSend (w : Nat) : Effect σ [w] [] (σ.workerSend w)

/-- Some shared operation leads from `σ` to `t`. -/
def Effects (σ t : State) : Prop := ∃ ws xs, Effect σ ws xs t

theorem Effect.effects {σ t : State} {ws xs : List Nat} (h : Effect σ ws xs t) : Effects σ t := ⟨ws, xs, h⟩

section Arms
variable {σ t : State}

/-- An operation that is Invalid when its guard fails: an index that names no slot or no worker (60_exceptions.md R287). -/
theorem effects_guarded {c : Bool} {u : State}
    (h : (.next (if c then u else σ.raise .caller .invalid) : Host.Outcome State Fault Refusal) = .next t)
    (hu : Effects σ u) : Effects σ t := by
  obtain rfl := Host.Outcome.next.inj h
  split_ifs
  · exact hu
  · exact (Effect.refused _).effects

/-- A HDR row is an arrival: a dispatch, an XRECV or a PARSE of the caller (30_encoding.md R111). -/
theorem effects_arriveHdr {version : BitVec 2} {kind : Kind} {tkl : BitVec 4} {code : Byte} {mid : Mid} {dest : Dest}
    {rest : List Byte} (h : σ.arriveHdr version kind tkl code mid dest rest = .next t) : Effects σ t := by
  obtain rfl := Host.Outcome.next.inj h
  cases dest with
  | dispatcher peer => exact (Effect.dispatch _ _).effects
  | exchange x => exact (Effect.recv _ _).effects
  | slot d => exact (Effect.parse _ _ _).effects

/-- An update that leaves the options and the number of token registers keeps a slot in form. -/
theorem Msg.wf_congr {m m' : Msg} (ho : m'.opts = m.opts) (ht : m'.token.length = m.token.length) (h : m.wf = true) :
    m'.wf = true := by
  rw [Msg.wf_iff] at h ⊢
  rwa [ho, ht]

/-- A field write that leaves the options and the number of token registers. -/
theorem effects_update {s : Nat} {f : Msg → Msg}
    (hf : ∀ m : Msg, m.token.length = 8 → (f m).opts = m.opts ∧ (f m).token.length = m.token.length) :
    Effects σ (σ.updateMsg s f) := by
  refine (Effect.update _ _ fun m hm => ?_).effects
  obtain ⟨ho, ht⟩ := hf m ((Msg.wf_iff m).1 hm).1
  exact Msg.wf_congr ho ht hm

theorem effects_storeCode {s : Nat} {code : Byte} (h : σ.storeCode s code = .next t) : Effects σ t :=
  effects_guarded h (effects_update fun _ _ => ⟨rfl, rfl⟩)

theorem mem_insertOpt {o p : Opt} {os : List Opt} (h : p ∈ insertOpt o os) : p = o ∨ p ∈ os := by
  rcases List.mem_append.1 h with h | h
  · exact .inr (List.mem_of_mem_take h)
  · exact (List.mem_cons.1 h).imp id List.mem_of_mem_drop

/-- ADD_OPTION keeps a slot in form (40_message_ops.md R134). -/
theorem Msg.wf_insertOpt {m : Msg} {o : Opt} (ho : o.value.length ≤ 15) (h : m.wf = true) :
    ({ m with opts := insertOpt o m.opts } : Msg).wf = true := by
  obtain ⟨htok, hsorted, hvals⟩ := (Msg.wf_iff m).1 h
  refine (Msg.wf_iff _).2 ⟨htok, insertOpt_sorted o _ hsorted, fun p hp => ?_⟩
  rcases mem_insertOpt hp with rfl | hp
  · exact ho
  · exact hvals p hp

theorem effects_serialize {s : Nat} {target : Target} {cap : Nat} (h : execSerialize s target cap σ = .next t) :
    Effects σ t := by
  refine effects_guarded h ?_
  cases target with
  | missing => exact (Effect.refused _).effects
  | buffer b => exact (Effect.serialize _ _ _).effects

theorem effects_addOption {s : Nat} {number : BitVec 16} {value : List Byte}
    (h : execAddOption s number value σ = .next t) : Effects σ t := by
  refine effects_guarded h ?_
  dsimp only
  split_ifs with hover hfull
  · exact (Effect.refused _).effects
  · exact (Effect.refused _).effects
  · exact (Effect.update _ _ fun m => Msg.wf_insertOpt ((not_lt.1 hover).trans (NibMax.value_le _).2)).effects

theorem effects_setToken {s : Nat} {value : List Byte} (h : execSetToken s value σ = .next t) : Effects σ t := by
  refine effects_guarded h ?_
  split_ifs with hover
  · exact (Effect.refused _).effects
  · exact effects_update fun m hm => ⟨rfl, (overlayToken_length (not_lt.1 hover) hm).trans hm.symm⟩

theorem effects_setPayload {s : Nat} {value : List Byte} (h : execSetPayload s value σ = .next t) : Effects σ t := by
  refine effects_guarded h ?_
  dsimp only
  split_ifs
  · exact (Effect.refused _).effects
  · exact effects_update fun _ _ => ⟨rfl, rfl⟩

end Arms

/-- Every instruction that answers a next state has run one shared operation. -/
theorem exec_effects {i : Instr} {σ t : State} (h : exec i σ = .next t) : Effects σ t := by
  unfold exec at h
  cases i with
  | hdrBadver0 | hdrBadver2 | hdrBadver3 | hdrTkl9 | hdrTkl10to11 | hdrTkl12to15 | conGet | conPost | conPut | conDelete
  | nonGet | nonPost | nonPut | nonDelete | ackAny | rstAny | conOther | nonOther => exact effects_arriveHdr h
  | optMarker | optRsvdDelta | optRsvdLen | optEntry =>
    exact Host.Outcome.next.inj h ▸ (Effect.optRound _ _ _).effects
  | codeEmpty | codeGet | codePost | codePut | codeDelete | codeCreated | codeDeleted | codeChanged | codeContent
  | codeBadRequest | codeNotFound | codeInternalError | codeOther => exact effects_storeCode h
  | init => exact effects_guarded h (Effect.init _).effects
  | serialize => exact effects_serialize h
  | parse => exact Host.Outcome.next.inj h ▸ (Effect.parse _ _ _).effects
  | addOption => exact effects_addOption h
  | free => exact effects_guarded h (Effect.free _).effects
  | buildEmptyAck | buildRstFor => exact effects_guarded h (Effect.buildEmpty _ _ _).effects
  | setKind | setCode | setMid | clearPayload =>
    exact effects_guarded h (effects_update fun _ _ => ⟨rfl, rfl⟩)
  | setToken => exact effects_setToken h
  | setPayload => exact effects_setPayload h
  | xsend => exact (Effect.xsend _ _ _ _ h).effects
  | xexpire => exact (Effect.xexpire _ _ h).effects
  | xrecv => exact Host.Outcome.next.inj h ▸ (Effect.recv _ _).effects
  | rxAccept => exact Host.Outcome.next.inj h ▸ (Effect.accept _ _).effects
  | wParse => exact effects_guarded h (Effect.workerParse _).effects
  | wDecide => exact effects_guarded h (Effect.workerDecide _).effects
  | wCall => exact effects_guarded h (Effect.workerCall _).effects
  | wReturn => exact effects_guarded h (Effect.workerReturn _ _).effects
  | wReply => exact effects_guarded h (Effect.workerReply _).effects
  | wSend => exact effects_guarded h (Effect.workerSend _).effects
  | cmdUnassigned => exact Host.Outcome.next.inj h ▸ (Effect.refused _).effects

/-! What every operation keeps. -/

section Keeps
variable {σ t : State} {ws xs : List Nat}

theorem localTo_opInit (σ : State) (a : Agent) (d : SlotRef) (ha : a.within ws xs) (hd : d.within ws xs) :
    LocalTo ws xs σ (σ.opInit a d) :=
  (localTo_setMsg _ _ _ hd).trans (localTo_done _ _ ha)

/-- Contexts that the operation does not step, the configuration and the port stay. -/
theorem Effect.localTo (h : Effect σ ws xs t) : LocalTo ws xs σ t := by
  cases h with
  | refused e => exact localTo_raise _ _ _ trivial
  | init s => exact localTo_opInit _ _ _ trivial trivial
  | serialize s b cap => exact localTo_opSerialize _ _ _ _ _ trivial trivial
  | free s => exact localTo_opFree _ _ _ trivial trivial
  | buildEmpty kind d r => exact localTo_opBuildEmpty _ _ _ _ _ trivial trivial
  | update s f => exact localTo_updateMsg _ _ _
  | parse d source n => exact localTo_callerParse _ _ _ _
  | optRound d b rest => exact localTo_optRound _ _ _ _
  | xsend x s peer _ h => exact localTo_execXsend h (by simp)
  | xexpire x _ h => exact localTo_execXexpire h (by simp)
  | recv x datagram => exact localTo_recv _ _ _ (by simp)
  | accept peer datagram => exact localTo_accept _ _ _ (by simp)
  | dispatch peer datagram => exact localTo_dispatch _ _ _ (by simp)
  | workerParse w => exact localTo_workerParse _ _ (by simp)
  | workerDecide w => exact localTo_workerDecide _ _ (by simp)
  | workerCall w => exact localTo_workerCall _ _ (by simp)
  | workerReturn w r => exact localTo_workerReturn _ _ _ (by simp)
  | workerReply w => exact localTo_workerReply _ _ (by simp)
  | workerSend w => exact localTo_workerSend _ _ (by simp)

/-- At most one datagram and one call go out. -/
theorem Effect.grows (h : Effect σ ws xs t) : Grows 1 1 σ t := by
  cases h with
  | refused e => exact (quiet_raise _ _ _).grows
  | init s => exact (quiet_opInit _ _ _).grows
  | serialize s b cap => exact (quiet_opSerialize _ _ _ _ _).grows
  | free s => exact (quiet_opFree _ _ _).grows
  | buildEmpty kind d r => exact (quiet_opBuildEmpty _ _ _ _ _).grows
  | update s f => exact (quiet_updateMsg _ _ _).grows
  | parse d source n => exact (quiet_callerParse _ _ _ _).grows
  | optRound d b rest => exact (quiet_optRound _ _ _ _).grows
  | xsend x s peer _ h => exact grows_execXsend h
  | xexpire x _ h => exact grows_execXexpire h
  | recv x datagram => exact (quiet_recv _ _ _).grows
  | accept peer datagram => exact (quiet_accept _ _ _).grows
  | dispatch peer datagram => exact grows_dispatch _ _ _
  | workerParse w => exact (quiet_workerParse _ _).grows
  | workerDecide w => exact (quiet_workerDecide _ _).grows
  | workerCall w => exact grows_workerCall _ _
  | workerReturn w r => exact (quiet_workerReturn _ _ _).grows
  | workerReply w => exact (quiet_workerReply _ _).grows
  | workerSend w => exact grows_workerSend _ _

/-- Tables, slots and buffers stay in form. -/
theorem Effect.inForm (h : Effect σ ws xs t) (hσ : σ.InForm) : t.InForm := by
  cases h with
  | refused e => exact inForm_raise _ _ _ hσ
  | init s => exact inForm_opInit _ _ _ hσ
  | serialize s b cap => exact inForm_opSerialize _ _ _ _ _ hσ
  | free s => exact inForm_opFree _ _ _ hσ
  | buildEmpty kind d r => exact inForm_opBuildEmpty _ _ _ _ _ hσ
  | update s f hf => exact inForm_updateMsg _ _ _ hσ (hf _ (hσ.msg _))
  | parse d source n => exact inForm_callerParse _ _ _ _ hσ
  | optRound d b rest => exact inForm_optRound _ _ _ _ hσ
  | xsend x s peer _ h => exact inForm_execXsend h hσ
  | xexpire x _ h => exact inForm_execXexpire h hσ
  | recv x datagram => exact inForm_recv _ _ _ hσ
  | accept peer datagram => exact inForm_accept _ _ _ hσ
  | dispatch peer datagram => exact inForm_dispatch _ _ _ hσ
  | workerParse w => exact inForm_workerParse _ _ hσ
  | workerDecide w => exact inForm_workerDecide _ _ hσ
  | workerCall w => exact inForm_workerCall _ _ hσ
  | workerReturn w r => exact inForm_workerReturn _ _ _ hσ
  | workerReply w => exact inForm_workerReply _ _ hσ
  | workerSend w => exact inForm_workerSend _ _ hσ

/-- The exchange contexts stay controlled: the stepped one by its own step, the others because they stay. -/
theorem Effect.exch_controlled (h : Effect σ ws xs t) (y : Nat) (hσ : (σ.exch y).controlled y) :
    (t.exch y).controlled y := by
  by_cases hy : y ∈ xs
  · cases h with
    | xsend x s peer _ h => obtain rfl := List.mem_singleton.1 hy; exact controlled_xsend _ _ _ _ _ hσ h
    | xexpire x _ h => obtain rfl := List.mem_singleton.1 hy; exact controlled_xexpire _ _ _ hσ h
    | recv x datagram => obtain rfl := List.mem_singleton.1 hy; exact controlled_recv _ _ _ hσ
    | _ => exact absurd hy List.not_mem_nil
  · rw [h.localTo.exch y hy]; exact hσ

/-- The worker contexts stay controlled: the stepped one by its own step, the others because they stay. -/
theorem Effect.worker_controlled (h : Effect σ ws xs t) (v : Nat) (hσ : (σ.worker v).controlled) :
    (t.worker v).controlled := by
  by_cases hv : v ∈ ws
  · cases h with
    | accept peer datagram => obtain rfl := List.mem_singleton.1 hv; exact controlled_accept _ _ _ hσ
    | dispatch peer datagram => obtain rfl := List.mem_singleton.1 hv; exact controlled_dispatch _ _ _ hσ
    | workerParse w => obtain rfl := List.mem_singleton.1 hv; exact controlled_workerParse _ _ hσ
    | workerDecide w => obtain rfl := List.mem_singleton.1 hv; exact controlled_workerDecide _ _ hσ
    | workerCall w => obtain rfl := List.mem_singleton.1 hv; exact controlled_workerCall _ _ hσ
    | workerReturn w r => obtain rfl := List.mem_singleton.1 hv; exact controlled_workerReturn _ _ _ hσ
    | workerReply w => obtain rfl := List.mem_singleton.1 hv; exact controlled_workerReply _ _ hσ
    | workerSend w => obtain rfl := List.mem_singleton.1 hv; exact controlled_workerSend _ _ hσ
    | _ => exact absurd hv List.not_mem_nil
  · rw [h.localTo.worker v hv]; exact hσ

/-- Every shared operation keeps the invariant. -/
theorem Effect.inv (h : Effect σ ws xs t) (hσ : σ.Inv) : t.Inv := by
  obtain ⟨hparams, hform, hexch, hworker⟩ := (State.inv_iff σ).1 hσ
  refine (State.inv_iff t).2 ⟨?_, h.inForm hform, fun y => h.exch_controlled y (hexch y),
    fun v => h.worker_controlled v (hworker v)⟩
  rw [h.localTo.params]; exact hparams

end Keeps

/-- Every instruction keeps the invariant. -/
theorem exec_inv {i : Instr} {σ t : State} (hσ : σ.Inv) (h : exec i σ = .next t) : t.Inv := by
  obtain ⟨_, _, heffect⟩ := exec_effects h
  exact heffect.inv hσ

/-! One step. -/

/-- The invariant does not read the port. -/
theorem State.Inv.withPort {σ : State} (h : σ.Inv) (rest : List Record) : State.Inv { σ with port := rest } :=
  ⟨h.params, h.msgs, h.bufs, h.exchanges, h.workers, h.mem, h.slots, h.exch, h.worker⟩

/-- A step that answers a next state is the idle block's, or that of the first record's instruction. -/
theorem step_next_cases {σ t : State} (h : step σ = .next t) :
    (σ.port = [] ∧ t = σ) ∨
      ∃ r rest i, σ.port = r :: rest ∧ decode r = .ok i ∧ exec i { σ with port := rest } = .next t := by
  unfold step at h
  split at h
  case h_1 hport => exact .inl ⟨hport, (Host.Outcome.next.inj h).symm⟩
  case h_2 r rest hport =>
    split at h
    case h_1 => cases h
    case h_2 i hdecode => exact .inr ⟨r, rest, i, hport, hdecode, h⟩

/-! The reset state. -/

theorem Exch.controlled_reset (x : Nat) : Exch.reset.controlled x := by constructor <;> simp [Exch.reset]

theorem Worker.controlled_reset : Worker.reset.controlled := by constructor <;> simp [Worker.reset]

theorem State.inForm_reset : State.reset.InForm where
  msgs := rfl
  bufs := rfl
  exchanges := rfl
  workers := rfl
  msg r := by rw [State.reset_msg]; rfl
  buf b := by rw [State.reset_buf]; rfl

/-! The statements. -/

/-- Settles O4, by the operation that the first record's instruction runs. -/
theorem stepKeepsTheInvariant : Obligations.StepKeepsTheInvariant := by
  intro σ t hσ h
  rcases step_next_cases h with ⟨-, rfl⟩ | ⟨_, rest, _, -, -, hexec⟩
  · exact hσ
  · exact exec_inv (hσ.withPort rest) hexec

/-- Settles O60, by the operation that the instruction runs. -/
theorem configurationStaysAndHistoriesGrow : Obligations.ConfigurationStaysAndHistoriesGrow := by
  intro i σ t h
  obtain ⟨_, _, heffect⟩ := exec_effects h
  have hl := heffect.localTo
  have hg := heffect.grows
  exact ⟨hl.params, hl.w0, hl.maxAttempts, hl.rstOnParseError, hl.listenPort, hl.port, hg.out, hg.calls⟩

/-- Settles O2: every table is empty, so each read gives the reset value of its entry. -/
theorem resetLeavesTheInitialState : Obligations.ResetLeavesTheInitialState := by
  refine ⟨fun r => ?_, fun a => ?_, fun x => ?_, fun w => ?_, rfl, rfl⟩
  · rw [State.reset_msg]; exact ⟨rfl, rfl, rfl, rfl, rfl, rfl, rfl⟩
  · rw [State.reset_codec]; exact ⟨rfl, rfl, rfl, rfl⟩
  · rw [State.reset_exch]; exact ⟨rfl, rfl, rfl, rfl, rfl, rfl⟩
  · rw [State.reset_worker]; rfl

/-- Settles O3: the standard parameters are legal, and every entry of the empty tables is a reset value. -/
theorem resetMeetsTheInvariant : Obligations.ResetMeetsTheInvariant :=
  (State.inv_iff _).2 ⟨rfl, State.inForm_reset, Exch.controlled_reset, fun _ => Worker.controlled_reset⟩

end Sys2Proof.Machine
end

section
/-! SUPPORT. The decoder, the encoder and the opcode table (30_encoding.md R91, R95, R101, R110 to R112): each decoder on what
the encoder wrote, what a record that decodes can be, and the row of the table that a word matches. -/

namespace Sys2Proof

/-! The operands of a record. -/

@[simp] theorem decodeDest_sel_index (dest : Dest) : decodeDest dest.sel dest.index = .ok dest := by
  cases dest <;> rfl

/-- A numeric lane that holds an operand's value reads as that operand. -/
@[simp] theorem lane_toNat {w : Nat} (v : BitVec w) (k : BitVec w → Instr) : lane w v.toNat k = .ok (k v) := by
  simp [lane, v.isLt]

theorem lane_ok {w n : Nat} {k : BitVec w → Instr} {i : Instr} (h : lane w n k = .ok i) : ∃ v, i = k v := by
  unfold lane at h
  split_ifs at h
  exact ⟨_, (Except.ok.inj h).symm⟩

/-- A mapped result that is no error comes from one that is none. -/
theorem except_map_eq_ok {ε α β : Type} {f : α → β} {x : Except ε α} {b : β} (h : x.map f = .ok b) :
    ∃ a, x = .ok a ∧ b = f a := by
  cases x with
  | error e => cases h
  | ok a => exact ⟨a, rfl, (Except.ok.inj h).symm⟩

/-! HDR records: what the priorities of the rows look at (30_encoding.md R111). -/

/-- A legal token length is none that the rows of priority 2 take. -/
theorem tklLegal_iff (tkl : BitVec 4) :
    tklLegal tkl = true ↔ tkl ≠ 9#4 ∧ tkl.extractLsb' 1 3 ≠ 5#3 ∧ tkl.extractLsb' 2 2 ≠ 3#2 := by
  revert tkl; decide

theorem methodCode_eq_false_iff (code : Byte) :
    methodCode code = false ↔ code ≠ 1#8 ∧ code ≠ 2#8 ∧ code ≠ 3#8 ∧ code ≠ 4#8 := by
  revert code; decide

/-- The token lengths 10 and 11, of the row HDR.TKL10_11. -/
theorem tkl10to11_fields (low : BitVec 1) :
    5#3 ++ low ≠ 9#4 ∧ (5#3 ++ low).extractLsb' 1 3 = 5#3 ∧ (5#3 ++ low).extractLsb' 0 1 = low := by
  revert low; decide

/-- The token lengths 12 to 15, of the row HDR.TKL12_15. -/
theorem tkl12to15_fields (low : BitVec 2) :
    3#2 ++ low ≠ 9#4 ∧ (3#2 ++ low).extractLsb' 1 3 ≠ 5#3 ∧ (3#2 ++ low).extractLsb' 2 2 = 3#2 ∧
      (3#2 ++ low).extractLsb' 0 2 = low := by
  revert low; decide

theorem tkl_eq_of_high3 {tkl : BitVec 4} (h : tkl.extractLsb' 1 3 = 5) : (5 : BitVec 3) ++ tkl.extractLsb' 0 1 = tkl := by
  revert tkl; decide

theorem tkl_eq_of_high2 {tkl : BitVec 4} (h : tkl.extractLsb' 2 2 = 3) : (3 : BitVec 2) ++ tkl.extractLsb' 0 2 = tkl := by
  revert tkl; decide

theorem version_eq_one {v : BitVec 2} (h0 : v ≠ 0) (h2 : v ≠ 2) (h3 : v ≠ 3) : v = 1 := by
  revert v; decide

/-- The HDR row of a version-1 header with a legal token length: the rows of priority 3 to 5. -/
def legalHdr (kind : Kind) (tkl : BitVec 4) (code : Byte) (mid : Mid) (dest : Dest) (rest : List Byte) : Instr :=
  match kind with
  | .con =>
    if code = 1#8 then .conGet tkl mid dest rest
    else if code = 2#8 then .conPost tkl mid dest rest
    else if code = 3#8 then .conPut tkl mid dest rest
    else if code = 4#8 then .conDelete tkl mid dest rest
    else .conOther tkl code mid dest rest
  | .non =>
    if code = 1#8 then .nonGet tkl mid dest rest
    else if code = 2#8 then .nonPost tkl mid dest rest
    else if code = 3#8 then .nonPut tkl mid dest rest
    else if code = 4#8 then .nonDelete tkl mid dest rest
    else .nonOther tkl code mid dest rest
  | .ack => .ackAny tkl code mid dest rest
  | .rst => .rstAny tkl code mid dest rest

section Hdr
variable {version : BitVec 2} {kind : Kind} {tkl : BitVec 4} {code b0 b2 b3 : Byte} {mid : Mid} {dest : Dest}
  {rest : List Byte}

/-- The HDR decoder by the fields, its rows of priority 3 to 5 under their name. -/
theorem decodeHdr_eq : decodeHdr b0 code b2 b3 dest rest =
    if headVersion b0 = 0 then .hdrBadver0 (headKind b0) (headTkl b0) code (be16 b2 b3) dest rest
    else if headVersion b0 = 2 then .hdrBadver2 (headKind b0) (headTkl b0) code (be16 b2 b3) dest rest
    else if headVersion b0 = 3 then .hdrBadver3 (headKind b0) (headTkl b0) code (be16 b2 b3) dest rest
    else if headTkl b0 = 9 then .hdrTkl9 (headKind b0) code (be16 b2 b3) dest rest
    else if (headTkl b0).extractLsb' 1 3 = 5 then
      .hdrTkl10to11 (headKind b0) ((headTkl b0).extractLsb' 0 1) code (be16 b2 b3) dest rest
    else if (headTkl b0).extractLsb' 2 2 = 3 then
      .hdrTkl12to15 (headKind b0) ((headTkl b0).extractLsb' 0 2) code (be16 b2 b3) dest rest
    else legalHdr (headKind b0) (headTkl b0) code (be16 b2 b3) dest rest := rfl

theorem decodeHdr_of_legal (hv : headVersion b0 = 1) (ht : tklLegal (headTkl b0) = true) :
    decodeHdr b0 code b2 b3 dest rest = legalHdr (headKind b0) (headTkl b0) code (be16 b2 b3) dest rest := by
  obtain ⟨h9, h10, h12⟩ := (tklLegal_iff _).1 ht
  simp [decodeHdr_eq, hv, h9, h10, h12]

theorem encode_legalHdr : encode (legalHdr kind tkl code mid dest rest) = encodeHdr 1 kind tkl code mid dest rest := by
  unfold legalHdr
  cases kind with
  | con | non =>
    dsimp only
    split_ifs with h1 h2 h3 h4
    · rw [h1]; rfl
    · rw [h2]; rfl
    · rw [h3]; rfl
    · rw [h4]; rfl
    · rfl
  | ack | rst => rfl

theorem legalHdr_con_other (h : methodCode code = false) :
    legalHdr .con tkl code mid dest rest = .conOther tkl code mid dest rest := by
  obtain ⟨h1, h2, h3, h4⟩ := (methodCode_eq_false_iff code).1 h
  exact (if_neg h1).trans ((if_neg h2).trans ((if_neg h3).trans (if_neg h4)))

theorem legalHdr_non_other (h : methodCode code = false) :
    legalHdr .non tkl code mid dest rest = .nonOther tkl code mid dest rest := by
  obtain ⟨h1, h2, h3, h4⟩ := (methodCode_eq_false_iff code).1 h
  exact (if_neg h1).trans ((if_neg h2).trans ((if_neg h3).trans (if_neg h4)))

theorem wellFormed_legalHdr (ht : tklLegal tkl = true) : wellFormed (legalHdr kind tkl code mid dest rest) = true := by
  unfold legalHdr
  cases kind with
  | con | non =>
    dsimp only
    split_ifs with h1 h2 h3 h4
    · exact ht
    · exact ht
    · exact ht
    · exact ht
    · simp only [wellFormed, ht, (methodCode_eq_false_iff code).2 ⟨h1, h2, h3, h4⟩, Bool.not_false, Bool.and_self]
  | ack | rst => exact ht

theorem decode_encodeHdr : decode (encodeHdr version kind tkl code mid dest rest) =
    .ok (decodeHdr (headByte version kind tkl) code (midHigh mid) (midLow mid) dest rest) := by
  simp [encodeHdr, decode, Record.of, headerBytes, Except.map]

/-- A version-1 header with a legal token length decodes to the row that its kind and code name. -/
theorem decode_encodeHdr_of_legal (ht : tklLegal tkl = true) :
    decode (encodeHdr 1 kind tkl code mid dest rest) = .ok (legalHdr kind tkl code mid dest rest) := by
  rw [decode_encodeHdr, decodeHdr_of_legal (by simp) (by simpa using ht)]
  simp

end Hdr

/-! OPT records. -/

theorem decode_encodeOpt (b : Byte) (d : Nat) (rest : List Byte) :
    decode (encodeOpt b d rest) = .ok (decodeOpt b d rest) := rfl

/-! CODE records. -/

theorem decode_encodeCode (b : Byte) (s : Nat) : decode (encodeCode b s) = .ok (decodeCode b s) := rfl

theorem codeByte_fields (cls : BitVec 3) (detail : BitVec 5) :
    (codeByte cls detail).extractLsb' 5 3 = cls ∧ (codeByte cls detail).extractLsb' 0 5 = detail := by
  revert cls detail; decide

theorem codeByte_extract (b : Byte) : codeByte (b.extractLsb' 5 3) (b.extractLsb' 0 5) = b := by
  revert b; decide

theorem decodeCode_of_unnamed {b : Byte} (h : namedCodes.contains b = false) (s : Nat) :
    decodeCode b s = .codeOther (b.extractLsb' 5 3) (b.extractLsb' 0 5) s := by
  simp only [namedCodes, List.contains_eq_mem, List.mem_cons, List.not_mem_nil, or_false, decide_eq_false_iff_not,
    not_or] at h
  obtain ⟨h0, h1, h2, h3, h4, h5, h6, h7, h8, h9, h10, h11⟩ := h
  unfold decodeCode
  rw [if_neg h0, if_neg h1, if_neg h2, if_neg h3, if_neg h4, if_neg h5, if_neg h6, if_neg h7, if_neg h8, if_neg h9,
    if_neg h10, if_neg h11]

/-! CMD records. -/

theorem decode_encodeCmd (op : BitVec 5) (a b c d : Nat) (bytes : List Byte) :
    decode (encodeCmd op a b c d bytes) = decodeCmd op (encodeCmd op a b c d bytes) := by
  simp only [decode, encodeCmd, Record.of, if_pos (opByte_lt op), opBits_setWidth]

theorem decodeResult_code (code : Byte) (bytes : List Byte) :
    decodeResult 2 code.toNat bytes = .ok (.response code none) ∧
      decodeResult 3 code.toNat bytes = .ok (.response code (some bytes)) := by
  simp [decodeResult, code.isLt]

theorem decodeCmd_of_unassigned {op : BitVec 5} (h : 0x17 ≤ op.toNat) (r : Record) :
    decodeCmd op r = .ok (.cmdUnassigned op) := by
  unfold decodeCmd
  split <;> first | omega | rfl

/-! The row of a word in the table (30_encoding.md R110). -/

/-- A mask test looks at the bits from `n` on and at those below `n` apart. -/
theorem and_eq_iff_div_mod (n w mask pattern : Nat) :
    w &&& mask = pattern ↔
      w / 2 ^ n &&& mask / 2 ^ n = pattern / 2 ^ n ∧ w % 2 ^ n &&& mask % 2 ^ n = pattern % 2 ^ n := by
  rw [Nat.ext_div_mod_iff (2 ^ n), Nat.and_div_two_pow, Nat.and_mod_two_pow]

/-- The test of a HDR row on the first two header bytes. -/
def headMatches (b0 code : Byte) (r : Row) : Bool :=
  (b0.toNat &&& r.mask / 2 ^ 24 == r.pattern / 2 ^ 24) &&
    (code.toNat &&& r.mask / 2 ^ 16 % 2 ^ 8 == r.pattern / 2 ^ 16 % 2 ^ 8)

/-- No HDR row looks at the message id. -/
theorem hdrRows_low_bits : ∀ r ∈ hdrRows, r.mask % 2 ^ 16 = 0 ∧ r.pattern % 2 ^ 16 = 0 := by decide

theorem headerWord_div (b0 code b2 b3 : Byte) :
    wordBits [b0, code, b2, b3] / 2 ^ 16 = b0.toNat * 2 ^ 8 + code.toNat := by
  have h2 := b2.isLt
  have h3 := b3.isLt
  simp only [wordBits, List.foldl_cons, List.foldl_nil]
  omega

theorem headerWord_matches (b0 code b2 b3 : Byte) {r : Row} (hr : r ∈ hdrRows) :
    (wordBits [b0, code, b2, b3] &&& r.mask == r.pattern) = headMatches b0 code r := by
  obtain ⟨hmask, hpattern⟩ := hdrRows_low_bits r hr
  have hcode := code.isLt
  have hhigh : (b0.toNat * 2 ^ 8 + code.toNat) / 2 ^ 8 = b0.toNat := by omega
  have hlow : (b0.toNat * 2 ^ 8 + code.toNat) % 2 ^ 8 = code.toNat := by omega
  rw [Bool.eq_iff_iff, beq_iff_eq, and_eq_iff_div_mod 16, headerWord_div, hmask, hpattern, and_eq_iff_div_mod 8, hhigh,
    hlow]
  simp [headMatches, Nat.div_div_eq_div_mul]

theorem tableRow_headerWord (b0 code b2 b3 : Byte) :
    tableRow .hdr (wordBits [b0, code, b2, b3]) = (hdrRows.find? (headMatches b0 code)).map Row.number :=
  congrArg _ (List.find?_congr fun _ => headerWord_matches b0 code b2 b3)

theorem headByte_version_masks (b : Byte) :
    (b.toNat &&& 0xC0 = 0 ↔ headVersion b = 0#2) ∧ (b.toNat &&& 0xC0 = 0x80 ↔ headVersion b = 2#2) ∧
      (b.toNat &&& 0xC0 = 0xC0 ↔ headVersion b = 3#2) := by
  revert b; decide

theorem headByte_tkl_masks (b : Byte) :
    (b.toNat &&& 0xCF = 0x49 ↔ headVersion b = 1#2 ∧ headTkl b = 9#4) ∧
      (b.toNat &&& 0xCE = 0x4A ↔ headVersion b = 1#2 ∧ (headTkl b).extractLsb' 1 3 = 5#3) ∧
      (b.toNat &&& 0xCC = 0x4C ↔ headVersion b = 1#2 ∧ (headTkl b).extractLsb' 2 2 = 3#2) := by
  revert b; decide

theorem headByte_kind_masks (b : Byte) :
    (b.toNat &&& 0xF0 = 0x40 ↔ headVersion b = 1#2 ∧ headKind b = .con) ∧
      (b.toNat &&& 0xF0 = 0x50 ↔ headVersion b = 1#2 ∧ headKind b = .non) ∧
      (b.toNat &&& 0xF0 = 0x60 ↔ headVersion b = 1#2 ∧ headKind b = .ack) ∧
      (b.toNat &&& 0xF0 = 0x70 ↔ headVersion b = 1#2 ∧ headKind b = .rst) := by
  revert b; decide

theorem code_masks (code : Byte) :
    (code.toNat &&& 0xFF = 1 ↔ code = 1#8) ∧ (code.toNat &&& 0xFF = 2 ↔ code = 2#8) ∧
      (code.toNat &&& 0xFF = 3 ↔ code = 3#8) ∧ (code.toNat &&& 0xFF = 4 ↔ code = 4#8) := by
  revert code; decide

section Rows
variable {b0 code b2 b3 : Byte}

theorem tableRow_badVersion :
    (headVersion b0 = 0#2 → tableRow .hdr (wordBits [b0, code, b2, b3]) = some 0) ∧
      (headVersion b0 = 2#2 → tableRow .hdr (wordBits [b0, code, b2, b3]) = some 1) ∧
      (headVersion b0 = 3#2 → tableRow .hdr (wordBits [b0, code, b2, b3]) = some 2) := by
  rw [tableRow_headerWord]
  refine ⟨fun hv => ?_, fun hv => ?_, fun hv => ?_⟩ <;> simp [hdrRows, headMatches, headByte_version_masks, hv]

theorem tableRow_tooLong (hv : headVersion b0 = 1#2) :
    (headTkl b0 = 9#4 → tableRow .hdr (wordBits [b0, code, b2, b3]) = some 3) ∧
      (headTkl b0 ≠ 9#4 → (headTkl b0).extractLsb' 1 3 = 5#3 →
        tableRow .hdr (wordBits [b0, code, b2, b3]) = some 4) ∧
      (headTkl b0 ≠ 9#4 → (headTkl b0).extractLsb' 1 3 ≠ 5#3 → (headTkl b0).extractLsb' 2 2 = 3#2 →
        tableRow .hdr (wordBits [b0, code, b2, b3]) = some 5) := by
  rw [tableRow_headerWord]
  refine ⟨fun h9 => ?_, fun h9 h10 => ?_, fun h9 h10 h12 => ?_⟩ <;>
    simp [hdrRows, headMatches, headByte_version_masks, headByte_tkl_masks, *]

/-- A version-1 header with a legal token length matches no row of priority 1 or 2. -/
theorem find_hdrRows_of_legal (hv : headVersion b0 = 1#2) (ht : tklLegal (headTkl b0) = true) :
    hdrRows.find? (headMatches b0 code) = (hdrRows.drop 6).find? (headMatches b0 code) := by
  obtain ⟨h9, h10, h12⟩ := (tklLegal_iff _).1 ht
  have hnone : (hdrRows.take 6).find? (headMatches b0 code) = none := by
    simp [hdrRows, headMatches, headByte_version_masks, headByte_tkl_masks, hv, h9, h10, h12]
  rw [← List.take_append_drop 6 hdrRows, List.find?_append, hnone]
  rfl

theorem tableRow_legalHdr (hv : headVersion b0 = 1#2) (ht : tklLegal (headTkl b0) = true) (mid : Mid) (dest : Dest)
    (rest : List Byte) :
    tableRow .hdr (wordBits [b0, code, b2, b3]) =
      some (rowOf (legalHdr (headKind b0) (headTkl b0) code mid dest rest)) := by
  rw [tableRow_headerWord, find_hdrRows_of_legal hv ht]
  unfold legalHdr
  cases hk : headKind b0 with
  | con | non =>
    dsimp only
    split_ifs with h1 h2 h3 h4 <;> simp [hdrRows, headMatches, headByte_kind_masks, code_masks, rowOf, *]
  | ack | rst => simp [hdrRows, headMatches, headByte_kind_masks, hv, hk, rowOf]

end Rows

theorem tableRow_optByte (b : Byte) :
    tableRow .opt (wordBits [b]) =
      some (if b = Config.payloadMarker then 18 else if optDelta b = Config.nibReserved then 19
        else if optLength b = Config.nibReserved then 20 else 21) := by
  revert b; decide

theorem tableRow_unnamedCode : ∀ b : Byte, namedCodes.contains b = false → tableRow .code (wordBits [b]) = some 34 := by
  decide

theorem tableRow_opByte (op : BitVec 5) :
    tableRow .cmd (wordBits [op.setWidth 8]) = some (35 + min op.toNat 0x17) := by
  revert op; decide

/-! What a record that decodes can be. -/

/-- An instruction read from a word of a format: its row is the table's, its row can encode it, and its record has that
format and word. -/
structure ReadsAs (fmt : Format) (word : List Byte) (i : Instr) : Prop where
  row : tableRow fmt (wordBits word) = some (rowOf i)
  wellFormed : wellFormed i = true
  fmt : (encode i).fmt = fmt
  word : (encode i).word = word

section ReadsAs
variable {b0 code b2 b3 : Byte} {mid : Mid} {dest : Dest} {rest : List Byte} {op op' : BitVec 5} {a b c d : Nat}
  {bytes : List Byte} {r : Record} {i : Instr}

theorem readsAs_of_encodeHdr (hrow : tableRow .hdr (wordBits [b0, code, b2, b3]) = some (rowOf i))
    (hwf : wellFormed i = true)
    (he : encode i = encodeHdr (headVersion b0) (headKind b0) (headTkl b0) code (be16 b2 b3) dest rest) :
    ReadsAs .hdr [b0, code, b2, b3] i where
  row := hrow
  wellFormed := hwf
  fmt := by rw [he]; rfl
  word := by rw [he]; simp [encodeHdr, Record.of, headerBytes]

theorem decodeHdr_readsAs : ReadsAs .hdr [b0, code, b2, b3] (decodeHdr b0 code b2 b3 dest rest) := by
  obtain ⟨hrow0, hrow2, hrow3⟩ := tableRow_badVersion (b0 := b0) (code := code) (b2 := b2) (b3 := b3)
  rw [decodeHdr_eq]
  split_ifs with hv0 hv2 hv3 h9 h10 h12
  · exact readsAs_of_encodeHdr (hrow0 hv0) rfl (by rw [hv0]; rfl)
  · exact readsAs_of_encodeHdr (hrow2 hv2) rfl (by rw [hv2]; rfl)
  · exact readsAs_of_encodeHdr (hrow3 hv3) rfl (by rw [hv3]; rfl)
  all_goals
    have hv := version_eq_one hv0 hv2 hv3
    obtain ⟨hrow9, hrow10, hrow12⟩ := tableRow_tooLong (code := code) (b2 := b2) (b3 := b3) hv
  · exact readsAs_of_encodeHdr (hrow9 h9) rfl (by rw [hv, h9]; rfl)
  · exact readsAs_of_encodeHdr (hrow10 h9 h10) rfl (by rw [hv, encode, tkl_eq_of_high3 h10])
  · exact readsAs_of_encodeHdr (hrow12 h9 h10 h12) rfl (by rw [hv, encode, tkl_eq_of_high2 h12])
  · have ht := (tklLegal_iff _).2 ⟨h9, h10, h12⟩
    exact readsAs_of_encodeHdr (tableRow_legalHdr hv ht _ _ _) (wellFormed_legalHdr ht) (by rw [hv, encode_legalHdr])

theorem decodeOpt_readsAs (b : Byte) (d : Nat) (rest : List Byte) : ReadsAs .opt [b] (decodeOpt b d rest) := by
  have hb := optByte_fields b
  have hrow := tableRow_optByte b
  unfold decodeOpt
  split_ifs at hrow ⊢ with hmarker hdelta hlength
  · exact ⟨hrow, rfl, rfl, by rw [hmarker]; rfl⟩
  · have hl : optLength b ≠ Config.nibReserved := fun hl =>
      hmarker (hb.symm.trans ((optByte_eq_marker _ _).2 ⟨hdelta, hl⟩))
    exact ⟨hrow, bne_iff_ne.2 hl, rfl, by rw [hdelta] at hb; exact congrArg (fun b => [b]) hb⟩
  · exact ⟨hrow, bne_iff_ne.2 hdelta, rfl, by rw [hlength] at hb; exact congrArg (fun b => [b]) hb⟩
  · exact ⟨hrow, Bool.and_eq_true_iff.2 ⟨bne_iff_ne.2 hdelta, bne_iff_ne.2 hlength⟩, rfl, congrArg (fun b => [b]) hb⟩

theorem decodeCode_readsAs (b : Byte) (s : Nat) : ReadsAs .code [b] (decodeCode b s) := by
  cases hnamed : namedCodes.contains b with
  | false =>
    rw [decodeCode_of_unnamed hnamed]
    exact ⟨tableRow_unnamedCode b hnamed, by rw [wellFormed, codeByte_extract, hnamed]; rfl, rfl,
      by rw [encode, codeByte_extract]; rfl⟩
  | true =>
    simp only [namedCodes, List.contains_eq_mem, List.mem_cons, List.not_mem_nil, or_false, decide_eq_true_eq] at hnamed
    rcases hnamed with rfl | rfl | rfl | rfl | rfl | rfl | rfl | rfl | rfl | rfl | rfl | rfl <;>
      exact ⟨rfl, rfl, rfl, rfl⟩

theorem readsAs_of_encodeCmd (he : encode i = encodeCmd op' a b c d bytes) (hrow : rowOf i = 35 + min op'.toNat 0x17)
    (hwf : wellFormed i = true) (hop : op.toNat = op'.toNat) : ReadsAs .cmd [op.setWidth 8] i where
  row := by rw [tableRow_opByte, hrow, hop]
  wellFormed := hwf
  fmt := by rw [he]; rfl
  word := by rw [he, BitVec.eq_of_toNat_eq hop]; rfl

theorem decodeCmd_readsAs (h : decodeCmd op r = .ok i) : ReadsAs .cmd [op.setWidth 8] i := by
  unfold decodeCmd at h
  split at h
  case h_1 hop | h_5 hop | h_6 hop | h_7 hop | h_11 hop | h_12 hop | h_13 hop | h_14 hop | h_15 hop | h_16 hop
  | h_17 hop | h_18 hop | h_19 hop | h_20 hop | h_22 hop | h_23 hop =>
    obtain rfl := Except.ok.inj h
    exact readsAs_of_encodeCmd rfl rfl rfl hop
  case h_2 hop =>
    obtain ⟨target, -, rfl⟩ := except_map_eq_ok h
    cases target <;> exact readsAs_of_encodeCmd rfl rfl rfl hop
  case h_3 hop =>
    obtain ⟨source, -, rfl⟩ := except_map_eq_ok h
    cases source <;> exact readsAs_of_encodeCmd rfl rfl rfl hop
  case h_4 hop | h_8 hop | h_9 hop | h_10 hop =>
    obtain ⟨v, rfl⟩ := lane_ok h
    exact readsAs_of_encodeCmd rfl rfl rfl hop
  case h_21 hop =>
    obtain ⟨result, -, rfl⟩ := except_map_eq_ok h
    rcases result with _ | _ | ⟨code, _ | payload⟩ <;> exact readsAs_of_encodeCmd rfl rfl rfl hop
  case h_24 =>
    have hop : 0x17 ≤ op.toNat := by simp only [imp_false] at *; omega
    obtain rfl := Except.ok.inj h
    exact readsAs_of_encodeCmd rfl (by rw [Nat.min_eq_right hop]; rfl) (decide_eq_true hop) rfl

/-- A record that decodes has the word length of its format, and is read by that format's decoder. -/
theorem decode_cases (h : decode r = .ok i) :
    (∃ b0 b1 b2 b3 dest, r.fmt = .hdr ∧ r.word = [b0, b1, b2, b3] ∧ i = decodeHdr b0 b1 b2 b3 dest r.bytes) ∨
      (∃ b, r.fmt = .opt ∧ r.word = [b] ∧ i = decodeOpt b r.a r.bytes) ∨
      (∃ b, r.fmt = .code ∧ r.word = [b] ∧ i = decodeCode b r.a) ∨
      ∃ b, r.fmt = .cmd ∧ r.word = [b] ∧ b.toNat < 32 ∧ decodeCmd (b.setWidth 5) r = .ok i := by
  unfold decode at h
  split at h
  case h_1 b0 b1 b2 b3 hfmt hword =>
    obtain ⟨dest, -, hi⟩ := except_map_eq_ok h
    exact .inl ⟨b0, b1, b2, b3, dest, hfmt, hword, hi⟩
  case h_2 b hfmt hword => exact .inr (.inl ⟨b, hfmt, hword, (Except.ok.inj h).symm⟩)
  case h_3 b hfmt hword => exact .inr (.inr (.inl ⟨b, hfmt, hword, (Except.ok.inj h).symm⟩))
  case h_4 b hfmt hword =>
    split_ifs at h with hlt
    exact .inr (.inr (.inr ⟨b, hfmt, hword, hlt, h⟩))
  case h_5 => cases h

/-- What a record that decodes tells: the one case split behind O7 and O8. -/
theorem decode_readsAs (h : decode r = .ok i) : ReadsAs r.fmt r.word i := by
  rcases decode_cases h with ⟨b0, b1, b2, b3, dest, hfmt, hword, rfl⟩ | ⟨b, hfmt, hword, rfl⟩ |
    ⟨b, hfmt, hword, rfl⟩ | ⟨b, hfmt, hword, hlt, hcmd⟩
  · rw [hfmt, hword]; exact decodeHdr_readsAs
  · rw [hfmt, hword]; exact decodeOpt_readsAs _ _ _
  · rw [hfmt, hword]; exact decodeCode_readsAs _ _
  · rw [hfmt, hword, ← opByte_of_lt b hlt]; exact decodeCmd_readsAs hcmd

end ReadsAs

end Sys2Proof

namespace Sys2Proof.Machine

/-- Settles O6, by the constructor: each decoder tests the fields that the encoder wrote. -/
theorem decodeOfEncode : Obligations.DecodeOfEncode := by
  intro i h
  cases i with
  | hdrBadver0 | hdrBadver2 | hdrBadver3 | hdrTkl9 =>
    simp [encode, decode_encodeHdr, decodeHdr_eq]
  | hdrTkl10to11 _ low => 
    obtain ⟨h9, hrow, hlow⟩ := tkl10to11_fields low
    simp [encode, decode_encodeHdr, decodeHdr_eq, h9, hrow, hlow]
  | hdrTkl12to15 _ low => 
    obtain ⟨h9, h10, hrow, hlow⟩ := tkl12to15_fields low
    simp [encode, decode_encodeHdr, decodeHdr_eq, h9, h10, hrow, hlow]
  | conGet | conPost | conPut | conDelete | nonGet | nonPost | nonPut | nonDelete | ackAny | rstAny =>
    exact decode_encodeHdr_of_legal h
  | conOther =>
    obtain ⟨ht, hm⟩ : _ ∧ _ := by simpa only [wellFormed, Bool.and_eq_true, Bool.not_eq_true'] using h
    exact (decode_encodeHdr_of_legal ht).trans (congrArg Except.ok (legalHdr_con_other hm))
  | nonOther =>
    obtain ⟨ht, hm⟩ : _ ∧ _ := by simpa only [wellFormed, Bool.and_eq_true, Bool.not_eq_true'] using h
    exact (decode_encodeHdr_of_legal ht).trans (congrArg Except.ok (legalHdr_non_other hm))
  | optMarker d rest => exact decode_encodeOpt _ _ _
  | optRsvdDelta length d rest =>
    have h : length ≠ Config.nibReserved := by simpa [wellFormed] using h
    simp [encode, decode_encodeOpt, decodeOpt, optByte_eq_marker, h]
  | optRsvdLen delta d rest =>
    have h : delta ≠ Config.nibReserved := by simpa [wellFormed] using h
    simp [encode, decode_encodeOpt, decodeOpt, optByte_eq_marker, h]
  | optEntry delta length d rest =>
    simp only [wellFormed, Bool.and_eq_true, bne_iff_ne] at h
    simp [encode, decode_encodeOpt, decodeOpt, optByte_eq_marker, h]
  | codeEmpty | codeGet | codePost | codePut | codeDelete | codeCreated | codeDeleted | codeChanged | codeContent
  | codeBadRequest | codeNotFound | codeInternalError => rfl
  | codeOther cls detail s =>
    have h : namedCodes.contains (codeByte cls detail) = false := by simpa only [wellFormed, Bool.not_eq_true'] using h
    obtain ⟨hcls, hdetail⟩ := codeByte_fields cls detail
    rw [encode, decode_encodeCode, decodeCode_of_unnamed h, hcls, hdetail]
  | serialize s target => cases target <;> rfl
  | parse d source => cases source <;> rfl
  | addOption s number value => exact (decode_encodeCmd _ _ _ _ _ _).trans (lane_toNat number fun n => .addOption s n value)
  | setKind s v =>
    exact (decode_encodeCmd _ _ _ _ _ _).trans
      ((lane_toNat v.bits fun b => .setKind s (Kind.ofBits b)).trans (by rw [Kind.ofBits_bits]))
  | setCode s v => exact (decode_encodeCmd _ _ _ _ _ _).trans (lane_toNat v _)
  | setMid s v => exact (decode_encodeCmd _ _ _ _ _ _).trans (lane_toNat v _)
  | wReturn w result =>
    rcases result with _ | _ | ⟨code, _ | payload⟩
    · rfl
    · rfl
    · exact (decode_encodeCmd _ _ _ _ _ _).trans (congrArg (Except.map _) (decodeResult_code code []).1)
    · exact (decode_encodeCmd _ _ _ _ _ _).trans (congrArg (Except.map _) (decodeResult_code code payload).2)
  | cmdUnassigned op =>
    rw [encode, decode_encodeCmd]
    exact decodeCmd_of_unassigned (by simpa [wellFormed] using h) _
  | _ => rfl

/-- Settles O7, by the case split of `decode_readsAs`: the row, and that the row admits the instruction. -/
theorem decodeFollowsTheOpcodeTable : Obligations.DecodeFollowsTheOpcodeTable := fun _ _ h =>
  ⟨(decode_readsAs h).row, (decode_readsAs h).wellFormed⟩

/-- Settles O8, by the case split of `decode_readsAs`: the record of what was read. -/
theorem encodeKeepsTheWord : Obligations.EncodeKeepsTheWord := fun _ _ h =>
  ⟨(decode_readsAs h).fmt, (decode_readsAs h).word⟩

/-- Settles O9: the decoder runs on each written record. -/
theorem writtenWordsDecode : Obligations.WrittenWordsDecode := ⟨rfl, rfl, rfl, rfl, rfl, rfl⟩

end Sys2Proof.Machine
end

section
/-! SUPPORT. The rows of the encoding as operations: a CODE row as a write of the code register (30_encoding.md R95 to R98), a
HDR row as the arrival of its datagram (R111), and the canonical encoding (R116). -/

namespace Sys2Proof.Machine

/-! CODE rows. -/

/-- A code row at a slot writes the slot's code register (30_encoding.md R97). -/
theorem storeCode_spec {s : Nat} {σ : State} (hs : σ.slotOk s = true) (code : Byte) :
    ∃ t, σ.storeCode s code = .next t ∧
      SlotOp .caller (.main s) { σ.msg (.main s) with hdrOpen := false, code := code } .ok 0 σ t :=
  ⟨_, congrArg Host.Outcome.next (if_pos hs), slotOp_endOp _ _ _ _ _⟩

theorem codeByte_eq_ofNat (cls : BitVec 3) (detail : BitVec 5) :
    cls ++ detail = BitVec.ofNat 8 (cls.toNat * 32 + detail.toNat) := by
  revert cls detail; decide

/-- Settles O12: every CODE row is a write of its byte, which touches the slot and the caller's `ERR` alone. -/
theorem codeRowsStoreTheirByte : Obligations.CodeRowsStoreTheirByte := by
  intro s cls detail σ hs p hp
  have hexec : exec p.1 σ = σ.storeCode s (BitVec.ofNat 8 p.2) := by
    revert p
    simp only [List.forall_mem_cons, List.not_mem_nil, false_implies, implies_true, and_true]
    exact ⟨rfl, rfl, rfl, rfl, rfl, rfl, rfl, rfl, rfl, rfl, rfl, rfl,
      congrArg (σ.storeCode s) (codeByte_eq_ofNat cls detail)⟩
  obtain ⟨t, hstore, hop⟩ := storeCode_spec hs (BitVec.ofNat 8 p.2)
  have hcaller : t.caller = σ.caller.ended .ok none := hop.codec
  exact ⟨t, hexec.trans hstore, hop.slot, by rw [hcaller]; rfl, hcaller ▸ Codec.keeps_ended _ _ _, hop.frame, hop.quiet⟩

/-! PARSE then SERIALIZE. -/

theorem callerParse_bytes {d n : Nat} {v : List Byte} {σ : State} (hd : σ.slotOk d = true) (hn : n ≤ v.length) :
    σ.callerParse d (.bytes v) n = σ.opParse .caller (.main d) (v.take n) := by
  simp [State.callerParse, State.sourcePrefix, State.sourceBytes, hd, hn]

theorem exec_serialize_buffer {s b cap : Nat} {σ : State} (hs : σ.slotOk s = true) :
    exec (.serialize s (.buffer b) cap) σ = .next (σ.opSerialize .caller (.main s) (.caller b) (some cap)) :=
  congrArg Host.Outcome.next (if_pos hs)

/-- Settles O32: the parsed message passes the checks of SERIALIZE and encodes to the bytes it came from
(`serialize_parse`), and PARSE leaves the parameters as they were. -/
theorem serializeOfParse : Obligations.SerializeOfParse := by
  intro d b n cap v σ hd hn hcap
  refine ⟨σ.opParse .caller (.main d) (v.take n), congrArg Host.Outcome.next (callerParse_bytes hd hn), fun hok => ?_⟩
  have hparse := opParse_spec σ .caller (.main d) (v.take n)
  generalize σ.opParse .caller (.main d) (v.take n) = t at hparse hok
  have hlen : (v.take n).length = n := by simp [hn]
  have herr : (parse σ.params σ.draws (σ.msg (.main d)) (v.take n)).err = .ok :=
    (congrArg Codec.err hparse.codec).symm.trans hok
  have hfits : exceeds (some cap) (v.take n).length = false := by simp [exceeds, hlen, hcap]
  obtain ⟨-, -, -, -, -, -, -, hser, hbytes⟩ := serialize_parse (nib := t.params.nibMax) herr hfits
  rw [← hparse.slot] at hser hbytes
  have ht : t.slotOk d = true := by unfold State.slotOk at hd ⊢; rw [hparse.frame.params]; exact hd
  obtain ⟨hbuf, hcodec, -⟩ := opSerialize_ok (a := .caller) (b := .caller b) hser
  rw [State.codec_caller] at hcodec
  refine ⟨_, exec_serialize_buffer ht, by rw [hcodec], by rw [hcodec, hbytes, hlen], ?_⟩
  rw [hbuf, Buf.bytes_load, hbytes]

/-! HDR rows as arrivals. -/

theorem execAll_cons {i : Instr} {is : List Instr} {s t : State} (h : exec i s = .next t) :
    execAll (i :: is) s = execAll is t := by
  rw [execAll, h]

/-- Every HDR row is the arrival of its datagram (30_encoding.md R111). -/
theorem exec_headerRow {kind : Kind} {tkl : BitVec 4} {low₁ : BitVec 1} {low₂ : BitVec 2} {code : Byte} {mid : Mid}
    {dest : Dest} {rest : List Byte} (σ : State) :
    ∀ p ∈ headerRows kind tkl low₁ low₂ code mid dest rest, exec p.1 σ = .next (σ.arrive dest p.2) := by
  simp only [headerRows, List.forall_mem_cons, List.not_mem_nil, false_implies, implies_true, and_true]
  exact ⟨rfl, rfl, rfl, rfl, rfl, rfl, rfl, rfl, rfl, rfl, rfl, rfl, rfl, rfl, rfl, rfl, rfl, rfl⟩

section WorkerSteps
variable {σ : State} {w : Nat} (hw : σ.workerOk w = true)
include hw

theorem exec_wParse : exec (.wParse w) σ = .next (σ.workerParse w) := congrArg Host.Outcome.next (if_pos hw)

theorem exec_wDecide : exec (.wDecide w) σ = .next (σ.workerDecide w) := congrArg Host.Outcome.next (if_pos hw)

theorem exec_wCall : exec (.wCall w) σ = .next (σ.workerCall w) := congrArg Host.Outcome.next (if_pos hw)

theorem exec_wReply : exec (.wReply w) σ = .next (σ.workerReply w) := congrArg Host.Outcome.next (if_pos hw)

theorem exec_wSend : exec (.wSend w) σ = .next (σ.workerSend w) := congrArg Host.Outcome.next (if_pos hw)

end WorkerSteps

theorem workerOk_congr {s t : State} (h : t.params = s.params) (w : Nat) : t.workerOk w = s.workerOk w := by
  unfold State.workerOk; rw [h]

/-- The commands of one worker's steps, up to its suspension or its end, are its run: no step changes which index names a
worker. -/
theorem execAll_workerSteps {σ : State} {w : Nat} (hw : σ.workerOk w = true) :
    execAll [.wParse w, .wDecide w, .wCall w, .wReply w, .wSend w] σ = .next (σ.runWorker w) := by
  have hmem : w ∈ [w] := List.mem_singleton_self w
  have hparse := localTo_workerParse (xs := []) σ w hmem
  have hdecide := hparse.trans (localTo_workerDecide _ w hmem)
  have hcall := hdecide.trans (localTo_workerCall _ w hmem)
  have hreply := hcall.trans (localTo_workerReply _ w hmem)
  have hok {t : State} (h : LocalTo [w] [] σ t) : t.workerOk w = true := (workerOk_congr h.params w).trans hw
  rw [execAll_cons (exec_wParse hw), execAll_cons (exec_wDecide (hok hparse)), execAll_cons (exec_wCall (hok hdecide)),
    execAll_cons (exec_wReply (hok hcall)), execAll_cons (exec_wSend (hok hreply)), execAll, State.runWorker]

/-- A dispatch is RX_ACCEPT and the steps of the worker it starts. -/
theorem execAll_dispatch {σ : State} (hw : σ.workerOk σ.freeWorker = true) (peer : PeerAddr) (datagram : List Byte) :
    execAll [.rxAccept peer datagram, .wParse σ.freeWorker, .wDecide σ.freeWorker, .wCall σ.freeWorker,
      .wReply σ.freeWorker, .wSend σ.freeWorker] σ = .next (σ.dispatch peer datagram) := by
  have haccept : LocalTo [σ.freeWorker] [] σ (σ.accept peer datagram) :=
    localTo_accept σ peer datagram (List.mem_singleton_self _)
  rw [execAll_cons rfl, execAll_workerSteps ((workerOk_congr haccept.params _).trans hw)]
  exact congrArg Host.Outcome.next (if_pos hw).symm

/-- Settles O53: each row arrives by `State.arrive`, whose three destinations are PARSE, XRECV and the dispatch. -/
theorem headerRowsAreDatagramArrivals : Obligations.HeaderRowsAreDatagramArrivals := by
  intro kind tkl low₁ low₂ code mid rest σ
  refine ⟨fun d p hp => ⟨_, exec_headerRow σ p hp, rfl⟩, fun x p hp => ⟨_, exec_headerRow σ p hp, rfl⟩,
    fun peer p hp => ⟨fun hbusy => ?_, fun hw => ⟨_, exec_headerRow σ p hp, execAll_dispatch hw peer p.2⟩⟩⟩
  rw [exec_headerRow σ p hp]
  exact congrArg Host.Outcome.next (if_neg (by rw [hbusy]; decide))

end Sys2Proof.Machine
end

section
/-! SUPPORT. The caller's message commands (40_message_ops.md): each is a write of one slot that ends OK, or an error that leaves
the slot as it was; the option ordering law (R143) by induction over the calls. -/

namespace Sys2Proof.Machine

/-! The two ends of a caller's command. -/

/-- A caller's operation on a slot writes of the codec registers `ERR` and the result alone (40_message_ops.md R145). -/
theorem SlotOp.caller_ends {s n : Nat} {m : Msg} {e : Err} {σ t : State} (h : SlotOp .caller (.main s) m e n σ t) :
    t.msg (.main s) = m ∧ t.caller.err = e ∧ Codec.Keeps σ.caller t.caller ∧ Frame (Touched.slot s) σ t ∧ Quiet σ t := by
  have hcaller : t.caller = σ.caller.ended e none := h.codec
  exact ⟨h.slot, by rw [hcaller]; rfl, hcaller ▸ Codec.keeps_ended _ _ _, h.frame, h.quiet⟩

/-- A refused command of the caller changes nothing but `ERR` and the result. -/
theorem raise_caller_ends (σ : State) (e : Err) :
    (σ.raise .caller e).caller.err = e ∧ Codec.Keeps σ.caller (σ.raise .caller e).caller ∧
      Frame (Touched.codec .caller) σ (σ.raise .caller e) ∧ Quiet σ (σ.raise .caller e) :=
  ⟨rfl, Codec.keeps_ended _ _ _, frame_raise _ _ _ (List.mem_singleton_self _), quiet_raise _ _ _⟩

theorem updateMsg_spec (σ : State) (s : Nat) (f : Msg → Msg) :
    SlotOp .caller (.main s) (f (σ.msg (.main s))) .ok 0 σ (σ.updateMsg s f) := slotOp_endOp _ _ _ _ _

@[simp] theorem msg_updateMsg_same (σ : State) (s : Nat) (f : Msg → Msg) :
    (σ.updateMsg s f).msg (.main s) = f (σ.msg (.main s)) := (updateMsg_spec σ s f).slot

@[simp] theorem params_updateMsg (σ : State) (s : Nat) (f : Msg → Msg) : (σ.updateMsg s f).params = σ.params :=
  (updateMsg_spec σ s f).frame.params

@[simp] theorem params_raise (σ : State) (a : Agent) (e : Err) : (σ.raise a e).params = σ.params :=
  State.endOp_params _ _ _ _

theorem slotOk_congr {s t : State} (h : t.params = s.params) (i : Nat) : t.slotOk i = s.slotOk i := by
  unfold State.slotOk; rw [h]

/-! ADD_OPTION, one call. -/

/-- A slot of `count` options takes one more with this value (40_message_ops.md R133). -/
def State.accepts (σ : State) (count : Nat) (value : List Byte) : Prop :=
  value.length ≤ σ.params.nibMax.value ∧ fullAt σ.params.maxOptions count = false

/-- The message with one option more, inserted by its number (R133). -/
def Msg.addOpt (number : BitVec 16) (value : List Byte) (m : Msg) : Msg :=
  { m with opts := insertOpt { number := number.toNat, value := value } m.opts }

section AddOption
variable {s : Nat} {σ : State} {number : BitVec 16} {value : List Byte} (hs : σ.slotOk s = true)
include hs

theorem exec_addOption : exec (.addOption s number value) σ = .next
    (if σ.params.nibMax.value < value.length then σ.raise .caller .optionOversize
      else if fullAt σ.params.maxOptions (σ.msg (.main s)).optCount then σ.raise .caller .invalid
      else σ.updateMsg s (Msg.addOpt number value)) := congrArg Host.Outcome.next (if_pos hs)

theorem exec_addOption_oversize (hover : σ.params.nibMax.value < value.length) :
    exec (.addOption s number value) σ = .next (σ.raise .caller .optionOversize) := by
  rw [exec_addOption hs, if_pos hover]

theorem exec_addOption_full (hfit : value.length ≤ σ.params.nibMax.value)
    (hfull : fullAt σ.params.maxOptions (σ.msg (.main s)).optCount = true) :
    exec (.addOption s number value) σ = .next (σ.raise .caller .invalid) := by
  rw [exec_addOption hs, if_neg (not_lt.2 hfit), if_pos hfull]

theorem exec_addOption_accepted (h : σ.accepts (σ.msg (.main s)).optCount value) :
    exec (.addOption s number value) σ = .next (σ.updateMsg s (Msg.addOpt number value)) := by
  obtain ⟨hfit, hroom⟩ := h
  rw [exec_addOption hs, if_neg (not_lt.2 hfit), if_neg (Bool.eq_false_iff.1 hroom)]

/-- A call that is not accepted is one of the two refusals (40_message_ops.md R135). -/
theorem exec_addOption_refused (h : ¬ σ.accepts (σ.msg (.main s)).optCount value) :
    ∃ e, exec (.addOption s number value) σ = .next (σ.raise .caller e) := by
  by_cases hfit : value.length ≤ σ.params.nibMax.value
  · have hfull : fullAt σ.params.maxOptions (σ.msg (.main s)).optCount = true :=
      Bool.eq_true_of_not_eq_false fun hroom => h ⟨hfit, hroom⟩
    exact ⟨_, exec_addOption_full hs hfit hfull⟩
  · exact ⟨_, exec_addOption_oversize hs (not_le.1 hfit)⟩

end AddOption

theorem insertOpt_length (o : Opt) (os : List Opt) : (insertOpt o os).length = os.length + 1 := by
  simp only [insertOpt, List.length_append, List.length_cons, List.length_take, List.length_drop]
  omega

theorem fullAt_eq_false_iff (capacity : Option Nat) (n : Nat) : fullAt capacity n = false ↔ ∀ k, capacity = some k → n ≠ k := by
  cases capacity <;> simp [fullAt]

/-! ADD_OPTION, call after call. -/

section AcceptedCalls
variable {σ : State} {count : Nat} {c : BitVec 16 × List Byte} {calls : List (BitVec 16 × List Byte)}

theorem acceptedCalls_nil (σ : State) (count : Nat) : acceptedCalls σ count [] = [] := by
  unfold acceptedCalls; cases σ.params.maxOptions <;> simp

/-- Which calls are accepted is a matter of the parameters and of the options the slot holds. -/
theorem acceptedCalls_congr {t : State} (h : t.params = σ.params) (count : Nat) (calls : List (BitVec 16 × List Byte)) :
    acceptedCalls t count calls = acceptedCalls σ count calls := by
  unfold acceptedCalls; rw [h]

/-- An accepted call takes one place of the room left. -/
theorem acceptedCalls_cons_accepted (hroom : ∀ m, σ.params.maxOptions = some m → count ≤ m) (h : σ.accepts count c.2) :
    acceptedCalls σ count (c :: calls) = c :: acceptedCalls σ (count + 1) calls := by
  obtain ⟨hfit, hfull⟩ := h
  rw [fullAt_eq_false_iff] at hfull
  unfold acceptedCalls
  simp only [List.filter_cons, hfit, decide_true, if_true]
  cases hmax : σ.params.maxOptions with
  | none => rfl
  | some m =>
    have hlt : count < m := lt_of_le_of_ne (hroom m hmax) (hfull m hmax)
    have hplaces : m - count = (m - (count + 1)) + 1 := by omega
    exact (congrArg (List.take · _) hplaces).trans List.take_succ_cons

/-- A refused call leaves the room as it was. -/
theorem acceptedCalls_cons_refused (h : ¬ σ.accepts count c.2) :
    acceptedCalls σ count (c :: calls) = acceptedCalls σ count calls := by
  unfold acceptedCalls
  by_cases hfit : c.2.length ≤ σ.params.nibMax.value
  · have hfull : ¬ ∀ k, σ.params.maxOptions = some k → count ≠ k := fun hroom =>
      h ⟨hfit, (fullAt_eq_false_iff _ _).2 hroom⟩
    push Not at hfull
    obtain ⟨m, hmax, rfl⟩ := hfull
    simp [hmax]
  · simp [hfit]

end AcceptedCalls

/-- Settles O17, by induction over the calls: an accepted call inserts its entry after those of its number, a refused one
leaves the slot, and either way the rest runs on the parameters of before. -/
theorem addOptionSequencesStaySortedAndStable : Obligations.AddOptionSequencesStaySortedAndStable := by
  intro s calls
  induction calls with
  | nil =>
    intro σ _ hsorted _
    exact ⟨σ, rfl, hsorted, fun n => by simp [acceptedCalls_nil]⟩
  | cons c calls ih =>
    intro σ hs hsorted hroom
    simp only [List.map_cons]
    by_cases hacc : σ.accepts (σ.msg (.main s)).optCount c.2
    · have hparams := params_updateMsg σ s (Msg.addOpt c.1 c.2)
      have hmsg := msg_updateMsg_same σ s (Msg.addOpt c.1 c.2)
      have hcount : (Msg.addOpt c.1 c.2 (σ.msg (.main s))).optCount = (σ.msg (.main s)).optCount + 1 := insertOpt_length _ _
      have hroom' : ∀ m, σ.params.maxOptions = some m → (σ.msg (.main s)).optCount + 1 ≤ m := fun m hm =>
        Nat.lt_of_le_of_ne (hroom m hm) ((fullAt_eq_false_iff _ _).1 hacc.2 m hm)
      rw [execAll_cons (exec_addOption_accepted hs hacc), acceptedCalls_cons_accepted hroom hacc]
      obtain ⟨t, hrun, ht, hfilter⟩ := ih _ ((slotOk_congr hparams s).trans hs)
        (by rw [hmsg]; exact insertOpt_sorted _ _ hsorted) (by rw [hmsg, hparams, hcount]; exact hroom')
      refine ⟨t, hrun, ht, fun n => ?_⟩
      have hstep := insertOpt_filter { number := c.1.toNat, value := c.2 } (σ.msg (.main s)).opts n hsorted
      rw [hfilter n, hmsg, hcount, acceptedCalls_congr hparams]
      refine (congrArg (· ++ _) hstep).trans ?_
      by_cases hn : c.1.toNat = n <;> simp [hn]
    · obtain ⟨e, hexec⟩ := exec_addOption_refused (number := c.1) hs hacc
      have hparams := params_raise σ .caller e
      have hmsg := State.msg_raise σ .caller e (.main s)
      rw [execAll_cons hexec, acceptedCalls_cons_refused hacc, ← acceptedCalls_congr hparams, ← hmsg]
      exact ih _ ((slotOk_congr hparams s).trans hs) (by rwa [hmsg]) (by rwa [hmsg, hparams])

/-- Settles O15: the accepted call, with `insertOpt` on a sorted list as its two halves. -/
theorem addOptionInsertsAfterEquals : Obligations.AddOptionInsertsAfterEquals := by
  intro s number value σ hs hsorted hfit hroom
  have hinsert := insertOpt_eq { number := number.toNat, value := value } _ hsorted
  obtain ⟨hmsg, hend⟩ := (updateMsg_spec σ s (Msg.addOpt number value)).caller_ends
  refine ⟨_, exec_addOption_accepted hs ⟨hfit, hroom⟩, ?_, ?_, hend⟩
  · rw [hmsg, Msg.addOpt, hinsert]
  · rw [hmsg]; exact insertOpt_sorted _ _ hsorted

/-- Settles O16: the check of the value comes before that of the room, and either refusal is a raise. -/
theorem addOptionRefusals : Obligations.AddOptionRefusals := fun _ _ _ σ hs =>
  ⟨fun hover => ⟨_, exec_addOption_oversize hs hover, raise_caller_ends σ _⟩,
    fun hfit hfull => ⟨_, exec_addOption_full hs hfit hfull, raise_caller_ends σ _⟩⟩

/-! Field, token and payload writes. -/

/-- Settles O10: INIT is a write of the fresh message. -/
theorem initWritesTheFreshMessage : Obligations.InitWritesTheFreshMessage := fun s σ hs =>
  ⟨_, congrArg Host.Outcome.next (if_pos hs), (opInit_spec σ .caller (.main s)).caller_ends⟩

/-- Settles O11: each of the three commands is an update of the slot by its field. -/
theorem fieldWritesChangeOneField : Obligations.FieldWritesChangeOneField := by
  intro s kind code mid σ hs
  have hwrite (f : Msg → Msg) : ∃ t, σ.onSlot s (fun σ => σ.updateMsg s f) = .next t ∧
      t.msg (.main s) = f (σ.msg (.main s)) ∧ t.caller.err = .ok ∧ Codec.Keeps σ.caller t.caller ∧
      Frame (Touched.slot s) σ t ∧ Quiet σ t := ⟨_, congrArg Host.Outcome.next (if_pos hs), (updateMsg_spec σ s f).caller_ends⟩
  simp only [List.forall_mem_cons, List.not_mem_nil, false_implies, implies_true, and_true]
  exact ⟨hwrite fun m => { m with hdrOpen := false, kind := kind }, hwrite fun m => { m with hdrOpen := false, code := code },
    hwrite fun m => { m with hdrOpen := false, mid := mid }⟩

/-- The message with a token of at most 8 bytes written (40_message_ops.md R141). -/
def Msg.withToken (value : List Byte) (m : Msg) : Msg :=
  { m with hdrOpen := false, tkl := BitVec.ofNat 4 value.length, token := overlayToken value m.token }

theorem exec_setToken {s : Nat} {σ : State} (hs : σ.slotOk s = true) (value : List Byte) :
    exec (.setToken s value) σ = .next
      (if Config.tklMax < value.length then σ.raise .caller .tokenTooLarge else σ.updateMsg s (Msg.withToken value)) :=
  congrArg Host.Outcome.next (if_pos hs)

theorem overlayToken_drop (value token : List Byte) :
    (overlayToken value token).drop value.length = token.drop value.length := List.drop_left

/-- Settles O13: the length fits the 4-bit `tkl` register, and the bytes overlay the token registers. -/
theorem setTokenWritesLengthAndBytes : Obligations.SetTokenWritesLengthAndBytes := by
  intro s value σ hs
  refine ⟨_, exec_setToken hs value, ?_⟩
  by_cases hlen : value.length ≤ 8
  · have hfits : ¬ Config.tklMax < value.length := not_lt.2 hlen
    obtain ⟨hmsg, herr, hkeeps, hframe, hquiet⟩ := (updateMsg_spec σ s (Msg.withToken value)).caller_ends
    rw [if_neg hfits, if_pos hlen, hmsg]
    refine ⟨hkeeps, hquiet, herr, ?_, overlayToken_take rfl, overlayToken_drop _ _, rfl, hframe⟩
    exact (BitVec.toNat_ofNat _ _).trans (Nat.mod_eq_of_lt (by omega))
  · have hover : Config.tklMax < value.length := not_le.1 hlen
    obtain ⟨herr, hkeeps, hframe, hquiet⟩ := raise_caller_ends σ .tokenTooLarge
    rw [if_pos hover, if_neg hlen]
    exact ⟨hkeeps, hquiet, herr, hframe⟩

theorem exec_setPayload {s : Nat} {σ : State} (hs : σ.slotOk s = true) (value : List Byte) :
    exec (.setPayload s value) σ = .next
      (if exceeds σ.params.maxPayload value.length then σ.raise .caller .invalid
        else σ.updateMsg s fun m => { m with payload := some value }) :=
  congrArg Host.Outcome.next (if_pos hs)

theorem exec_clearPayload {s : Nat} {σ : State} (hs : σ.slotOk s = true) :
    exec (.clearPayload s) σ = .next (σ.updateMsg s fun m => { m with payload := none }) :=
  congrArg Host.Outcome.next (if_pos hs)

/-- Settles O14: SET_PAYLOAD by its capacity check; CLEAR_PAYLOAD is a write that cannot fail. -/
theorem payloadWrites : Obligations.PayloadWrites := by
  intro s value σ hs
  refine ⟨⟨_, exec_setPayload hs value, ?_⟩, _, exec_clearPayload hs, (updateMsg_spec σ s _).caller_ends⟩
  by_cases hover : exceeds σ.params.maxPayload value.length
  · obtain ⟨herr, hkeeps, hframe, hquiet⟩ := raise_caller_ends σ .invalid
    rw [if_pos hover, if_pos hover]
    exact ⟨hkeeps, hquiet, herr, hframe⟩
  · obtain ⟨hmsg, herr, hkeeps, hframe, hquiet⟩ :=
      (updateMsg_spec σ s fun m => { m with payload := some value }).caller_ends
    rw [if_neg hover, if_neg hover]
    exact ⟨hkeeps, hquiet, herr, hmsg, hframe⟩

/-! FREE. -/

/-- FREE of a freed message draws no new header and token: they are unspecified already (40_message_ops.md R136). -/
theorem freedMsg_freedMsg (n k : Nat) (m : Msg) : freedMsg n (freedMsg k m) = freedMsg k m := by
  have hopts := freedMsg_opts k m
  have hpayload := freedMsg_payload k m
  rw [freedMsg, if_pos (freedMsg_hdrOpen k m)]
  generalize freedMsg k m = f at hopts hpayload
  cases f
  cases hopts
  cases hpayload
  rfl

/-- FREE as one write of the slot: a slot whose header is still specified uses up a draw. -/
theorem opFree_eq (σ : State) (s : Nat) : σ.opFree .caller (.main s) =
    ((if (σ.msg (.main s)).hdrOpen then σ else σ.draw).setMsg (.main s) (freedMsg σ.draws (σ.msg (.main s)))).done .caller := by
  unfold State.opFree
  dsimp only
  split_ifs <;> rfl

/-- The same write of a slot twice in a row is that write. -/
theorem setMsg_done_again (σ : State) (s : Nat) (m : Msg) :
    (((σ.setMsg (.main s) m).done .caller).setMsg (.main s) m).done .caller = (σ.setMsg (.main s) m).done .caller := by
  simp [State.setMsg, State.done, State.endOp, State.setCodec, State.codec, store_store]

theorem opFree_opFree (σ : State) (s : Nat) :
    (σ.opFree .caller (.main s)).opFree .caller (.main s) = σ.opFree .caller (.main s) := by
  have hslot := (opFree_spec σ .caller (.main s)).slot
  rw [opFree_eq (σ.opFree _ _), hslot, if_pos (freedMsg_hdrOpen _ _), freedMsg_freedMsg, opFree_eq σ]
  exact setMsg_done_again _ _ _

theorem exec_free {s : Nat} {σ : State} (hs : σ.slotOk s = true) :
    exec (.free s) σ = .next (σ.opFree .caller (.main s)) := congrArg Host.Outcome.next (if_pos hs)

/-- Settles O18: FREE is a write of the freed message, and `opFree_opFree`. -/
theorem freeEmptiesTheSlotOnce : Obligations.FreeEmptiesTheSlotOnce := by
  intro s σ hs
  obtain ⟨hmsg, herr, hkeeps, hframe, hquiet⟩ := (opFree_spec σ .caller (.main s)).caller_ends
  have hopts := freedMsg_opts σ.draws (σ.msg (.main s))
  have hpayload := freedMsg_payload σ.draws (σ.msg (.main s))
  have hs' := (slotOk_congr hframe.params s).trans hs
  refine ⟨_, exec_free hs, ?_, ?_, ?_, herr, hkeeps, hframe, hquiet,
    (exec_free hs').trans (congrArg _ (opFree_opFree σ s))⟩
  · rw [hmsg, Msg.optCount, hopts]; rfl
  · rw [hmsg, Msg.hasPayload, hpayload]; rfl
  · rw [hmsg, Msg.payloadLen, hpayload]; rfl

/-! BUILD_EMPTY_ACK and BUILD_RST_FOR. -/

/-- Both constructors check their slots, then build the empty reply of their kind (40_message_ops.md R137, R138). -/
theorem exec_buildEmpty (d r : Nat) (σ : State) :
    ∀ p ∈ [(Instr.buildEmptyAck d r, Kind.ack), (Instr.buildRstFor d r, Kind.rst)],
      exec p.1 σ = .next (if σ.slotOk d && σ.slotOk r && decide (d ≠ r) then σ.opBuildEmpty .caller p.2 (.main d) (.main r)
        else σ.raise .caller .invalid) := by
  simp only [List.forall_mem_cons, List.not_mem_nil, false_implies, implies_true, and_true]
  exact ⟨rfl, rfl⟩

/-- Settles O19: past the check of the slots the reply is one write, and a failed check is a raise. -/
theorem emptyRepliesMirrorTheId : Obligations.EmptyRepliesMirrorTheId := by
  intro d r σ p hp
  rw [exec_buildEmpty d r σ p hp]
  constructor
  · intro hd hr hne
    have hok : (σ.slotOk d && σ.slotOk r && decide (d ≠ r)) = true := by simp [hd, hr, hne]
    exact ⟨_, congrArg _ (if_pos hok), (opBuildEmpty_spec σ .caller p.2 (.main d) (.main r)).caller_ends⟩
  · intro hbad
    have hrefused : ¬ (σ.slotOk d && σ.slotOk r && decide (d ≠ r)) = true := by
      rcases hbad with h | h | h <;> simp [h]
    exact ⟨_, congrArg _ (if_neg hrefused), raise_caller_ends σ .invalid⟩

end Sys2Proof.Machine
end

section
/-! SUPPORT. SERIALIZE for the caller (41_serialize.md): where each part of the message stands in the buffer, the checks in
order, and what the outcome depends on. -/

namespace Sys2Proof.Machine

/-! A byte string at an offset of a buffer. -/

/-- Buffer `r` holds `bytes` from offset `off` on. -/
def State.HoldsAt (t : State) (r : BufRef) (off : Nat) (bytes : List Byte) : Prop :=
  ∀ i, i < bytes.length → t.readByte r (off + i) = bytes.getD i 0

section HoldsAt
variable {t : State} {r : BufRef} {off : Nat} {u v : List Byte}

theorem holdsAt_load {b : Buf} (h : t.buf r = b.load v) : t.HoldsAt r 0 v := fun i hi => by
  rw [State.readByte, h, Buf.read_load _ _ _ (by omega), Nat.zero_add]

/-- Past the bytes a load writes, the buffer reads as before. -/
theorem readByte_load_past {σ : State} (h : t.buf r = (σ.buf r).load v) {a : Nat} (ha : v.length ≤ a) :
    t.readByte r a = σ.readByte r a := by
  rw [State.readByte, h, Buf.read_load_past _ _ _ ha, State.readByte]

theorem State.HoldsAt.left (h : t.HoldsAt r off (u ++ v)) : t.HoldsAt r off u := fun i hi => by
  rw [h i (by rw [List.length_append]; omega), List.getD_append _ _ _ _ hi]

theorem State.HoldsAt.right (h : t.HoldsAt r off (u ++ v)) : t.HoldsAt r (off + u.length) v := fun i hi => by
  have hread := h (u.length + i) (by rw [List.length_append]; omega)
  rwa [List.getD_append_right _ _ _ _ (Nat.le_add_right _ _), Nat.add_sub_cancel_left, ← Nat.add_assoc] at hread

theorem State.HoldsAt.head {x : Byte} (h : t.HoldsAt r off (x :: v)) : t.readByte r off = x := h 0 (Nat.succ_pos _)

theorem State.HoldsAt.tail {x : Byte} (h : t.HoldsAt r off (x :: v)) : t.HoldsAt r (off + 1) v :=
  State.HoldsAt.right (u := [x]) h

end HoldsAt

/-! The parts of the wire image, each at its offset. -/

section Parts
variable {t : State} {r : BufRef} {m : Msg} {off : Nat}

/-- The parts of the wire image follow one another at the offsets of the size formula (30_encoding.md R115). -/
theorem holdsAt_parts {n : Nat} (ht : m.tkl.toNat ≤ m.token.length) (he : encodable n 0 m.opts = true)
    (h : t.HoldsAt r 0 (headPart m ++ (encodeOpts n 0 m.opts).bytes ++ payloadPart m.payload)) :
    t.HoldsAt r 0 (headerBytes m.version m.kind m.tkl m.code m.mid) ∧ t.HoldsAt r 4 m.tokenBytes ∧
      t.HoldsAt r (4 + m.tkl.toNat) (encodeOpts n 0 m.opts).bytes ∧
      t.HoldsAt r (4 + m.tkl.toNat + (m.opts.map fun o => 1 + o.value.length).sum) (payloadPart m.payload) := by
  have hopts := h.left.right
  have hpayload := h.right
  rw [headPart_length ht, Nat.zero_add] at hopts
  rw [List.length_append, encodeOpts_length he, headPart_length ht, Nat.zero_add] at hpayload
  exact ⟨h.left.left.left, h.left.left.right, hopts, hpayload⟩

/-- The four header bytes (41_serialize.md R166). -/
theorem readByte_header (h : t.HoldsAt r 0 (headerBytes m.version m.kind m.tkl m.code m.mid)) :
    (t.readByte r 0).toNat = m.version.toNat * 64 + m.kind.bits.toNat * 16 + m.tkl.toNat ∧ t.readByte r 1 = m.code ∧
      (t.readByte r 2).toNat = m.mid.toNat / 256 ∧ (t.readByte r 3).toNat = m.mid.toNat % 256 := by
  rw [h.head, h.tail.head, h.tail.tail.head, h.tail.tail.tail.head]
  exact ⟨headByte_toNat _ _ _, rfl, midHigh_toNat _, midLow_toNat _⟩

/-- The token bytes are the first `tkl` token registers (R167). -/
theorem readByte_token (h : t.HoldsAt r off m.tokenBytes) (ht : m.tkl.toNat ≤ m.token.length) (i : Nat)
    (hi : i < m.tkl.toNat) : t.readByte r (off + i) = m.token.getD i 0 := by
  rw [h i (by rwa [tokenBytes_length ht])]
  simp [Msg.tokenBytes, List.getD, hi]

/-- An option among others: its header byte and its value, after the bytes of the options before it (R168). -/
theorem readByte_option {n prev : Nat} {before after : List Opt} {o : Opt} (hn : n ≤ 15)
    (he : encodable n prev (before ++ o :: after) = true)
    (h : t.HoldsAt r off (encodeOpts n prev (before ++ o :: after)).bytes) :
    (t.readByte r (off + (before.map fun o => 1 + o.value.length).sum)).toNat =
        (o.number - lastFrom prev before) * 16 + o.value.length ∧
      t.HoldsAt r (off + (before.map fun o => 1 + o.value.length).sum + 1) o.value := by
  simp only [encodable_append, encodable, Bool.and_eq_true, decide_eq_true_eq] at he
  obtain ⟨hbefore, ⟨hdelta, hlen⟩, -⟩ := he
  rw [encodeOpts_append hbefore, encodeOpts_cons _ _ _ _ hdelta hlen] at h
  have hopt := h.right
  rw [encodeOpts_length hbefore] at hopt
  refine ⟨?_, hopt.tail.left⟩
  rw [hopt.head, optByte_toNat, BitVec.toNat_ofNat, BitVec.toNat_ofNat, Nat.mod_eq_of_lt (by omega),
    Nat.mod_eq_of_lt (by omega)]

end Parts

/-! The ends of SERIALIZE. -/

theorem exceeds_some (cap n : Nat) : exceeds (some cap) n = decide (cap < n) := rfl

/-- The checks of SERIALIZE into a buffer of `cap` bytes, in order (41_serialize.md R165, R171, R172). -/
theorem serialize_err_some (nib : NibMax) (m : Msg) (cap : Nat) :
    (serialize nib m (some cap)).err =
      if sortedOpts m.opts = false then .invalid
      else if 8 < m.tkl.toNat then .tokenTooLarge
      else if cap < wireSize m then .truncated
      else if encodable nib.value 0 m.opts = false then .optionsNotSupported
      else .ok := by
  simp only [serialize_err, exceeds_some, decide_eq_true_eq, Config.tklMax]
  cases encodable nib.value 0 m.opts <;> rfl

@[simp] theorem freeBytes_length (draw a n : Nat) : (freeBytes draw a n).length = n := by
  induction n generalizing a with
  | zero => rfl
  | succ n ih => rw [freeBytes, List.length_cons, ih]

section Ends
variable {σ : State} {a : Agent} {r : SlotRef} {b : BufRef} {cap : Option Nat}

/-- A check that fails before the first byte is written leaves a raise (41_serialize.md R165, R172). -/
theorem opSerialize_stopped {e : Err} (h : (serialize σ.params.nibMax (σ.msg r) cap).err = e) (hok : e ≠ .ok)
    (hopt : e ≠ .optionsNotSupported) : σ.opSerialize a r b cap = σ.raise a e := by
  subst h
  cases opSerialize_spec σ a r b cap with
  | wrote hend => exact absurd hend hok
  | clobbered hend => exact absurd hend hopt
  | stopped _ heq => exact heq

/-- For the caller such a failure changes `ERR` and the result alone. -/
theorem opSerialize_caller_stopped {s : Nat} {e : Err}
    (h : (serialize σ.params.nibMax (σ.msg (.main s)) cap).err = e) (hok : e ≠ .ok) (hopt : e ≠ .optionsNotSupported) :
    (σ.opSerialize .caller (.main s) b cap).caller.err = e ∧
      Codec.Keeps σ.caller (σ.opSerialize .caller (.main s) b cap).caller ∧
      Frame (Touched.codec .caller) σ (σ.opSerialize .caller (.main s) b cap) := by
  obtain ⟨hend, hkeeps, hframe, -⟩ := raise_caller_ends σ e
  rw [opSerialize_stopped h hok hopt]
  exact ⟨hend, hkeeps, hframe⟩

/-- OptionsNotSupported leaves the valid length and the bytes from the capacity on (R171). -/
theorem opSerialize_clobbered {c : Nat} (h : (serialize σ.params.nibMax (σ.msg r) (some c)).err = .optionsNotSupported) :
    ((σ.opSerialize a r b (some c)).buf b).len = (σ.buf b).len ∧
      ∀ i, c ≤ i → (σ.opSerialize a r b (some c)).readByte b i = σ.readByte b i := by
  cases opSerialize_spec σ a r b (some c) with
  | wrote hend => cases h.symm.trans hend
  | clobbered _ hlen hmem =>
    refine ⟨hlen, fun i hi => ?_⟩
    rw [State.readByte, hmem, Memory.read_writeBytes, clobbered, freeBytes_length, if_neg (by omega)]
    rfl
  | stopped hend => rcases hend with hend | hend | hend <;> cases h.symm.trans hend

end Ends

/-- The agent's result after SERIALIZE: the size on success, nothing on an error (R170). -/
theorem opSerialize_result (σ : State) (a : Agent) (r : SlotRef) (b : BufRef) (cap : Option Nat) :
    ((σ.opSerialize a r b cap).codec a).result =
      if (serialize σ.params.nibMax (σ.msg r) cap).err = .ok then
        some (serialize σ.params.nibMax (σ.msg r) cap).bytes.length else none := by
  cases opSerialize_spec σ a r b cap with
  | wrote hend _ hcodec => rw [hcodec, if_pos hend]
  | clobbered hend _ _ hcodec => rw [hcodec, hend]; rfl
  | stopped hend hraise =>
    have hbad : (serialize σ.params.nibMax (σ.msg r) cap).err ≠ .ok := by
      rcases hend with hend | hend | hend <;> rw [hend] <;> decide
    rw [hraise, State.codec_raise_same, if_neg hbad, Codec.ended_result]

/-! The statements. -/

/-- Settles O22: the buffer holds header, token, options and payload one after another (`serialize_ok`), and each part is
read at the length of the parts before it. -/
theorem serializeWritesTheWireBytes : Obligations.SerializeWritesTheWireBytes := by
  intro s b cap σ hs htoken hsorted htkl hcap henc
  refine ⟨_, exec_serialize_buffer hs, ?_⟩
  obtain ⟨hframe, hquiet⟩ := opSerialize_frame σ .caller (.main s) (.caller b) (some cap)
  have ht : (σ.msg (.main s)).tkl.toNat ≤ (σ.msg (.main s)).token.length := by omega
  have hser := serialize_ok (cap := some cap) hsorted htkl (by simpa [exceeds_some] using hcap) henc
  have herr := congrArg SerOut.err hser
  have hlen := serialize_length herr ht
  obtain ⟨hbuf, hcodec, -⟩ := opSerialize_ok (a := .caller) (b := .caller b) herr
  rw [State.codec_caller, State.codec_caller, hlen] at hcodec
  generalize σ.opSerialize .caller (.main s) (.caller b) (some cap) = t at hframe hquiet hbuf hcodec ⊢
  obtain ⟨hheader, htokens, hopts, hpayload⟩ := holdsAt_parts ht henc (hser ▸ holdsAt_load hbuf)
  obtain ⟨hbyte0, hbyte1, hbyte2, hbyte3⟩ := readByte_header hheader
  refine ⟨by rw [hcodec], by rw [hcodec], by rw [hcodec], by rw [hcodec, hser], by rw [hcodec],
    by rw [hbuf, Buf.load_len, hlen], hbyte0, hbyte1, hbyte2, hbyte3, readByte_token htokens ht, ?options, ?payload,
    fun a ha => readByte_load_past hbuf (hlen ▸ ha), hframe, hquiet⟩
  case options =>
    intro before o after hsplit
    rw [hsplit] at hopts henc
    exact readByte_option σ.params.nibMax.value_le.2 henc hopts
  case payload =>
    intro p hp
    rw [hp] at hpayload
    exact ⟨hpayload.head, hpayload.tail⟩

/-- Settles O23: the first check that fails names the error (`serialize_err_some`); the first three raise it, the last
writes over the capacity. -/
theorem serializeErrorsInOrder : Obligations.SerializeErrorsInOrder := by
  intro s b cap σ hs
  obtain ⟨hframe, hquiet⟩ := opSerialize_frame σ .caller (.main s) (.caller b) (some cap)
  refine ⟨_, exec_serialize_buffer hs, hquiet, ?_⟩
  have hcaller := opSerialize_err σ .caller (.main s) (.caller b) (some cap)
  have herr := serialize_err_some σ.params.nibMax (σ.msg (.main s)) cap
  split_ifs at herr ⊢ with hunsorted hlong hshort hwide
  · exact opSerialize_caller_stopped herr (by decide) (by decide)
  · exact opSerialize_caller_stopped herr (by decide) (by decide)
  · exact opSerialize_caller_stopped herr (by decide) (by decide)
  · obtain ⟨hlen, hpast⟩ := opSerialize_clobbered (a := .caller) (b := .caller b) herr
    exact ⟨hcaller.trans herr, hlen, hpast, hframe⟩
  · exact hcaller.trans herr

/-- Settles O24: past the first two checks the error of `serialize_err_some` depends on the capacity check, which fails one
byte below the size and passes at the size. -/
theorem serializeTruncationBoundary : Obligations.SerializeTruncationBoundary := by
  intro s b σ hs hsorted htkl
  have herr (cap : Nat) : (σ.opSerialize .caller (.main s) (.caller b) (some cap)).caller.err =
      if cap < wireSize (σ.msg (.main s)) then .truncated
      else if encodable σ.params.nibMax.value 0 (σ.msg (.main s)).opts = false then .optionsNotSupported else .ok := by
    refine (opSerialize_err σ .caller (.main s) (.caller b) (some cap)).trans ?_
    rw [serialize_err_some, if_neg (by simp [hsorted]), if_neg (not_lt.2 htkl)]
  have hpos : 0 < wireSize (σ.msg (.main s)) := by unfold wireSize; omega
  refine ⟨⟨_, exec_serialize_buffer hs, (herr _).trans (if_pos (Nat.sub_one_lt_of_lt hpos))⟩,
    _, exec_serialize_buffer hs, (herr _).trans ((if_neg (lt_irrefl _)).trans ?_)⟩
  cases encodable σ.params.nibMax.value 0 (σ.msg (.main s)).opts <;> rfl

/-- Settles O25: `ERR`, the result and the bytes are those of the pure `serialize`, which the two states call alike. -/
theorem serializeIsAFunctionOfMessageAndCapacity : Obligations.SerializeIsAFunctionOfMessageAndCapacity := by
  intro s s' b b' cap σ σ' hs hs' hnib hmsg
  have hsame : serialize σ.params.nibMax (σ.msg (.main s)) (some cap) =
      serialize σ'.params.nibMax (σ'.msg (.main s')) (some cap) := by rw [hnib, hmsg]
  have herr := opSerialize_err σ .caller (.main s) (.caller b) (some cap)
  have herr' := opSerialize_err σ' .caller (.main s') (.caller b') (some cap)
  have hresult := opSerialize_result σ .caller (.main s) (.caller b) (some cap)
  have hresult' := opSerialize_result σ' .caller (.main s') (.caller b') (some cap)
  obtain ⟨hframe, -⟩ := opSerialize_frame σ .caller (.main s) (.caller b) (some cap)
  rw [hsame] at herr hresult
  refine ⟨_, _, exec_serialize_buffer hs, exec_serialize_buffer hs', herr.trans herr'.symm,
    hresult.trans hresult'.symm, ?_, hframe.slots _ List.not_mem_nil⟩
  intro hok
  have hok' := herr.symm.trans hok
  obtain ⟨hbuf, -⟩ := opSerialize_ok (a := .caller) (b := .caller b) (hsame ▸ hok')
  obtain ⟨hbuf', -⟩ := opSerialize_ok (a := .caller) (b := .caller b') hok'
  rw [hbuf, hbuf', Buf.bytes_load, Buf.bytes_load, hsame]

end Sys2Proof.Machine
end

section
/-! SUPPORT. PARSE for the caller (42_parse.md): the source it reads, the one write it ends in, its checks in order, and its
rounds one by one. -/

namespace Sys2Proof.Machine

/-! The source operand. -/

theorem sourcePrefix_eq_some_iff (σ : State) (source : Source) (n : Nat) (bytes : List Byte) :
    σ.sourcePrefix source n = some bytes ↔
      (∃ v, source = .bytes v ∧ n ≤ v.length ∧ bytes = v.take n) ∨
        ∃ b, source = .buffer b ∧ n ≤ (σ.buf (.caller b)).len ∧ bytes = (σ.buf (.caller b)).bytes.take n := by
  cases source <;> simp [State.sourcePrefix, State.sourceBytes, eq_comm]

theorem sourcePrefix_eq_none_iff (σ : State) (source : Source) (n : Nat) :
    σ.sourcePrefix source n = none ↔
      source = .missing ∨ (∃ v, source = .bytes v ∧ v.length < n) ∨
        ∃ b, source = .buffer b ∧ (σ.buf (.caller b)).len < n := by
  cases source <;> simp [State.sourcePrefix, State.sourceBytes]

/-! The one write that PARSE and each of its rounds end in. -/

/-- Slot `d` and the caller's codec registers take an outcome of PARSE; an error uses up a draw. -/
def State.endParse (σ : State) (d : Nat) (o : ParseOut) : State :=
  ((if o.err = .ok then σ else σ.draw).storeParse .caller (.main d) o).endOp .caller o.err none

theorem endParse_spec (σ : State) (d : Nat) (o : ParseOut) : ParseOp .caller (.main d) o σ (σ.endParse d o) where
  slot := by unfold State.endParse State.storeParse; split_ifs <;> simp
  codec := by unfold State.endParse State.storeParse; split_ifs <;> simp
  draws := by unfold State.endParse State.storeParse; split_ifs <;> simp
  bufs b := by unfold State.endParse State.storeParse; split_ifs <;> simp
  frame := by
    have hstore (u : State) := (frame_storeParse (τ := Touched.slot d) u .caller (.main d) o (by simp [Touched.slot])
      (by simp [Touched.slot])).trans (frame_endOp _ .caller o.err none (by simp [Touched.slot]))
    unfold State.endParse
    split_ifs
    · exact hstore σ
    · exact (frame_draw σ).trans (hstore σ.draw)
  quiet := by
    have hstore (u : State) := (quiet_storeParse u .caller (.main d) o).trans (quiet_endOp _ .caller o.err none)
    unfold State.endParse
    split_ifs
    · exact hstore σ
    · exact (quiet_draw σ).trans (hstore σ.draw)

section EndParse
variable (σ : State) (d : Nat) (o : ParseOut)

@[simp] theorem endParse_msg : (σ.endParse d o).msg (.main d) = o.msg := (endParse_spec σ d o).slot

@[simp] theorem endParse_caller : (σ.endParse d o).caller =
    { pos := o.pos, prev := o.prev, err := o.err, hdrValid := o.hdrValid, result := none } := (endParse_spec σ d o).codec

@[simp] theorem endParse_params : (σ.endParse d o).params = σ.params := (endParse_spec σ d o).frame.params

theorem endParse_draws (h : o.err = .ok) : (σ.endParse d o).draws = σ.draws := by
  rw [(endParse_spec σ d o).draws, if_pos h, Nat.add_zero]

theorem endParse_frame : Frame (Touched.slot d) σ (σ.endParse d o) := (endParse_spec σ d o).frame

theorem endParse_quiet : Quiet σ (σ.endParse d o) := (endParse_spec σ d o).quiet

/-- After a write without an error the next one counts alone. -/
theorem endParse_endParse (o' : ParseOut) (h : o.err = .ok) : (σ.endParse d o).endParse d o' = σ.endParse d o' := by
  unfold State.endParse
  rw [if_pos h]
  split_ifs <;>
    simp [State.storeParse, State.setMsg, State.setCodec, State.endOp, State.codec, State.draw, store_store]

end EndParse

/-! PARSE as one write. -/

/-- The outcome of PARSE for what the source gives: order 0 of its checks fails when it gives nothing (42_parse.md R196). -/
def parseSource (P : Params) (draw : Nat) (old : Msg) : Option (List Byte) → ParseOut
  | none => { err := .invalid, hdrValid := false, pos := 0, prev := 0, msg := openMsg draw }
  | some bytes => parse P draw old bytes

theorem opParse_eq_endParse (σ : State) (d : Nat) (bytes : List Byte) :
    σ.opParse .caller (.main d) bytes = σ.endParse d (parse σ.params σ.draws (σ.msg (.main d)) bytes) := by
  unfold State.opParse State.endParse
  dsimp only
  split_ifs <;> rfl

theorem exec_parse {d : Nat} {σ : State} (hd : σ.slotOk d = true) (source : Source) (n : Nat) :
    exec (.parse d source n) σ =
      .next (σ.endParse d (parseSource σ.params σ.draws (σ.msg (.main d)) (σ.sourcePrefix source n))) := by
  refine congrArg Host.Outcome.next ((if_pos hd).trans ?_)
  cases σ.sourcePrefix source n with
  | none => exact congrArg (State.raise · .caller .invalid) (if_pos hd)
  | some bytes => exact opParse_eq_endParse σ d bytes

theorem exec_parse_some {d n : Nat} {σ : State} {source : Source} {bytes : List Byte} (hd : σ.slotOk d = true)
    (h : σ.sourcePrefix source n = some bytes) :
    exec (.parse d source n) σ = .next (σ.endParse d (parse σ.params σ.draws (σ.msg (.main d)) bytes)) := by
  rw [exec_parse hd, h, parseSource]

/-- A destination that is no slot ends PARSE in the codec registers (42_parse.md R196). -/
theorem exec_parse_noSlot {d : Nat} {σ : State} (hd : σ.slotOk d = false) (source : Source) (n : Nat) :
    exec (.parse d source n) σ =
      .next ((σ.setCodec .caller { σ.caller with pos := 0, prev := 0, hdrValid := false }).raise .caller .invalid) := by
  have hbad : ¬ σ.slotOk d = true := by rw [hd]; decide
  refine congrArg Host.Outcome.next ((if_neg hbad).trans ?_)
  exact congrArg (State.raise · .caller .invalid) (if_neg hbad)

/-! The header fields in the spec's numbers (30_encoding.md R91). -/

theorem headVersion_toNat (b : Byte) : (headVersion b).toNat = b.toNat / 64 := by revert b; decide

theorem headKind_bits_toNat (b : Byte) : (headKind b).bits.toNat = b.toNat / 16 % 4 := by revert b; decide

theorem headTkl_toNat (b : Byte) : (headTkl b).toNat = b.toNat % 16 := by revert b; decide

theorem headVersion_eq_one_iff (b : Byte) : headVersion b = 1 ↔ b.toNat / 64 = 1 := by
  rw [← headVersion_toNat, ← BitVec.toNat_inj]; rfl

/-! The checks after the header (42_parse.md R183 to R185). -/

section Checks
variable {P : Params} {draw : Nat} {old : Msg} {b0 b1 b2 b3 : Byte} {rest : List Byte}

/-- What PARSE leaves when a check between the header and the token fails. -/
def headerStop (draw : Nat) (e : Err) (m : Msg) : ParseOut :=
  { err := e, hdrValid := true, pos := 4, prev := 0, msg := headerOnly draw m }

theorem parse_badVersion (hv : headVersion b0 ≠ 1) :
    parse P draw old (b0 :: b1 :: b2 :: b3 :: rest) = headerStop draw .versionMismatch (headerOf old b0 b1 b2 b3) :=
  if_pos hv

theorem parse_longToken (hv : headVersion b0 = 1) (ht : 8 < (headTkl b0).toNat) :
    parse P draw old (b0 :: b1 :: b2 :: b3 :: rest) = headerStop draw .tokenTooLarge (headerOf old b0 b1 b2 b3) :=
  (if_neg (not_not.2 hv)).trans (if_pos ht)

theorem parse_shortToken (hv : headVersion b0 = 1) (ht : (headTkl b0).toNat ≤ 8) (hr : rest.length < (headTkl b0).toNat) :
    parse P draw old (b0 :: b1 :: b2 :: b3 :: rest) = headerStop draw .truncated (headerOf old b0 b1 b2 b3) :=
  (if_neg (not_not.2 hv)).trans ((if_neg (not_lt.2 ht)).trans (if_pos hr))

/-- The token of a successful PARSE is the `tkl` bytes after the header (R185). -/
theorem parse_tokenBytes (h : (parse P draw old (b0 :: b1 :: b2 :: b3 :: rest)).err = .ok) :
    (parse P draw old (b0 :: b1 :: b2 :: b3 :: rest)).msg.tokenBytes = rest.take (headTkl b0).toNat := by
  obtain ⟨_, _, _, _, _, heq, -, -, hlen, -, hparse⟩ := parse_ok h
  simp only [List.cons.injEq] at heq
  obtain ⟨rfl, rfl, rfl, rfl, rfl⟩ := heq
  rw [hparse]
  exact overlayToken_take (List.length_take_of_le hlen)

end Checks

/-- From four bytes on the header is decoded, whatever the end (42_parse.md R182). -/
theorem parse_hdrValid {P : Params} {draw : Nat} {old : Msg} {bytes : List Byte} (h : 4 ≤ bytes.length) :
    (parse P draw old bytes).hdrValid = true := by
  by_cases herr : (parse P draw old bytes).err = .ok
  · obtain ⟨_, _, _, _, _, -, -, -, -, -, hparse⟩ := parse_ok herr
    rw [hparse]
  · rcases parse_failed herr with ⟨-, hshort⟩ | ⟨_, _, _, _, _, -, hvalid, -⟩
    · omega
    · exact hvalid

/-- A failed PARSE leaves no options and no payload, order 0 among the failures (42_parse.md R194). -/
theorem parseSource_failed {P : Params} {draw : Nat} {old : Msg} {source : Option (List Byte)}
    (h : (parseSource P draw old source).err ≠ .ok) :
    (parseSource P draw old source).msg.opts = [] ∧ (parseSource P draw old source).msg.payload = none ∧
      ((parseSource P draw old source).hdrValid = true →
        ∃ b0 b1 b2 b3 rest, source = some (b0 :: b1 :: b2 :: b3 :: rest) ∧
          (parseSource P draw old source).msg = headerOnly draw (headerOf old b0 b1 b2 b3)) := by
  cases source with
  | none => exact ⟨rfl, rfl, fun hvalid => Bool.noConfusion hvalid⟩
  | some bytes =>
    rw [parseSource] at h ⊢
    rcases parse_failed h with ⟨hparse, -⟩ | ⟨b0, b1, b2, b3, rest, rfl, -, hmsg⟩
    · rw [hparse]; exact ⟨rfl, rfl, fun hvalid => Bool.noConfusion hvalid⟩
    · rw [hmsg]; exact ⟨rfl, rfl, fun _ => ⟨b0, b1, b2, b3, rest, rfl, rfl⟩⟩

/-! One round (42_parse.md R186 to R192). -/

section Rounds
variable {P : Params} {count prev : Nat} {rest : List Byte} {delta length : BitVec 4}

theorem parseRound_marker : parseRound P count prev Config.payloadMarker rest =
    if exceeds P.maxPayload rest.length then .stop .invalid 1 else .payload rest := if_pos rfl

theorem parseRound_reserved (h : optByte delta length ≠ Config.payloadMarker)
    (hres : delta = Config.nibReserved ∨ length = Config.nibReserved) :
    parseRound P count prev (optByte delta length) rest = .stop .optionsNotSupported 0 := by
  rw [parseRound, if_neg h, if_pos (by rwa [optDelta_optByte, optLength_optByte])]

theorem parseRound_option (hd : delta ≠ Config.nibReserved) (hl : length ≠ Config.nibReserved) :
    parseRound P count prev (optByte delta length) rest =
      if rest.length < length.toNat then .stop .truncated 1
      else if fullAt P.maxOptions count then .stop .invalid 1
      else .entry { number := prev + delta.toNat, value := rest.take length.toNat } (rest.drop length.toNat) := by
  have hmarker : optByte delta length ≠ Config.payloadMarker := fun h => hd ((optByte_eq_marker _ _).1 h).1
  rw [parseRound, if_neg hmarker, optDelta_optByte, optLength_optByte, if_neg (not_or.2 ⟨hd, hl⟩)]

end Rounds

theorem exec_decodeOpt (b : Byte) (d : Nat) (rest : List Byte) (σ : State) :
    exec (decodeOpt b d rest) σ = .next (σ.optRound d b rest) := by
  have hbyte := optByte_fields b
  unfold decodeOpt
  split_ifs with hmarker hdelta hlength
  · rw [hmarker]; rfl
  · rw [hdelta] at hbyte; exact congrArg (fun b => Host.Outcome.next (σ.optRound d b rest)) hbyte
  · rw [hlength] at hbyte; exact congrArg (fun b => Host.Outcome.next (σ.optRound d b rest)) hbyte
  · exact congrArg (fun b => Host.Outcome.next (σ.optRound d b rest)) hbyte

/-- Every OPT row is the round of one byte (30_encoding.md R102). -/
theorem exec_optRow {d : Nat} {delta length : BitVec 4} {rest : List Byte} (σ : State) :
    ∀ i ∈ [Instr.optMarker d rest, .optRsvdDelta length d rest, .optRsvdLen delta d rest, .optEntry delta length d rest],
      ∃ b, exec i σ = .next (σ.optRound d b rest) := by
  simp only [List.forall_mem_cons, List.not_mem_nil, false_implies, implies_true, and_true]
  exact ⟨⟨_, rfl⟩, ⟨_, rfl⟩, ⟨_, rfl⟩, ⟨_, rfl⟩⟩

/-- The two rows of one reserved nibble are rounds that stop before they consume a byte (42_parse.md R189). -/
theorem exec_reservedRow {d : Nat} {delta length : BitVec 4} {rest : List Byte} (σ : State)
    (hdelta : delta ≠ Config.nibReserved) (hlength : length ≠ Config.nibReserved) :
    ∀ i ∈ [Instr.optRsvdDelta length d rest, .optRsvdLen delta d rest],
      ∃ b, exec i σ = .next (σ.optRound d b rest) ∧
        ∀ P count prev, parseRound P count prev b rest = .stop .optionsNotSupported 0 := by
  simp only [List.forall_mem_cons, List.not_mem_nil, false_implies, implies_true, and_true]
  exact ⟨⟨_, rfl, fun _ _ _ => parseRound_reserved (fun h => hlength ((optByte_eq_marker _ _).1 h).2) (.inl rfl)⟩,
    ⟨_, rfl, fun _ _ _ => parseRound_reserved (fun h => hdelta ((optByte_eq_marker _ _).1 h).1) (.inr rfl)⟩⟩

theorem optRound_outside {σ : State} {d : Nat} (h : inRound σ.caller.prev (σ.msg (.main d)) = false) (b : Byte)
    (rest : List Byte) : σ.optRound d b rest = σ.raise .caller .invalid := if_pos (.inr h)

/-! A round inside a PARSE is one write of the slot and the codec registers, by what the round of the loop is. -/

section OptRound
variable {σ : State} {d : Nat} {b : Byte} {rest : List Byte} (hd : σ.slotOk d = true)
  (hin : inRound σ.caller.prev (σ.msg (.main d)) = true)
include hd hin

theorem optRound_inside : ¬ (σ.slotOk d = false ∨ inRound σ.caller.prev (σ.msg (.main d)) = false) := by
  simp [hd, hin]

theorem optRound_entry {o : Opt} {rest' : List Byte}
    (h : parseRound σ.params (σ.msg (.main d)).opts.length σ.caller.prev b rest = .entry o rest') :
    σ.optRound d b rest = σ.endParse d
      { err := .ok, hdrValid := σ.caller.hdrValid, pos := σ.caller.pos + 1 + o.value.length, prev := o.number,
        msg := { σ.msg (.main d) with opts := (σ.msg (.main d)).opts ++ [o] } } := by
  refine (if_neg (optRound_inside hd hin)).trans ?_
  rw [h]; rfl

theorem optRound_payload {p : List Byte}
    (h : parseRound σ.params (σ.msg (.main d)).opts.length σ.caller.prev b rest = .payload p) :
    σ.optRound d b rest = σ.endParse d
      { err := .ok, hdrValid := σ.caller.hdrValid, pos := σ.caller.pos + 1 + p.length, prev := σ.caller.prev,
        msg := { σ.msg (.main d) with payload := some p } } := by
  refine (if_neg (optRound_inside hd hin)).trans ?_
  rw [h]; rfl

theorem optRound_stop {e : Err} {k : Nat}
    (h : parseRound σ.params (σ.msg (.main d)).opts.length σ.caller.prev b rest = .stop e k) :
    σ.optRound d b rest = σ.endParse d
      { err := e, hdrValid := σ.caller.hdrValid, pos := σ.caller.pos + k, prev := σ.caller.prev,
        msg := headerOnly σ.draws (σ.msg (.main d)) } := by
  refine (if_neg (optRound_inside hd hin)).trans ?_
  rw [h]
  rcases parseRound_stop h with rfl | rfl | ⟨rfl, -⟩ <;> rfl

end OptRound

/-! The loop as rounds (42_parse.md R186). -/

theorem parseLoop_nil (P : Params) (n : Nat) (opts : List Opt) (prev pos : Nat) :
    parseLoop P n [] opts prev pos = { err := .ok, opts := opts, payload := none, prev := prev, pos := pos } := by
  cases n <;> rfl

/-- The outcome of PARSE of a decoded header and token `m` by where its loop ends (R194, R195). -/
def LoopOut.outcome (draw : Nat) (m : Msg) (l : LoopOut) : ParseOut :=
  { err := l.err, hdrValid := true, pos := l.pos, prev := l.prev
    msg := if l.err = .ok then { m with opts := l.opts, payload := l.payload } else headerOnly draw m }

/-- A message with the header fields and the token of the wire. -/
def withHead (old : Msg) (b0 b1 b2 b3 : Byte) (token : List Byte) : Msg :=
  { headerOf old b0 b1 b2 b3 with token := overlayToken token old.token }

/-- PARSE past its checks is the loop over the bytes after the token. -/
theorem parse_token {P : Params} {draw : Nat} {old : Msg} {b0 b1 b2 b3 : Byte} {token : List Byte}
    (hv : headVersion b0 = 1) (ht : (headTkl b0).toNat ≤ 8) (htoken : token.length = (headTkl b0).toNat) (rest : List Byte) :
    parse P draw old (b0 :: b1 :: b2 :: b3 :: (token ++ rest)) =
      (parseLoop P (token ++ rest).length rest [] 0 (4 + token.length)).outcome draw (withHead old b0 b1 b2 b3 token) := by
  have hfits : ¬ (token ++ rest).length < (headTkl b0).toNat := by rw [List.length_append]; omega
  refine (if_neg (not_not.2 hv)).trans ((if_neg (not_lt.2 ht)).trans ((if_neg hfits).trans ?_))
  simp only [headerOf, Config.hdrLen, ← htoken, List.drop_left, List.take_left]
  unfold LoopOut.outcome
  split_ifs with hok
  · rw [hok]; rfl
  · rfl

/-- The outcome of PARSE between two rounds, `opts` seen so far. -/
def betweenRounds (m : Msg) (opts : List Opt) (pos : Nat) : ParseOut :=
  { err := .ok, hdrValid := true, pos := pos, prev := lastNumber opts, msg := { m with opts := opts, payload := none } }

theorem execRounds_cons {d n : Nat} {b : Byte} {rest : List Byte} {s t : State} (h : s.optRound d b rest = t) :
    execRounds d (n + 1) (b :: rest) s =
      if t.caller.err = .ok ∧ b ≠ Config.payloadMarker then execRounds d n (rest.drop (optLength b).toNat) t
      else .next t := by
  rw [execRounds, exec_decodeOpt, h]

/-- The OPT instructions from between two rounds on leave what the loop from there on leaves, by induction over the bytes
left. -/
theorem execRounds_eq_parseLoop {σ : State} {d : Nat} (hd : σ.slotOk d = true) (m : Msg) {n n' : Nat} {bytes : List Byte}
    {opts : List Opt} {pos : Nat} (hn : bytes.length ≤ n) (hn' : bytes.length ≤ n') :
    execRounds d n bytes (σ.endParse d (betweenRounds m opts pos)) =
      .next (σ.endParse d ((parseLoop σ.params n' bytes opts (lastNumber opts) pos).outcome σ.draws m)) := by
  induction n generalizing n' bytes opts pos with
  | zero =>
    obtain rfl : bytes = [] := List.length_eq_zero_iff.1 (by omega)
    rw [parseLoop_nil]; rfl
  | succ n ih =>
    cases bytes with
    | nil => rw [parseLoop_nil]; rfl
    | cons b rest =>
      obtain ⟨k, rfl⟩ : ∃ k, n' = k + 1 := ⟨n' - 1, by rw [List.length_cons] at hn'; omega⟩
      have hdraws := endParse_draws σ d (betweenRounds m opts pos) rfl
      have hlast := endParse_endParse σ d (betweenRounds m opts pos) (h := rfl)
      have hparams := endParse_params σ d (betweenRounds m opts pos)
      have hslot := endParse_msg σ d (betweenRounds m opts pos)
      have hcaller := endParse_caller σ d (betweenRounds m opts pos)
      generalize σ.endParse d (betweenRounds m opts pos) = s at hdraws hlast hparams hslot hcaller ⊢
      have hs : s.slotOk d = true := (slotOk_congr hparams d).trans hd
      have hin : inRound s.caller.prev (s.msg (.main d)) = true := by
        rw [hslot, hcaller]; simp [inRound, betweenRounds]
      have hround : parseRound s.params (s.msg (.main d)).opts.length s.caller.prev b rest =
          parseRound σ.params opts.length (lastNumber opts) b rest := by rw [hparams, hslot, hcaller]; rfl
      rw [parseLoop]
      cases hr : parseRound σ.params opts.length (lastNumber opts) b rest with
      | entry o rest' =>
        obtain ⟨hmarker, -, -, -, -, hlen, hrest⟩ := parseRound_entry hr
        have hnext : s.optRound d b rest = σ.endParse d (betweenRounds m (opts ++ [o]) (pos + 1 + o.value.length)) := by
          rw [optRound_entry hs hin (hround.trans hr), hlast, hslot, hcaller]
          simp [betweenRounds, lastNumber_eq]
        have hdrop : rest.drop (optLength b).toNat = rest' := by rw [hrest, ← hlen, List.drop_left]
        have hshorter : rest'.length ≤ rest.length := by rw [hrest, List.length_append]; omega
        rw [List.length_cons] at hn hn'
        rw [execRounds_cons hnext, endParse_caller, if_pos ⟨rfl, hmarker⟩, hdrop, ih (by omega) (n' := k) (by omega)]
        simp [lastNumber_eq]
      | payload p =>
        obtain ⟨rfl, -, -⟩ := parseRound_payload hr
        rw [execRounds_cons (optRound_payload hs hin (hround.trans hr)), if_neg (fun h => h.2 rfl), hlast, hslot, hcaller]
        rfl
      | stop e j =>
        have hbad : e ≠ .ok := by rcases parseRound_stop hr with rfl | rfl | ⟨rfl, -⟩ <;> decide
        rw [execRounds_cons (optRound_stop hs hin (hround.trans hr)), endParse_caller, if_neg (fun h => hbad h.1), hlast,
          hslot, hcaller, hdraws, LoopOut.outcome, if_neg hbad]
        rfl

/-! The statements. -/

/-- Settles O31: SERIALIZE leaves its bytes in the buffer, as many as the size formula says, and `parse_serialize`. -/
theorem parseOfSerialize : Obligations.ParseOfSerialize := by
  intro s d b cap σ hs hd htoken hversion htkl hsorted henc hcap hpayload hopts
  have ht : (σ.msg (.main s)).tkl.toNat ≤ (σ.msg (.main s)).token.length := by omega
  have hfits : exceeds (some cap) (wireSize (σ.msg (.main s))) = false := by simpa [exceeds_some] using hcap
  have hser := serialize_ok (nib := σ.params.nibMax) hsorted htkl hfits (encodable_mono (NibMax.value_le _).1 henc)
  have herr := congrArg SerOut.err hser
  have hlen := serialize_length herr ht
  obtain ⟨hframe, -⟩ := opSerialize_frame σ .caller (.main s) (.caller b) (some cap)
  obtain ⟨hbuf, -, -⟩ := opSerialize_ok (a := .caller) (b := .caller b) herr
  rw [execAll_cons (exec_serialize_buffer hs)]
  generalize σ.opSerialize .caller (.main s) (.caller b) (some cap) = t at hframe hbuf ⊢
  have hsource : t.sourcePrefix (.buffer b) (wireSize (σ.msg (.main s))) =
      some (serialize σ.params.nibMax (σ.msg (.main s)) (some cap)).bytes := by
    rw [sourcePrefix_eq_some_iff]
    refine .inr ⟨b, rfl, ?_, ?_⟩
    · rw [hbuf, Buf.load_len, hlen]
    · rw [hbuf, Buf.bytes_load, ← hlen, List.take_length]
  rw [execAll_cons (exec_parse_some ((slotOk_congr hframe.params d).trans hd) hsource)]
  rw [← hframe.params] at hpayload hopts
  obtain ⟨hok, hsame⟩ := parse_serialize (P := t.params) (draw := t.draws) (old := t.msg (.main d))
    (nib := σ.params.nibMax) ht hversion htkl hsorted henc hfits hpayload hopts
  exact ⟨_, rfl, by rw [endParse_caller, hok], by rw [endParse_msg]; exact hsame⟩

/-- Settles O34: past its checks PARSE is its loop (`parse_token`), over no byte for header and token alone, and the OPT
instructions run on from there as the loop does (`execRounds_eq_parseLoop`). -/
theorem parseIsItsRounds : Obligations.ParseIsItsRounds := by
  intro d b0 b1 b2 b3 token rest σ hd hv ht htoken
  have hhead : σ.sourcePrefix (.bytes (b0 :: b1 :: b2 :: b3 :: token)) (4 + token.length) =
      some (b0 :: b1 :: b2 :: b3 :: (token ++ [])) := by
    rw [sourcePrefix_eq_some_iff]
    exact .inl ⟨_, rfl, by simp; omega, by rw [List.take_of_length_le (by simp; omega), List.append_nil]⟩
  have hwhole : σ.sourcePrefix (.bytes (b0 :: b1 :: b2 :: b3 :: (token ++ rest))) (4 + token.length + rest.length) =
      some (b0 :: b1 :: b2 :: b3 :: (token ++ rest)) := by
    rw [sourcePrefix_eq_some_iff]
    exact .inl ⟨_, rfl, by simp; omega, by rw [List.take_of_length_le (by simp; omega)]⟩
  have hstart := exec_parse_some hd hhead
  have hall := exec_parse_some hd hwhole
  rw [parse_token hv ht htoken, parseLoop_nil] at hstart
  rw [parse_token hv ht htoken] at hall
  exact ⟨_, _, hstart, execRounds_eq_parseLoop hd _ le_rfl (by simp), hall⟩

/-- Settles O26: `parse_badVersion`, the first check after the header. -/
theorem parseVersionGate : Obligations.ParseVersionGate := by
  intro d n source b0 b1 b2 b3 rest σ hd hsource hversion
  have hv : headVersion b0 ≠ 1 := fun h => hversion ((headVersion_eq_one_iff b0).1 h)
  refine ⟨_, exec_parse_some hd hsource, ?_⟩
  rw [endParse_caller, endParse_msg, parse_badVersion hv]
  exact ⟨rfl, rfl, headVersion_toNat b0, headKind_bits_toNat b0, headTkl_toNat b0, rfl, be16_toNat b2 b3⟩

/-- Settles O27: each check by its lemma, with the header byte's nibbles as numbers. -/
theorem parseHeaderChecks : Obligations.ParseHeaderChecks := by
  intro d n source bytes σ hd hsource
  refine ⟨fun hshort => ⟨_, exec_parse_some hd hsource, ?_⟩, fun hlen hversion => ?_⟩
  · rw [endParse_caller, parse_short hshort]; exact ⟨rfl, rfl⟩
  · obtain ⟨b0, b1, b2, b3, rest, rfl⟩ := four_bytes (not_lt.2 hlen)
    simp only [List.getD_cons_zero, ← headTkl_toNat, List.length_cons, List.drop_succ_cons,
      List.drop_zero] at hversion ⊢
    have hv := (headVersion_eq_one_iff b0).2 hversion
    refine ⟨fun hlong => ⟨_, exec_parse_some hd hsource, ?_⟩, fun htkl hshort => ⟨_, exec_parse_some hd hsource, ?_⟩,
      fun _ _ => ⟨_, exec_parse_some hd hsource, fun hok => ?_⟩⟩
    · rw [endParse_caller, parse_longToken hv hlong]; exact ⟨rfl, rfl⟩
    · rw [endParse_caller, parse_shortToken hv htkl hshort]; exact ⟨rfl, rfl⟩
    · rw [endParse_caller] at hok
      rw [endParse_msg, parse_tokenBytes hok]

/-- Settles O28: `parseSource_failed`. -/
theorem parseFailureLeavesHeaderOnly : Obligations.ParseFailureLeavesHeaderOnly := by
  intro d n source σ hd
  refine ⟨_, exec_parse hd source n, fun herr => ?_⟩
  rw [endParse_caller] at herr ⊢
  obtain ⟨hopts, hpayload, hheader⟩ := parseSource_failed herr
  rw [endParse_msg, Msg.optCount, Msg.hasPayload, Msg.payloadLen, hopts, hpayload]
  refine ⟨rfl, rfl, rfl, fun hvalid => ?_⟩
  obtain ⟨b0, b1, b2, b3, rest, hsource, hmsg⟩ := hheader hvalid
  exact ⟨b0, b1, b2, b3, rest, hsource, by rw [hmsg]; exact ⟨rfl, rfl, rfl, rfl, rfl⟩⟩

/-- Settles O29: a parsed message passes the checks of SERIALIZE (`serialize_parse`), and its fields encode to the bytes they
were decoded from. -/
theorem parseSuccessGivesAWellFormedMessage : Obligations.ParseSuccessGivesAWellFormedMessage := by
  intro d n source bytes σ hd hsource
  refine ⟨_, exec_parse_some hd hsource, fun hok => ?_⟩
  rw [endParse_caller] at hok ⊢
  rw [endParse_msg]
  obtain ⟨hsorted, henc, hversion, htkl, hpos, hprev, -⟩ := serialize_parse (nib := .fourteen) (cap := none) hok rfl
  obtain ⟨b0, b1, b2, b3, rest, rfl, -, -, -, -, hparse⟩ := parse_ok hok
  refine ⟨by rw [hparse], hpos, hprev, ?_, hversion, htkl, hsorted, henc⟩
  rw [hparse]
  simp [headerBytes, headerOf]

/-- Settles O30: the three kinds of source, each with the one write it ends in. -/
theorem parseIsTotal : Obligations.ParseIsTotal := by
  intro d n source σ
  refine ⟨fun hd => ⟨_, exec_parse_noSlot hd source n, rfl, rfl, rfl, rfl, ?frame, ?quiet⟩, fun hd hbad => ?refused,
    fun bytes hd hgood => ?read⟩
  case frame =>
    have hmem : Agent.caller ∈ (Touched.codec .caller).codecs := List.mem_singleton_self _
    exact (frame_setCodec _ _ _ hmem).trans (frame_raise _ _ _ hmem)
  case quiet => exact (quiet_setCodec _ _ _).trans (quiet_raise _ _ _)
  case refused =>
    have hexec := exec_parse hd source n
    rw [(sourcePrefix_eq_none_iff σ source n).2 hbad, parseSource] at hexec
    refine ⟨_, hexec, ?_⟩
    rw [endParse_caller, endParse_msg]
    exact ⟨rfl, rfl, rfl, rfl, rfl, rfl, endParse_frame σ d _, endParse_quiet σ d _⟩
  case read =>
    obtain ⟨hkinds, hinvalid⟩ := parse_errs σ.params σ.draws (σ.msg (.main d)) bytes
    refine ⟨_, exec_parse_some hd ((sourcePrefix_eq_some_iff σ source n bytes).2 hgood), ?_⟩
    rw [endParse_caller]
    refine ⟨hkinds, fun hshort => ?_, parse_hdrValid, fun hmaxOpts hmaxPayload herr => hinvalid herr ⟨hmaxOpts, hmaxPayload⟩,
      endParse_frame σ d _, endParse_quiet σ d _⟩
    rw [parse_short hshort]
    exact ⟨rfl, rfl⟩

/-- Settles O33: each row is the round of its byte (`parseRound_marker`, `parseRound_reserved`, `parseRound_option`), and
outside a PARSE any row is a raise. -/
theorem optionRowsRunOneRound : Obligations.OptionRowsRunOneRound := by
  intro d delta length rest σ hd
  refine ⟨fun hin => ⟨⟨_, rfl, ?marker⟩, fun hdelta hlength => ?reserved, fun hdelta hlength => ⟨_, rfl, ?entry⟩⟩,
    fun hout => ?outside⟩
  case marker =>
    have hround := parseRound_marker (P := σ.params) (count := (σ.msg (.main d)).opts.length) (prev := σ.caller.prev)
      (rest := rest)
    split_ifs at hround ⊢ with hover
    · rw [optRound_stop hd hin hround, endParse_caller, endParse_msg]
      exact ⟨endParse_frame σ d _, endParse_quiet σ d _, rfl, rfl, rfl, rfl⟩
    · rw [optRound_payload hd hin hround, endParse_caller, endParse_msg]
      exact ⟨endParse_frame σ d _, endParse_quiet σ d _, rfl, rfl, rfl, rfl, rfl⟩
  case reserved =>
    intro i hi
    obtain ⟨b, hrow, hround⟩ := exec_reservedRow σ hdelta hlength i hi
    refine ⟨_, hrow, ?_⟩
    rw [optRound_stop hd hin (hround _ _ _), endParse_caller, endParse_msg]
    exact ⟨rfl, rfl, rfl, rfl, rfl, endParse_frame σ d _, endParse_quiet σ d _⟩
  case entry =>
    have hround := parseRound_option (P := σ.params) (count := (σ.msg (.main d)).optCount) (prev := σ.caller.prev)
      (rest := rest) hdelta hlength
    split_ifs at hround ⊢ with hshort hfull
    · rw [optRound_stop hd hin hround, endParse_caller, endParse_msg]
      exact ⟨rfl, endParse_frame σ d _, endParse_quiet σ d _, rfl, rfl⟩
    · rw [optRound_stop hd hin hround, endParse_caller, endParse_msg]
      exact ⟨rfl, endParse_frame σ d _, endParse_quiet σ d _, rfl, rfl⟩
    · rw [optRound_entry hd hin hround, endParse_caller, endParse_msg]
      refine ⟨rfl, endParse_frame σ d _, endParse_quiet σ d _, rfl, rfl, ?_, rfl⟩
      rw [List.length_take_of_le (not_lt.1 hshort)]
  case outside =>
    intro i hi
    obtain ⟨b, hrow⟩ := exec_optRow σ i hi
    exact ⟨_, hrow.trans (congrArg _ (optRound_outside hout b rest)), raise_caller_ends σ .invalid⟩

end Sys2Proof.Machine
end

section
/-! SUPPORT. The initiator's exchanges (43_exchange.md): the ends of XSEND and of XEXPIRE, and the wait sequence by induction
over the expiries. -/

namespace Sys2Proof.Machine

/-! What XSEND and XRECV may write. -/

/-- What XSEND of context `x` may write, beside the registers of the contexts `xs` (R203). -/
def Touched.xsend (x : Nat) (xs : List Nat) : Touched :=
  { slots := [], bufs := [.xbuf x], codecs := [.caller, .exchange x], exchs := xs, workers := [] }

/-- What XRECV at context `x` may write, beside the registers of the contexts `xs` (R209). -/
def Touched.recv (x : Nat) (xs : List Nat) : Touched :=
  { slots := [.reply x], bufs := [.xrx x], codecs := [.exchange x], exchs := xs, workers := [] }

/-! XSEND. -/

/-- SERIALIZE of slot `s` for a send: its outcome within `MAX_DATAGRAM` (R203). -/
abbrev State.image (σ : State) (s : Nat) : SerOut := serialize σ.params.nibMax (σ.msg (.main s)) σ.params.maxDatagram

/-- XSEND of context `x` has ended with `e` for the exchange and for the caller; of the contexts' registers only those of
`xs` may have changed. -/
structure XsendOp (x : Nat) (e : Err) (xs : List Nat) (σ t : State) : Prop where
  caller : t.caller.err = e
  own    : (t.exch x).codec.err = e
  frame  : Frame (Touched.xsend x xs) σ t

/-- Such an XSEND that has also handed `bytes`, left in `XBUF[x]`, to the transport. -/
structure SentOp (x : Nat) (bytes : List Byte) (peer : PeerAddr) (e : Err) (xs : List Nat) (σ t : State) : Prop
    extends XsendOp x e xs σ t where
  buf         : t.buf (.xbuf x) = (σ.buf (.xbuf x)).load bytes
  out         : t.out = σ.out ++ [{ peer := peer, bytes := bytes }]
  calls       : t.calls = σ.calls
  sendAnswers : t.sendAnswers = σ.sendAnswers.tail

section Xsend
variable {σ u v : State} {x s : Nat} {xs : List Nat} {peer : PeerAddr} {e : Err}

@[simp] theorem msg_endXsend (σ : State) (x : Nat) (e : Err) (r : SlotRef) : (σ.endXsend x e).msg r = σ.msg r := by
  simp [State.endXsend]

@[simp] theorem buf_endXsend (σ : State) (x : Nat) (e : Err) (r : BufRef) : (σ.endXsend x e).buf r = σ.buf r := by
  simp [State.endXsend]

@[simp] theorem regs_endXsend (σ : State) (x : Nat) (e : Err) (y : Nat) :
    ((σ.endXsend x e).exch y).regs = (σ.exch y).regs := by simp [State.endXsend, State.endOp]

theorem endXsend_ends (h : Frame (Touched.xsend x xs) σ u) (e : Err) : XsendOp x e xs σ (u.endXsend x e) where
  caller := rfl
  own := by
    have hcodec : (u.endXsend x e).codec (.exchange x) = (u.codec (.exchange x)).ended e none := by
      simp [State.endXsend, State.codec_endOp, Codec.ended]
    exact congrArg Codec.err hcodec
  frame := h.trans ((frame_endOp _ _ _ _ (by simp [Touched.xsend])).trans (frame_endOp _ _ _ _ (by simp [Touched.xsend])))

theorem frame_xSerialize (σ : State) (x s : Nat) (xs : List Nat) : Frame (Touched.xsend x xs) σ (σ.xSerialize x s) := by
  have hagent : Agent.exchange x ∈ (Touched.xsend x xs).codecs := by simp [Touched.xsend]
  unfold State.xSerialize
  split_ifs
  · exact frame_opSerialize _ _ _ _ _ hagent (List.mem_singleton_self _)
  · exact frame_raise _ _ _ hagent

theorem xSerialize_err (σ : State) (x s : Nat) : ((σ.xSerialize x s).codec (.exchange x)).err =
    if σ.slotOk s = false then .invalid else (σ.image s).err := by
  unfold State.xSerialize
  cases hslot : σ.slotOk s with
  | false => simp
  | true => simpa using opSerialize_err σ (.exchange x) (.main s) (.xbuf x) σ.params.maxDatagram

/-- The bytes that a successful SERIALIZE leaves for the send. -/
theorem buf_xSerialize (hslot : σ.slotOk s = true) (hok : (σ.image s).err = .ok) :
    (σ.xSerialize x s).buf (.xbuf x) = (σ.buf (.xbuf x)).load (σ.image s).bytes := by
  rw [State.xSerialize, if_pos hslot]
  exact (opSerialize_ok hok).1

theorem exec_xsend_refused (hx : σ.exchOk x = true) (hstate : (σ.exch x).state ≠ .awaitingSend) :
    exec (.xsend x s peer) σ = .next (σ.endXsend x .invalid) := by
  simp [exec, execXsend, hx, hstate]

theorem exec_xsend_failed (hx : σ.exchOk x = true) (hstate : (σ.exch x).state = .awaitingSend)
    (he : ((σ.xSerialize x s).codec (.exchange x)).err = e) (hbad : e ≠ .ok) :
    exec (.xsend x s peer) σ = .next ((σ.xSerialize x s).endXsend x e) := by
  simp [exec, execXsend, hx, hstate, he, hbad]

/-- The block with the message of slot `s` serialized and handed to the transport (R203). -/
def State.sent (σ : State) (x s : Nat) (peer : PeerAddr) : State :=
  (σ.xSerialize x s).transmit peer (σ.image s).bytes

/-- The three ends of XSEND after SERIALIZE: the transport refuses, the message is tracked, or it is not (R203 to R205). -/
theorem exec_xsend_serialized (hx : σ.exchOk x = true) (hstate : (σ.exch x).state = .awaitingSend)
    (hslot : σ.slotOk s = true) (hok : (σ.image s).err = .ok) :
    exec (.xsend x s peer) σ = .next (
      if σ.sendAnswer = false then (σ.sent x s peer).endXsend x .transportError
      else if (σ.msg (.main s)).kind = .con then
        ((σ.sent x s peer).setExch x (startedExch (σ.sent x s peer) x s peer)).endXsend x .ok
      else (σ.sent x s peer).endXsend x .ok) := by
  have he := xSerialize_err σ x s
  rw [hslot, if_neg (by decide), hok] at he
  have hmsg : (σ.xSerialize x s).msg (.main s) = σ.msg (.main s) := (frame_xSerialize σ x s []).slots _ List.not_mem_nil
  have hanswer : (σ.xSerialize x s).sendAnswer = σ.sendAnswer :=
    congrArg (fun answers : List Bool => answers.headD true) (quiet_xSerialize σ x s).sendAnswers
  have hsent : (σ.xSerialize x s).transmit peer ((σ.xSerialize x s).buf (.xbuf x)).bytes = σ.sent x s peer := by
    rw [buf_xSerialize hslot hok, Buf.bytes_load, State.sent]
  simp [exec, execXsend, State.xTransmit, hx, hstate, he, hmsg, hanswer, hsent]

/-- After the send XSEND ends, whatever it does to the registers of `xs` in between. -/
theorem endXsend_sent (hslot : σ.slotOk s = true) (hok : (σ.image s).err = .ok)
    (hframe : Frame (Touched.xsend x xs) (σ.sent x s peer) v) (hquiet : Quiet (σ.sent x s peer) v)
    (hbuf : v.buf (.xbuf x) = (σ.sent x s peer).buf (.xbuf x)) (e : Err) :
    SentOp x (σ.image s).bytes peer e xs σ (v.endXsend x e) := by
  have hser := quiet_xSerialize σ x s
  have hend := hquiet.trans (quiet_endXsend v x e)
  exact
    { endXsend_ends ((frame_xSerialize σ x s xs).trans ((frame_transmit _ _ _).trans hframe)) e with
      buf := by rw [buf_endXsend, hbuf, State.sent, State.buf_transmit, buf_xSerialize hslot hok]
      out := by rw [hend.out, State.sent, State.transmit_out, hser.out]
      calls := by rw [hend.calls, State.sent, State.transmit_calls, hser.calls]
      sendAnswers := by rw [hend.sendAnswers, State.sent, State.transmit_sendAnswers, hser.sendAnswers] }

/-- The send that starts no exchange. -/
theorem sent_untracked (hslot : σ.slotOk s = true) (hok : (σ.image s).err = .ok) (e : Err) :
    SentOp x (σ.image s).bytes peer e [] σ ((σ.sent x s peer).endXsend x e) :=
  endXsend_sent hslot hok (Frame.refl _ _) (Quiet.refl _) rfl e

/-- The send that starts the exchange (R203). -/
theorem sent_tracked (hslot : σ.slotOk s = true) (hok : (σ.image s).err = .ok) :
    SentOp x (σ.image s).bytes peer .ok [x] σ
      (((σ.sent x s peer).setExch x (startedExch (σ.sent x s peer) x s peer)).endXsend x .ok) :=
  endXsend_sent hslot hok
    (frame_setExch_regs _ _ (startedExch _ x s peer) (List.mem_singleton_self x) rfl rfl rfl rfl) (quiet_setExch _ _ _)
    ((congrArg Exch.xbuf (State.exch_setExch_same _ _ _)).trans rfl) .ok

/-- The registers of the exchange that XSEND starts (R203). -/
theorem startedExch_regs (hslot : σ.slotOk s = true) (hok : (σ.image s).err = .ok) :
    (startedExch (σ.sent x s peer) x s peer).regs =
      ⟨.awaitingAck, (σ.msg (.main s)).mid, 1, σ.w0, true, (σ.image s).bytes.length, peer, (σ.exch x).reply⟩ := by
  have hframe := frame_xSerialize σ x s []
  have hmsg : (σ.sent x s peer).msg (.main s) = σ.msg (.main s) :=
    (State.msg_transmit _ _ _ _).trans (hframe.slots _ List.not_mem_nil)
  have hlen : ((σ.sent x s peer).exch x).xbuf.len = (σ.image s).bytes.length :=
    congrArg Buf.len (buf_xSerialize (x := x) hslot hok)
  have hreply : ((σ.sent x s peer).exch x).reply = (σ.exch x).reply :=
    congrArg ExchRegs.reply (hframe.exchs x List.not_mem_nil)
  have hw0 : (σ.sent x s peer).w0 = σ.w0 := hframe.w0
  simp [startedExch, Exch.regs, hmsg, hlen, hreply, hw0]

end Xsend

/-- Settles O35: the third end of `exec_xsend_serialized`. -/
theorem xsendStartsAnExchange : Obligations.XsendStartsAnExchange := by
  intro x s peer σ hx hstate hslot hok hanswer hkind
  have hexec := exec_xsend_serialized (peer := peer) hx hstate hslot hok
  rw [if_neg (by simp [hanswer]), if_pos hkind] at hexec
  have hop := sent_tracked (x := x) (peer := peer) hslot hok
  refine ⟨_, hexec, ?_, by rw [hop.buf, Buf.bytes_load], fun a ha => readByte_load_past hop.buf ha, hop.out, hop.calls,
    hop.sendAnswers, hop.caller, hop.own, hop.frame⟩
  rw [regs_endXsend, State.exch_setExch_same]
  exact startedExch_regs hslot hok

/-- Settles O36: the last end of `exec_xsend_serialized`. -/
theorem xsendNonConfirmableTracksNothing : Obligations.XsendNonConfirmableTracksNothing := by
  intro x s peer σ hx hstate hslot hok hanswer hkind
  have hexec := exec_xsend_serialized (peer := peer) hx hstate hslot hok
  rw [if_neg (by simp [hanswer]), if_neg hkind] at hexec
  have hop := sent_untracked (x := x) (peer := peer) hslot hok .ok
  have hregs := hop.frame.exchs x List.not_mem_nil
  exact ⟨_, hexec, (congrArg ExchRegs.state hregs).trans hstate, hregs, hop.out, hop.calls, hop.caller, hop.own, hop.frame⟩

/-- XSEND that ends without a send: nothing of the context's registers and of the histories changes (R205). -/
theorem XsendOp.unsent {x : Nat} {e : Err} {σ t : State} (h : XsendOp x e [] σ t) (hquiet : Quiet σ t)
    (he : e ≠ .transportError) (sent : List Datagram) :
    t.caller.err = e ∧ (t.exch x).codec.err = e ∧ (t.exch x).regs = (σ.exch x).regs ∧ t.calls = σ.calls ∧
      t.out = if e = .transportError then sent else σ.out :=
  ⟨h.caller, h.own, h.frame.exchs x List.not_mem_nil, hquiet.calls, hquiet.out.trans (if_neg he).symm⟩

theorem image_err_ne_transportError (σ : State) (s : Nat) : (σ.image s).err ≠ .transportError := by
  intro h
  have hkinds := serialize_errs σ.params.nibMax (σ.msg (.main s)) σ.params.maxDatagram
  rw [h] at hkinds
  exact absurd hkinds (by decide)

/-- Settles O37: the checks in order; the first refuses in the state before SERIALIZE, the next two in the state after it,
the last after the send. -/
theorem xsendErrorsLeaveTheContext : Obligations.XsendErrorsLeaveTheContext := by
  intro x s peer σ hx e hbad
  by_cases hstate : (σ.exch x).state ≠ .awaitingSend
  · have he : e = .invalid := if_pos hstate
    have hop := endXsend_ends (Frame.refl (Touched.xsend x []) σ) .invalid
    obtain ⟨hcaller, hown, hregs, hcalls, hout⟩ := hop.unsent (quiet_endXsend _ _ _) (by decide) _
    rw [he]
    exact ⟨_, exec_xsend_refused hx hstate, hcaller, hown, hregs, hcalls, hout,
      fun _ => ⟨by rw [buf_endXsend], fun a => by rw [State.readByte, buf_endXsend, State.readByte]⟩, hop.frame⟩
  · rw [not_not] at hstate
    by_cases hser : σ.slotOk s = true ∧ (σ.image s).err = .ok
    · obtain ⟨hslot, hok⟩ := hser
      have he : e = if σ.sendAnswer = false then .transportError else .ok := by simp [e, hstate, hslot, hok]
      have hanswer : σ.sendAnswer = false := by
        by_contra hanswer
        exact hbad (he.trans (if_neg hanswer))
      rw [if_pos hanswer] at he
      have hexec := exec_xsend_serialized (peer := peer) hx hstate hslot hok
      rw [if_pos hanswer] at hexec
      have hop := sent_untracked (x := x) (peer := peer) hslot hok .transportError
      rw [he]
      exact ⟨_, hexec, hop.caller, hop.own, hop.frame.exchs x List.not_mem_nil, hop.calls, hop.out,
        fun hnot => absurd hstate hnot, hop.frame⟩
    · have he : ((σ.xSerialize x s).codec (.exchange x)).err = e := by
        rw [xSerialize_err]
        cases hslot : σ.slotOk s with
        | false => simp [e, hstate, hslot]
        | true =>
          have hfail : (σ.image s).err ≠ .ok := fun hok => hser ⟨hslot, hok⟩
          simp [e, hstate, hslot, hfail]
      have hne : e ≠ .transportError := by
        rw [← he, xSerialize_err]
        split_ifs
        · decide
        · exact image_err_ne_transportError σ s
      have hop := endXsend_ends (frame_xSerialize σ x s []) e
      obtain ⟨hcaller, hown, hregs, hcalls, hout⟩ :=
        hop.unsent ((quiet_xSerialize _ _ _).trans (quiet_endXsend _ _ _)) hne _
      exact ⟨_, exec_xsend_failed hx hstate he hbad, hcaller, hown, hregs, hcalls, hout,
        fun hnot => absurd hstate hnot, hop.frame⟩

/-! The bytes of a buffer. -/

/-- The front of a read is the shorter read. -/
theorem Memory.readBytes_take (m : List Host.Cell) (a : Nat) {n k : Nat} (h : k ≤ n) :
    (Memory.readBytes m a n).take k = Memory.readBytes m a k := by
  induction k generalizing a n with
  | zero => rfl
  | succ k ih =>
    obtain ⟨n, rfl⟩ : ∃ j, n = j + 1 := ⟨n - 1, by omega⟩
    rw [Memory.readBytes, List.take_succ_cons, ih _ (by omega), Memory.readBytes]

/-- A buffer that a frame does not touch keeps its bytes. -/
theorem Frame.bytes_eq {τ : Touched} {s t : State} {b : BufRef} (h : Frame τ s t) (hb : b ∉ τ.bufs) :
    (t.buf b).bytes = (s.buf b).bytes := by
  rw [Buf.bytes, h.lens b hb]
  exact Memory.readBytes_congr _ _ _ _ fun a _ _ => h.bytes b hb a

/-! XEXPIRE. -/

section Xexpire
variable {σ : State} {x : Nat}

theorem Exch.expirable_iff (e : Exch) : e.expirable = true ↔ e.state = .awaitingAck ∧ e.armed = true := by
  simp [Exch.expirable]

/-- XEXPIRE with attempts left (R206, R207). -/
theorem exec_xexpire_retry (hx : σ.exchOk x = true) (henabled : (σ.exch x).expirable = true)
    (hleft : (σ.exch x).attempts < σ.maxAttempts) (hlen : (σ.exch x).len ≤ (σ.buf (.xbuf x)).len) :
    exec (.xexpire x) σ = .next ((σ.transmit (σ.exch x).peer ((σ.buf (.xbuf x)).bytes.take (σ.exch x).len)).setExch x
      (retriedExch (σ.exch x))) := by
  have hpast : ¬ (σ.exch x).xbuf.len < (σ.exch x).len := not_lt.2 hlen
  have hbytes : Memory.readBytes (σ.exch x).xbuf.mem 0 (σ.exch x).len = (σ.buf (.xbuf x)).bytes.take (σ.exch x).len :=
    (Memory.readBytes_take _ _ hlen).symm
  simp [exec, execXexpire, hx, henabled, hleft, hpast, hbytes]

/-- The last XEXPIRE (R206). -/
theorem exec_xexpire_last (hx : σ.exchOk x = true) (henabled : (σ.exch x).expirable = true)
    (hspent : σ.maxAttempts ≤ (σ.exch x).attempts) :
    exec (.xexpire x) σ = .next (σ.setExch x (timedOutExch (σ.exch x))) := by
  simp [exec, execXexpire, hx, henabled, not_lt.2 hspent]

theorem exec_xexpire_disabled (hx : σ.exchOk x = true) (hdisabled : (σ.exch x).expirable = false) :
    exec (.xexpire x) σ = .next σ := by
  simp [exec, execXexpire, hx, hdisabled]

theorem doubleWait_of_lt {wait : BitVec 32} (h : 2 * wait.toNat < 2 ^ 32) :
    doubleWait wait = BitVec.ofNat 32 (2 * wait.toNat) := if_pos h

end Xexpire

/-- Settles O38: `exec_xexpire_retry`. -/
theorem xexpireResendsTheSameBytes : Obligations.XexpireResendsTheSameBytes := by
  intro x σ hx hstate harmed hleft hlen hwait
  have henabled := (Exch.expirable_iff _).2 ⟨hstate, harmed⟩
  refine ⟨_, exec_xexpire_retry hx henabled hleft hlen, ?_, rfl, rfl, rfl, (frame_transmit _ _ _).trans
    (frame_setExch_regs _ _ (retriedExch (σ.exch x)) (List.mem_singleton_self x) rfl rfl rfl rfl)⟩
  rw [State.exch_setExch_same, ← doubleWait_of_lt hwait]
  simp [retriedExch, Exch.regs, hstate]

/-- Settles O39: `exec_xexpire_last` and `exec_xexpire_disabled`. -/
theorem xexpireTimesOut : Obligations.XexpireTimesOut := by
  intro x σ hx
  refine ⟨fun hstate harmed hspent => ⟨_, exec_xexpire_last hx ((Exch.expirable_iff _).2 ⟨hstate, harmed⟩) hspent, ?_,
    frame_setExch_regs _ _ (timedOutExch (σ.exch x)) (List.mem_singleton_self x) rfl rfl rfl rfl, quiet_setExch _ _ _⟩,
    fun hnot => exec_xexpire_disabled hx ?_⟩
  · rw [State.exch_setExch_same]; rfl
  · rw [← Bool.not_eq_true, Exch.expirable_iff]
    rintro ⟨hstate, harmed⟩
    rcases hnot with hnot | hnot
    · exact hnot hstate
    · rw [harmed] at hnot; exact absurd hnot (by decide)

/-! The wait sequence (R208). -/

theorem exchOk_congr {s t : State} (h : t.params = s.params) (x : Nat) : t.exchOk x = s.exchOk x := by
  unfold State.exchOk; rw [h]

theorem execAll_append {is js : List Instr} {s t : State} (h : execAll is s = .next t) :
    execAll (is ++ js) s = execAll js t := by
  induction is generalizing s with
  | nil => obtain rfl := Host.Outcome.next.inj h; rfl
  | cons i is ih =>
    rw [execAll] at h
    split at h
    case h_1 u hi => rw [List.cons_append, execAll_cons hi, ih h]
    case h_2 => cases h
    case h_3 => cases h

/-- One more instruction at the end of a run. -/
theorem execAll_concat {is : List Instr} {i : Instr} {s t u : State} (h : execAll is s = .next t) (hi : exec i t = .next u) :
    execAll (is ++ [i]) s = .next u := by
  rw [execAll_append h, execAll_cons hi, execAll]

/-- The commands of an exchange that XSEND starts and that then gets `k` expiries. -/
def unanswered (x s : Nat) (peer : PeerAddr) (k : Nat) : List Instr := .xsend x s peer :: List.replicate k (.xexpire x)

theorem unanswered_succ (x s : Nat) (peer : PeerAddr) (k : Nat) :
    unanswered x s peer (k + 1) = unanswered x s peer k ++ [.xexpire x] := by
  rw [unanswered, List.replicate_succ', unanswered, List.cons_append]

/-- Exchange `x` of `t` waits for the answer to datagram `d` of message id `mid`, `k` expiries after its start in `σ`
(R206, R208). -/
structure Waiting (x : Nat) (mid : Mid) (d : Datagram) (k : Nat) (σ t : State) : Prop where
  regs        : (t.exch x).regs =
    ⟨.awaitingAck, mid, k + 1, BitVec.ofNat 32 (2 ^ k * σ.w0.toNat), true, d.bytes.length, d.peer, (σ.exch x).reply⟩
  copy        : (t.buf (.xbuf x)).bytes = d.bytes
  out         : t.out = σ.out ++ List.replicate (k + 1) d
  params      : t.params = σ.params
  maxAttempts : t.maxAttempts = σ.maxAttempts

/-- The boot constraints keep every doubled wait within its 32 bits (R216). -/
theorem wait_lt_of_bootLegal {w0 : BitVec 32} {maxAttempts k : Nat} (h : bootLegal w0 maxAttempts = true)
    (hk : k < maxAttempts) : 2 ^ k * w0.toNat < 2 ^ 32 := by
  simp only [bootLegal, Bool.and_eq_true, decide_eq_true_eq] at h
  calc 2 ^ k * w0.toNat ≤ 2 ^ (maxAttempts - 1) * w0.toNat :=
        Nat.mul_le_mul_right _ (Nat.pow_le_pow_right (by decide) (by omega))
    _ = w0.toNat * 2 ^ (maxAttempts - 1) := Nat.mul_comm _ _
    _ < 2 ^ 32 := h.2

section Waiting
variable {x k : Nat} {mid : Mid} {d : Datagram} {σ t : State}

/-- The wait register of such an exchange. -/
theorem Waiting.wait_toNat (h : Waiting x mid d k σ t) (hboot : bootLegal σ.w0 σ.maxAttempts = true)
    (hk : k < σ.maxAttempts) : (t.exch x).wait.toNat = 2 ^ k * σ.w0.toNat := by
  have hwait : (t.exch x).wait = _ := congrArg ExchRegs.wait h.regs
  rw [hwait, BitVec.toNat_ofNat, Nat.mod_eq_of_lt (wait_lt_of_bootLegal hboot hk)]

/-- An expiry with attempts left sends the datagram once more and doubles the wait. -/
theorem Waiting.expire (h : Waiting x mid d k σ t) (hx : σ.exchOk x = true)
    (hboot : bootLegal σ.w0 σ.maxAttempts = true) (hk : k + 1 < σ.maxAttempts) :
    ∃ u, exec (.xexpire x) t = .next u ∧ Waiting x mid d (k + 1) σ u := by
  have hwait := h.wait_toNat hboot (Nat.lt_of_succ_lt hk)
  have hregs := h.regs
  simp only [Exch.regs, ExchRegs.mk.injEq] at hregs
  obtain ⟨hstate, hmid, hattempts, -, harmed, hlen, hpeer, hreply⟩ := hregs
  have hcopied : (t.buf (.xbuf x)).len = d.bytes.length := by rw [← Buf.bytes_length, h.copy]
  have hdouble : 2 * (2 ^ k * σ.w0.toNat) = 2 ^ (k + 1) * σ.w0.toNat := by ring
  obtain ⟨u, hexec, hregs, hout, -, -, hframe⟩ := xexpireResendsTheSameBytes x t
    ((exchOk_congr h.params x).trans hx) hstate harmed (by rw [hattempts, h.maxAttempts]; exact hk)
    (by rw [hlen, hcopied]) (by rw [hwait, hdouble]; exact wait_lt_of_bootLegal hboot hk)
  refine ⟨u, hexec, ⟨?_, (hframe.bytes_eq List.not_mem_nil).trans h.copy, ?_, hframe.params.trans h.params,
    hframe.maxAttempts.trans h.maxAttempts⟩⟩
  · rw [hregs, hmid, hattempts, hwait, hdouble, hlen, hpeer, hreply]
  · rw [hout, h.out, h.copy, hlen, hpeer, List.take_length, List.append_assoc, ← List.replicate_succ']

end Waiting

/-- Settles O40: the exchange that XSEND starts is `Waiting`, by induction over the expiries it stays so while attempts are
left, and the expiry after the last attempt ends it. -/
theorem waitsDoubleUntilTimeout : Obligations.WaitsDoubleUntilTimeout := by
  intro x s peer σ hx hstate hslot hok hanswer hkind hboot d
  have hwaits : ∀ k, k < σ.maxAttempts →
      ∃ t, execAll (unanswered x s peer k) σ = .next t ∧ Waiting x (σ.msg (.main s)).mid d k σ t := by
    intro k hk
    induction k with
    | zero =>
      obtain ⟨t, hexec, hregs, hcopy, -, hout, -, -, -, -, hframe⟩ :=
        xsendStartsAnExchange x s peer σ hx hstate hslot hok hanswer hkind
      refine ⟨t, execAll_cons hexec, ⟨?_, hcopy, hout, hframe.params, hframe.maxAttempts⟩⟩
      rw [hregs, Nat.pow_zero, Nat.one_mul, BitVec.ofNat_toNat, BitVec.setWidth_eq]
    | succ k ih =>
      obtain ⟨t, hrun, hwaiting⟩ := ih (Nat.lt_of_succ_lt hk)
      obtain ⟨u, hexec, hnext⟩ := hwaiting.expire hx hboot hk
      exact ⟨u, by rw [unanswered_succ]; exact execAll_concat hrun hexec, hnext⟩
  refine ⟨fun k hk => ?_, ?_⟩
  · obtain ⟨t, hrun, hwaiting⟩ := hwaits k hk
    have hregs := hwaiting.regs
    simp only [Exch.regs, ExchRegs.mk.injEq] at hregs
    obtain ⟨hwaits, hmid, hattempts, -, harmed, -⟩ := hregs
    exact ⟨t, hrun, hwaits, harmed, hattempts, hwaiting.wait_toNat hboot hk, hmid, hwaiting.out⟩
  · obtain ⟨n, hn⟩ : ∃ n, σ.maxAttempts = n + 1 := by
      simp only [bootLegal, Bool.and_eq_true, decide_eq_true_eq] at hboot
      exact ⟨σ.maxAttempts - 1, by omega⟩
    have hlast : n < σ.maxAttempts := by omega
    obtain ⟨t, hrun, hwaiting⟩ := hwaits n hlast
    have hwait := hwaiting.wait_toNat hboot hlast
    have hregs := hwaiting.regs
    simp only [Exch.regs, ExchRegs.mk.injEq] at hregs
    obtain ⟨hwaits, -, hattempts, -, harmed, -⟩ := hregs
    obtain ⟨u, hexec, hend, -, hquiet⟩ := (xexpireTimesOut x t ((exchOk_congr hwaiting.params x).trans hx)).1 hwaits harmed
      (by rw [hattempts, hwaiting.maxAttempts, hn])
    simp only [Exch.regs, ExchRegs.mk.injEq] at hend
    obtain ⟨hends, -, hmade, hkept, hoff, -⟩ := hend
    have hall : execAll (unanswered x s peer (n + 1)) σ = .next u := by
      rw [unanswered_succ]; exact execAll_concat hrun hexec
    rw [hn, Nat.add_sub_cancel]
    exact ⟨u, hall, hends, hoff, hmade.trans hattempts, by rw [hkept, hwait], hquiet.out.trans hwaiting.out⟩

end Sys2Proof.Machine
end

section
/-! SUPPORT. XRECV (43_exchange.md R209 to R213): every datagram is received and parsed alike; a correlated Acknowledgement or
Reset ends the exchange, anything else is ignored. -/

namespace Sys2Proof.Machine

/-- The outcome of PARSE of a datagram at context `x` (R209). -/
abbrev State.parsed (σ : State) (x : Nat) (datagram : List Byte) : ParseOut :=
  parse σ.params σ.draws (σ.msg (.reply x)) (σ.cut datagram)

/-- The block once a datagram is in `XRX[x]` and parsed (R209). -/
def State.received (σ : State) (x : Nat) (datagram : List Byte) : State :=
  (σ.setBuf (.xrx x) ((σ.buf (.xrx x)).load (σ.cut datagram))).opParse (.exchange x) (.reply x) (σ.cut datagram)

/-- XRECV of `datagram` has come to `t`: the datagram is in `XRX[x]`, the registers of its PARSE in the exchange's codec copy,
nothing is sent; of the contexts' registers only those of `xs` may have changed. -/
structure RecvOp (x : Nat) (datagram : List Byte) (xs : List Nat) (σ t : State) : Prop where
  buf   : t.buf (.xrx x) = (σ.buf (.xrx x)).load (σ.cut datagram)
  codec : t.codec (.exchange x) =
    { pos := (σ.parsed x datagram).pos, prev := (σ.parsed x datagram).prev, err := (σ.parsed x datagram).err,
      hdrValid := (σ.parsed x datagram).hdrValid, result := none }
  frame : Frame (Touched.recv x xs) σ t
  quiet : Quiet σ t

section Recv
variable {σ : State} {x : Nat} {xs : List Nat} {datagram : List Byte}

/-- XRECV at a context: what follows once the datagram is parsed (R209, R211). -/
theorem recv_eq (hx : σ.exchOk x = true) (datagram : List Byte) : σ.recv x datagram =
    if (σ.exch x).delivered then (σ.received x datagram).setMsg (.reply x) (σ.msg (.reply x))
    else (σ.received x datagram).settle x := by
  simp [State.recv, State.received, hx]

theorem Exch.delivered_iff (e : Exch) : e.delivered = true ↔ e.state = .acked ∨ e.state = .reset := by
  simp [Exch.delivered]

theorem received_parse (σ : State) (x : Nat) (datagram : List Byte) :
    ParseOp (.exchange x) (.reply x) (σ.parsed x datagram)
      (σ.setBuf (.xrx x) ((σ.buf (.xrx x)).load (σ.cut datagram))) (σ.received x datagram) := by
  have h := opParse_spec (σ.setBuf (.xrx x) ((σ.buf (.xrx x)).load (σ.cut datagram))) (.exchange x) (.reply x)
    (σ.cut datagram)
  rwa [State.setBuf_params, State.setBuf_draws, State.msg_setBuf] at h

theorem msg_received (σ : State) (x : Nat) (datagram : List Byte) :
    (σ.received x datagram).msg (.reply x) = (σ.parsed x datagram).msg := (received_parse σ x datagram).slot

theorem received_spec (σ : State) (x : Nat) (datagram : List Byte) (xs : List Nat) :
    RecvOp x datagram xs σ (σ.received x datagram) where
  buf := ((received_parse σ x datagram).bufs _).trans (State.buf_setBuf_same _ _ _)
  codec := (received_parse σ x datagram).codec
  frame := (frame_setBuf _ _ _ (List.mem_singleton_self _)).trans
    (frame_opParse _ _ _ _ (List.mem_singleton_self _) (List.mem_singleton_self _))
  quiet := (quiet_setBuf _ _ _).trans (received_parse σ x datagram).quiet

theorem regs_received (σ : State) (x : Nat) (datagram : List Byte) :
    ((σ.received x datagram).exch x).regs = (σ.exch x).regs :=
  (received_spec σ x datagram []).frame.exchs x List.not_mem_nil

/-! Correlation. -/

theorem parsedMsg_same (hparses : parses σ.params (σ.cut datagram) = true) :
    (parsedMsg σ.params (σ.cut datagram)).same (σ.parsed x datagram).msg = true :=
  parse_same ((parse_err_eq_ok_iff _ _ _ _).2 hparses)

/-- The id and the kind of a datagram that parses do not depend on what the reply slot held. -/
theorem parsed_fields (hparses : parses σ.params (σ.cut datagram) = true) :
    (σ.parsed x datagram).msg.mid = (parsedMsg σ.params (σ.cut datagram)).mid ∧
      (σ.parsed x datagram).msg.kind = (parsedMsg σ.params (σ.cut datagram)).kind := by
  obtain ⟨-, hkind, -, -, -, hmid, -, -⟩ := (Msg.same_iff _ _).1 (parsedMsg_same (x := x) hparses)
  exact ⟨hmid.symm, hkind.symm⟩

/-- When the received datagram correlates (R202). -/
theorem received_correlates :
    correlates ((σ.received x datagram).exch x) ((σ.received x datagram).exch x).codec.err
        ((σ.received x datagram).exch x).replyMsg = true ↔
      parses σ.params (σ.cut datagram) = true ∧ (σ.exch x).state = .awaitingAck ∧
        (parsedMsg σ.params (σ.cut datagram)).mid = (σ.exch x).mid := by
  have hslot : ((σ.received x datagram).exch x).replyMsg = (σ.parsed x datagram).msg := msg_received σ x datagram
  have hcodec : ((σ.received x datagram).exch x).codec.err = (σ.parsed x datagram).err :=
    congrArg Codec.err (received_spec σ x datagram []).codec
  have hstate : ((σ.received x datagram).exch x).state = (σ.exch x).state :=
    congrArg ExchRegs.state (regs_received σ x datagram)
  have hmid : ((σ.received x datagram).exch x).mid = (σ.exch x).mid :=
    congrArg ExchRegs.mid (regs_received σ x datagram)
  simp only [correlates, Bool.and_eq_true, decide_eq_true_eq, hslot, hcodec, hstate, hmid, parse_err_eq_ok_iff, and_assoc]
  refine and_congr_right fun hparses => ?_
  rw [(parsed_fields hparses).1]

/-- A context without a correlated Acknowledgement or Reset in its reply slot is left alone (R211). -/
theorem settle_ignored {u : State}
    (h : correlates (u.exch x) (u.exch x).codec.err (u.exch x).replyMsg = true →
      (u.exch x).replyMsg.kind = .con ∨ (u.exch x).replyMsg.kind = .non) : u.settle x = u := by
  unfold State.settle
  dsimp only
  split_ifs with hcor
  · rcases h hcor with hkind | hkind <;> rw [hkind]
  · rfl

/-- A correlated Acknowledgement or Reset ends the exchange (R210). -/
theorem settle_answered {u : State} (hcor : correlates (u.exch x) (u.exch x).codec.err (u.exch x).replyMsg = true) :
    ∀ p ∈ [(Kind.ack, XState.acked), (Kind.rst, XState.reset)], (u.exch x).replyMsg.kind = p.1 →
      u.settle x = u.setExch x (answeredExch x p.2 (u.exch x)) := by
  simp only [List.forall_mem_cons, List.not_mem_nil, false_implies, implies_true, and_true]
  constructor <;> intro hkind <;> simp [State.settle, hcor, hkind]

end Recv

theorem msg_reply_setExch (s : State) (x : Nat) (e : Exch) : (s.setExch x e).msg (.reply x) = e.replyMsg :=
  congrArg Exch.replyMsg (State.exch_setExch_same s x e)

/-- The end of an exchange by a reply writes the context's registers alone. -/
theorem RecvOp.answer {x : Nat} {datagram : List Byte} {σ u : State} (h : RecvOp x datagram [x] σ u) (st : XState) :
    RecvOp x datagram [x] σ (u.setExch x (answeredExch x st (u.exch x))) where
  buf := (congrArg Exch.xrx (State.exch_setExch_same _ _ _)).trans h.buf
  codec := (congrArg Exch.codec (State.exch_setExch_same _ _ _)).trans h.codec
  frame := h.frame.trans
    (frame_setExch_regs _ _ (answeredExch x st (u.exch x)) (List.mem_singleton_self x) rfl rfl rfl rfl)
  quiet := h.quiet.trans (quiet_setExch _ _ _)

/-- So does the reply slot written back once a reply is delivered (R213). -/
theorem RecvOp.restore {x : Nat} {datagram : List Byte} {xs : List Nat} {σ u : State} (h : RecvOp x datagram xs σ u)
    (m : Msg) : RecvOp x datagram xs σ (u.setMsg (.reply x) m) where
  buf := (State.buf_setMsg _ _ _ _).trans h.buf
  codec := (State.codec_setMsg _ _ _ _).trans h.codec
  frame := h.frame.trans (frame_setMsg _ _ _ (List.mem_singleton_self _))
  quiet := h.quiet.trans (quiet_setMsg _ _ _)

/-- Settles O41: the datagram correlates (`received_correlates`), and `settle_answered`. -/
theorem xrecvCorrelatedReplyEndsTheExchange : Obligations.XrecvCorrelatedReplyEndsTheExchange := by
  intro x datagram σ hx hstate hparses hmid p hp hkind
  have hdelivered : ¬ (σ.exch x).delivered = true := by rw [Exch.delivered_iff, hstate]; simp
  have hslot := msg_received σ x datagram
  have hsettle := settle_answered (received_correlates.2 ⟨hparses, hstate, hmid⟩) p hp
    ((congrArg Msg.kind hslot).trans ((parsed_fields hparses).2.trans hkind))
  have hrecv := recv_eq hx datagram
  rw [if_neg hdelivered, hsettle] at hrecv
  have hop := (received_spec σ x datagram [x]).answer p.2
  have hregs := regs_received σ x datagram
  simp only [Exch.regs, ExchRegs.mk.injEq] at hregs
  obtain ⟨-, hregmid, hattempts, hwait, -, hlen, hpeer, -⟩ := hregs
  refine ⟨_, congrArg Host.Outcome.next hrecv, ?_, ?_, by rw [hop.buf, Buf.bytes_load],
    fun a ha => readByte_load_past hop.buf ha, hop.frame, hop.quiet⟩
  · rw [State.exch_setExch_same]
    simp only [Exch.regs, answeredExch, hregmid, hattempts, hwait, hlen, hpeer]
  · rw [msg_reply_setExch]
    change Msg.same _ ((σ.received x datagram).msg (.reply x)) = true
    rw [hslot]
    exact parsedMsg_same hparses

/-- Settles O42: with a reply delivered the slot is written back, else nothing correlates (`received_correlates`) or the kind is
no answer (`settle_ignored`). -/
theorem xrecvIgnoresEverythingElse : Obligations.XrecvIgnoresEverythingElse := by
  intro x datagram σ hx hignored o
  have hrecv := recv_eq hx datagram
  have hreceived := received_spec σ x datagram []
  have hop : RecvOp x datagram [] σ (σ.recv x datagram) ∧
      ((σ.exch x).state = .acked ∨ (σ.exch x).state = .reset → (σ.recv x datagram).msg (.reply x) = σ.msg (.reply x)) := by
    rw [hrecv]
    split_ifs with hdelivered
    · exact ⟨hreceived.restore _, fun _ => State.msg_setMsg_same _ _ _⟩
    · rw [Exch.delivered_iff] at hdelivered
      rw [settle_ignored fun hcor => ?_]
      · exact ⟨hreceived, fun h => absurd h hdelivered⟩
      · obtain ⟨hparses, hstate, hmid⟩ := received_correlates.1 hcor
        have hkind : ((σ.received x datagram).exch x).replyMsg.kind = _ :=
          (congrArg Msg.kind (msg_received σ x datagram)).trans (parsed_fields hparses).2
        rw [hkind]
        rcases hignored with hother | hother | hother | hother
        · exact absurd hstate hother
        · exact absurd (hparses.symm.trans hother) (by decide)
        · exact absurd hmid hother
        · exact hother
  obtain ⟨hop, hreply⟩ := hop
  exact ⟨_, rfl, hop.frame.exchs x List.not_mem_nil, by rw [hop.buf, Buf.bytes_load],
    fun a ha => readByte_load_past hop.buf ha, by rw [hop.codec], by rw [hop.codec], by rw [hop.codec], by rw [hop.codec],
    hreply, hop.frame, hop.quiet⟩

end Sys2Proof.Machine
end

section
/-! SUPPORT. Which contexts an instruction can step, and the arcs of an exchange over every instruction (43_exchange.md R200,
R212, R213). -/

namespace Sys2Proof.Machine

/-! The contexts that an instruction steps. -/

/-- The worker contexts that an instruction steps or starts. -/
def State.stepped (σ : State) (i : Instr) : List Nat :=
  if startsWorker i then [σ.freeWorker] else (workerOf i).toList

theorem arrivesAt_of_encodeHdr {i : Instr} {version : BitVec 2} {kind : Kind} {tkl : BitVec 4} {code : Byte} {mid : Mid}
    {dest : Dest} {rest : List Byte} (h : encode i = encodeHdr version kind tkl code mid dest rest) :
    arrivesAt i = some dest := by
  simp [arrivesAt, h, encodeHdr, Record.of, Except.toOption]

section Local
variable {i : Instr} {σ t u : State} {ws xs : List Nat}

/-- An operation behind a check of its index, of a slot or of a worker (60_exceptions.md R287). -/
theorem localTo_guarded {c : Bool}
    (h : (.next (if c then u else σ.raise .caller .invalid) : Host.Outcome State Fault Refusal) = .next t)
    (hu : LocalTo ws xs σ u) : LocalTo ws xs σ t := by
  obtain rfl := Host.Outcome.next.inj h
  split_ifs
  · exact hu
  · exact localTo_raise _ _ _ trivial

theorem localTo_storeCode {s : Nat} {code : Byte} (h : σ.storeCode s code = .next t) : LocalTo ws xs σ t :=
  localTo_guarded h (localTo_updateMsg _ _ _)

/-- A command of the caller on a slot that may refuse its operand. -/
theorem localTo_checked {c : Prop} [Decidable c] {e : Err} {s : Nat} {f : Msg → Msg} :
    LocalTo ws xs σ (if c then σ.raise .caller e else σ.updateMsg s f) := by
  split_ifs
  · exact localTo_raise _ _ _ trivial
  · exact localTo_updateMsg _ _ _

/-- A datagram's arrival steps the context that it arrives at (30_encoding.md R111). -/
theorem localTo_arrive {dest : Dest} (hi : arrivesAt i = some dest) (datagram : List Byte) :
    LocalTo (σ.stepped i) (exchOf i).toList σ (σ.arrive dest datagram) := by
  cases dest with
  | dispatcher peer => exact localTo_dispatch _ _ _ (by simp [State.stepped, startsWorker, hi])
  | exchange x => exact localTo_recv _ _ _ (by simp [exchOf, hi])
  | slot d => exact localTo_callerParse _ _ _ _

/-- Every instruction that answers a next state is an arrival, or a command that touches no context but the one it names. -/
theorem exec_arrives_or_localTo (h : exec i σ = .next t) :
    (∃ dest datagram, arrivesAt i = some dest ∧ t = σ.arrive dest datagram) ∨
      arrivesAt i = none ∧ LocalTo (σ.stepped i) (exchOf i).toList σ t := by
  have hown (n : Nat) : n ∈ (some n).toList := List.mem_singleton_self n
  unfold exec at h
  cases i with
  | hdrBadver0 | hdrBadver2 | hdrBadver3 | hdrTkl9 | hdrTkl10to11 | hdrTkl12to15 | conGet | conPost | conPut | conDelete
  | nonGet | nonPost | nonPut | nonDelete | ackAny | rstAny | conOther | nonOther =>
    exact .inl ⟨_, _, arrivesAt_of_encodeHdr rfl, (Host.Outcome.next.inj h).symm⟩
  | optMarker | optRsvdDelta | optRsvdLen | optEntry =>
    exact .inr ⟨rfl, Host.Outcome.next.inj h ▸ localTo_optRound _ _ _ _⟩
  | codeEmpty | codeGet | codePost | codePut | codeDelete | codeCreated | codeDeleted | codeChanged | codeContent
  | codeBadRequest | codeNotFound | codeInternalError | codeOther => exact .inr ⟨rfl, localTo_storeCode h⟩
  | init => exact .inr ⟨rfl, localTo_guarded h (localTo_opInit _ _ _ trivial trivial)⟩
  | serialize s target cap =>
    cases target with
    | missing => exact .inr ⟨rfl, localTo_guarded h (localTo_raise _ _ _ trivial)⟩
    | buffer b => exact .inr ⟨rfl, localTo_guarded h (localTo_opSerialize _ _ _ _ _ trivial trivial)⟩
  | parse d source n =>
    exact .inr ⟨by cases source <;> rfl, Host.Outcome.next.inj h ▸ localTo_callerParse _ _ _ _⟩
  | addOption =>
    refine .inr ⟨rfl, localTo_guarded h ?_⟩
    dsimp only
    split_ifs
    · exact localTo_raise _ _ _ trivial
    · exact localTo_raise _ _ _ trivial
    · exact localTo_updateMsg _ _ _
  | free => exact .inr ⟨rfl, localTo_guarded h (localTo_opFree _ _ _ trivial trivial)⟩
  | buildEmptyAck | buildRstFor => exact .inr ⟨rfl, localTo_guarded h (localTo_opBuildEmpty _ _ _ _ _ trivial trivial)⟩
  | setKind | setCode | setMid | clearPayload => exact .inr ⟨rfl, localTo_guarded h (localTo_updateMsg _ _ _)⟩
  | setToken | setPayload => exact .inr ⟨rfl, localTo_guarded h localTo_checked⟩
  | xsend => exact .inr ⟨rfl, localTo_execXsend h (hown _)⟩
  | xexpire => exact .inr ⟨rfl, localTo_execXexpire h (hown _)⟩
  | xrecv => exact .inr ⟨rfl, Host.Outcome.next.inj h ▸ localTo_recv _ _ _ (hown _)⟩
  | rxAccept => exact .inr ⟨rfl, Host.Outcome.next.inj h ▸ localTo_accept _ _ _ (hown _)⟩
  | wParse => exact .inr ⟨rfl, localTo_guarded h (localTo_workerParse _ _ (hown _))⟩
  | wDecide => exact .inr ⟨rfl, localTo_guarded h (localTo_workerDecide _ _ (hown _))⟩
  | wCall => exact .inr ⟨rfl, localTo_guarded h (localTo_workerCall _ _ (hown _))⟩
  | wReturn w result =>
    have hnone : arrivesAt (.wReturn w result) = none := by rcases result with _ | _ | ⟨_, _ | _⟩ <;> rfl
    exact .inr ⟨hnone, localTo_guarded h
      (localTo_workerReturn _ _ _ (by simp [State.stepped, startsWorker, hnone, workerOf]))⟩
  | wReply => exact .inr ⟨rfl, localTo_guarded h (localTo_workerReply _ _ (hown _))⟩
  | wSend => exact .inr ⟨rfl, localTo_guarded h (localTo_workerSend _ _ (hown _))⟩
  | cmdUnassigned => exact .inr ⟨rfl, Host.Outcome.next.inj h ▸ localTo_raise _ _ _ trivial⟩

/-- An instruction leaves every context that it neither steps nor starts, the configuration and the port. -/
theorem exec_localTo (h : exec i σ = .next t) : LocalTo (σ.stepped i) (exchOf i).toList σ t := by
  rcases exec_arrives_or_localTo h with ⟨dest, datagram, hi, rfl⟩ | ⟨-, hlocal⟩
  · exact localTo_arrive hi datagram
  · exact hlocal

/-- The events of an exchange context. -/
theorem event_of_exchOf {x : Nat} (h : exchOf i = some x) :
    (∃ s peer, i = .xsend x s peer) ∨ i = .xexpire x ∨ (∃ datagram, i = .xrecv x datagram) ∨
      arrivesAt i = some (.exchange x) := by
  unfold exchOf at h
  split at h
  case h_1 y hi => exact .inr (.inr (.inr (Option.some.inj h ▸ hi)))
  case h_2 =>
    split at h
    case h_1 => exact .inl ⟨_, _, by rw [Option.some.inj h]⟩
    case h_2 => exact .inr (.inl (by rw [Option.some.inj h]))
    case h_3 => exact .inr (.inr (.inl ⟨_, by rw [Option.some.inj h]⟩))
    case h_4 => cases h

end Local

/-! The arcs. -/

/-- From `σ` to `t` context `x` stays in its state or goes from `src` to one of `dsts`; in a terminal state its registers stay,
and a delivered reply stays in its slot (R200, R212, R213). -/
structure Moves (x : Nat) (src : XState) (dsts : List XState) (σ t : State) : Prop where
  arc      : (t.exch x).state = (σ.exch x).state ∨ (σ.exch x).state = src ∧ (t.exch x).state ∈ dsts
  terminal : (σ.exch x).state.terminal = true → (t.exch x).regs = (σ.exch x).regs
  reply    : (σ.exch x).state = .acked ∨ (σ.exch x).state = .reset → t.msg (.reply x) = σ.msg (.reply x)

section Moves
variable {x : Nat} {src : XState} {dsts : List XState} {τ : Touched} {σ t : State}

/-- An operation that leaves the registers of the context, and the slot of a delivered reply. -/
theorem moves_of_regs (hregs : (t.exch x).regs = (σ.exch x).regs)
    (hreply : (σ.exch x).state = .acked ∨ (σ.exch x).state = .reset → t.msg (.reply x) = σ.msg (.reply x)) :
    Moves x src dsts σ t := ⟨.inl (congrArg ExchRegs.state hregs), fun _ => hregs, hreply⟩

theorem Frame.moves (h : Frame τ σ t) (hx : x ∉ τ.exchs) (hr : .reply x ∉ τ.slots) : Moves x src dsts σ t :=
  moves_of_regs (h.exchs x hx) fun _ => h.slots _ hr

/-- An arc out of a state that is not terminal. -/
theorem moves_of_arc (hsrc : src.terminal = false) (hσ : (σ.exch x).state = src)
    (ht : (t.exch x).state = src ∨ (t.exch x).state ∈ dsts) : Moves x src dsts σ t where
  arc := ht.imp (fun h => h.trans hσ.symm) fun h => ⟨hσ, h⟩
  terminal h := by rw [hσ, hsrc] at h; cases h
  reply h := by subst hσ; rcases h with h | h <;> rw [h] at hsrc <;> cases hsrc

theorem moves_raise (e : Err) : Moves x src dsts σ (σ.raise .caller e) :=
  (frame_raise (τ := Touched.codec .caller) σ .caller e (List.mem_singleton_self _)).moves List.not_mem_nil
    List.not_mem_nil

theorem XsendOp.moves {e : Err} (h : XsendOp x e [] σ t) : Moves x src dsts σ t :=
  h.frame.moves List.not_mem_nil List.not_mem_nil

/-- XSEND starts an exchange out of AwaitingSend, or leaves the context (R203 to R205). -/
theorem xsend_moves {s : Nat} {peer : PeerAddr} (h : exec (.xsend x s peer) σ = .next t) :
    Moves x .awaitingSend [.awaitingAck] σ t := by
  cases hx : σ.exchOk x with
  | false =>
    have hexec : exec (.xsend x s peer) σ = .next (σ.raise .caller .invalid) := by simp [exec, execXsend, hx]
    exact Host.Outcome.next.inj (hexec.symm.trans h) ▸ moves_raise _
  | true =>
    by_cases hstate : (σ.exch x).state = .awaitingSend
    · by_cases hser : σ.slotOk s = true ∧ (σ.image s).err = .ok
      · obtain ⟨hslot, hok⟩ := hser
        obtain rfl := Host.Outcome.next.inj ((exec_xsend_serialized hx hstate hslot hok).symm.trans h)
        split_ifs
        · exact (sent_untracked hslot hok _).toXsendOp.moves
        · refine moves_of_arc rfl hstate (.inr (List.mem_singleton.2 ?_))
          refine (congrArg ExchRegs.state (regs_endXsend _ _ _ _)).trans ?_
          rw [State.exch_setExch_same, startedExch_regs hslot hok]
        · exact (sent_untracked hslot hok _).toXsendOp.moves
      · have hbad : ((σ.xSerialize x s).codec (.exchange x)).err ≠ .ok := by
          rw [xSerialize_err]
          intro hok
          split_ifs at hok with hslot
          exact hser ⟨Bool.eq_true_of_not_eq_false hslot, hok⟩
        obtain rfl := Host.Outcome.next.inj ((exec_xsend_failed hx hstate rfl hbad).symm.trans h)
        exact (endXsend_ends (frame_xSerialize σ x s []) _).moves
    · obtain rfl := Host.Outcome.next.inj ((exec_xsend_refused hx hstate).symm.trans h)
      exact (endXsend_ends (Frame.refl _ σ) _).moves

/-- XEXPIRE keeps an exchange waiting or times it out, and leaves every other context (R206). -/
theorem xexpire_moves (h : exec (.xexpire x) σ = .next t) : Moves x .awaitingAck [.timedOut] σ t := by
  by_cases hstate : (σ.exch x).state = .awaitingAck
  · rcases execXexpire_cases h with rfl | rfl | ⟨peer, bytes, rfl⟩ | rfl
    · exact moves_raise _
    · exact (Frame.refl Touched.nothing _).moves List.not_mem_nil List.not_mem_nil
    · exact moves_of_arc rfl hstate (.inl (by rw [State.exch_setExch_same]; exact hstate))
    · exact moves_of_arc rfl hstate (.inr (by rw [State.exch_setExch_same]; exact List.mem_singleton_self _))
  · cases hx : σ.exchOk x with
    | false =>
      have hexec : exec (.xexpire x) σ = .next (σ.raise .caller .invalid) := by simp [exec, execXexpire, hx]
      exact Host.Outcome.next.inj (hexec.symm.trans h) ▸ moves_raise _
    | true =>
      have hexec := (xexpireTimesOut x σ hx).2 (.inl hstate)
      exact Host.Outcome.next.inj (hexec.symm.trans h) ▸
        (Frame.refl Touched.nothing σ).moves List.not_mem_nil List.not_mem_nil

theorem settle_state (u : State) (x : Nat) : ((u.settle x).exch x).state = (u.exch x).state ∨
    ((u.settle x).exch x).state ∈ [XState.acked, .reset] := by
  unfold State.settle
  dsimp only
  split_ifs
  · split
    · exact .inr (by simp [answeredExch])
    · exact .inr (by simp [answeredExch])
    · exact .inl rfl
    · exact .inl rfl
  · exact .inl rfl

/-- An arriving datagram keeps an exchange waiting or ends it, and leaves every other context's registers (R209 to R213). -/
theorem recv_moves (σ : State) (x : Nat) (datagram : List Byte) :
    Moves x .awaitingAck [.acked, .reset] σ (σ.recv x datagram) := by
  cases hx : σ.exchOk x with
  | false => rw [State.recv, if_pos hx]; exact moves_raise _
  | true =>
    by_cases hstate : (σ.exch x).state = .awaitingAck
    · have hdelivered : ¬ (σ.exch x).delivered = true := by rw [Exch.delivered_iff, hstate]; simp
      have hreceived : ((σ.received x datagram).exch x).state = .awaitingAck :=
        (congrArg ExchRegs.state (regs_received σ x datagram)).trans hstate
      rw [recv_eq hx, if_neg hdelivered]
      exact moves_of_arc rfl hstate ((settle_state _ _).imp_left fun h => h.trans hreceived)
    · obtain ⟨t, hexec, hregs, -, -, -, -, -, -, hreply, -⟩ := xrecvIgnoresEverythingElse x datagram σ hx (.inl hstate)
      exact Host.Outcome.next.inj hexec ▸ moves_of_regs hregs hreply

end Moves

/-- Settles O43: an instruction that is no event of the context leaves it whole (`exec_localTo`); the events are XSEND, XEXPIRE
and the arrival of a datagram, each with its arcs. -/
theorem exchangesMoveOnlyAlongTheirArcs : Obligations.ExchangesMoveOnlyAlongTheirArcs := by
  intro i σ t h x
  by_cases hi : exchOf i = some x
  · have hrecv : (∃ datagram, i = .xrecv x datagram) ∨ arrivesAt i = some (.exchange x) →
        Moves x .awaitingAck [.acked, .reset] σ t := by
      rintro (⟨datagram, rfl⟩ | harrives)
      · exact Host.Outcome.next.inj h ▸ recv_moves σ x datagram
      · rcases exec_arrives_or_localTo h with ⟨dest, datagram, hdest, rfl⟩ | ⟨hnone, -⟩
        · obtain rfl := Option.some.inj (hdest.symm.trans harrives)
          exact recv_moves σ x datagram
        · rw [hnone] at harrives; cases harrives
    rcases event_of_exchOf hi with ⟨s, peer, rfl⟩ | rfl | harrival
    · have hmoves := xsend_moves h
      exact ⟨hmoves.arc.imp_right fun ⟨hsrc, hdst⟩ => .inl ⟨hsrc, List.mem_singleton.1 hdst, s, peer, rfl⟩,
        hmoves.terminal, hmoves.reply⟩
    · have hmoves := xexpire_moves h
      exact ⟨hmoves.arc.imp_right fun ⟨hsrc, hdst⟩ => .inr (.inl ⟨hsrc, List.mem_singleton.1 hdst, rfl⟩),
        hmoves.terminal, hmoves.reply⟩
    · have hmoves := hrecv harrival
      exact ⟨hmoves.arc.imp_right fun ⟨hsrc, hdst⟩ => .inr (.inr ⟨hsrc, List.mem_pair.1 hdst, harrival⟩),
        hmoves.terminal, hmoves.reply⟩
  · have hsame : t.exch x = σ.exch x := (exec_localTo h).exch x (by simpa [eq_comm] using hi)
    exact ⟨.inl (by rw [hsame]), fun _ => by rw [hsame], fun _ => by rw [State.msg, hsame, State.msg]⟩

end Sys2Proof.Machine
end

section
/-! SUPPORT. The replies of the responder (44_responder.md R242, 30_encoding.md R114): messages without options, each with the
bytes it serializes to. -/

namespace Sys2Proof.Machine

/-- A message without options that passes every check of SERIALIZE, and its wire image. -/
structure Msg.IsImage (m : Msg) (bytes : List Byte) : Prop where
  opts  : m.opts = []
  tkl   : m.tkl.toNat ≤ Config.tklMax
  token : m.tkl.toNat ≤ m.token.length
  bytes : headPart m ++ payloadPart m.payload = bytes

theorem Msg.IsImage.wireSize {m : Msg} {bytes : List Byte} (h : m.IsImage bytes) : wireSize m = bytes.length := by
  rw [← required_eq_wireSize, ← h.bytes, List.length_append, headPart_length h.token, payloadPart_length, required, h.opts]
  rfl

theorem Msg.IsImage.serialize {m : Msg} {bytes : List Byte} (h : m.IsImage bytes) (nib : NibMax) {cap : Option Nat}
    (hcap : exceeds cap bytes.length = false) : serialize nib m cap = { err := .ok, bytes := bytes, prev := 0 } := by
  rw [serialize_ok (by rw [h.opts]; rfl) h.tkl (by rwa [h.wireSize]) (by rw [h.opts]; rfl), h.opts]
  simp [encodeOpts, lastNumber, h.bytes]

/-- The Reset is `70 00 hi lo`, the empty Acknowledgement `60 00 hi lo`. -/
theorem isImage_emptyReply (kind : Kind) (mid : Mid) (old : Msg) :
    (emptyReply kind mid old).IsImage (emptyReplyBytes (headByte 1 kind 0) mid) :=
  ⟨rfl, Nat.zero_le _, Nat.zero_le _, rfl⟩

theorem headByte_ack (tkl : BitVec 4) : headByte 1 .ack tkl = BitVec.ofNat 8 (0x60 + tkl.toNat) := by
  revert tkl; decide

theorem isImage_response {q : Msg} (htkl : q.tkl.toNat ≤ Config.tklMax) (htoken : q.tkl.toNat ≤ q.token.length) (code : Byte)
    (old : Msg) (payload : Option (List Byte)) :
    Msg.IsImage { responseMsg code q old with payload := payload } (responseBytes q code payload) where
  opts := rfl
  tkl := htkl
  token := htoken
  bytes := by
    unfold responseBytes
    rw [← headByte_ack]
    cases payload <;> rfl

theorem exec_buildReply {d r : Nat} {σ : State} (hd : σ.slotOk d = true) (hr : σ.slotOk r = true) (hne : d ≠ r) :
    ∀ p ∈ [(Instr.buildEmptyAck d r, (0x60 : Byte)), (Instr.buildRstFor d r, (0x70 : Byte))],
      ∃ kind, exec p.1 σ = .next (σ.opBuildEmpty .caller kind (.main d) (.main r)) ∧ p.2 = headByte 1 kind 0 := by
  have hok : (σ.slotOk d && σ.slotOk r && decide (d ≠ r)) = true := by simp [hd, hr, hne]
  simp only [List.forall_mem_cons, List.not_mem_nil, false_implies, implies_true, and_true]
  exact ⟨⟨.ack, congrArg Host.Outcome.next (if_pos hok), rfl⟩, ⟨.rst, congrArg Host.Outcome.next (if_pos hok), rfl⟩⟩

/-- Settles O20: the slot holds the empty reply, whose four bytes fit the buffer. -/
theorem fixedRepliesAreFourBytes : Obligations.FixedRepliesAreFourBytes := by
  intro d r b cap σ hd hr hne hcap p hp
  obtain ⟨kind, hexec, hfirst⟩ := exec_buildReply hd hr hne p hp
  have hbuild := opBuildEmpty_spec σ .caller kind (.main d) (.main r)
  generalize σ.opBuildEmpty .caller kind (.main d) (.main r) = u at hexec hbuild
  have hfits : exceeds (some cap) 4 = false := decide_eq_false (not_lt.2 hcap)
  have hser := (isImage_emptyReply kind (σ.msg (.main r)).mid (σ.msg (.main d))).serialize u.params.nibMax hfits
  rw [← hbuild.slot, ← hfirst] at hser
  obtain ⟨hbuf, hcodec, -⟩ := opSerialize_ok (s := u) (a := .caller) (r := .main d) (b := .caller b) (congrArg SerOut.err hser)
  rw [State.codec_caller, hser] at hcodec
  have hd' : u.slotOk d = true := (slotOk_congr hbuild.frame.params d).trans hd
  refine ⟨_, (execAll_cons hexec).trans (execAll_cons (exec_serialize_buffer hd')), by rw [hcodec], by rw [hcodec]; rfl, ?_⟩
  rw [hbuf, Buf.bytes_load, hser]

end Sys2Proof.Machine
end

section
/-! SUPPORT. The steps of a worker (45_dispatcher.md R255 to R267): what W_DECIDE decides (44_responder.md R230), and
the context its decision leaves. -/

namespace Sys2Proof.Machine

/-! The decision. -/

/-- The plan and the next phase of W_DECIDE (45_dispatcher.md R256) from the result of PARSE. -/
def decision (policy : Bool) (e : Err) (hdrValid : Bool) (m : Msg) : Plan × Phase :=
  (respond policy e hdrValid m,
    if needsCall e m then .call else if respond policy e hdrValid m = .noReply then .done else .reply)

section Decision
variable {policy hdrValid : Bool} {e : Err} {m : Msg}

theorem decision_versionMismatch : decision policy .versionMismatch hdrValid m = (.sendRst, .reply) := rfl

theorem decision_error (hversion : e ≠ .versionMismatch) (herr : e ≠ .ok) :
    decision policy e hdrValid m = if policy = true ∧ hdrValid = true then (.sendRst, .reply) else (.noReply, .done) := by
  cases policy <;> cases hdrValid <;> simp [decision, respond, needsCall, hversion, herr]

theorem decision_con (hkind : m.kind = .con) :
    decision policy .ok hdrValid m = if isMethod m.code then (.sendResponse, .call) else (.sendRst, .reply) := by
  cases hm : isMethod m.code <;> simp [decision, respond, needsCall, hkind, hm]

theorem decision_non (hkind : m.kind = .non) :
    decision policy .ok hdrValid m = if isMethod m.code then (.noReply, .call) else (.noReply, .done) := by
  cases hm : isMethod m.code <;> simp [decision, respond, needsCall, hkind, hm]

theorem decision_unsolicited (hkind : m.kind = .ack ∨ m.kind = .rst) :
    decision policy .ok hdrValid m = (.sendRst, .reply) := by
  rcases hkind with hkind | hkind <;> simp [decision, respond, needsCall, hkind]

end Decision

theorem isMethod_iff (code : Byte) : isMethod code = true ↔ 1 ≤ code.toNat ∧ code.toNat ≤ 4 := by
  simp [isMethod]

/-- What W_DECIDE decides for the worker of context `w`. -/
def State.decisionOf (σ : State) (w : Nat) : Plan × Phase :=
  decision σ.rstOnParseError (σ.worker w).codec.err (σ.worker w).codec.hdrValid (σ.worker w).reqMsg

/-- Everything a worker's steps may write: its own context. -/
def Touched.worker (w : Nat) : Touched :=
  { slots := [.req w, .rsp w], bufs := [.rx w, .tx w], codecs := [.worker w], exchs := [], workers := [w] }

section Decide
variable {σ : State} {w : Nat} (hphase : (σ.worker w).phase = .decide)
include hphase

/-- A decision that does not end the worker writes its plan and its phase. -/
theorem workerDecide_goesOn (hnext : (σ.decisionOf w).2 ≠ .done) :
    σ.workerDecide w = σ.setWorker w { σ.worker w with plan := (σ.decisionOf w).1, phase := (σ.decisionOf w).2 } := by
  unfold State.workerDecide State.planOf
  unfold State.decisionOf decision at hnext ⊢
  rw [if_pos hphase]
  dsimp only at hnext ⊢
  split_ifs at hnext ⊢ with hcall hplan
  · simp [State.toPhase]
  · exact absurd rfl hnext
  · simp [State.toPhase]

/-- The silent drop writes its plan and ends the worker. -/
theorem workerDecide_drops (hnext : (σ.decisionOf w).2 = .done) :
    σ.workerDecide w = (σ.setWorker w { σ.worker w with plan := (σ.decisionOf w).1 }).endWorker w := by
  unfold State.workerDecide State.planOf
  unfold State.decisionOf decision at hnext ⊢
  rw [if_pos hphase]
  dsimp only at hnext ⊢
  split_ifs at hnext ⊢ with hcall hplan
  rfl

theorem workerDecide_ends (hnext : (σ.decisionOf w).2 = .done) :
    (σ.workerDecide w).Ended w ∧ Frame (Touched.worker w) σ (σ.workerDecide w) := by
  have hplan := frame_setWorker_regs (τ := Touched.worker w) σ w { σ.worker w with plan := (σ.decisionOf w).1 }
    (List.mem_singleton_self _) rfl rfl rfl rfl rfl
  have hend := endWorker_spec (σ.setWorker w { σ.worker w with plan := (σ.decisionOf w).1 }) w
  rw [workerDecide_drops hphase hnext]
  exact ⟨hend.ended, hplan.trans hend.frame⟩

end Decide

/-- Settles O47: the table is `decision`, one line of it per result of PARSE, kind and code. -/
theorem workerDecideFollowsTheTable : Obligations.WorkerDecideFollowsTheTable := by
  intro w σ hw hphase k next
  have hnext : next = σ.decisionOf w := by
    unfold State.decisionOf
    by_cases hversion : k.codec.err = .versionMismatch
    · rw [hversion, decision_versionMismatch]
      exact if_pos hversion
    by_cases herr : k.codec.err = .ok
    · rw [herr]
      refine (if_neg hversion).trans ((if_neg (not_not.2 herr)).trans ?_)
      cases hkind : k.reqMsg.kind
      · exact Eq.trans (by simp only [isMethod_iff]) (decision_con hkind).symm
      · exact Eq.trans (by simp only [isMethod_iff]) (decision_non hkind).symm
      · exact (decision_unsolicited (.inl hkind)).symm
      · exact (decision_unsolicited (.inr hkind)).symm
    · rw [decision_error hversion herr]
      exact (if_neg hversion).trans (if_pos herr)
  refine ⟨_, exec_wDecide hw, quiet_workerDecide σ w, ?_⟩
  rw [hnext]
  split_ifs with hdone
  · exact workerDecide_ends hphase hdone
  · rw [workerDecide_goesOn hphase hdone, State.worker_setWorker_same]
    exact ⟨rfl, frame_setWorker_regs _ _ _ (List.mem_singleton_self _) rfl rfl rfl rfl rfl⟩

end Sys2Proof.Machine
end

section
/-! SUPPORT. The call, the return and the reply of a worker (45_dispatcher.md R260 to R264): what has gone out, the recorded
result, and the reply that is built and serialized. -/

namespace Sys2Proof.Machine

/-! What has gone out. -/

/-- From `s` to `t` the block has sent `sent`, handed `called` to the collaborator and written no more than `τ`. -/
structure Served (τ : Touched) (sent : List Datagram) (called : List CallView) (s t : State) : Prop where
  out         : t.out = s.out ++ sent
  calls       : t.calls = s.calls ++ called
  sendAnswers : t.sendAnswers = s.sendAnswers.drop sent.length
  frame       : Frame τ s t

section Served
variable {τ : Touched} {sent sent' : List Datagram} {called called' : List CallView} {s t u : State}

theorem Quiet.served (h : Quiet s t) (hf : Frame τ s t) : Served τ [] [] s t :=
  ⟨by simp [h.out], by simp [h.calls], h.sendAnswers, hf⟩

theorem Served.quiet (h : Served τ [] [] s t) : Quiet s t :=
  ⟨by simpa using h.out, by simpa using h.calls, h.sendAnswers⟩

theorem Served.trans (h : Served τ sent called s t) (k : Served τ sent' called' t u) :
    Served τ (sent ++ sent') (called ++ called') s u where
  out := by rw [k.out, h.out, List.append_assoc]
  calls := by rw [k.calls, h.calls, List.append_assoc]
  sendAnswers := by rw [k.sendAnswers, h.sendAnswers, List.drop_drop, List.length_append]
  frame := h.frame.trans k.frame

end Served

/-! Writes of a worker's registers. -/

/-- A worker context written in its registers only. -/
theorem served_setWorker_regs {w : Nat} {τ : Touched} (σ : State) (k : Worker) (hw : w ∈ τ.workers)
    (hreq : k.reqMsg = (σ.worker w).reqMsg) (hrsp : k.rspMsg = (σ.worker w).rspMsg) (hrx : k.rx = (σ.worker w).rx)
    (htx : k.tx = (σ.worker w).tx) (hcodec : k.codec = (σ.worker w).codec) : Served τ [] [] σ (σ.setWorker w k) :=
  (quiet_setWorker σ w k).served (frame_setWorker_regs σ w k hw hreq hrsp hrx htx hcodec)

theorem frame_calls {τ : Touched} (s : State) (c : List CallView) : Frame τ s { s with calls := c } := by
  refine Frame.ofBufs (fun r _ => ?_) (fun b _ => ?_) (fun g _ => ?_) (fun _ _ => rfl) (fun _ _ => rfl) rfl rfl rfl rfl rfl rfl
  · cases r <;> rfl
  · cases b <;> rfl
  · cases g <;> rfl

/-! W_CALL and W_RETURN. -/

section Call
variable {σ : State} {w : Nat}

/-- W_CALL hands over the view and writes the call register alone (45_dispatcher.md R260). -/
theorem workerCall_calls {τ : Touched} (hphase : (σ.worker w).phase = .call) (hcall : (σ.worker w).call = .noCall)
    (hw : w ∈ τ.workers) :
    (σ.workerCall w).worker w = { σ.worker w with call := .pending } ∧
      Served τ [] [callView w (σ.worker w)] σ (σ.workerCall w) := by
  have hset := served_setWorker_regs σ { σ.worker w with call := .pending } hw rfl rfl rfl rfl rfl
  unfold State.workerCall
  rw [if_pos ⟨hphase, hcall⟩]
  refine ⟨State.worker_setWorker_same _ _ _, ?_⟩
  exact ⟨hset.out, rfl, hset.sendAnswers, hset.frame.trans (frame_calls _ _)⟩

theorem workerCall_disabled (h : (σ.worker w).phase ≠ .call) : σ.workerCall w = σ := if_neg fun hc => h hc.1

theorem workerReturn_disabled (h : (σ.worker w).call ≠ .pending) (result : AppResult) : σ.workerReturn w result = σ := if_neg h

/-- A recorded result changes the call register and the application-result registers alone. -/
theorem recordResult_eq (result : AppResult) (k : Worker) : ∃ kind code payload, recordResult result k =
    { k with call := .returned, appKind := kind, appCode := code, appPayload := payload } := by
  cases result <;> exact ⟨_, _, _, rfl⟩

theorem recordResult_result (result : AppResult) (k : Worker) : (recordResult result k).result = result := by
  cases result <;> rfl

/-- A result that is owed to nobody is discarded (45_dispatcher.md R261). -/
theorem workerReturn_discards (hcall : (σ.worker w).call = .pending) (hplan : (σ.worker w).plan = .noReply)
    (result : AppResult) :
    (σ.workerReturn w result).Ended w ∧ Served (Touched.worker w) [] [] σ (σ.workerReturn w result) := by
  obtain ⟨kind, code, payload, hrecord⟩ := recordResult_eq result (σ.worker w)
  have hset := served_setWorker_regs (w := w) (τ := Touched.worker w) σ (recordResult result (σ.worker w))
    (List.mem_singleton_self _) (by rw [hrecord]) (by rw [hrecord]) (by rw [hrecord]) (by rw [hrecord]) (by rw [hrecord])
  have hend := endWorker_spec (σ.setWorker w (recordResult result (σ.worker w))) w
  unfold State.workerReturn
  rw [if_pos hcall]
  dsimp only
  rw [if_pos hplan]
  exact ⟨hend.ended, hset.trans (hend.quiet.served hend.frame)⟩

/-- A result that is owed to the peer is recorded, and the reply comes next. -/
theorem workerReturn_records {τ : Touched} (hcall : (σ.worker w).call = .pending) (hplan : (σ.worker w).plan ≠ .noReply)
    (hw : w ∈ τ.workers) (result : AppResult) :
    (σ.workerReturn w result).worker w = { recordResult result (σ.worker w) with phase := .reply } ∧
      Served τ [] [] σ (σ.workerReturn w result) := by
  obtain ⟨kind, code, payload, hrecord⟩ := recordResult_eq result (σ.worker w)
  have hreturn : σ.workerReturn w result = σ.setWorker w { recordResult result (σ.worker w) with phase := .reply } := by
    unfold State.workerReturn
    rw [if_pos hcall]
    dsimp only
    rw [if_neg hplan]
    simp [State.toPhase]
  rw [hreturn, State.worker_setWorker_same]
  exact ⟨rfl, served_setWorker_regs σ _ hw (by rw [hrecord]) (by rw [hrecord]) (by rw [hrecord]) (by rw [hrecord])
    (by rw [hrecord])⟩

end Call

/-! W_REPLY. -/

/-- The payload is over `MAX_PAYLOAD`. -/
def Params.oversize (P : Params) (payload : Option (List Byte)) : Bool := payload.any fun p => exceeds P.maxPayload p.length

theorem resultBytes_response (P : Params) (q : Msg) (code : Byte) (payload : Option (List Byte)) :
    resultBytes P q (.response code payload) =
      if P.oversize payload then responseBytes q Config.internalError none else responseBytes q code payload := by
  cases payload <;> rfl

section BuildResponse
variable {σ : State} {a : Agent} {d r : SlotRef} {code : Byte} {payload : Option (List Byte)}

/-- BUILD_RESPONSE without a payload over `MAX_PAYLOAD` (30_encoding.md R114). -/
theorem opBuildResponse_fits (hfits : σ.params.oversize payload = false) (htkl : (σ.msg r).tkl.toNat ≤ Config.tklMax)
    (htoken : (σ.msg r).tkl.toNat ≤ (σ.msg r).token.length) :
    ((σ.opBuildResponse a d r code payload).msg d).IsImage (responseBytes (σ.msg r) code payload) ∧
      ((σ.opBuildResponse a d r code payload).codec a).err = .ok := by
  have hspec := opBuildResponse_spec σ a d r code payload
  have hcond : ¬ (exceeds σ.params.maxPayload (payload.getD []).length = true ∧ payload.isSome = true) := by
    cases payload <;> simp_all [Params.oversize]
  rw [if_neg hcond, if_neg hcond] at hspec
  exact ⟨hspec.slot ▸ isImage_response htkl htoken code _ payload, congrArg Codec.err hspec.codec⟩

/-- A payload over `MAX_PAYLOAD` is Invalid, and the request stays as it was. -/
theorem opBuildResponse_oversize (hover : σ.params.oversize payload = true) (hne : r ≠ d) :
    ((σ.opBuildResponse a d r code payload).codec a).err = .invalid ∧
      (σ.opBuildResponse a d r code payload).msg r = σ.msg r := by
  have hspec := opBuildResponse_spec σ a d r code payload
  have hcond : exceeds σ.params.maxPayload (payload.getD []).length = true ∧ payload.isSome = true := by
    cases payload <;> simp_all [Params.oversize]
  rw [if_pos hcond, if_pos hcond] at hspec
  exact ⟨congrArg Codec.err hspec.codec, hspec.frame.slots r (by simp [hne])⟩

end BuildResponse

/-- The request's token fits the reply that mirrors it. -/
def Worker.tokenFits (k : Worker) : Prop :=
  k.appKind ≠ .nothing → k.reqMsg.tkl.toNat ≤ Config.tklMax ∧ k.reqMsg.tkl.toNat ≤ k.reqMsg.token.length

section Reply
variable {σ : State} {w : Nat}

/-- The response built for a recorded result (R263, R264). -/
theorem buildReplyResponse_isImage (htoken : (σ.worker w).tokenFits) :
    ((σ.buildReplyResponse w).msg (.rsp w)).IsImage (resultBytes σ.params (σ.worker w).reqMsg (σ.worker w).result) := by
  cases hkind : (σ.worker w).appKind with
  | nothing =>
    simp only [State.buildReplyResponse, Worker.result, hkind]
    rw [(opBuildEmpty_spec σ (.worker w) .ack (.rsp w) (.req w)).slot]
    exact isImage_emptyReply .ack _ _
  | failure =>
    obtain ⟨htkl, hlen⟩ := htoken (by rw [hkind]; decide)
    simp only [State.buildReplyResponse, Worker.result, hkind]
    exact (opBuildResponse_fits (r := .req w) rfl htkl hlen).1
  | response =>
    obtain ⟨htkl, hlen⟩ := htoken (by rw [hkind]; decide)
    simp only [State.buildReplyResponse, Worker.result, hkind, resultBytes_response]
    cases hsize : σ.params.oversize (σ.worker w).appPayload with
    | false =>
      have hbuilt := opBuildResponse_fits (a := .worker w) (d := .rsp w) (r := .req w) (code := (σ.worker w).appCode)
        hsize htkl hlen
      rw [if_neg (by rw [hbuilt.2]; decide)]
      exact hbuilt.1
    | true =>
      obtain ⟨herr, hreq⟩ := opBuildResponse_oversize (a := .worker w) (d := .rsp w) (r := .req w)
        (code := (σ.worker w).appCode) hsize (by simp)
      rw [if_pos herr]
      generalize σ.opBuildResponse (.worker w) (.rsp w) (.req w) _ _ = u at hreq
      have hmsg : u.msg (.req w) = (σ.worker w).reqMsg := hreq
      rw [← hmsg] at htkl hlen
      exact hmsg ▸ (opBuildResponse_fits (σ := u) (r := .req w) rfl htkl hlen).1

/-- The reply built for a plan (R264). -/
theorem buildReply_isImage (hplan : (σ.worker w).plan ≠ .noReply)
    (htoken : (σ.worker w).plan = .sendResponse → (σ.worker w).tokenFits) :
    ((σ.buildReply w).msg (.rsp w)).IsImage ((σ.worker w).replyBytes σ.params) := by
  cases hp : (σ.worker w).plan with
  | noReply => exact absurd hp hplan
  | sendRst =>
    simp only [State.buildReply, Worker.replyBytes, hp]
    rw [(opBuildEmpty_spec σ (.worker w) .rst (.rsp w) (.req w)).slot]
    exact isImage_emptyReply .rst _ _
  | sendEmptyAck =>
    simp only [State.buildReply, Worker.replyBytes, hp]
    rw [(opBuildEmpty_spec σ (.worker w) .ack (.rsp w) (.req w)).slot]
    exact isImage_emptyReply .ack _ _
  | sendResponse =>
    simp only [State.buildReply, Worker.replyBytes, hp]
    exact buildReplyResponse_isImage (htoken hp)

/-- A reply within `MAX_DATAGRAM` has come to stand in `TX[w]`, and the worker is about to send it (R264). -/
structure ReplyOp (w : Nat) (bytes : List Byte) (σ t : State) : Prop where
  regs  : (t.worker w).regs = { (σ.worker w).regs with phase := .send }
  tx    : (t.buf (.tx w)).bytes = bytes
  past  : ∀ a, bytes.length ≤ a → t.readByte (.tx w) a = σ.readByte (.tx w) a
  rsp   : (t.msg (.rsp w)).IsImage bytes
  err   : (t.codec (.worker w)).err = .ok
  frame : Frame { slots := [.rsp w], bufs := [.tx w], codecs := [.worker w], exchs := [], workers := [w] } σ t
  quiet : Quiet σ t

theorem workerReply_replies (hphase : (σ.worker w).phase = .reply) (hplan : (σ.worker w).plan ≠ .noReply)
    (htoken : (σ.worker w).plan = .sendResponse → (σ.worker w).tokenFits)
    (hfits : exceeds σ.params.maxDatagram ((σ.worker w).replyBytes σ.params).length = false) :
    ReplyOp w ((σ.worker w).replyBytes σ.params) σ (σ.workerReply w) := by
  have himage := buildReply_isImage hplan htoken
  have hframe := frame_buildReply σ w
  have hquiet := quiet_workerReply σ w
  unfold State.workerReply at hquiet ⊢
  rw [if_pos hphase] at hquiet ⊢
  generalize (σ.worker w).replyBytes σ.params = bytes at himage hfits
  generalize σ.buildReply w = u at himage hframe hquiet
  have hneed : required (u.msg (.rsp w)) = bytes.length := (required_eq_wireSize _).trans himage.wireSize
  have hser := himage.serialize u.params.nibMax (cap := some bytes.length) (by simp [exceeds])
  obtain ⟨hbuf, hcodec, -⟩ := opSerialize_ok (s := u) (a := .worker w) (r := .rsp w) (b := .tx w) (congrArg SerOut.err hser)
  have hwritten := (opSerialize_frame u (.worker w) (.rsp w) (.tx w) (some bytes.length)).1
  have heq : u.serializeReply w = (u.opSerialize (.worker w) (.rsp w) (.tx w) (some bytes.length)).toPhase w .send := by
    unfold State.serializeReply
    dsimp only
    rw [hneed, hframe.params, if_neg (by rw [hfits]; decide), if_pos (by rw [hcodec])]
  rw [heq] at hquiet ⊢
  generalize u.opSerialize (.worker w) (.rsp w) (.tx w) (some bytes.length) = v at hbuf hcodec hwritten hquiet
  rw [hser] at hbuf
  refine ⟨?_, by rw [State.buf_toPhase, hbuf, Buf.bytes_load], fun i hi => ?_, ?_, ?_, ?_, hquiet⟩
  · rw [← hframe.workers w List.not_mem_nil, ← hwritten.workers w List.not_mem_nil, State.worker_toPhase_same]
    rfl
  · rw [← hframe.bytes (.tx w) List.not_mem_nil, ← readByte_load_past hbuf hi, State.readByte, State.buf_toPhase,
      State.readByte]
  · rw [State.msg_toPhase, hwritten.slots _ List.not_mem_nil]
    exact himage
  · rw [State.codec_toPhase, hcodec]
  · exact (hframe.mono (by simp) (by simp) (by simp) (by simp) (by simp)).trans
      ((hwritten.mono (by simp) (by simp) (by simp) (by simp) (by simp)).trans
        (frame_toPhase _ _ _ (List.mem_singleton_self _)))

end Reply

end Sys2Proof.Machine
end

section
/-! SUPPORT. The run of a worker (45_dispatcher.md R252 to R267): a datagram accepted and parsed, the one transmit, the steps
that an ended worker passes over, and how each decision ends. -/

namespace Sys2Proof.Machine

/-! W_SEND, and the end of a worker. -/

section Ended
variable {σ : State} {w : Nat}

/-- W_SEND hands over `TX[w]` once and ends the worker (R265). -/
theorem workerSend_sends (hphase : (σ.worker w).phase = .send) :
    (σ.workerSend w).Ended w ∧
      Served (Touched.worker w) [{ peer := (σ.worker w).peer, bytes := (σ.worker w).tx.bytes }] [] σ (σ.workerSend w) := by
  have hsent := transmit_spec σ (σ.worker w).peer (σ.worker w).tx.bytes
  obtain ⟨hout, hcalls, hanswers, -, hframe⟩ := hsent
  have hend := endWorker_spec (σ.transmit (σ.worker w).peer (σ.worker w).tx.bytes) w
  unfold State.workerSend
  rw [if_pos hphase]
  refine ⟨hend.ended, ?_⟩
  exact Served.trans ⟨hout, by rw [hcalls, List.append_nil], by rw [hanswers, List.drop_one.symm]; rfl, hframe _⟩
    (hend.quiet.served hend.frame)

theorem State.Ended.phase (h : σ.Ended w) : (σ.worker w).phase = .done := congrArg WorkerRegs.phase h.regs

theorem State.Ended.call (h : σ.Ended w) : (σ.worker w).call = .noCall := congrArg WorkerRegs.call h.regs

/-- The reply and the send of a worker. -/
def State.answer (σ : State) (w : Nat) : State := (σ.workerReply w).workerSend w

theorem answer_disabled (hreply : (σ.worker w).phase ≠ .reply) (hsend : (σ.worker w).phase ≠ .send) : σ.answer w = σ := by
  unfold State.answer State.workerReply
  rw [if_neg hreply]
  exact if_neg hsend

/-- The reply of a plan goes out once, and the worker has ended. -/
theorem answer_sends (hphase : (σ.worker w).phase = .reply) (hplan : (σ.worker w).plan ≠ .noReply)
    (htoken : (σ.worker w).plan = .sendResponse → (σ.worker w).tokenFits)
    (hfits : exceeds σ.params.maxDatagram ((σ.worker w).replyBytes σ.params).length = false) :
    (σ.answer w).Ended w ∧
      Served (Touched.worker w) [{ peer := (σ.worker w).peer, bytes := (σ.worker w).replyBytes σ.params }] [] σ
        (σ.answer w) := by
  have hreply := workerReply_replies hphase hplan htoken hfits
  unfold State.answer
  generalize σ.workerReply w = u at hreply
  have hpeer : (u.worker w).peer = (σ.worker w).peer := congrArg WorkerRegs.peer hreply.regs
  have htx : (u.worker w).tx.bytes = (σ.worker w).replyBytes σ.params := hreply.tx
  have hsend := workerSend_sends (σ := u) (w := w) (congrArg WorkerRegs.phase hreply.regs)
  rw [hpeer, htx] at hsend
  exact ⟨hsend.1, (hreply.quiet.served (hreply.frame.mono (by simp [Touched.worker]) (by simp [Touched.worker])
    (by simp [Touched.worker]) (by simp) (by simp [Touched.worker]))).trans hsend.2⟩

end Ended

/-! The steps after W_DECIDE. -/

/-- The steps of a worker after W_DECIDE, with the collaborator's result if it returns (R254). -/
def State.finish (σ : State) (w : Nat) : Option AppResult → State
  | none => (σ.workerCall w).answer w
  | some result => ((σ.workerCall w).workerReturn w result).answer w

section Finish
variable {σ : State} {w : Nat}

/-- A worker that neither calls nor waits goes on to its answer. -/
theorem finish_of_noCall (hphase : (σ.worker w).phase ≠ .call) (hcall : (σ.worker w).call ≠ .pending)
    (result : Option AppResult) : σ.finish w result = σ.answer w := by
  cases result with
  | none => rw [State.finish, workerCall_disabled hphase]
  | some result => rw [State.finish, workerCall_disabled hphase, workerReturn_disabled hcall]

theorem finish_of_ended (h : σ.Ended w) (result : Option AppResult) : σ.finish w result = σ := by
  rw [finish_of_noCall (by rw [h.phase]; decide) (by rw [h.call]; decide),
    answer_disabled (by rw [h.phase]; decide) (by rw [h.phase]; decide)]

end Finish

/-! RX_ACCEPT and W_PARSE. -/

/-- The outcome of PARSE of a datagram in the worker context that RX_ACCEPT takes for it. -/
def State.inbound (σ : State) (datagram : List Byte) : ParseOut :=
  parse σ.params (σ.draws + 1) (σ.worker σ.freeWorker).reqMsg (σ.cut datagram)

/-- The block once a datagram is accepted and parsed. -/
def State.decoded (σ : State) (peer : PeerAddr) (datagram : List Byte) : State :=
  (σ.accept peer datagram).workerParse σ.freeWorker

/-- Everything a worker's steps before its reply may write. -/
def Touched.request (w : Nat) : Touched :=
  { slots := [.req w], bufs := [.rx w, .tx w], codecs := [.worker w], exchs := [], workers := [w] }

theorem Frame.ofRequest {w : Nat} {s t : State} (h : Frame (Touched.request w) s t) : Frame (Touched.worker w) s t :=
  h.mono (by simp [Touched.request, Touched.worker]) (by simp [Touched.request, Touched.worker])
    (by simp [Touched.request, Touched.worker]) (by simp [Touched.request]) (by simp [Touched.request, Touched.worker])

/-- Worker `w`, which serves `peer`, holds the outcome of PARSE and is about to decide. -/
structure Deciding (w : Nat) (peer : PeerAddr) (o : ParseOut) (σ t : State) : Prop where
  phase : (t.worker w).phase = .decide
  peer  : (t.worker w).peer = peer
  call  : (t.worker w).call = .noCall
  req   : (t.worker w).reqMsg = o.msg
  codec : (t.worker w).codec = { pos := o.pos, prev := o.prev, err := o.err, hdrValid := o.hdrValid, result := none }
  served : Served (Touched.request w) [] [] σ t

/-- RX_ACCEPT writes the two buffers and the registers of the context it takes (R252). -/
theorem frame_acceptedWorker (σ : State) (w n : Nat) (peer : PeerAddr) (bytes : List Byte) :
    Frame (Touched.request w) σ (σ.setWorker w (acceptedWorker n peer bytes (σ.worker w))) := by
  have hwrites : σ.setWorker w (acceptedWorker n peer bytes (σ.worker w)) =
      ((σ.setBuf (.rx w) ((σ.worker w).rx.load bytes)).setBuf (.tx w) { (σ.worker w).tx with len := 0 }).setWorker w
        (acceptedWorker n peer bytes (σ.worker w)) := by
    simp [State.setBuf]
  rw [hwrites]
  refine (frame_setBuf _ _ _ (by simp [Touched.request])).trans ((frame_setBuf _ _ _ (by simp [Touched.request])).trans
    (frame_setWorker_regs _ _ _ (List.mem_singleton_self _) ?_ ?_ ?_ ?_ ?_)) <;>
  simp [State.worker_setBuf, acceptedWorker]

section Accept
variable {σ : State} (hw : σ.workerOk σ.freeWorker = true)
include hw

theorem accept_eq (peer : PeerAddr) (datagram : List Byte) : σ.accept peer datagram =
    (σ.setWorker σ.freeWorker (acceptedWorker σ.draws peer (σ.cut datagram) (σ.worker σ.freeWorker))).draw := if_pos hw

theorem decoded_deciding (peer : PeerAddr) (datagram : List Byte) :
    Deciding σ.freeWorker peer (σ.inbound datagram) σ (σ.decoded peer datagram) := by
  have hquiet := quiet_accept σ peer datagram
  have hframe : Frame (Touched.request σ.freeWorker) σ (σ.accept peer datagram) := by
    rw [accept_eq hw]; exact (frame_acceptedWorker σ _ _ _ _).trans (frame_draw _)
  have hworker : (σ.accept peer datagram).worker σ.freeWorker =
      acceptedWorker σ.draws peer (σ.cut datagram) (σ.worker σ.freeWorker) := by
    rw [accept_eq hw, State.worker_draw, State.worker_setWorker_same]
  have hdraws : (σ.accept peer datagram).draws = σ.draws + 1 := by rw [accept_eq hw]; rfl
  have hdecoded : σ.decoded peer datagram = ((σ.accept peer datagram).opParse (.worker σ.freeWorker) (.req σ.freeWorker)
      (σ.cut datagram)).toPhase σ.freeWorker .decide := by
    have hrx : (acceptedWorker σ.draws peer (σ.cut datagram) (σ.worker σ.freeWorker)).rx.bytes = σ.cut datagram :=
      Buf.bytes_load _ _
    unfold State.decoded State.workerParse
    rw [hworker, hrx]
    exact if_pos rfl
  rw [hdecoded]
  generalize σ.accept peer datagram = u at hquiet hframe hworker hdraws
  have hparse := opParse_spec u (.worker σ.freeWorker) (.req σ.freeWorker) (σ.cut datagram)
  generalize u.opParse (.worker σ.freeWorker) (.req σ.freeWorker) (σ.cut datagram) = v at hparse
  have hout : parse u.params u.draws (u.msg (.req σ.freeWorker)) (σ.cut datagram) = σ.inbound datagram := by
    rw [hframe.params, hdraws, State.msg, hworker]; rfl
  rw [hout] at hparse
  have hregs := (hparse.frame.workers σ.freeWorker List.not_mem_nil).trans (congrArg Worker.regs hworker)
  have hrest := frame_toPhase (τ := Touched.request σ.freeWorker) v σ.freeWorker .decide (List.mem_singleton_self _)
  refine ⟨?_, ?_, ?_, ?_, ?_, (hquiet.trans (hparse.quiet.trans (quiet_toPhase _ _ _))).served (hframe.trans
    ((hparse.frame.mono (by simp [Touched.request]) (by simp) (by simp [Touched.request]) (by simp) (by simp)).trans hrest))⟩
  all_goals rw [State.worker_toPhase_same]
  · exact congrArg WorkerRegs.peer hregs
  · exact congrArg WorkerRegs.call hregs
  · exact hparse.slot
  · exact hparse.codec

end Accept

/-! The two runs. -/

/-- A datagram at the dispatcher: accepted, parsed, decided and finished, with the collaborator's result if it returns. -/
def State.served (σ : State) (peer : PeerAddr) (datagram : List Byte) (result : Option AppResult) : State :=
  ((σ.decoded peer datagram).workerDecide σ.freeWorker).finish σ.freeWorker result

theorem exec_wReturn {σ : State} {w : Nat} (hw : σ.workerOk w = true) (result : AppResult) :
    exec (.wReturn w result) σ = .next (σ.workerReturn w result) := congrArg Host.Outcome.next (if_pos hw)

section Runs
variable {σ : State} (hw : σ.workerOk σ.freeWorker = true)
include hw

theorem dispatch_eq_served (peer : PeerAddr) (datagram : List Byte) : σ.dispatch peer datagram = σ.served peer datagram none :=
  if_pos hw

/-- RX_ACCEPT and the commands of the worker's steps are the run with the collaborator's result. -/
theorem execAll_workerRun (peer : PeerAddr) (datagram : List Byte) (result : AppResult) :
    execAll (.rxAccept peer datagram :: workerRun σ.freeWorker result) σ =
      .next (σ.served peer datagram (some result)) := by
  have hmem : σ.freeWorker ∈ [σ.freeWorker] := List.mem_singleton_self _
  have haccept := localTo_accept (xs := []) σ peer datagram hmem
  have hparse := haccept.trans (localTo_workerParse _ _ hmem)
  have hdecide := hparse.trans (localTo_workerDecide _ _ hmem)
  have hcall := hdecide.trans (localTo_workerCall _ _ hmem)
  have hreturn := hcall.trans (localTo_workerReturn _ _ result hmem)
  have hreply := hreturn.trans (localTo_workerReply _ _ hmem)
  have hok {t : State} (h : LocalTo [σ.freeWorker] [] σ t) : t.workerOk σ.freeWorker = true :=
    (workerOk_congr h.params _).trans hw
  rw [workerRun, execAll_cons rfl, execAll_cons (exec_wParse (hok haccept)), execAll_cons (exec_wDecide (hok hparse)),
    execAll_cons (exec_wCall (hok hdecide)), execAll_cons (exec_wReturn (hok hcall) result),
    execAll_cons (exec_wReply (hok hreturn)), execAll_cons (exec_wSend (hok hreply))]
  rfl

end Runs

/-! How each decision ends. -/

/-- What the responder decides for a datagram at the dispatcher. -/
def State.decides (σ : State) (datagram : List Byte) : Plan × Phase :=
  decision σ.rstOnParseError (σ.inbound datagram).err (σ.inbound datagram).hdrValid (σ.inbound datagram).msg

/-- The view of a request from `peer` (R260). -/
def requestView (w : Nat) (peer : PeerAddr) (m : Msg) : CallView :=
  { worker := w, peer := peer, method := m.code, token := m.tokenBytes, opts := m.opts, payload := m.payload }

/-- Worker `w` serves request `m` of `peer` in a phase, with a plan and a call register; nothing has been sent and `called` has
been handed over. -/
structure Serving (w : Nat) (sender : PeerAddr) (m : Msg) (stage : Plan × Phase) (outstanding : CallState)
    (called : List CallView) (σ t : State) : Prop where
  plan   : (t.worker w).plan = stage.1
  phase  : (t.worker w).phase = stage.2
  call   : (t.worker w).call = outstanding
  peer   : (t.worker w).peer = sender
  req    : (t.worker w).reqMsg = m
  served : Served (Touched.request w) [] called σ t

theorem Served.ofRequest {w : Nat} {sent : List Datagram} {called : List CallView} {s t : State}
    (h : Served (Touched.request w) sent called s t) : Served (Touched.worker w) sent called s t :=
  ⟨h.out, h.calls, h.sendAnswers, h.frame.ofRequest⟩

section Decisions
variable {σ : State} (hw : σ.workerOk σ.freeWorker = true) {peer : PeerAddr} {datagram : List Byte}
include hw

theorem decisionOf_decoded : (σ.decoded peer datagram).decisionOf σ.freeWorker = σ.decides datagram := by
  have h := decoded_deciding hw peer datagram
  rw [State.decisionOf, h.served.frame.rstOnParseError, h.codec, h.req]
  rfl

/-- The silent drop: the worker has ended and nothing went out (44_responder.md R235, R237). -/
theorem served_silent (hdecides : (σ.decides datagram).2 = .done) (result : Option AppResult) :
    (σ.served peer datagram result).Ended σ.freeWorker ∧
      Served (Touched.worker σ.freeWorker) [] [] σ (σ.served peer datagram result) := by
  have h := decoded_deciding hw peer datagram
  rw [← decisionOf_decoded hw (peer := peer)] at hdecides
  obtain ⟨hended, hframe⟩ := workerDecide_ends h.phase hdecides
  have hquiet := quiet_workerDecide (σ.decoded peer datagram) σ.freeWorker
  rw [State.served, finish_of_ended hended]
  exact ⟨hended, h.served.ofRequest.trans (hquiet.served hframe)⟩

/-- A decision that does not end the worker. -/
theorem served_decided (hdecides : (σ.decides datagram).2 ≠ .done) :
    Serving σ.freeWorker peer (σ.inbound datagram).msg (σ.decides datagram) .noCall [] σ
      ((σ.decoded peer datagram).workerDecide σ.freeWorker) := by
  have h := decoded_deciding hw peer datagram
  rw [← decisionOf_decoded hw (peer := peer)] at hdecides ⊢
  rw [workerDecide_goesOn h.phase hdecides]
  refine ⟨?_, ?_, ?_, ?_, ?_,
    h.served.trans (served_setWorker_regs _ _ (List.mem_singleton_self _) rfl rfl rfl rfl rfl)⟩
  all_goals rw [State.worker_setWorker_same]
  · exact h.call
  · exact h.peer
  · exact h.req

/-- The Reset goes out once, with the id of the datagram, and the worker has ended (R231, R234, R236, R237). -/
theorem served_reset (hdecides : σ.decides datagram = (.sendRst, .reply)) (hfits : exceeds σ.params.maxDatagram 4 = false)
    (result : Option AppResult) :
    (σ.served peer datagram result).Ended σ.freeWorker ∧
      Served (Touched.worker σ.freeWorker)
        [{ peer := peer, bytes := emptyReplyBytes 0x70 (σ.inbound datagram).msg.mid }] [] σ
        (σ.served peer datagram result) := by
  have h := served_decided hw (peer := peer) (datagram := datagram) (by rw [hdecides]; simp)
  rw [hdecides] at h
  rw [State.served]
  generalize (σ.decoded peer datagram).workerDecide σ.freeWorker = u at h
  have hbytes : (u.worker σ.freeWorker).replyBytes u.params = emptyReplyBytes 0x70 (σ.inbound datagram).msg.mid := by
    rw [Worker.replyBytes, h.plan, h.req]
  have hanswer := answer_sends h.phase (by simp [h.plan]) (by simp [h.plan])
    (by rw [hbytes, h.served.frame.params]; exact hfits)
  rw [hbytes, h.peer] at hanswer
  rw [finish_of_noCall (by simp [h.phase]) (by simp [h.call])]
  exact ⟨hanswer.1, h.served.ofRequest.trans hanswer.2⟩

/-- The collaborator has the request, and the worker waits (R233, R235). -/
theorem served_called (hdecides : (σ.decides datagram).2 = .call) :
    Serving σ.freeWorker peer (σ.inbound datagram).msg (σ.decides datagram) .pending
      [requestView σ.freeWorker peer (σ.inbound datagram).msg] σ
      (((σ.decoded peer datagram).workerDecide σ.freeWorker).workerCall σ.freeWorker) := by
  have h := served_decided hw (peer := peer) (datagram := datagram) (by simp [hdecides])
  generalize (σ.decoded peer datagram).workerDecide σ.freeWorker = u at h
  obtain ⟨hworker, hcall⟩ := workerCall_calls (τ := Touched.request σ.freeWorker) (h.phase.trans hdecides) h.call
    (List.mem_singleton_self _)
  have hview : callView σ.freeWorker (u.worker σ.freeWorker) =
      requestView σ.freeWorker peer (σ.inbound datagram).msg := by
    rw [callView, requestView, h.peer, h.req]
  rw [hview] at hcall
  refine ⟨?_, ?_, ?_, ?_, ?_, h.served.trans hcall⟩
  all_goals rw [hworker]
  · exact h.plan
  · exact h.phase
  · exact h.peer
  · exact h.req

/-- Without the collaborator's result the worker stays suspended in Call. -/
theorem served_suspended (hdecides : (σ.decides datagram).2 = .call) :
    Serving σ.freeWorker peer (σ.inbound datagram).msg (σ.decides datagram) .pending
      [requestView σ.freeWorker peer (σ.inbound datagram).msg] σ (σ.served peer datagram none) := by
  have h := served_called hw (peer := peer) hdecides
  have hphase := h.phase.trans hdecides
  rw [State.served, State.finish, answer_disabled (by simp [hphase]) (by simp [hphase])]
  exact h

/-- The result of a Non-confirmable request is discarded, and the worker has ended (R235). -/
theorem served_discarded (hdecides : σ.decides datagram = (.noReply, .call)) (result : AppResult) :
    (σ.served peer datagram (some result)).Ended σ.freeWorker ∧
      Served (Touched.worker σ.freeWorker) [] [requestView σ.freeWorker peer (σ.inbound datagram).msg] σ
        (σ.served peer datagram (some result)) := by
  have h := served_called hw (peer := peer) (datagram := datagram) (by rw [hdecides])
  rw [hdecides] at h
  obtain ⟨hended, hreturn⟩ := workerReturn_discards h.call h.plan result
  rw [State.served, State.finish, answer_disabled (by simp [hended.phase]) (by simp [hended.phase])]
  exact ⟨hended, h.served.ofRequest.trans hreturn⟩

/-- The response to a Confirmable request goes out once, and the worker has ended (R233). -/
theorem served_response (hdecides : σ.decides datagram = (.sendResponse, .call))
    (htkl : (σ.inbound datagram).msg.tkl.toNat ≤ Config.tklMax)
    (htoken : (σ.inbound datagram).msg.tkl.toNat ≤ (σ.inbound datagram).msg.token.length) (result : AppResult)
    (hfits : exceeds σ.params.maxDatagram (resultBytes σ.params (σ.inbound datagram).msg result).length = false) :
    (σ.served peer datagram (some result)).Ended σ.freeWorker ∧
      Served (Touched.worker σ.freeWorker)
        [{ peer := peer, bytes := resultBytes σ.params (σ.inbound datagram).msg result }]
        [requestView σ.freeWorker peer (σ.inbound datagram).msg] σ (σ.served peer datagram (some result)) := by
  have h := served_called hw (peer := peer) (datagram := datagram) (by rw [hdecides])
  rw [hdecides] at h
  rw [State.served, State.finish]
  generalize ((σ.decoded peer datagram).workerDecide σ.freeWorker).workerCall σ.freeWorker = u at h
  obtain ⟨hworker, hreturn⟩ := workerReturn_records (τ := Touched.worker σ.freeWorker) h.call (by simp [h.plan])
    (List.mem_singleton_self _) result
  have hserved := h.served.ofRequest.trans hreturn
  generalize u.workerReturn σ.freeWorker result = v at hworker hserved
  obtain ⟨kind, code, payload, hrecord⟩ := recordResult_eq result (u.worker σ.freeWorker)
  have hplan : (v.worker σ.freeWorker).plan = .sendResponse := by rw [hworker, hrecord]; exact h.plan
  have hreq : (v.worker σ.freeWorker).reqMsg = (σ.inbound datagram).msg := by rw [hworker, hrecord]; exact h.req
  have hpeer : (v.worker σ.freeWorker).peer = peer := by rw [hworker, hrecord]; exact h.peer
  have hresult : (v.worker σ.freeWorker).result = result := by
    rw [hworker]; exact recordResult_result result (u.worker σ.freeWorker)
  have hbytes : (v.worker σ.freeWorker).replyBytes v.params = resultBytes σ.params (σ.inbound datagram).msg result := by
    rw [Worker.replyBytes, hplan, hreq, hresult, hserved.frame.params]
  have hanswer := answer_sends (σ := v) (w := σ.freeWorker) (by rw [hworker]) (by simp [hplan])
    (fun _ _ => by rw [hreq]; exact ⟨htkl, htoken⟩) (by rw [hbytes, hserved.frame.params]; exact hfits)
  rw [hbytes, hpeer] at hanswer
  exact ⟨hanswer.1, hserved.trans hanswer.2⟩

end Decisions

end Sys2Proof.Machine
end

section
/-! SUPPORT. The responder's reply obligation at the dispatcher (44_responder.md R231 to R240): what is decided for each
datagram, by its header and whether it parses, and the laws that follow. -/

namespace Sys2Proof.Machine

/-! What PARSE of a datagram gives. -/

/-- The header fields are decoded whatever the end of PARSE (42_parse.md R182, R194). -/
theorem parse_headerFields (P : Params) (draw : Nat) (old : Msg) (b0 b1 b2 b3 : Byte) (rest : List Byte) :
    (parse P draw old (b0 :: b1 :: b2 :: b3 :: rest)).hdrValid = true ∧
      (parse P draw old (b0 :: b1 :: b2 :: b3 :: rest)).msg.kind = headKind b0 ∧
      (parse P draw old (b0 :: b1 :: b2 :: b3 :: rest)).msg.code = b1 ∧
      (parse P draw old (b0 :: b1 :: b2 :: b3 :: rest)).msg.mid = be16 b2 b3 := by
  rw [parse_cons, parseBody]
  dsimp only
  split_ifs <;> exact ⟨rfl, rfl, rfl, rfl⟩

/-- Version bits of 1 are no version mismatch, however short the datagram (42_parse.md R181, R183). -/
theorem parse_err_ne_versionMismatch {P : Params} {draw : Nat} {old : Msg} {bytes : List Byte}
    (hversion : ∀ b ∈ bytes.head?, headVersion b = 1) : (parse P draw old bytes).err ≠ .versionMismatch := by
  by_cases hshort : bytes.length < 4
  · rw [parse_short hshort]; simp
  obtain ⟨b0, b1, b2, b3, rest, rfl⟩ := four_bytes hshort
  have hv : headVersion b0 = 1 := hversion b0 rfl
  rw [parse_cons, parseBody]
  dsimp only
  split_ifs with hbad htkl hrest herr
  · exact absurd hv hbad
  · simp
  · simp
  · simp
  · rcases parseLoop_err P rest.length (rest.drop (headTkl b0).toNat) [] 0 (Config.hdrLen + (headTkl b0).toNat)
      with hloop | hloop | hloop | ⟨hloop, -⟩
    · exact absurd hloop herr
    all_goals simp [headerOf, hloop]

/-- The token of a message that parses is legal and stands in the token registers (42_parse.md R184, R185). -/
theorem parse_tokenFits {P : Params} {draw : Nat} {old : Msg} {bytes : List Byte} (h : (parse P draw old bytes).err = .ok) :
    (parse P draw old bytes).msg.tkl.toNat ≤ Config.tklMax ∧
      (parse P draw old bytes).msg.tkl.toNat ≤ (parse P draw old bytes).msg.token.length := by
  obtain ⟨b0, b1, b2, b3, rest, -, -, htkl, hrest, -, hparse⟩ := parse_ok h
  rw [hparse]
  refine ⟨htkl, ?_⟩
  show (headTkl b0).toNat ≤ (overlayToken (rest.take (headTkl b0).toNat) old.token).length
  rw [overlayToken, List.length_append, List.length_take_of_le hrest]
  omega

/-! The datagram in the receive buffer. -/

section Cut
variable {σ : State} {version : BitVec 2} {kind : Kind} {tkl : BitVec 4} {code : Byte} {mid : Mid} {datagram rest : List Byte}

/-- A receive buffer that holds a header holds a 4-byte reply. -/
theorem fits_of_cut (h : 4 ≤ (σ.cut datagram).length) : exceeds σ.params.maxDatagram 4 = false := by
  cases hcap : σ.params.maxDatagram with
  | none => rfl
  | some n =>
    simp only [State.cut, hcap, List.length_take] at h
    exact decide_eq_false (by omega)

theorem fits_of_parses (h : parses σ.params (σ.cut datagram) = true) : exceeds σ.params.maxDatagram 4 = false := by
  obtain ⟨b0, b1, b2, b3, tail, hcut, -⟩ := parse_ok ((parse_err_eq_ok_iff _ 0 Msg.reset _).2 h)
  exact fits_of_cut (datagram := datagram) (by rw [hcut]; simp)

/-- A receive buffer of 4 bytes keeps the header. -/
theorem cut_header (h : exceeds σ.params.maxDatagram 4 = false)
    (hdatagram : datagram = headerBytes version kind tkl code mid ++ rest) :
    ∃ tail, σ.cut datagram = headerBytes version kind tkl code mid ++ tail := by
  subst hdatagram
  cases hcap : σ.params.maxDatagram with
  | none => exact ⟨rest, by simp only [State.cut, hcap]⟩
  | some n =>
    rw [hcap] at h
    obtain ⟨k, rfl⟩ := Nat.exists_eq_add_of_le' (not_lt.1 (of_decide_eq_false h))
    exact ⟨rest.take k, by simp only [State.cut, hcap]; rfl⟩

theorem head?_cut {b : Byte} (h : b ∈ (σ.cut datagram).head?) : b ∈ datagram.head? := by
  unfold State.cut at h
  split at h
  · exact h
  · rename_i n _
    cases datagram with
    | nil => simp at h
    | cons => cases n <;> simp_all

end Cut

/-! What is decided for a datagram (R230). -/

section Decides
variable {σ : State} {datagram tail : List Byte} {b0 b1 b2 b3 : Byte}

/-- The header fields of a datagram at the dispatcher. -/
theorem inbound_fields (hcut : σ.cut datagram = b0 :: b1 :: b2 :: b3 :: tail) :
    (σ.inbound datagram).hdrValid = true ∧ (σ.inbound datagram).msg.kind = headKind b0 ∧
      (σ.inbound datagram).msg.code = b1 ∧ (σ.inbound datagram).msg.mid = be16 b2 b3 := by
  unfold State.inbound
  rw [hcut]
  exact parse_headerFields _ _ _ _ _ _ _ _

theorem inbound_err (hparses : parses σ.params (σ.cut datagram) = true) : (σ.inbound datagram).err = .ok :=
  (parse_err_eq_ok_iff _ _ _ _).2 hparses

theorem inbound_err_ne (hfails : parses σ.params (σ.cut datagram) = false) : (σ.inbound datagram).err ≠ .ok := fun h => by
  rw [(parse_err_eq_ok_iff _ _ _ _).1 h] at hfails
  cases hfails

/-- A bad version is answered with a Reset (R231). -/
theorem decides_badVersion (hcut : σ.cut datagram = b0 :: b1 :: b2 :: b3 :: tail) (hversion : headVersion b0 ≠ 1) :
    σ.decides datagram = (.sendRst, .reply) := by
  have herr : (σ.inbound datagram).err = .versionMismatch := by
    rw [State.inbound, hcut, parse_badVersion hversion]; rfl
  rw [State.decides, herr, decision_versionMismatch]

/-- Under the strict policy a datagram with a decoded header that does not parse is answered with a Reset (R231, R237). -/
theorem decides_strict (hcut : σ.cut datagram = b0 :: b1 :: b2 :: b3 :: tail) (hpolicy : σ.rstOnParseError = true)
    (hfails : parses σ.params (σ.cut datagram) = false) : σ.decides datagram = (.sendRst, .reply) := by
  by_cases hversion : (σ.inbound datagram).err = .versionMismatch
  · rw [State.decides, hversion, decision_versionMismatch]
  · rw [State.decides, decision_error hversion (inbound_err_ne hfails), if_pos ⟨hpolicy, (inbound_fields hcut).1⟩]

/-- Under the default policy a version-1 datagram that does not parse is dropped (R237). -/
theorem decides_lenient (hversion : ∀ b ∈ (σ.cut datagram).head?, headVersion b = 1) (hpolicy : σ.rstOnParseError = false)
    (hfails : parses σ.params (σ.cut datagram) = false) : σ.decides datagram = (.noReply, .done) := by
  have herr : (σ.inbound datagram).err ≠ .versionMismatch := parse_err_ne_versionMismatch hversion
  rw [State.decides, decision_error herr (inbound_err_ne hfails), if_neg (by simp [hpolicy])]

section Parsed
variable (hparses : parses σ.params (σ.cut datagram) = true)
include hparses

theorem decides_con (hkind : (σ.inbound datagram).msg.kind = .con) :
    σ.decides datagram =
      if isMethod (σ.inbound datagram).msg.code then (.sendResponse, .call) else (.sendRst, .reply) := by
  rw [State.decides, inbound_err hparses, decision_con hkind]

theorem decides_non (hkind : (σ.inbound datagram).msg.kind = .non) :
    σ.decides datagram = if isMethod (σ.inbound datagram).msg.code then (.noReply, .call) else (.noReply, .done) := by
  rw [State.decides, inbound_err hparses, decision_non hkind]

theorem decides_unsolicited (hkind : (σ.inbound datagram).msg.kind = .ack ∨ (σ.inbound datagram).msg.kind = .rst) :
    σ.decides datagram = (.sendRst, .reply) := by
  rw [State.decides, inbound_err hparses, decision_unsolicited hkind]

end Parsed

end Decides

/-! The datagrams of the HDR rows. -/

section Rows
variable {σ : State} {kind : Kind} {tkl : BitVec 4} {low₁ : BitVec 1} {low₂ : BitVec 2} {code : Byte} {mid : Mid} {dest : Dest}
  {peer : PeerAddr} {rest : List Byte}

/-- The datagram of a HDR row is its word and the bytes after it. -/
theorem headerRows_datagram : ∀ p ∈ headerRows kind tkl low₁ low₂ code mid dest rest, p.2 = (encode p.1).word ++ rest := by
  simp only [headerRows, List.forall_mem_cons, List.not_mem_nil, false_implies, implies_true, and_true]
  exact ⟨rfl, rfl, rfl, rfl, rfl, rfl, rfl, rfl, rfl, rfl, rfl, rfl, rfl, rfl, rfl, rfl, rfl, rfl⟩

/-- The rows after the bad versions are of version 1. -/
theorem headerRows_word_versionOne : ∀ p ∈ (headerRows kind tkl low₁ low₂ code mid dest rest).drop 3,
    ∃ k t c, (encode p.1).word = headerBytes 1 k t c mid := by
  simp only [headerRows, List.drop_succ_cons, List.drop_zero, List.forall_mem_cons, List.not_mem_nil, false_implies,
    implies_true, and_true]
  exact ⟨⟨_, _, _, rfl⟩, ⟨_, _, _, rfl⟩, ⟨_, _, _, rfl⟩, ⟨_, _, _, rfl⟩, ⟨_, _, _, rfl⟩, ⟨_, _, _, rfl⟩, ⟨_, _, _, rfl⟩,
    ⟨_, _, _, rfl⟩, ⟨_, _, _, rfl⟩, ⟨_, _, _, rfl⟩, ⟨_, _, _, rfl⟩, ⟨_, _, _, rfl⟩, ⟨_, _, _, rfl⟩, ⟨_, _, _, rfl⟩,
    ⟨_, _, _, rfl⟩⟩

theorem badVersionRows_word : ∀ i ∈ [Instr.hdrBadver0 kind tkl code mid dest rest, .hdrBadver2 kind tkl code mid dest rest,
    .hdrBadver3 kind tkl code mid dest rest], ∃ v, v ≠ 1 ∧ (encode i).word = headerBytes v kind tkl code mid := by
  simp only [List.forall_mem_cons, List.not_mem_nil, false_implies, implies_true, and_true]
  exact ⟨⟨0, by decide, rfl⟩, ⟨2, by decide, rfl⟩, ⟨3, by decide, rfl⟩⟩

theorem longTokenRows_word : ∀ i ∈ [Instr.hdrTkl9 kind code mid dest rest, .hdrTkl10to11 kind low₁ code mid dest rest,
    .hdrTkl12to15 kind low₂ code mid dest rest],
    ∃ t : BitVec 4, 8 < t.toNat ∧ (encode i).word = headerBytes 1 kind t code mid := by
  simp only [List.forall_mem_cons, List.not_mem_nil, false_implies, implies_true, and_true]
  exact ⟨⟨9, by decide, rfl⟩, ⟨_, by revert low₁; decide, rfl⟩, ⟨_, by revert low₂; decide, rfl⟩⟩

/-- Every row names the id it carries. -/
theorem headerRows_word : ∀ p ∈ headerRows kind tkl low₁ low₂ code mid dest rest,
    ∃ v k t c, (encode p.1).word = headerBytes v k t c mid := by
  intro p hp
  rw [← List.take_append_drop 3 (headerRows kind tkl low₁ low₂ code mid dest rest), List.mem_append] at hp
  rcases hp with hp | hp
  · obtain ⟨v, -, hword⟩ := badVersionRows_word (kind := kind) (tkl := tkl) (code := code) (mid := mid) (dest := dest)
      (rest := rest) p.1 (List.mem_map_of_mem (f := Prod.fst) hp)
    exact ⟨v, kind, tkl, code, hword⟩
  · obtain ⟨k, t, c, hword⟩ := headerRows_word_versionOne p hp
    exact ⟨1, k, t, c, hword⟩

/-- The header fields of a row's datagram, when the receive buffer holds the header. -/
theorem inbound_header {version : BitVec 2} {datagram : List Byte} (hfits : exceeds σ.params.maxDatagram 4 = false)
    (hdatagram : datagram = headerBytes version kind tkl code mid ++ rest) :
    (σ.inbound datagram).msg.kind = kind ∧ (σ.inbound datagram).msg.code = code ∧ (σ.inbound datagram).msg.mid = mid := by
  obtain ⟨tail, hcut⟩ := cut_header hfits hdatagram
  obtain ⟨-, hkind, hcode, hmid⟩ := inbound_fields hcut
  exact ⟨hkind.trans (headKind_headByte _ _ _), hcode, hmid.trans (be16_fields _)⟩

/-- A token length of 9 to 15 does not parse (42_parse.md R184). -/
theorem longToken_fails {datagram : List Byte} (htkl : 8 < tkl.toNat)
    (hdatagram : datagram = headerBytes 1 kind tkl code mid ++ rest) : parses σ.params (σ.cut datagram) = false := by
  by_contra h
  have hparses : parses σ.params (σ.cut datagram) = true := by simpa using h
  obtain ⟨tail, hcut⟩ := cut_header (fits_of_parses hparses) hdatagram
  rw [hcut, ← parse_err_eq_ok_iff _ 0 Msg.reset] at hparses
  have hstop := parse_longToken (P := σ.params) (draw := 0) (old := Msg.reset) (b0 := headByte 1 kind tkl) (b1 := code)
    (b2 := midHigh mid) (b3 := midLow mid) (rest := tail) (by simp) (by simpa using htkl)
  cases hparses.symm.trans (congrArg ParseOut.err hstop)

/-- A row at the dispatcher is the run of its datagram without the collaborator's result. -/
theorem exec_headerRow_served (hw : σ.workerOk σ.freeWorker = true) :
    ∀ p ∈ headerRows kind tkl low₁ low₂ code mid (.dispatcher peer) rest,
      exec p.1 σ = .next (σ.served peer p.2 none) := fun p hp =>
  (exec_headerRow σ p hp).trans (congrArg Host.Outcome.next (dispatch_eq_served hw peer p.2))

end Rows

end Sys2Proof.Machine
end

section
/-! SUPPORT. The statements of the responder (44_responder.md): each finds what is decided for its datagram, and how that
decision ends. -/

namespace Sys2Proof.Machine

/-! The HDR rows at the dispatcher. -/

/-- Settles O54: each of the five grounds decides for the Reset, and the row's own id is the one decoded. -/
theorem headerRowsThatOweAReset : Obligations.HeaderRowsThatOweAReset := by
  intro kind tkl low₁ low₂ code mid peer rest σ hw hcap w p hp hground
  have hfits : exceeds σ.params.maxDatagram 4 = false := by
    cases hmax : σ.params.maxDatagram with
    | none => rfl
    | some n => exact decide_eq_false (not_lt.2 (hcap n hmax))
  have hdatagram := headerRows_datagram p hp
  have hheader {v k t c} (hword : (encode p.1).word = headerBytes v k t c mid) : p.2 = headerBytes v k t c mid ++ rest :=
    hdatagram.trans (congrArg (· ++ rest) hword)
  obtain ⟨v, k, t, c, hword⟩ := headerRows_word p hp
  obtain ⟨tail, hcut⟩ := cut_header hfits (hheader hword)
  have hmid : (σ.inbound p.2).msg.mid = mid := (inbound_header hfits (hheader hword)).2.2
  have hdecides : σ.decides p.2 = (.sendRst, .reply) := by
    rcases hground with hrow | ⟨hparses, hrow⟩ | ⟨hparses, hmethod, hrow⟩ | ⟨hpolicy, hrow⟩ | ⟨hpolicy, hfails⟩
    · obtain ⟨v', hversion, hword'⟩ := badVersionRows_word p.1 hrow
      obtain ⟨tail', hcut'⟩ := cut_header hfits (hheader hword')
      exact decides_badVersion hcut' (by rwa [headVersion_headByte])
    · rcases List.mem_pair.1 hrow with hrow | hrow
      · exact decides_unsolicited hparses (.inl (inbound_header hfits (hheader (congrArg (Record.word ∘ encode) hrow))).1)
      · exact decides_unsolicited hparses (.inr (inbound_header hfits (hheader (congrArg (Record.word ∘ encode) hrow))).1)
    · obtain ⟨hkind, hcode, -⟩ := inbound_header hfits (hheader (congrArg (Record.word ∘ encode) hrow))
      rw [decides_con hparses hkind, hcode, hmethod]
      rfl
    · obtain ⟨t', htkl, hword'⟩ := longTokenRows_word p.1 hrow
      exact decides_strict hcut hpolicy (longToken_fails htkl (hheader hword'))
    · exact decides_strict hcut hpolicy hfails
  obtain ⟨hended, hserved⟩ := served_reset hw (peer := peer) hdecides hfits none
  rw [hmid] at hserved
  exact ⟨_, exec_headerRow_served hw p hp, hserved.out, by rw [hserved.calls, List.append_nil], hended, hserved.frame⟩

/-- Settles O55: under the default policy what does not parse is dropped, and so is a Non-confirmable message without a method
code. -/
theorem headerRowsAnsweredWithSilence : Obligations.HeaderRowsAnsweredWithSilence := by
  intro kind tkl low₁ low₂ code mid peer rest σ hw w p hp hground
  have hrows := List.mem_of_mem_drop hp
  have hheader {k t c} (hword : (encode p.1).word = headerBytes 1 k t c mid) : p.2 = headerBytes 1 k t c mid ++ rest :=
    (headerRows_datagram p hrows).trans (congrArg (· ++ rest) hword)
  obtain ⟨k, t, c, hword⟩ := headerRows_word_versionOne p hp
  have hversion : ∀ b ∈ (σ.cut p.2).head?, headVersion b = 1 := by
    intro b hb
    have hfirst := head?_cut hb
    rw [hheader hword] at hfirst
    obtain rfl : headByte 1 k t = b := Option.some.inj hfirst
    exact headVersion_headByte 1 k t
  have hdecides : σ.decides p.2 = (.noReply, .done) := by
    rcases hground with ⟨hpolicy, hrow⟩ | ⟨hpolicy, hfails⟩ | ⟨hparses, hmethod, hrow⟩
    · obtain ⟨t', htkl, hword'⟩ := longTokenRows_word p.1 hrow
      exact decides_lenient hversion hpolicy (longToken_fails htkl (hheader hword'))
    · exact decides_lenient hversion hpolicy hfails
    · obtain ⟨hkind, hcode, -⟩ := inbound_header (fits_of_parses hparses)
        (hheader (congrArg (Record.word ∘ encode) hrow))
      rw [decides_non hparses hkind, hcode, hmethod]
      rfl
  obtain ⟨hended, hserved⟩ := served_silent hw (peer := peer) (by rw [hdecides]) none
  exact ⟨_, exec_headerRow_served hw p hrows, hended, hserved.quiet, hserved.frame⟩

/-- The message of a datagram that parses does not depend on what the request slot held. -/
theorem parsedMsg_same_inbound {σ : State} {datagram : List Byte} (hparses : parses σ.params (σ.cut datagram) = true) :
    (parsedMsg σ.params (σ.cut datagram)).same (σ.inbound datagram).msg = true :=
  parse_same ((parse_err_eq_ok_iff _ _ _ _).2 hparses)

/-- The rows of the methods: what each begins with, and that its code is a method's. -/
theorem methodRows_exec (tkl : BitVec 4) (mid : Mid) (peer : PeerAddr) (rest : List Byte) (σ : State) :
    ∀ p ∈ [(Instr.conGet tkl mid (.dispatcher peer) rest, Kind.con, (0x01 : Byte)),
        (.conPost tkl mid (.dispatcher peer) rest, .con, 0x02), (.conPut tkl mid (.dispatcher peer) rest, .con, 0x03),
        (.conDelete tkl mid (.dispatcher peer) rest, .con, 0x04), (.nonGet tkl mid (.dispatcher peer) rest, .non, 0x01),
        (.nonPost tkl mid (.dispatcher peer) rest, .non, 0x02), (.nonPut tkl mid (.dispatcher peer) rest, .non, 0x03),
        (.nonDelete tkl mid (.dispatcher peer) rest, .non, 0x04)],
      exec p.1 σ = .next (σ.dispatch peer (headerBytes 1 p.2.1 tkl p.2.2 mid ++ rest)) ∧ isMethod p.2.2 = true ∧
        (p.2.1 = .con ∨ p.2.1 = .non) := by
  simp only [List.forall_mem_cons, List.not_mem_nil, false_implies, implies_true, and_true]
  exact ⟨⟨rfl, rfl, .inl trivial⟩, ⟨rfl, rfl, .inl trivial⟩, ⟨rfl, rfl, .inl trivial⟩, ⟨rfl, rfl, .inl trivial⟩,
    ⟨rfl, rfl, .inr trivial⟩, ⟨rfl, rfl, .inr trivial⟩, ⟨rfl, rfl, .inr trivial⟩, ⟨rfl, rfl, .inr trivial⟩⟩

/-- Settles O56: both kinds decide for the call, and without a result the worker stays suspended there. -/
theorem methodRowsCallTheCollaborator : Obligations.MethodRowsCallTheCollaborator := by
  intro tkl mid peer rest σ hw w dest p hp
  obtain ⟨hexec, hmethod, hkinds⟩ := methodRows_exec tkl mid peer rest σ p hp
  generalize hdatagram : headerBytes 1 p.2.1 tkl p.2.2 mid ++ rest = datagram at hexec ⊢
  intro bytes m hparses
  have hsame : m.same (σ.inbound datagram).msg = true := parsedMsg_same_inbound hparses
  obtain ⟨hkind, hcode, -⟩ := inbound_header (fits_of_parses hparses) hdatagram.symm
  have hdecides : σ.decides datagram = (if p.2.1 = .con then Plan.sendResponse else .noReply, .call) := by
    rcases hkinds with hk | hk
    · rw [decides_con hparses (hkind.trans hk), hcode, hmethod, hk]; rfl
    · rw [decides_non hparses (hkind.trans hk), hcode, hmethod, hk]; rfl
  have h := served_suspended hw (peer := peer) (datagram := datagram) (by rw [hdecides])
  rw [hdecides] at h
  obtain ⟨-, -, -, htoken, -, -, hopts, hpayload⟩ := (Msg.same_iff _ _).1 hsame
  refine ⟨_, hexec.trans (congrArg _ (dispatch_eq_served hw peer datagram)), ?_, h.served.out.trans (List.append_nil _),
    h.served.sendAnswers, h.phase, h.call, h.peer, h.plan, ?_, h.served.frame⟩
  · rw [h.served.calls, requestView, hcode, ← htoken, ← hopts, ← hpayload]
  · rw [State.msg, h.req]; exact hsame

/-! The laws. -/

/-- A reply depends on the request's id and token alone. -/
theorem resultBytes_congr {q q' : Msg} (P : Params) (htkl : q.tkl = q'.tkl) (htoken : q.tokenBytes = q'.tokenBytes)
    (hmid : q.mid = q'.mid) (result : AppResult) : resultBytes P q result = resultBytes P q' result := by
  have hresponse : ∀ c p, responseBytes q c p = responseBytes q' c p := fun c p => by
    unfold responseBytes; rw [htkl, htoken, hmid]
  rcases result with _ | _ | ⟨code, _ | payload⟩ <;> simp only [resultBytes, hresponse, hmid]

/-- A result that is not nothing is answered with an application response. -/
theorem resultBytes_eq_responseBytes (P : Params) (q : Msg) {result : AppResult} (h : result ≠ .nothing) :
    ∃ code payload, resultBytes P q result = responseBytes q code payload := by
  cases result with
  | nothing => exact absurd rfl h
  | failure => exact ⟨0xA0, none, rfl⟩
  | response code payload =>
    rw [resultBytes_response]
    split_ifs
    · exact ⟨_, _, rfl⟩
    · exact ⟨_, _, rfl⟩

/-- Bytes 2 and 3 of every reply to a request are its id. -/
theorem resultBytes_mid (P : Params) (q : Msg) (result : AppResult) :
    (resultBytes P q result).getD 2 0 = midHigh q.mid ∧ (resultBytes P q result).getD 3 0 = midLow q.mid := by
  by_cases h : result = .nothing
  · subst h; exact ⟨rfl, rfl⟩
  · obtain ⟨code, payload, hbytes⟩ := resultBytes_eq_responseBytes P q h
    rw [hbytes]
    exact ⟨rfl, rfl⟩

/-- A response has the request's token after the header, and its length in byte 0. -/
theorem responseBytes_token {q : Msg} (htoken : q.tkl.toNat ≤ q.token.length) (code : Byte) (payload : Option (List Byte)) :
    ((responseBytes q code payload).drop 4).take q.tkl.toNat = q.tokenBytes ∧
      ((responseBytes q code payload).getD 0 0).toNat = 0x60 + q.tkl.toNat := by
  constructor
  · show (q.tokenBytes ++ _).take q.tkl.toNat = q.tokenBytes
    exact List.take_left' (tokenBytes_length htoken)
  · have hlt := q.tkl.isLt
    show (BitVec.ofNat 8 (0x60 + q.tkl.toNat)).toNat = _
    rw [BitVec.toNat_ofNat, Nat.mod_eq_of_lt (by omega)]

/-- Settles O57: a method's result is owed to the peer, anything else Confirmable gets the Reset; both answer with the id of the
message that was parsed. -/
theorem confirmableGetsExactlyOneReply : Obligations.ConfirmableGetsExactlyOneReply := by
  intro peer datagram result σ hw hparses hcon m reply hfits
  obtain ⟨-, hkind, htkl, htoken, hcode, hmid, -, -⟩ := (Msg.same_iff _ _).1 (parsedMsg_same_inbound hparses)
  have hdecides := decides_con hparses (hkind.symm.trans hcon)
  rw [← hcode] at hdecides
  refine ⟨_, execAll_workerRun hw peer datagram result, ?_⟩
  cases hmethod : isMethod m.code with
  | true =>
    have hreply : reply = resultBytes σ.params m result := if_pos hmethod
    have hbytes : resultBytes σ.params (σ.inbound datagram).msg result = reply :=
      (resultBytes_congr _ htkl.symm htoken.symm hmid.symm result).trans hreply.symm
    obtain ⟨hlegal, hroom⟩ := parse_tokenFits (inbound_err hparses)
    obtain ⟨hended, hserved⟩ := served_response hw (peer := peer) (hdecides.trans (if_pos hmethod)) hlegal hroom result
      (by rw [hbytes]; exact hfits)
    rw [hbytes] at hserved
    refine ⟨hserved.out, ?_, ?_, fun _ hresult => ?_, by rw [hserved.calls]; simp, hended⟩
    · rw [hreply]; exact (resultBytes_mid _ _ _).1
    · rw [hreply]; exact (resultBytes_mid _ _ _).2
    · obtain ⟨code, payload, hresponse⟩ := resultBytes_eq_responseBytes σ.params m hresult
      rw [hreply, hresponse]
      exact responseBytes_token (parse_tokenFits ((parse_err_eq_ok_iff _ 0 Msg.reset _).2 hparses)).2 code payload
  | false =>
    have hreply : reply = emptyReplyBytes 0x70 m.mid := if_neg (by rw [hmethod]; decide)
    obtain ⟨hended, hserved⟩ := served_reset hw (peer := peer) (hdecides.trans (if_neg (by rw [hmethod]; decide)))
      (fits_of_parses hparses) (some result)
    rw [← hmid, ← hreply] at hserved
    refine ⟨hserved.out, ?_, ?_, fun h => Bool.noConfusion h, by rw [hserved.calls]; simp, hended⟩
    · rw [hreply]; rfl
    · rw [hreply]; rfl

/-- A first byte of version 1 and kind NON, in the wire's own number. -/
theorem nonHeader_fields {b : Byte} (h : b.toNat / 16 = 5) : headVersion b = 1 ∧ headKind b = .non := by
  revert b; decide

/-- Settles O58: a version-1 NON that parses has its result discarded or is dropped, one that does not parse is dropped; another
version decides for the Reset before its kind is looked at. -/
theorem nonConfirmableGetsNoReply : Obligations.NonConfirmableGetsNoReply := by
  constructor
  · intro peer datagram b0 tail result σ hw hcut hfirst hground
    obtain ⟨hversion, hnon⟩ := nonHeader_fields hfirst
    have hsilent : (σ.served peer datagram (some result)).Ended σ.freeWorker ∧ ∃ called,
        Served (Touched.worker σ.freeWorker) [] called σ (σ.served peer datagram (some result)) := by
      cases hparses : parses σ.params (σ.cut datagram) with
      | false =>
        have hpolicy : σ.rstOnParseError = false := hground.resolve_right (by rw [hparses]; decide)
        have hdecides := decides_lenient (by rw [hcut]; rintro b ⟨⟩; exact hversion) hpolicy hparses
        obtain ⟨hended, hserved⟩ := served_silent hw (peer := peer) (by rw [hdecides]) (some result)
        exact ⟨hended, _, hserved⟩
      | true =>
        obtain ⟨c0, c1, c2, c3, rest, hbytes, -⟩ := parse_ok (inbound_err hparses)
        obtain ⟨rfl, -⟩ := List.cons.inj (hcut.symm.trans hbytes)
        have hdecides := decides_non hparses ((inbound_fields hbytes).2.1.trans hnon)
        cases hmethod : isMethod (σ.inbound datagram).msg.code with
        | true =>
          obtain ⟨hended, hserved⟩ := served_discarded hw (peer := peer) (hdecides.trans (if_pos hmethod)) result
          exact ⟨hended, _, hserved⟩
        | false =>
          rw [hmethod] at hdecides
          obtain ⟨hended, hserved⟩ := served_silent hw (peer := peer) (by rw [hdecides]; rfl) (some result)
          exact ⟨hended, _, hserved⟩
    obtain ⟨hended, called, hserved⟩ := hsilent
    exact ⟨_, execAll_workerRun hw peer datagram result, hserved.out.trans (List.append_nil _), hserved.sendAnswers, hended⟩
  · intro peer datagram b0 b1 b2 b3 tail result σ hw hcut hversion
    have hdecides := decides_badVersion hcut (mt (headVersion_eq_one_iff b0).1 hversion)
    obtain ⟨hended, hserved⟩ := served_reset hw (peer := peer) hdecides
      (fits_of_cut (datagram := datagram) (by rw [hcut]; simp)) (some result)
    rw [(inbound_fields hcut).2.2.2, emptyReplyBytes, midHigh_be16, midLow_be16] at hserved
    exact ⟨_, execAll_workerRun hw peer datagram result, hserved.out, hended⟩

end Sys2Proof.Machine
end

section
/-! SUPPORT. The commands of the dispatcher (45_dispatcher.md R252 to R267), each from what its step does: the context that an
RX_ACCEPT takes, a step whose condition does not hold, and the effect of one whose condition holds. -/

namespace Sys2Proof.Machine

/-! Isolation. -/

/-- Settles O59: what an instruction steps or starts is named by `workerOf`, `startsWorker` and `exchOf` (`exec_localTo`). -/
theorem contextsAreIsolated : Obligations.ContextsAreIsolated := by
  intro i σ t h
  have hlocal := exec_localTo h
  refine ⟨fun w hstep hstart => hlocal.worker w ?_, fun x hx => hlocal.exch x (by simpa [eq_comm] using hx)⟩
  unfold State.stepped
  split_ifs with hstarts
  · simpa [eq_comm] using hstart hstarts
  · simpa [eq_comm] using hstep

/-! The free worker context that RX_ACCEPT takes. -/

section FreeWorker
variable (σ : State)

/-- The contexts before the first free one are busy. -/
theorem freeFrom_busy {v : Nat} : ∀ {w n : Nat}, w ≤ v → v < σ.freeFrom w n → (σ.worker v).isFree = false
  | w, 0, hle, hlt => absurd hlt (not_lt.2 hle)
  | w, n + 1, hle, hlt => by
    unfold State.freeFrom at hlt
    split_ifs at hlt with hfree
    · exact absurd hlt (not_lt.2 hle)
    · rcases hle.eq_or_lt with rfl | hlater
      · exact Bool.eq_false_of_not_eq_true hfree
      · exact freeFrom_busy hlater hlt

/-- The search ends at a free context, or past all the contexts it was given. -/
theorem freeFrom_isFree_or : ∀ w n : Nat, (σ.worker (σ.freeFrom w n)).isFree = true ∨ σ.freeFrom w n = w + n
  | _, 0 => .inr rfl
  | w, n + 1 => by
    unfold State.freeFrom
    split_ifs with hfree
    · exact .inl hfree
    · exact (freeFrom_isFree_or (w + 1) n).imp_right fun h => by omega

/-- An index that a table does not list reads as the reset entry. -/
theorem lookup_of_not_mem {α : Type} {d : α} {m : List (Nat × α)} {a : Nat} (h : a ∉ m.map Prod.fst) : lookup d m a = d := by
  induction m with
  | nil => rfl
  | cons e m ih =>
    obtain ⟨hne, hrest⟩ := not_or.1 (mt List.mem_cons.2 h)
    exact (if_neg hne).trans (ih hrest)

/-- A busy context is listed in the table. -/
theorem mem_workers_of_busy {v : Nat} (h : (σ.worker v).isFree = false) : v ∈ σ.workers.map Prod.fst := by
  by_contra hmem
  have hreset : σ.worker v = Worker.reset := lookup_of_not_mem hmem
  rw [hreset] at h
  cases h

theorem freeWorker_busy_before {v : Nat} (h : v < σ.freeWorker) : (σ.worker v).isFree = false :=
  freeFrom_busy σ (Nat.zero_le v) h

/-- There is a free context among one more than the table lists: the busy ones are listed, each once at most. -/
theorem freeWorker_isFree : (σ.worker σ.freeWorker).isFree = true := by
  rcases freeFrom_isFree_or σ 0 σ.workers.length with hfree | hend
  · exact hfree
  · by_contra hbusy
    have hlast : σ.freeWorker = σ.workers.length := hend.trans (Nat.zero_add _)
    have hlisted : List.range (σ.workers.length + 1) ⊆ σ.workers.map Prod.fst := by
      intro v hv
      rcases (Nat.lt_succ_iff.1 (List.mem_range.1 hv)).eq_or_lt with rfl | hlt
      · exact mem_workers_of_busy σ (by rw [← hlast]; exact Bool.eq_false_of_not_eq_true hbusy)
      · exact mem_workers_of_busy σ (freeWorker_busy_before σ (hlt.trans_eq hlast.symm))
    have hlength := (List.nodup_range.subperm hlisted).length_le
    rw [List.length_range, List.length_map] at hlength
    omega

end FreeWorker

/-! RX_ACCEPT. -/

theorem accept_busy {σ : State} (hbusy : σ.workerOk σ.freeWorker = false) (peer : PeerAddr) (datagram : List Byte) :
    σ.accept peer datagram = σ := if_neg (by rw [hbusy]; decide)

section Accept
variable {σ : State} (hw : σ.workerOk σ.freeWorker = true) (peer : PeerAddr) (datagram : List Byte)
include hw

theorem worker_accept : (σ.accept peer datagram).worker σ.freeWorker =
    acceptedWorker σ.draws peer (σ.cut datagram) (σ.worker σ.freeWorker) := by
  rw [accept_eq hw, State.worker_draw, State.worker_setWorker_same]

/-- RX_ACCEPT writes the registers and the two buffers of the context it takes, no slot and no codec copy. -/
theorem frame_accept :
    Frame { slots := [], bufs := [.rx σ.freeWorker, .tx σ.freeWorker], codecs := [], exchs := [], workers := [σ.freeWorker] }
      σ (σ.accept peer datagram) := by
  have hworker := worker_accept hw peer datagram
  have hframe : Frame (Touched.request σ.freeWorker) σ (σ.accept peer datagram) := by
    rw [accept_eq hw]; exact (frame_acceptedWorker σ _ _ _ _).trans (frame_draw _)
  refine { hframe with slots := fun r _ => ?_, codecs := fun g _ => ?_ }
  · by_cases hr : r = .req σ.freeWorker
    · subst hr; rw [State.msg, hworker]; rfl
    · exact hframe.slots r (by simpa [Touched.request] using hr)
  · by_cases hg : g = .worker σ.freeWorker
    · subst hg; rw [State.codec, hworker]; rfl
    · exact hframe.codecs g (by simpa [Touched.request] using hg)

end Accept

/-- Settles O44: the free context is the first one (`freeWorker_isFree`, `freeWorker_busy_before`), and the datagram is loaded
into its receive buffer. -/
theorem rxAcceptStartsOneWorker : Obligations.RxAcceptStartsOneWorker := by
  intro peer datagram σ
  refine ⟨freeWorker_isFree σ, fun v => freeWorker_busy_before σ, fun hbound => ?_, fun hbusy => ?_, fun hw => ?_⟩
  · rw [State.workerOk, hbound]; rfl
  · exact congrArg Host.Outcome.next (accept_busy hbusy peer datagram)
  · have hworker := worker_accept hw peer datagram
    refine ⟨_, rfl, by rw [hworker]; rfl, by rw [hworker]; rfl, by rw [hworker]; rfl, ?_, ?_, fun a ha => ?_, fun a => ?_,
      frame_accept hw peer datagram, quiet_accept σ peer datagram⟩
    · rw [State.buf, hworker]; exact Buf.bytes_load _ _
    · rw [State.buf, hworker]; rfl
    · rw [State.readByte, State.buf, hworker]; exact Buf.read_load_past _ _ a ha
    · rw [State.readByte, State.buf, hworker]; rfl

/-! A worker step whose condition does not hold. -/

section Disabled
variable {σ : State} {w : Nat}

theorem workerParse_disabled (h : (σ.worker w).phase ≠ .parse) : σ.workerParse w = σ := if_neg h

theorem workerDecide_disabled (h : (σ.worker w).phase ≠ .decide) : σ.workerDecide w = σ := if_neg h

/-- A worker whose call is made stays suspended (R260). -/
theorem workerCall_called (h : (σ.worker w).call ≠ .noCall) : σ.workerCall w = σ := if_neg fun hc => h hc.2

theorem workerReply_disabled (h : (σ.worker w).phase ≠ .reply) : σ.workerReply w = σ := if_neg h

theorem workerSend_disabled (h : (σ.worker w).phase ≠ .send) : σ.workerSend w = σ := if_neg h

end Disabled

/-- Settles O52: the condition of each step is the test of its operation. -/
theorem disabledWorkerStepsChangeNothing : Obligations.DisabledWorkerStepsChangeNothing := by
  intro w result σ hw
  refine ⟨fun h => ?_, fun h => ?_, fun h => ?_, fun h => ?_, fun h => ?_, fun h => ?_⟩
  · rw [exec_wParse hw, workerParse_disabled h]
  · rw [exec_wDecide hw, workerDecide_disabled h]
  · rw [exec_wCall hw, h.elim workerCall_disabled workerCall_called]
  · rw [exec_wReturn hw, workerReturn_disabled h]
  · rw [exec_wReply hw, workerReply_disabled h]
  · rw [exec_wSend hw, workerSend_disabled h]

/-! A worker step whose condition holds. -/

/-- W_PARSE is PARSE of the received bytes, then the next phase. -/
theorem workerParse_eq {σ : State} {w : Nat} (hphase : (σ.worker w).phase = .parse) :
    σ.workerParse w = (σ.opParse (.worker w) (.req w) (σ.worker w).rx.bytes).toPhase w .decide := if_pos hphase

/-- Settles O46: `opParse_spec`, and W_PARSE writes the phase besides. -/
theorem workerParseRunsTheCodec : Obligations.WorkerParseRunsTheCodec := by
  intro w σ hw hphase k o
  have hparse := opParse_spec σ (.worker w) (.req w) k.rx.bytes
  refine ⟨_, exec_wParse hw, ?_⟩
  rw [workerParse_eq hphase]
  generalize σ.opParse (.worker w) (.req w) (σ.worker w).rx.bytes = u at hparse
  have hregs : (u.worker w).regs = k.regs := hparse.frame.workers w List.not_mem_nil
  rw [State.msg_toPhase, State.codec_toPhase, State.worker_toPhase_same, hparse.codec]
  refine ⟨hparse.slot, rfl, rfl, rfl, rfl, congrArg (fun r => { r with phase := .decide }) hregs, ?_,
    hparse.quiet.trans (quiet_toPhase _ _ _)⟩
  exact (hparse.frame.mono (by simp) (by simp) (by simp) (by simp) (by simp)).trans
    (frame_toPhase _ _ _ (List.mem_singleton_self _))

/-- Settles O48: `workerCall_calls`. -/
theorem workerCallHandsOverTheView : Obligations.WorkerCallHandsOverTheView := by
  intro w σ hw hphase hcall k
  obtain ⟨hworker, hserved⟩ := workerCall_calls
    (τ := { slots := [], bufs := [], codecs := [], exchs := [], workers := [w] }) hphase hcall (List.mem_singleton_self _)
  refine ⟨_, exec_wCall hw, ?_, hserved.calls, hserved.out.trans (List.append_nil _), hserved.sendAnswers, hserved.frame⟩
  rw [hworker, ← hphase]
  rfl

/-- Settles O49: a result owed to nobody is discarded, any other is recorded. -/
theorem workerReturnRecordsTheResult : Obligations.WorkerReturnRecordsTheResult := by
  intro w result σ hw hcall k
  refine ⟨_, exec_wReturn hw result, quiet_workerReturn σ w result, ?_⟩
  split_ifs with hplan
  · obtain ⟨hended, hserved⟩ := workerReturn_discards hcall hplan result
    exact ⟨hended, hserved.frame⟩
  · obtain ⟨hworker, hserved⟩ := workerReturn_records
      (τ := { slots := [], bufs := [], codecs := [], exchs := [], workers := [w] }) hcall hplan (List.mem_singleton_self _)
      result
    obtain ⟨kind, code, payload, hrecord⟩ := recordResult_eq result (σ.worker w)
    rw [hworker]
    refine ⟨?_, recordResult_result result (σ.worker w), rfl, ?_, ?_, hserved.frame⟩
    all_goals rw [hrecord]

/-- Settles O51: `workerSend_sends`. -/
theorem workerSendTransmitsOnce : Obligations.WorkerSendTransmitsOnce := by
  intro w σ hw hphase k
  obtain ⟨hended, hserved⟩ := workerSend_sends hphase
  exact ⟨_, exec_wSend hw, hserved.out, hserved.calls.trans (List.append_nil _),
    hserved.sendAnswers.trans List.drop_one, hended, hserved.frame⟩

end Sys2Proof.Machine
end

section
/-! SUPPORT. W_REPLY (45_dispatcher.md R264): the built reply is serialized whole or, over `MAX_DATAGRAM`, the worker ends. -/

namespace Sys2Proof.Machine

/-- Bytes 2 and 3 of a message's wire image are its id (30_encoding.md R91). -/
theorem Msg.IsImage.mid {m : Msg} {bytes : List Byte} (h : m.IsImage bytes) : m.mid = be16 (bytes.getD 2 0) (bytes.getD 3 0) := by
  rw [← h.bytes]
  exact (be16_fields m.mid).symm

/-- The reply of a plan has the request's id. -/
theorem replyBytes_mid (P : Params) {k : Worker} (hplan : k.plan ≠ .noReply) :
    (k.replyBytes P).getD 2 0 = midHigh k.reqMsg.mid ∧ (k.replyBytes P).getD 3 0 = midLow k.reqMsg.mid := by
  unfold Worker.replyBytes
  cases hp : k.plan with
  | noReply => exact absurd hp hplan
  | sendRst => exact ⟨rfl, rfl⟩
  | sendEmptyAck => exact ⟨rfl, rfl⟩
  | sendResponse => exact resultBytes_mid P k.reqMsg k.result

/-- A message with a wire image is serialized whole into a buffer of its size, unless that is over `MAX_DATAGRAM`. -/
theorem serializeReply_eq {σ : State} {w : Nat} {bytes : List Byte} (himage : (σ.msg (.rsp w)).IsImage bytes) :
    σ.serializeReply w =
      if exceeds σ.params.maxDatagram bytes.length then σ.endWorker w
      else (σ.opSerialize (.worker w) (.rsp w) (.tx w) (some bytes.length)).toPhase w .send := by
  have hneed : required (σ.msg (.rsp w)) = bytes.length := (required_eq_wireSize _).trans himage.wireSize
  have hser := himage.serialize σ.params.nibMax (cap := some bytes.length) (by simp [exceeds])
  have herr := opSerialize_err σ (.worker w) (.rsp w) (.tx w) (some bytes.length)
  rw [hser] at herr
  unfold State.serializeReply
  dsimp only
  rw [hneed, if_pos herr]

section Reply
variable {σ : State} {w : Nat} (hphase : (σ.worker w).phase = .reply)
include hphase

theorem workerReply_eq : σ.workerReply w = (σ.buildReply w).serializeReply w := if_pos hphase

/-- A reply over `MAX_DATAGRAM` ends the worker without one. -/
theorem workerReply_ends (hplan : (σ.worker w).plan ≠ .noReply)
    (htoken : (σ.worker w).plan = .sendResponse → (σ.worker w).tokenFits)
    (hover : exceeds σ.params.maxDatagram ((σ.worker w).replyBytes σ.params).length = true) :
    (σ.workerReply w).Ended w ∧ Frame (Touched.worker w) σ (σ.workerReply w) := by
  have hframe := frame_buildReply σ w
  have hend := endWorker_spec (σ.buildReply w) w
  rw [workerReply_eq hphase, serializeReply_eq (buildReply_isImage hplan htoken), hframe.params, if_pos hover]
  exact ⟨hend.ended, (hframe.mono (by simp [Touched.worker]) (by simp) (by simp [Touched.worker]) (by simp) (by simp)).trans
    hend.frame⟩

end Reply

/-- Settles O50: `workerReply_ends` and `workerReply_replies`, on either side of `MAX_DATAGRAM`. -/
theorem workerReplyBuildsTheReplyBytes : Obligations.WorkerReplyBuildsTheReplyBytes := by
  intro w σ hw hphase hplan htoken k bytes
  have hfitting : k.plan = .sendResponse → k.tokenFits := fun hresponse hresult => by
    obtain ⟨hlength, htkl⟩ := htoken hresponse hresult
    exact ⟨htkl, by rw [hlength]; exact htkl⟩
  refine ⟨_, exec_wReply hw, quiet_workerReply σ w, ?_⟩
  split_ifs with hsize
  · exact workerReply_ends hphase hplan hfitting hsize
  · have hreply := workerReply_replies hphase hplan hfitting (Bool.eq_false_of_not_eq_true hsize)
    obtain ⟨hhigh, hlow⟩ := replyBytes_mid σ.params hplan
    refine ⟨hreply.regs, hreply.tx, hreply.past, hreply.rsp.opts, ?_, hreply.err, hreply.frame⟩
    rw [hreply.rsp.mid, hhigh, hlow]
    exact be16_fields _

end Sys2Proof.Machine
end

section
/-! SUPPORT. Noninterference of the worker steps (45_dispatcher.md R253, R268), by a relation of two runs: two states that agree
on the configuration and on a worker's context agree after every write of that context whose value is read from it. Free values,
which a draw gives, enter a worker's two slots alone. -/

namespace Sys2Proof.Machine

/-- The two states agree on the parameters, the policy bit and the context of worker `w`; given `p`, on the counter of free
values too. -/
structure Alike (p : Prop) (w : Nat) (s s' : State) : Prop where
  params : s.params = s'.params
  policy : s.rstOnParseError = s'.rstOnParseError
  worker : s.worker w = s'.worker w
  draws  : p → s.draws = s'.draws

/-- The contexts of worker `w` differ in their two slots at most, and not at all given `p`. -/
structure Similar (p : Prop) (w : Nat) (s s' : State) : Prop where
  regs  : (s.worker w).regs = (s'.worker w).regs
  rx    : (s.worker w).rx = (s'.worker w).rx
  tx    : (s.worker w).tx = (s'.worker w).tx
  codec : (s.worker w).codec = (s'.worker w).codec
  whole : p → s.worker w = s'.worker w

/-- From `s` to `t` and from `s'` to `t'` the same calls and the same datagrams go out. -/
structure SameOut (s s' t t' : State) : Prop where
  calls : ∃ c, t.calls = s.calls ++ c ∧ t'.calls = s'.calls ++ c
  out   : ∃ d, t.out = s.out ++ d ∧ t'.out = s'.out ++ d

theorem Quiet.sameOut {s s' t t' : State} (h : Quiet s t) (h' : Quiet s' t') : SameOut s s' t t' :=
  ⟨⟨[], by simp [h.calls], by simp [h'.calls]⟩, ⟨[], by simp [h.out], by simp [h'.out]⟩⟩

theorem Served.sameOut {τ τ' : Touched} {sent : List Datagram} {called : List CallView} {s s' t t' : State}
    (h : Served τ sent called s t) (h' : Served τ' sent called s' t') : SameOut s s' t t' :=
  ⟨⟨called, h.calls, h'.calls⟩, ⟨sent, h.out, h'.out⟩⟩

theorem similar_of_worker_eq {p : Prop} {w : Nat} {s s' : State} (h : s.worker w = s'.worker w) : Similar p w s s' :=
  ⟨by rw [h], by rw [h], by rw [h], by rw [h], fun _ => h⟩

theorem Similar.toPhase {p : Prop} {w : Nat} {s s' : State} (h : Similar p w s s') (phase : Phase) :
    Similar p w (s.toPhase w phase) (s'.toPhase w phase) := by
  constructor
  all_goals simp only [State.worker_toPhase_same]
  · exact congrArg (fun r => { r with phase := phase }) h.regs
  · exact h.rx
  · exact h.tx
  · exact h.codec
  · exact fun hp => by rw [h.whole hp]

section Writes
variable {p : Prop} {w : Nat} {s s' : State} (h : Alike p w s s')
include h

/-! Each write of the same value. -/

theorem Alike.setMsg (r : SlotRef) (m : Msg) : Alike p w (s.setMsg r m) (s'.setMsg r m) where
  params := by simpa using h.params
  policy := by simpa using h.policy
  worker := by rw [State.worker_setMsg, State.worker_setMsg, h.worker]
  draws  := by simpa using h.draws

theorem Alike.setBuf (r : BufRef) (b : Buf) : Alike p w (s.setBuf r b) (s'.setBuf r b) where
  params := by simpa using h.params
  policy := by simpa using h.policy
  worker := by rw [State.worker_setBuf, State.worker_setBuf, h.worker]
  draws  := by simpa using h.draws

theorem Alike.setCodec (a : Agent) (c : Codec) : Alike p w (s.setCodec a c) (s'.setCodec a c) where
  params := by simpa using h.params
  policy := by simpa using h.policy
  worker := by rw [State.worker_setCodec, State.worker_setCodec, h.worker]
  draws  := by simpa using h.draws

theorem Alike.setWorker (k : Worker) : Alike p w (s.setWorker w k) (s'.setWorker w k) :=
  ⟨h.params, h.policy, by rw [State.worker_setWorker_same, State.worker_setWorker_same], h.draws⟩

theorem Alike.transmit (peer peer' : PeerAddr) (bytes bytes' : List Byte) :
    Alike p w (s.transmit peer bytes) (s'.transmit peer' bytes') := ⟨h.params, h.policy, h.worker, h.draws⟩

theorem Alike.draw : Alike p w s.draw s'.draw :=
  ⟨h.params, h.policy, h.worker, fun hp => congrArg (· + 1) (h.draws hp)⟩

theorem Alike.similar : Similar p w s s' := similar_of_worker_eq h.worker

/-! What the worker reads of its context. -/

theorem Alike.codec_eq : s.codec (.worker w) = s'.codec (.worker w) := congrArg Worker.codec h.worker

theorem Alike.tx_eq : s.buf (.tx w) = s'.buf (.tx w) := congrArg Worker.tx h.worker

theorem Alike.msg_eq {r : SlotRef} (hr : r = .req w ∨ r = .rsp w) : s.msg r = s'.msg r := by
  rcases hr with rfl | rfl
  · exact congrArg Worker.reqMsg h.worker
  · exact congrArg Worker.rspMsg h.worker

/-! Each operation on the worker's own slots, buffers and registers. -/

theorem Alike.endOp (e : Err) (v : Option Nat) : Alike p w (s.endOp (.worker w) e v) (s'.endOp (.worker w) e v) := by
  unfold State.endOp
  rw [h.codec_eq]
  exact h.setCodec _ _

/-- FREE, which fills the header with free values. -/
theorem Alike.opFree (hp : p) {d : SlotRef} (hd : d = .req w ∨ d = .rsp w) :
    Alike p w (s.opFree (.worker w) d) (s'.opFree (.worker w) d) := by
  unfold State.opFree
  dsimp only
  rw [h.msg_eq hd, h.draws hp]
  split_ifs
  · exact (h.setMsg _ _).endOp _ _
  · exact (h.setMsg _ _).draw.endOp _ _

/-- PARSE, which leaves free values in the token registers when it fails. -/
theorem Alike.opParse (hp : p) {d : SlotRef} (hd : d = .req w ∨ d = .rsp w) (bytes : List Byte) :
    Alike p w (s.opParse (.worker w) d bytes) (s'.opParse (.worker w) d bytes) := by
  unfold State.opParse State.storeParse
  dsimp only
  rw [h.params, h.draws hp, h.msg_eq hd, h.codec_eq]
  split_ifs
  · exact ((h.setMsg _ _).setCodec _ _).endOp _ _
  · exact ((h.setMsg _ _).setCodec _ _).draw.endOp _ _

theorem Alike.opBuildEmpty (kind : Kind) :
    Alike p w (s.opBuildEmpty (.worker w) kind (.rsp w) (.req w)) (s'.opBuildEmpty (.worker w) kind (.rsp w) (.req w)) := by
  unfold State.opBuildEmpty
  rw [h.msg_eq (.inl rfl), h.msg_eq (.inr rfl)]
  exact (h.setMsg _ _).endOp _ _

theorem Alike.opBuildResponse (code : Byte) (payload : Option (List Byte)) :
    Alike p w (s.opBuildResponse (.worker w) (.rsp w) (.req w) code payload)
      (s'.opBuildResponse (.worker w) (.rsp w) (.req w) code payload) := by
  unfold State.opBuildResponse
  rw [h.params, h.msg_eq (.inl rfl), h.msg_eq (.inr rfl)]
  cases payload with
  | none => exact (h.setMsg _ _).endOp _ _
  | some v =>
    dsimp only
    split_ifs
    · exact (h.setMsg _ _).endOp _ _
    · exact (h.setMsg _ _).endOp _ _

/-- SERIALIZE that succeeds. -/
theorem Alike.opSerialize {cap : Option Nat} (hok : (serialize s.params.nibMax (s.msg (.rsp w)) cap).err = .ok) :
    Alike p w (s.opSerialize (.worker w) (.rsp w) (.tx w) cap) (s'.opSerialize (.worker w) (.rsp w) (.tx w) cap) := by
  unfold State.opSerialize
  dsimp only
  rw [← h.params, ← h.msg_eq (.inr rfl), ← h.tx_eq, hok]
  dsimp only
  rw [(h.setBuf _ _).codec_eq]
  exact ((h.setBuf _ _).setCodec _ _).endOp _ _

/-- The end of a worker resets all but its slots. -/
theorem Alike.endWorker : Similar p w (s.endWorker w) (s'.endWorker w) := by
  have hend := endWorker_spec s w
  have hend' := endWorker_spec s' w
  refine ⟨hend.ended.regs.trans hend'.ended.regs.symm, hend.ended.rx.trans hend'.ended.rx.symm,
    hend.ended.tx.trans hend'.ended.tx.symm, ?_, fun hp => ?_⟩
  · exact hend.codec.trans ((congrArg (Codec.ended · .ok none) h.codec_eq).trans hend'.codec.symm)
  · have hfreed := (h.opFree hp (.inl rfl)).opFree hp (.inr rfl)
    unfold State.endWorker
    dsimp only
    rw [hfreed.worker, State.worker_setWorker_same, State.worker_setWorker_same]

end Writes

/-! The steps. -/

section Steps
variable {p : Prop} {w : Nat} {σ σ' : State} (h : Alike p w σ σ')
include h

/-- The result kind, `HDR_VALID`, `pos` and `prev` of PARSE depend on the bytes alone (`parse_registers`). -/
theorem Alike.workerParse : Similar p w (σ.workerParse w) (σ'.workerParse w) := by
  by_cases hphase : (σ.worker w).phase = .parse
  · rw [workerParse_eq hphase, workerParse_eq (h.worker ▸ hphase), ← h.worker]
    have hparse := opParse_spec σ (.worker w) (.req w) (σ.worker w).rx.bytes
    have hparse' := opParse_spec σ' (.worker w) (.req w) (σ.worker w).rx.bytes
    have hregs := (hparse.frame.workers w List.not_mem_nil).trans
      ((congrArg Worker.regs h.worker).trans (hparse'.frame.workers w List.not_mem_nil).symm)
    obtain ⟨herr, hvalid, hpos, hprev⟩ := parse_registers σ.params σ.draws σ'.draws (σ.msg (.req w)) (σ'.msg (.req w))
      (σ.worker w).rx.bytes
    refine Similar.toPhase ⟨hregs, ?_, ?_, ?_, fun hp => (h.opParse hp (.inl rfl) _).worker⟩ _
    · exact (hparse.bufs (.rx w)).trans ((congrArg Worker.rx h.worker).trans (hparse'.bufs (.rx w)).symm)
    · exact (hparse.bufs (.tx w)).trans (h.tx_eq.trans (hparse'.bufs (.tx w)).symm)
    · exact hparse.codec.trans (by rw [herr, hvalid, hpos, hprev, h.params]; exact hparse'.codec.symm)
  · rw [workerParse_disabled hphase, workerParse_disabled (h.worker ▸ hphase)]
    exact h.similar

theorem Alike.decisionOf : σ.decisionOf w = σ'.decisionOf w := by
  unfold State.decisionOf
  rw [h.policy, h.worker]

theorem Alike.workerDecide : Similar p w (σ.workerDecide w) (σ'.workerDecide w) := by
  by_cases hphase : (σ.worker w).phase = .decide
  · by_cases hnext : (σ.decisionOf w).2 = .done
    · rw [workerDecide_drops hphase hnext, workerDecide_drops (h.worker ▸ hphase) (h.decisionOf ▸ hnext), ← h.decisionOf,
        ← h.worker]
      exact (h.setWorker _).endWorker
    · rw [workerDecide_goesOn hphase hnext, workerDecide_goesOn (h.worker ▸ hphase) (h.decisionOf ▸ hnext), ← h.decisionOf,
        ← h.worker]
      exact (h.setWorker _).similar
  · rw [workerDecide_disabled hphase, workerDecide_disabled (h.worker ▸ hphase)]
    exact h.similar

theorem Alike.workerCall :
    Similar p w (σ.workerCall w) (σ'.workerCall w) ∧ SameOut σ σ' (σ.workerCall w) (σ'.workerCall w) := by
  by_cases hphase : (σ.worker w).phase = .call
  · by_cases hcall : (σ.worker w).call = .noCall
    · have hmem : w ∈ (Touched.worker w).workers := List.mem_singleton_self w
      obtain ⟨hworker, hserved⟩ := workerCall_calls hphase hcall hmem
      obtain ⟨hworker', hserved'⟩ := workerCall_calls (h.worker ▸ hphase) (h.worker ▸ hcall) hmem
      rw [← h.worker] at hworker' hserved'
      exact ⟨similar_of_worker_eq (hworker.trans hworker'.symm), hserved.sameOut hserved'⟩
    · rw [workerCall_called hcall, workerCall_called (h.worker ▸ hcall)]
      exact ⟨h.similar, (Quiet.refl _).sameOut (Quiet.refl _)⟩
  · rw [workerCall_disabled hphase, workerCall_disabled (h.worker ▸ hphase)]
    exact ⟨h.similar, (Quiet.refl _).sameOut (Quiet.refl _)⟩

theorem Alike.workerReturn (result : AppResult) : Similar p w (σ.workerReturn w result) (σ'.workerReturn w result) := by
  unfold State.workerReturn
  dsimp only
  rw [← h.worker]
  split_ifs
  · exact (h.setWorker _).endWorker
  · exact (h.setWorker _).similar.toPhase _
  · exact h.similar

theorem Alike.buildReplyResponse : Alike p w (σ.buildReplyResponse w) (σ'.buildReplyResponse w) := by
  unfold State.buildReplyResponse
  dsimp only
  rw [← h.worker]
  cases (σ.worker w).appKind with
  | nothing => exact h.opBuildEmpty _
  | failure => exact h.opBuildResponse _ _
  | response =>
    have hbuilt := h.opBuildResponse (σ.worker w).appCode (σ.worker w).appPayload
    dsimp only
    rw [← hbuilt.codec_eq]
    split_ifs
    · exact hbuilt.opBuildResponse _ _
    · exact hbuilt

theorem Alike.buildReply : Alike p w (σ.buildReply w) (σ'.buildReply w) := by
  unfold State.buildReply
  rw [← h.worker]
  cases (σ.worker w).plan with
  | noReply => exact h
  | sendRst => exact h.opBuildEmpty _
  | sendEmptyAck => exact h.opBuildEmpty _
  | sendResponse => exact h.buildReplyResponse

/-- In a context in form the reply is a message without options, which SERIALIZE never leaves half written (20_memory.md R68). -/
theorem Alike.workerReply (hwf : (σ.worker w).wf) : Similar p w (σ.workerReply w) (σ'.workerReply w) := by
  by_cases hphase : (σ.worker w).phase = .reply
  · have hbuilt := h.buildReply
    have himage : ((σ.buildReply w).msg (.rsp w)).IsImage ((σ.worker w).replyBytes σ.params) :=
      buildReply_isImage (hwf.planned hphase) fun hplan _ => by
        have htkl := hwf.token (.inr ⟨hphase, hplan⟩)
        obtain ⟨hlength, -⟩ := (Msg.wf_iff _).1 hwf.req
        exact ⟨htkl, by rw [hlength]; exact htkl⟩
    have hser := himage.serialize (σ.buildReply w).params.nibMax
      (cap := some ((σ.worker w).replyBytes σ.params).length) (by simp [exceeds])
    rw [workerReply_eq hphase, workerReply_eq (h.worker ▸ hphase), serializeReply_eq himage,
      serializeReply_eq (hbuilt.msg_eq (.inr rfl) ▸ himage), ← hbuilt.params]
    split_ifs
    · exact hbuilt.endWorker
    · exact (hbuilt.opSerialize (congrArg SerOut.err hser)).similar.toPhase _
  · rw [workerReply_disabled hphase, workerReply_disabled (h.worker ▸ hphase)]
    exact h.similar

theorem Alike.workerSend :
    Similar p w (σ.workerSend w) (σ'.workerSend w) ∧ SameOut σ σ' (σ.workerSend w) (σ'.workerSend w) := by
  by_cases hphase : (σ.worker w).phase = .send
  · obtain ⟨-, hserved⟩ := workerSend_sends hphase
    obtain ⟨-, hserved'⟩ := workerSend_sends (σ := σ') (h.worker ▸ hphase)
    rw [← h.worker] at hserved'
    refine ⟨?_, hserved.sameOut hserved'⟩
    unfold State.workerSend
    rw [← h.worker, if_pos hphase, if_pos hphase]
    exact (h.transmit _ _ _ _).endWorker
  · rw [workerSend_disabled hphase, workerSend_disabled (h.worker ▸ hphase)]
    exact ⟨h.similar, (Quiet.refl _).sameOut (Quiet.refl _)⟩

/-- Every step of the worker, as its command. -/
theorem Alike.command {i : Instr} {t t' : State} (hi : workerOf i = some w) (hw : σ.workerOk w = true) (hwf : (σ.worker w).wf)
    (ht : exec i σ = .next t) (ht' : exec i σ' = .next t') : Similar p w t t' ∧ SameOut σ σ' t t' := by
  have hw' : σ'.workerOk w = true := (workerOk_congr h.params.symm w).trans hw
  unfold workerOf at hi
  split at hi
  case h_7 => cases hi
  all_goals obtain rfl := Option.some.inj hi
  · obtain rfl := Host.Outcome.next.inj ((exec_wParse hw).symm.trans ht)
    obtain rfl := Host.Outcome.next.inj ((exec_wParse hw').symm.trans ht')
    exact ⟨h.workerParse, (quiet_workerParse _ _).sameOut (quiet_workerParse _ _)⟩
  · obtain rfl := Host.Outcome.next.inj ((exec_wDecide hw).symm.trans ht)
    obtain rfl := Host.Outcome.next.inj ((exec_wDecide hw').symm.trans ht')
    exact ⟨h.workerDecide, (quiet_workerDecide _ _).sameOut (quiet_workerDecide _ _)⟩
  · obtain rfl := Host.Outcome.next.inj ((exec_wCall hw).symm.trans ht)
    obtain rfl := Host.Outcome.next.inj ((exec_wCall hw').symm.trans ht')
    exact h.workerCall
  · obtain rfl := Host.Outcome.next.inj ((exec_wReturn hw _).symm.trans ht)
    obtain rfl := Host.Outcome.next.inj ((exec_wReturn hw' _).symm.trans ht')
    exact ⟨h.workerReturn _, (quiet_workerReturn _ _ _).sameOut (quiet_workerReturn _ _ _)⟩
  · obtain rfl := Host.Outcome.next.inj ((exec_wReply hw).symm.trans ht)
    obtain rfl := Host.Outcome.next.inj ((exec_wReply hw').symm.trans ht')
    exact ⟨h.workerReply hwf, (quiet_workerReply _ _).sameOut (quiet_workerReply _ _)⟩
  · obtain rfl := Host.Outcome.next.inj ((exec_wSend hw).symm.trans ht)
    obtain rfl := Host.Outcome.next.inj ((exec_wSend hw').symm.trans ht')
    exact h.workerSend

end Steps

/-- Settles O45: the two states are `Alike`, with equal free values as the condition of whole equality (`Alike.command`). -/
theorem workerStepsReadOnlyTheirOwnContext : Obligations.WorkerStepsReadOnlyTheirOwnContext := by
  intro i w σ σ' t t' hi hw hparams hpolicy hworker hwf ht ht'
  obtain ⟨hsimilar, hout⟩ := Alike.command (p := σ.draws = σ'.draws) ⟨hparams, hpolicy, hworker, id⟩ hi hw hwf ht ht'
  exact ⟨hsimilar.regs, hsimilar.rx, hsimilar.tx, hsimilar.codec, hout.calls, hout.out, hsimilar.whole⟩

end Sys2Proof.Machine
end

section
/-! SUPPORT. Errors are values (60_exceptions.md R290): the one place where the model stops lies outside the invariant, and a bad
operand ends the command in the caller's `ERR` (R287, R291). -/

namespace Sys2Proof.Machine

/-! Completion. -/

/-- XEXPIRE completes unless it would send more bytes than the retransmission buffer holds (20_memory.md R63). -/
theorem exec_xexpire_completes {x : Nat} {σ : State}
    (hcopy : (σ.exch x).expirable = true → (σ.exch x).len ≤ (σ.exch x).xbuf.len) : ∃ t, exec (.xexpire x) σ = .next t := by
  cases hx : σ.exchOk x with
  | false => exact ⟨_, if_pos hx⟩
  | true =>
    cases henabled : (σ.exch x).expirable with
    | false => exact ⟨_, exec_xexpire_disabled hx henabled⟩
    | true =>
      by_cases hleft : (σ.exch x).attempts < σ.maxAttempts
      · exact ⟨_, exec_xexpire_retry hx henabled hleft (hcopy henabled)⟩
      · exact ⟨_, exec_xexpire_last hx henabled (not_lt.1 hleft)⟩

/-- Settles O5: XEXPIRE alone has an arm that stops, and while an exchange waits its retransmission copy is whole. -/
theorem everyInstructionCompletes : Obligations.EveryInstructionCompletes := by
  intro i σ hσ
  cases i with
  | xexpire x =>
    refine exec_xexpire_completes fun henabled => ?_
    obtain ⟨hstate, -⟩ := (Exch.expirable_iff _).1 henabled
    exact ((hσ.exch x).copy hstate).le
  | _ => exact ⟨_, rfl⟩

/-! Bad operands. -/

/-- The slot of a command that checks its index and changes nothing but `ERR` when it is bad (R287). -/
def slotOf : Instr → Option Nat
  | .init s | .serialize s _ _ | .addOption s _ _ | .free s => some s
  | .setKind s _ | .setCode s _ | .setMid s _ | .setToken s _ | .setPayload s _ | .clearPayload s => some s
  | .codeEmpty s | .codeGet s | .codePost s | .codePut s | .codeDelete s | .codeCreated s | .codeDeleted s
  | .codeChanged s | .codeContent s | .codeBadRequest s | .codeNotFound s | .codeInternalError s | .codeOther _ _ s => some s
  | .optMarker d _ | .optRsvdDelta _ d _ | .optRsvdLen _ d _ | .optEntry _ _ d _ => some d
  | _ => none

section BadOperand
variable {σ : State}

/-- A command whose check of its index fails: of a slot or of a worker (R287). -/
theorem guarded_refused {c : Bool} (hc : c = false) (u : State) :
    (.next (if c then u else σ.raise .caller .invalid) : Host.Outcome State Fault Refusal) =
      .next (σ.raise .caller .invalid) := congrArg Host.Outcome.next (if_neg (Bool.eq_false_iff.1 hc))

theorem optRound_noSlot {d : Nat} (hd : σ.slotOk d = false) (b : Byte) (rest : List Byte) :
    σ.optRound d b rest = σ.raise .caller .invalid := if_pos (.inl hd)

theorem exec_noSlot {i : Instr} {s : Nat} (hi : slotOf i = some s) (hs : σ.slotOk s = false) :
    exec i σ = .next (σ.raise .caller .invalid) := by
  cases i with
  | init | serialize | addOption | free | setKind | setCode | setMid | setToken | setPayload | clearPayload
  | codeEmpty | codeGet | codePost | codePut | codeDelete | codeCreated | codeDeleted | codeChanged | codeContent
  | codeBadRequest | codeNotFound | codeInternalError | codeOther =>
    obtain rfl := Option.some.inj hi
    exact guarded_refused hs _
  | optMarker | optRsvdDelta | optRsvdLen | optEntry =>
    obtain rfl := Option.some.inj hi
    exact congrArg Host.Outcome.next (optRound_noSlot hs _ _)
  | _ => cases hi

/-- A missing buffer is Invalid at a slot (41_serialize.md R161) and at none. -/
theorem exec_serialize_missing (s cap : Nat) : exec (.serialize s .missing cap) σ = .next (σ.raise .caller .invalid) :=
  congrArg Host.Outcome.next (ite_self _)

theorem exec_noExch {x s : Nat} (hx : σ.exchOk x = false) (peer : PeerAddr) (datagram : List Byte) :
    ∀ i ∈ [Instr.xsend x s peer, .xexpire x, .xrecv x datagram], exec i σ = .next (σ.raise .caller .invalid) := by
  simp only [List.forall_mem_cons, List.not_mem_nil, false_implies, implies_true, and_true]
  exact ⟨congrArg Host.Outcome.next (if_pos hx), if_pos hx, congrArg Host.Outcome.next (if_pos hx)⟩

theorem exec_noWorker {i : Instr} {w : Nat} (hi : workerOf i = some w) (hw : σ.workerOk w = false) :
    exec i σ = .next (σ.raise .caller .invalid) := by
  cases i with
  | wParse | wDecide | wCall | wReturn | wReply | wSend =>
    obtain rfl := Option.some.inj hi
    exact guarded_refused hw _
  | _ => cases hi

end BadOperand

/-- Settles O21: each of the five forms is the same raise, which writes the caller's `ERR` and result alone. -/
theorem badOperandsAreInvalid : Obligations.BadOperandsAreInvalid := by
  intro σ s b cap x w kind code v value target peer result cls detail op delta length i hi
  have hraise : exec i σ = .next (σ.raise .caller .invalid) := by
    rcases hi with ⟨hs, hi⟩ | rfl | ⟨hx, hi⟩ | ⟨hw, hi⟩ | rfl
    · refine exec_noSlot ?_ hs
      revert i
      simp [slotOf]
    · exact exec_serialize_missing s cap
    · exact exec_noExch hx peer value i hi
    · refine exec_noWorker ?_ hw
      revert i
      simp [workerOf]
    · rfl
  exact ⟨_, hraise, raise_caller_ends σ .invalid⟩

end Sys2Proof.Machine
end

section
/-! SUPPORT. What a step answers, by the port and by the decoded record (70_reset_and_hazards.md R321, 30_encoding.md R112). -/

namespace Sys2Proof.Machine

section Step
variable {σ : State}

/-- The idle block changes nothing (R321). -/
theorem step_of_port_nil (hport : σ.port = []) : step σ = .next σ := by
  simp only [step, hport]

variable {r : Record} {rest : List Record} (hport : σ.port = r :: rest)
include hport

/-- The record is consumed before its instruction runs, so the instruction sees the rest of the port. -/
theorem step_of_decode_ok {i : Instr} (hdecode : decode r = .ok i) : step σ = exec i { σ with port := rest } := by
  simp only [step, hport, hdecode]

/-- A record that is no instruction stops the block, with the decoder's own error as the reason (R112). -/
theorem step_of_decode_error {e : DecodeError} (hdecode : decode r = .error e) : step σ = .refused (.badRecord e) := by
  simp only [step, hport, hdecode]

end Step

/-- Settles O1, by the three answers of a step: no record, one that decodes, one that does not. -/
theorem stepRunsTheDecodedRecord : Obligations.StepRunsTheDecodedRecord :=
  ⟨fun _ => step_of_port_nil, fun _ _ _ hport =>
    ⟨fun _ => step_of_decode_ok hport, fun _ => step_of_decode_error hport⟩⟩

end Sys2Proof.Machine
end
